-- ==== Sys2Proof/Word.lean ====
section
/-! DEFINITION. The words the interposer handles and the names of their widths
(00_scope "Words, bits and addresses", "Road Clock and time comparison"). -/

namespace Sys2Proof

/-- A word is 32 bits. -/
abbrev Word := BitVec 32

/-- The smallest addressable unit: addresses are byte addresses. -/
abbrev Byte := BitVec 8

/-- A Road Clock time: a 32-bit count of milliseconds. -/
abbrev Time := BitVec 32

/-- A 24-bit address, logical or physical: 16 MiB. -/
abbrev Addr := BitVec 24

end Sys2Proof
end

