-- ==== Sys2Proof/Syntax.lean ====
section
/-! DEFINITION. The commands of the interposer: one constructor per row of spec/opcode_table.json,
with the operands that the row's rule gives it. -/

namespace Sys2Proof

/-- The eight bus masters, 0-7 (00_scope "Masters and lanes"). -/
abbrev Master := Fin 8

/-- The six lanes, 0-5. -/
abbrev Lane := Fin 6

/-- The sixteen phantom numbers, 0-15 (R97). -/
abbrev Phantom := Fin 16

/-- A vehicle number, 0-65535 (Table 5-1). -/
abbrev VehicleNumber := BitVec 16

/-- The two approaches; also the direction of crossing. -/
inductive Approach where
  | A
  | B
  deriving DecidableEq, Repr

/-- The direction of a transaction; a WRITE carries its data word (1.1). -/
inductive Access where
  | read
  | write (data : Word)
  deriving DecidableEq, Repr

/-- A straddle field: LEFT names the lane with the next lower number, RIGHT the next higher. -/
inductive Straddle where
  | none
  | left
  | right
  deriving DecidableEq, Repr

/-- The loop of a passage. -/
inductive Loop where
  | spanEntry
  | spanExit
  | divertExit
  deriving DecidableEq, Repr

/-- The health of a heartbeat. -/
inductive Health where
  | healthy
  | degraded
  deriving DecidableEq, Repr

/-- The fields of an AXLE record (Tables 3-3 and 11-2). -/
structure AxleRecord where
  sequence : BitVec 8
  age : BitVec 8
  left : BitVec 16
  right : BitVec 16
  spacing : BitVec 16
  speed : BitVec 12
  straddle : Straddle
  quality : BitVec 2
  deriving DecidableEq, Repr

/-- The fields of a PASSAGE record. -/
structure PassageRecord where
  sequence : BitVec 8
  age : BitVec 8
  loop : Loop
  length : BitVec 8
  speed : BitVec 12
  deriving DecidableEq, Repr

/-- The fields of a HEARTBEAT record. -/
structure HeartbeatRecord where
  sequence : BitVec 8
  age : BitVec 8
  health : Health
  deriving DecidableEq, Repr

/-- The fields of a LANE_FAULT record. -/
structure LaneFaultRecord where
  sequence : BitVec 8
  age : BitVec 8
  code : BitVec 8
  deriving DecidableEq, Repr

/-- The operands of PUSH_RESTRICTION as they stand in words 1 and 2 (Table 11-3): each optional
field with its presence mark. -/
structure PushOperands where
  origin : BitVec 8
  spanLoadPresent : Bool
  heavyPresent : Bool
  grossPresent : Bool
  closedPresent : Bool
  spanLoad : BitVec 20
  heavy : BitVec 4
  closed : BitVec 3
  gross : BitVec 20
  deriving DecidableEq, Repr

/-- The commands. A row that stands for a capture record gives the lane and the byte offset of the
record's slot; a row that stands for a command record gives the master that wrote it and its tag;
an expiry gives the lane, vehicle, phantom or approach whose expiry it is. -/
inductive Instr where
  /-- TRANSACTION (R1): a master's word access appears on its bus. -/
  | transaction (master : Master) (address : Addr) (access : Access)
  /-- FORWARDED_CYCLE_DONE (R5): the forwarded access in the memory cycle completes. -/
  | forwardedCycleDone
  /-- REGION_READ_DONE (R25): the Walk Engine's region entry read completes. -/
  | regionReadDone
  /-- PAGE_READ_DONE (R26): the Walk Engine's page entry read completes. -/
  | pageReadDone
  /-- JOURNAL_WORD_DONE (R170): a journal word's write completes. -/
  | journalWordDone
  /-- SOURCE_WORD_DONE (R175): a profile source word's read completes. -/
  | sourceWordDone
  /-- PROGRAMMING_DONE (R175): programming completes. -/
  | programmingDone
  /-- ERASING_DONE (R176): erasing completes. -/
  | erasingDone
  /-- SWEEP_STEP (R31): an internal step period of a running sweep ends. -/
  | sweepStep
  /-- AXLE (R47): an AXLE record of a lane, complete and past its checks. -/
  | axle (lane : Lane) (slot : BitVec 12) (record : AxleRecord)
  /-- PASSAGE (R48): a PASSAGE record of a lane, complete and past its checks. -/
  | passage (lane : Lane) (slot : BitVec 12) (record : PassageRecord)
  /-- HEARTBEAT (R51): a HEARTBEAT record of a lane, complete and past its checks. -/
  | heartbeat (lane : Lane) (slot : BitVec 12) (record : HeartbeatRecord)
  /-- LANE_FAULT (R50): a LANE_FAULT record of a lane, complete and past its checks. -/
  | laneFault (lane : Lane) (slot : BitVec 12) (record : LaneFaultRecord)
  /-- CLOSE_TIME (R69): a lane's open vehicle reaches its close time. -/
  | closeTime (lane : Lane)
  /-- HOLD_EXPIRY (R76): a lane's straddle slot reaches its hold expiry. -/
  | holdExpiry (lane : Lane)
  /-- DECISION_DEADLINE (R87): a record's D is reached. -/
  | decisionDeadline (vehicle : VehicleNumber)
  /-- E1_REACHED (R88): a record's E1 is reached. -/
  | e1Reached (vehicle : VehicleNumber)
  /-- V1_REACHED (R89): a record's V1 is reached. -/
  | v1Reached (vehicle : VehicleNumber)
  /-- T_REACHED (R90): a record's T is reached. -/
  | tReached (vehicle : VehicleNumber)
  /-- PHANTOM_END_TIME (R98): a phantom's end time is reached. -/
  | phantomEndTime (phantom : Phantom)
  /-- DIRECTIVE_POP (R149): the DU takes a master's READ at offset 0 of an approach's window. -/
  | directivePop (master : Master) (approach : Approach)
  /-- BEACON_HOLD_EXPIRY (R156): an approach's beacon hold expires. -/
  | beaconHoldExpiry (approach : Approach)
  /-- FAULT_POP (R167): the CSU takes a master's READ at status offset 68. -/
  | faultPop (master : Master)
  /-- START (R179). -/
  | start (master : Master) (tag : BitVec 8)
  /-- STOP (R180). -/
  | stop (master : Master) (tag : BitVec 8)
  /-- ENTER_BYPASS (R181). -/
  | enterBypass (master : Master) (tag : BitVec 8)
  /-- APPLY_PROFILE (R178). -/
  | applyProfile (master : Master) (tag : BitVec 8)
  /-- PROFILE_PROGRAM (R174). -/
  | profileProgram (master : Master) (tag page startWord count : BitVec 8) (source : Addr)
  /-- PROFILE_ERASE (R176). -/
  | profileErase (master : Master) (tag page : BitVec 8)
  /-- INVALIDATE_AREA (R30): an area 0-7, or 0xFF for ALL. -/
  | invalidateArea (master : Master) (tag area : BitVec 8)
  /-- PUSH_RESTRICTION (R135). -/
  | pushRestriction (master : Master) (tag : BitVec 8) (operands : PushOperands)
  /-- POP_RESTRICTION (R136): an origin code 0x000-0x0FF, or 0x100 for ANY. -/
  | popRestriction (master : Master) (tag : BitVec 8) (expected : BitVec 9)
  /-- CLEAR_VEHICLE (R102). -/
  | clearVehicle (master : Master) (tag : BitVec 8) (vehicle : VehicleNumber)
  /-- CLEAR_PHANTOMS (R103): approach 0 for A, 1 for B. -/
  | clearPhantoms (master : Master) (tag approach : BitVec 8)
  /-- LANE_DISABLE (R57). -/
  | laneDisable (master : Master) (tag lane : BitVec 8)
  /-- LANE_ENABLE (R58). -/
  | laneEnable (master : Master) (tag lane : BitVec 8)
  /-- LANE_RECOVER (R59). -/
  | laneRecover (master : Master) (tag lane : BitVec 8)
  /-- CLEAR_EVENTS (R163): the set of flags to clear. -/
  | clearEvents (master : Master) (tag : BitVec 8) (flags : BitVec 13)
  /-- SET_EVENT_ENABLES (R163): the set of flags to enable. -/
  | setEventEnables (master : Master) (tag : BitVec 8) (flags : BitVec 13)
  /-- CLEAR_FAULTS (R168). -/
  | clearFaults (master : Master) (tag : BitVec 8)
  /-- SILENCE_EXPIRY (R54): a lane's silence expiry is reached. -/
  | silenceExpiry (lane : Lane)
  /-- PULSE_END (R55): a lane's pulse end is reached. -/
  | pulseEnd (lane : Lane)
  /-- SETTLE_EXPIRY (R179): the settle expiry is reached. -/
  | settleExpiry
  /-- ROAD_CLOCK_TICK (R172): the prescaler count reaches its divisor. -/
  | roadClockTick
  /-- POWER_ON (R182): supply first rises. -/
  | powerOn
  /-- RESET_PIN (R182): RST_N goes low. -/
  | resetPin
  /-- SUPPLY_LOW (R183): the supply falls below the reset threshold. -/
  | supplyLow
  /-- RESET_CAUSE_ENDS (R182): no cause holds any more and start-up runs its steps 1 to 4, with the
  supply and BYPSTRAP as it samples them. -/
  | resetCauseEnds (supplyBelowWarning bypassStrap : Bool)
  /-- END_OF_START_UP (R182). -/
  | endOfStartUp
  /-- SUPPLY_WARNING (R183): the supply falls below the warning threshold. -/
  | supplyWarning
  /-- SUPPLY_WARNING_END (R183): the supply rises above the threshold plus hysteresis. -/
  | supplyWarningEnd
  deriving DecidableEq, Repr

end Sys2Proof
end

