-- ==== Sys2Proof/Decode.lean ====
section
/-! DEFINITION. The commands that a word spells by the bits of spec/opcode_table.json. No row of the
table gives bits ("fields" is empty on all 51 and "fixed" stands on none), so no word spells one.
The words that masters write for the interposer are decoded in Machine/Operands.lean. -/

namespace Sys2Proof

/-- The command that the `nbits` bits of `w` spell by the table: none, for every word. -/
def decodeTableWord (_nbits _w : Nat) : Option Instr := none

end Sys2Proof
end

