-- ==== Sys2Proof/Config.lean ====
section
/-! DEFINITION. What an implementation fixes, and the free values: what the manual leaves open. -/

namespace Sys2Proof

/-- FREE VALUE (R177). Whether a word of a store operation cut off by a reset has landed on its new
value. "Each target word lands on one of the two independently of the others": nothing constrains
it. It is applied to `Supervisor.freeCount`, which every cut-off word takes anew (log 21). -/
opaque cutOffLands : Nat → Bool

/-- The divisor that start-up takes when stored page 3 is failed (R172). -/
def defaultDivisor : Nat := 10000

/-- What a byte of record memory that nothing has written reads as. DESIGN CHOICE (log 1): the spec
does not give the contents of record memory at power-on. -/
def unwrittenByte : Byte := 0

end Sys2Proof
end

