-- ==== Sys2Proof/Machine/State.lean ====
section
/-! DEFINITION. The state of the interposer: everything the spec gives the part, as plain data, and
the state right after reset. Rule numbers are those of spec/. -/

namespace Sys2Proof.Machine

/-! ## Names -/

/-- The part mode (Table 10-1). -/
inductive Mode where
  | startUp
  | bypass
  | service
  | active
  deriving DecidableEq, Repr

/-- The window kinds (Table 0-1). -/
inductive WindowKind where
  | plain
  | capture
  | command
  | status
  | directive
  deriving DecidableEq, Repr

/-- The two ways of a Translation Buffer set. -/
inductive Way where
  | A
  | B
  deriving DecidableEq, Repr

/-- The lane states (Table 3-4). -/
inductive LaneState where
  | unused
  | disabled
  | offline
  | live
  | degraded
  | faulted
  | silent
  | restarting
  deriving DecidableEq, Repr

/-- The group kinds (R77). -/
inductive GroupKind where
  | single
  | tandem
  | tridem
  | multi
  deriving DecidableEq, Repr

/-- The reason codes, shared by directive, status and journal words (11.4). -/
inductive Reason where
  | none
  | settling
  | closed
  | unreliable
  | overlong
  | overweightGroup
  | overweightGross
  | spanFull
  | revoked
  | tableFull
  | service
  | overload
  | spanLock
  | supply
  | laneDown
  deriving DecidableEq, Repr

/-- The event flags, in flag-set order (11.3). -/
inductive Flag where
  | lane
  | overload
  | spanLock
  | defied
  | unmatched
  | overdue
  | unwarned
  | tableFull
  | directiveOverflow
  | fault
  | journalLost
  | longOpDone
  | supplyWarn
  deriving DecidableEq, Repr

/-- The fault kinds (Table 11-5). -/
inductive FaultKind where
  | misaligned
  | permission
  | crossLane
  | tableMiss
  | tableFault
  | entryCheck
  | windowWrite
  | windowOffset
  | framing
  | malformed
  | sequenceGap
  | misdirected
  deriving DecidableEq, Repr

/-- The command results (R161). -/
inductive Result where
  | done
  | started
  | busy
  | wrongMode
  | badOperand
  | isProtected
  | stackFull
  | stackEmpty
  | looser
  | notFound
  deriving DecidableEq, Repr

/-- The reset causes (R182). -/
inductive ResetCause where
  | powerOn
  | supplyLow
  | resetPin
  deriving DecidableEq, Repr

/-- The supply state (R183). -/
inductive Supply where
  | normal
  | warning
  deriving DecidableEq, Repr

/-- One item for each approach. -/
structure PerApproach (α : Type) where
  a : α
  b : α
  deriving DecidableEq, Repr

/-! ## System Port and Memory Port (Chapter 1) -/

/-- A word access by one master (1.1); the master is the slot's or the bus's own. -/
structure Transaction where
  address : Addr
  access : Access
  deriving DecidableEq, Repr

/-- Where a transaction in TRANSLATING is with the PTU (Table 1-1). `toHand` and `looking` are the
places inside one event: about to be handed to R19 or R13, and being classified. -/
inductive PtuPlace where
  | toHand
  | looking
  | queued
  | walking
  | sweepWait
  deriving DecidableEq, Repr

/-- A transaction slot (Table 1-1). In MEMORY it keeps the physical address and kind it was given
(R3). -/
inductive Slot where
  | free
  | held (t : Transaction)
  | translating (t : Transaction) (stage : PtuPlace)
  | memory (t : Transaction) (physical : Addr) (kind : WindowKind)
  deriving DecidableEq, Repr

/-- An answer given on the bus (R4): OKAY or REFUSED, and the data lines. -/
structure Answer where
  master : Master
  okay : Bool
  data : Word
  deriving DecidableEq, Repr

/-- The memory cycle under way and the requester it is for (Table 1-3). A walk or journal cycle
marked `discarded` completes with no hand-over (R36, R171). -/
inductive Cycle where
  | walkRegion (address : Addr) (discarded : Bool)
  | walkPage (address : Addr) (discarded : Bool)
  | forward (master : Master)
  | journal (address : Addr) (data : Word) (discarded : Bool)
  | source (address : Addr)
  deriving DecidableEq, Repr

/-- The cycle state (Table 1-4). `handing` stands only inside the event of a completion, while the
result is handed back and before that event's grant (R9). -/
inductive CycleState where
  | idle
  | busy (c : Cycle)
  | handing
  deriving DecidableEq, Repr

/-- The Memory Port (Table 1-4). -/
structure MemoryPort where
  cycle : CycleState
  pointer : Master
  waitCount : Nat
  deriving DecidableEq, Repr

/-! ## Page Translation Unit (Chapter 2) -/

/-- A Translation Buffer entry (Table 2-1). -/
structure Entry where
  valid : Bool
  tag : BitVec 8
  readPermit : Bool
  writePermit : Bool
  kind : WindowKind
  channel : BitVec 3
  page : BitVec 12
  check : BitVec 28
  deriving DecidableEq, Repr

/-- A set: two ways and a replacement toggle. -/
structure BufferSet where
  wayA : Entry
  wayB : Entry
  toggle : Way
  deriving DecidableEq, Repr

/-- What a page table word gives (Table 11-1), as R26 accepts it. -/
structure WalkedEntry where
  readPermit : Bool
  writePermit : Bool
  kind : WindowKind
  channel : BitVec 3
  page : BitVec 12
  deriving DecidableEq, Repr

/-- The walk in progress: the walking master, the parameters copied at its beginning and the two
walk marks (Table 2-3). -/
structure Walk where
  master : Master
  base : BitVec 12
  memoryPages : Nat
  areaSwept : Bool
  profileApplied : Bool
  deriving DecidableEq, Repr

/-- The engine state; PAGE also knows the page table the region entry named (R25). -/
inductive Engine where
  | idle
  | region (w : Walk)
  | page (w : Walk) (tablePage : BitVec 12)
  deriving DecidableEq, Repr

/-- A sweep's target. -/
inductive SweepTarget where
  | area (m : Master)
  | all
  deriving DecidableEq, Repr

/-- A sweep's outcome. -/
inductive SweepOutcome where
  | none
  | done
  | superseded
  deriving DecidableEq, Repr

/-- The next set to be invalidated. -/
structure SweepPosition where
  area : Master
  index : Fin 16
  deriving DecidableEq, Repr

/-- The Sweep (Table 2-4); it runs exactly while it has a position. -/
structure Sweep where
  running : Bool
  target : Option SweepTarget
  position : Option SweepPosition
  outcome : SweepOutcome
  deriving DecidableEq, Repr

/-- The Page Translation Unit. -/
structure Ptu where
  buffer : Vector (Vector BufferSet 16) 8
  engine : Engine
  queue : List Master
  sweep : Sweep
  deriving DecidableEq, Repr

/-! ## Capture Unit (Chapter 3) -/

/-- The framing of four-word records (R40, R41, R159): the expected word index is the number of held
words, and the partial slot is present while it is 1-3. -/
inductive Framing where
  | empty
  | one (slot : BitVec 12) (w0 : Word)
  | two (slot : BitVec 12) (w0 w1 : Word)
  | three (slot : BitVec 12) (w0 w1 w2 : Word)
  deriving DecidableEq, Repr

/-- The per-lane state of the Capture Unit (Table 3-1). -/
structure LaneUnit where
  state : LaneState
  framing : Framing
  prevSeq : Option (BitVec 8)
  silence : Option Time
  restartCount : Nat
  pulseEnd : Option Time
  disablePending : Bool
  faultCode : Option (BitVec 8)
  lineLow : Bool
  deriving DecidableEq, Repr

/-! ## Vehicle Assembler (Chapter 4) -/

/-- An axle as the CU hands it to the VA (R47). -/
structure Axle where
  lane : Lane
  left : Nat
  right : Nat
  speed : Nat
  spacing : Nat
  straddle : Straddle
  quality : BitVec 2
  eventTime : Time
  aged : Bool
  laneState : LaneState
  deriving DecidableEq, Repr

/-- An axle, or a merged axle, as it goes to the join (R65), with the marks it applies (R67). -/
structure JoinAxle where
  load : Nat
  spacing : Nat
  speed : Nat
  eventTime : Time
  isPartial : Bool
  suspect : Bool
  degraded : Bool
  straddled : Bool
  deriving DecidableEq, Repr

/-- A stored axle: its load (LU) and spacing (cm). -/
structure StoredAxle where
  load : Nat
  spacing : Nat
  deriving DecidableEq, Repr

/-- An open vehicle (Table 4-1). -/
structure OpenVehicle where
  approach : Approach
  axles : List StoredAxle
  speeds : List Nat
  axleCount : Nat
  gross : Nat
  spacingSum : Nat
  isPartial : Bool
  overlong : Bool
  suspect : Bool
  straddled : Bool
  degradedAxle : Bool
  lastEvent : Time
  closeTime : Time
  deriving DecidableEq, Repr

/-- A straddle slot that holds an axle (Table 4-2). -/
structure HeldAxle where
  axle : Axle
  suspect : Bool
  expiry : Time
  deriving DecidableEq, Repr

/-- The Vehicle Assembler: per lane an open vehicle and a straddle slot. -/
structure Assembler where
  opened : Vector (Option OpenVehicle) 6
  straddle : Vector (Option HeldAxle) 6
  deriving DecidableEq, Repr

/-! ## Vehicle Tracker (Chapter 5) -/

/-- An axle group (R77). -/
structure Group where
  kind : GroupKind
  load : Nat
  deriving DecidableEq, Repr

/-- The vehicle flags (Table 5-1). -/
structure VehicleFlags where
  isPartial : Bool
  overlong : Bool
  suspect : Bool
  incomplete : Bool
  straddled : Bool
  unreliable : Bool
  late : Bool
  unwarned : Bool
  unreserved : Bool
  deriving DecidableEq, Repr

/-- A closed vehicle as the VA hands it to the AU (Table 4-5). -/
structure ClosedVehicle where
  approach : Approach
  lane : Lane
  laneState : LaneState
  axles : List StoredAxle
  axleCount : Nat
  groups : List Group
  gross : Nat
  speed : Nat
  length : Nat
  flags : VehicleFlags
  weighTime : Time
  deriving DecidableEq, Repr

/-- The vehicle states (Table 5-3). -/
inductive VehicleState where
  | held
  | admitted
  | committed
  | onSpan
  | overdue
  | missing
  | diverted
  | divertUnconfirmed
  deriving DecidableEq, Repr

/-- A verdict: ADMIT, or DIVERT with its reason. -/
inductive Verdict where
  | admitted
  | divert (reason : Reason)
  deriving DecidableEq, Repr

/-- The computed times of a vehicle (Table 5-2). -/
structure VehicleTimes where
  d : Time
  e0 : Time
  e1 : Time
  v0 : Time
  v1 : Time
  s : Time
  t : Time
  deriving DecidableEq, Repr

/-- The expiries of a record that an earlier value of the Road Clock reached: once reached, an expiry
stays reached while its time is unchanged (R86). -/
structure Expiries where
  d : Bool
  e1 : Bool
  v1 : Bool
  t : Bool
  deriving DecidableEq, Repr

/-- A vehicle record (Table 5-1), with the marks of its expiries (R86). Its reservation is the one
that names it as owner ("one per owner", Table 0-3), so the reference is the mark that it holds one. -/
structure VehicleRecord where
  number : VehicleNumber
  approach : Approach
  lane : Lane
  state : VehicleState
  axles : List StoredAxle
  axleCount : Nat
  groups : List Group
  gross : Nat
  speed : Nat
  length : Nat
  flags : VehicleFlags
  weighTime : Time
  times : VehicleTimes
  past : Expiries
  verdict : Option Verdict
  reserved : Bool
  delivery : Option Time
  entryTime : Option Time
  stamp : Option (BitVec 32)
  deriving DecidableEq, Repr

/-- An occupant of a Span Occupant Queue (Table 5-5). `reserved` false is UNRESERVED. -/
inductive Occupant where
  | vehicle (number : VehicleNumber) (entry : Time) (reserved : Bool)
  | phantom (number : Phantom) (entry : Time) (reserved : Bool) (endTime : Time) (overdue : Bool)
  deriving DecidableEq, Repr

/-- The Vehicle Tracker. -/
structure Tracker where
  table : List VehicleRecord
  nextNumber : VehicleNumber
  occupants : PerApproach (List Occupant)
  deriving DecidableEq, Repr

/-! ## Admission Unit (Chapter 6) -/

/-- The owner of a reservation. -/
inductive Owner where
  | vehicle (number : VehicleNumber)
  | phantom (number : Phantom)
  deriving DecidableEq, Repr

/-- The kinds of reservation (Table 6-2). -/
inductive ReservationKind where
  | normal
  | forced
  | phantom
  deriving DecidableEq, Repr

/-- A reservation (Table 6-2); an absent end is OPEN. -/
structure Reservation where
  owner : Owner
  kind : ReservationKind
  approach : Approach
  load : Nat
  start : Time
  finish : Option Time
  deriving DecidableEq, Repr

/-- The Admission Unit (Table 6-1). -/
structure Admission where
  reservations : List Reservation
  held : List VehicleNumber
  alarm : Bool
  lock : Bool
  counter : BitVec 32
  light : PerApproach (BitVec 16)
  occupants : PerApproach Nat
  unreserved : Nat
  deriving DecidableEq, Repr

/-! ## Restriction Unit (Chapter 7) -/

/-- A restriction entry (Table 7-1); the closed approaches as a pair of marks. -/
structure Restriction where
  origin : BitVec 8
  spanLoad : Option Nat
  heavy : Option Nat
  gross : Option Nat
  closed : Option (PerApproach Bool)
  deriving DecidableEq, Repr

/-- The Restriction Unit: the stack, its top first. -/
structure Restrictions where
  stack : List Restriction
  deriving DecidableEq, Repr

/-! ## Directive Unit (Chapter 8) -/

/-- The kinds of directive (Table 8-2). -/
inductive DirectiveKind where
  | proceed
  | divert
  | standingOn
  | standingOff
  deriving DecidableEq, Repr

/-- A queue entry (Table 8-2). The first seven fields are the directive record. -/
structure Directive where
  kind : DirectiveKind
  lane : Lane
  stale : Bool
  reason : Reason
  vehicle : VehicleNumber
  gross : BitVec 16
  deadline : BitVec 16
  fullDeadline : Option Time
  tracked : Bool
  deriving DecidableEq, Repr

/-- The standing state of a lane. -/
inductive Standing where
  | absent
  | off
  | on
  deriving DecidableEq, Repr

/-- The DU's per-lane state (Table 8-1). -/
structure StandingLane where
  state : Standing
  reason : Option Reason
  resend : Bool
  deriving DecidableEq, Repr

/-- The beacon states (R154). -/
inductive Beacon where
  | dark
  | pulse
  | steady
  deriving DecidableEq, Repr

/-- A running beacon hold (R156). -/
structure BeaconHold where
  start : Time
  expiry : Time
  deriving DecidableEq, Repr

/-- The DU's own record of each input to Table 8-3 (R152). -/
structure DirectiveInputs where
  mode : Mode
  settling : Bool
  alarm : Bool
  lock : Bool
  supplyWarning : Bool
  closed : PerApproach Bool
  lanes : Vector LaneState 6
  deriving DecidableEq, Repr

/-- The Directive Unit (Table 8-1). -/
structure DirectiveUnit where
  queues : PerApproach (List Directive)
  overflow : PerApproach Bool
  lastPopped : PerApproach (Option Directive)
  lanes : Vector StandingLane 6
  beacon : PerApproach Beacon
  hold : PerApproach (Option BeaconHold)
  inputs : DirectiveInputs
  deriving DecidableEq, Repr

/-! ## Command and Status Unit (Chapter 9) -/

/-- The last result (Table 9-1). -/
structure LastResult where
  master : Master
  tag : BitVec 8
  code : BitVec 8
  result : Result
  deriving DecidableEq, Repr

/-- The subject of a fault record (Table 9-5). -/
inductive FaultSubject where
  | master (m : Master)
  | lane (l : Lane)
  deriving DecidableEq, Repr

/-- A fault record: its place is a logical address, or a slot's byte offset (Table 11-5). -/
structure FaultRecord where
  kind : FaultKind
  subject : FaultSubject
  clock16 : BitVec 16
  location : Addr
  deriving DecidableEq, Repr

/-- A journal record in the Journal Writer queue: its eight words and its next word to write. -/
structure JournalEntry where
  words : Vector Word 8
  next : Fin 8
  deriving DecidableEq, Repr

/-- The Command and Status Unit (Table 9-1). -/
structure CommandStatus where
  framing : Vector Framing 8
  lastResult : Option LastResult
  flags : BitVec 13
  enables : BitVec 13
  faultLog : List FaultRecord
  overrun : Bool
  holding : Option FaultRecord
  journal : List JournalEntry
  writeIndex : BitVec 12
  wrapCount : BitVec 16
  deriving DecidableEq, Repr

/-! ## Supervisor Unit (Chapter 10) -/

/-- A page of sixteen words and the five pages of a profile (10.2). -/
abbrev Page := Vector Word 16
abbrev Pages := Vector Page 5

/-- How far a reset and the start-up after it have come (R182). -/
inductive StartUp where
  /-- A reset cause still holds: start-up does not proceed. -/
  | causeHolds
  /-- Steps 1 to 4 are done and the mode is chosen; start-up has not ended. -/
  | chosen (mode : Mode)
  /-- Start-up has ended. -/
  | over
  deriving DecidableEq, Repr

/-- The program buffer of a PROFILE_PROGRAM (Table 10-1). -/
structure ProgramBuffer where
  page : Fin 5
  startWord : Fin 16
  count : Nat
  source : Addr
  words : List Word
  deriving DecidableEq, Repr

/-- The store state with the program buffer it works on; ERASING uses its page alone (R176). -/
inductive StoreState where
  | idle
  | reading (b : ProgramBuffer)
  | programming (b : ProgramBuffer)
  | erasing (page : Fin 5)
  deriving DecidableEq, Repr

/-- The store outcome. -/
inductive StoreOutcome where
  | none
  | programmed (page : Fin 5)
  | erased (page : Fin 5)
  deriving DecidableEq, Repr

/-- The Supervisor Unit (Table 10-1), the LIMLOCK pin, and the model's own counter of free
values. -/
structure Supervisor where
  mode : Mode
  startUp : StartUp
  settleExpiry : Option Time
  clock : Time
  divisor : Nat
  count : Nat
  cause : ResetCause
  supply : Supply
  active : Option Pages
  store : Pages
  storeState : StoreState
  validity : Vector Bool 5
  outcome : StoreOutcome
  limlock : Bool
  freeCount : Nat
  deriving DecidableEq, Repr

/-! ## The whole machine -/

/-- The blocks that work on vehicles, commands and profiles. They reach memory and the bus through
the ports alone. -/
structure Blocks where
  lanes : Vector LaneUnit 6
  va : Assembler
  vt : Tracker
  au : Admission
  ru : Restrictions
  du : DirectiveUnit
  csu : CommandStatus
  su : Supervisor
  deriving DecidableEq, Repr

/-- The state of the interposer and of record memory, and the commands that are waiting. -/
structure State where
  slots : Vector Slot 8
  bus : Vector (List Transaction) 8
  answers : List Answer
  mp : MemoryPort
  mem : List Host.Cell
  ptu : Ptu
  blocks : Blocks
  pending : List Instr
  deriving DecidableEq, Repr

/-! ## The outcomes that stop a step -/

/-- Why a step stops with a fault. The spec names no condition in which the interposer stops: a
misaligned, forbidden or untranslatable access is answered REFUSED and recorded, and the part goes
on (R2, R4). So no command raises a fault, and there is no constructor (log 28). Safe. -/
inductive Fault where
  deriving DecidableEq, Repr

/-- Why a step is refused. -/
inductive Refusal where
  /-- Raised by exec's arm of a row that has no meaning yet. Safe: nothing is claimed of the row. -/
  | notModelled (mnemonic : String)
  deriving DecidableEq, Repr

/-! ## Reset values -/

/-- An entry whose fields have no effect (R17): invalid. -/
def Entry.invalid : Entry :=
  { valid := false, tag := 0, readPermit := false, writePermit := false, kind := .plain,
    channel := 0, page := 0, check := 0 }

/-- A set as every clearing leaves it: both ways invalid and the toggle at way A (R17). -/
def BufferSet.cleared : BufferSet := { wayA := .invalid, wayB := .invalid, toggle := .A }

/-- The PTU after reset (Tables 2-3 and 2-4, R37). -/
def Ptu.reset : Ptu :=
  { buffer := Vector.replicate 8 (Vector.replicate 16 BufferSet.cleared)
    engine := .idle
    queue := []
    sweep := { running := false, target := none, position := none, outcome := .none } }

/-- The MP after reset (Table 1-4). -/
def MemoryPort.reset : MemoryPort := { cycle := .idle, pointer := 7, waitCount := 0 }

/-- A lane after reset (R38). -/
def LaneUnit.reset : LaneUnit :=
  { state := .unused, framing := .empty, prevSeq := none, silence := none, restartCount := 0,
    pulseEnd := none, disablePending := false, faultCode := none, lineLow := false }

/-- The VA after reset (R62). -/
def Assembler.reset : Assembler :=
  { opened := Vector.replicate 6 none, straddle := Vector.replicate 6 none }

/-- The VT after reset (R81, R93). -/
def Tracker.reset : Tracker := { table := [], nextNumber := 0, occupants := ⟨[], []⟩ }

/-- The AU after reset (Table 6-1). -/
def Admission.reset : Admission :=
  { reservations := [], held := [], alarm := false, lock := false, counter := 0, light := ⟨0, 0⟩,
    occupants := ⟨0, 0⟩, unreserved := 0 }

/-- The RU after reset (R131). -/
def Restrictions.reset : Restrictions := { stack := [] }

/-- The DU after reset (Table 8-1). Its own record of its inputs takes the owners' reset values
(DESIGN CHOICE, log 6). -/
def DirectiveUnit.reset : DirectiveUnit :=
  { queues := ⟨[], []⟩
    overflow := ⟨false, false⟩
    lastPopped := ⟨none, none⟩
    lanes := Vector.replicate 6 { state := .on, reason := none, resend := false }
    beacon := ⟨.steady, .steady⟩
    hold := ⟨none, none⟩
    inputs :=
      { mode := .startUp, settling := false, alarm := false, lock := false, supplyWarning := false,
        closed := ⟨false, false⟩, lanes := Vector.replicate 6 .unused } }

/-- The CSU after reset (Table 9-1). -/
def CommandStatus.reset : CommandStatus :=
  { framing := Vector.replicate 8 .empty, lastResult := none, flags := 0, enables := 0,
    faultLog := [], overrun := false, holding := none, journal := [], writeIndex := 0,
    wrapCount := 0 }

/-- An erased page: sixteen words all-ones (R173). -/
def erasedPage : Page := Vector.replicate 16 0xFFFFFFFF

/-- The SU after reset (Table 10-1). The store's contents are kept through a reset; in a part that
has never been programmed they are taken as erased (DESIGN CHOICE, log 3). -/
def Supervisor.reset : Supervisor :=
  { mode := .startUp, startUp := .causeHolds, settleExpiry := none, clock := 0,
    divisor := defaultDivisor, count := 0, cause := .powerOn, supply := .normal, active := none,
    store := Vector.replicate 5 erasedPage, storeState := .idle,
    validity := Vector.replicate 5 false, outcome := .none, limlock := false, freeCount := 0 }

/-- The blocks after reset. -/
def Blocks.reset : Blocks :=
  { lanes := Vector.replicate 6 .reset, va := .reset, vt := .reset, au := .reset, ru := .reset,
    du := .reset, csu := .reset, su := .reset }

/-- The machine right after reset: a reset with cause POWER_ON has begun and its cause still holds
(DEDUCED, log 7), with an erased store, memory in which nothing is listed and an empty queue. -/
def State.reset : State :=
  { slots := Vector.replicate 8 .free, bus := Vector.replicate 8 [], answers := [], mp := .reset,
    mem := [], ptu := .reset, blocks := .reset, pending := [] }

end Sys2Proof.Machine
end

