-- ==== Sys2Proof/Machine/Ops.lean ====
section
/-! DEFINITION. The named operations that every block uses: times, the pair of approaches, ordered
lists, the lanes, and record memory. -/

namespace Sys2Proof.Machine

/-! ## Times (00_scope "Road Clock and time comparison", R172) -/

/-- A stored time is reached when the Road Clock minus it, modulo 2^32, is below 2^31. -/
def reached (now t : Time) : Bool := (now - t).toNat < 2 ^ 31

/-- One time is later than another when the first minus the second, modulo 2^32, is not zero and
below 2^31 (R84, R114); a stamp likewise (R124). The same test says that an instant lies after
another (R115). -/
def later (x y : Time) : Bool := x ≠ y && decide ((x - y).toNat < 2 ^ 31)

/-- A time plus a number of milliseconds, modulo 2^32. -/
def timeAdd (t : Time) (ms : Nat) : Time := t + BitVec.ofNat 32 ms

/-- A time minus a number of milliseconds, modulo 2^32. -/
def timeSub (t : Time) (ms : Nat) : Time := t - BitVec.ofNat 32 ms

/-- A time lies within a window from `a` to `b` (5.2). -/
def inWindow (p a b : Time) : Bool := (p - a).toNat ≤ (b - a).toNat

/-- The distance between two times, the later minus the earlier (R73). -/
def timeGap (x y : Time) : Nat := if later x y then (x - y).toNat else (y - x).toNat

/-- The earlier of two times (R73). -/
def earlierTime (x y : Time) : Time := if later x y then y else x

/-! ## The expiries of a vehicle record (R86) -/

/-- D, E1, V1 or T is reached: now, or at an earlier value of the Road Clock. -/
def VehicleRecord.dReached (r : VehicleRecord) (now : Time) : Bool := r.past.d || reached now r.times.d
def VehicleRecord.e1Reached (r : VehicleRecord) (now : Time) : Bool :=
  r.past.e1 || reached now r.times.e1
def VehicleRecord.v1Reached (r : VehicleRecord) (now : Time) : Bool :=
  r.past.v1 || reached now r.times.v1
def VehicleRecord.tReached (r : VehicleRecord) (now : Time) : Bool := r.past.t || reached now r.times.t

/-- The record as it leaves a value of the Road Clock: what is reached stays reached. -/
def VehicleRecord.latch (now : Time) (r : VehicleRecord) : VehicleRecord :=
  { r with past := { d := r.dReached now, e1 := r.e1Reached now, v1 := r.v1Reached now,
                     t := r.tReached now } }

/-! ## Sums -/

/-- A sum that saturates at a bound. -/
def satAdd (bound x y : Nat) : Nat := min bound (x + y)

/-- The largest load (LU), spacing sum and length (cm) that the part holds: 1,048,575. -/
def maxLoad : Nat := 1048575

/-! ## One item for each approach -/

/-- The item of an approach. -/
def PerApproach.at {α : Type} (p : PerApproach α) : Approach → α
  | .A => p.a
  | .B => p.b

/-- The pair with the item of an approach replaced. -/
def PerApproach.put {α : Type} (p : PerApproach α) (x : Approach) (v : α) : PerApproach α :=
  match x with
  | .A => { p with a := v }
  | .B => { p with b := v }

/-- An approach field: A is 0 and B is 1 (R185). -/
def approachOf (b : Bool) : Approach := if b then .B else .A

/-- The approach as a mark: set for B. -/
def approachIsB : Approach → Bool
  | .A => false
  | .B => true

/-- All six lanes and all eight masters, in ascending order. -/
def allLanes : List Lane := [0, 1, 2, 3, 4, 5]
def allMasters : List Master := [0, 1, 2, 3, 4, 5, 6, 7]

/-! ## Ordered lists -/

/-- Puts `x` after every element that `before` holds of (R114, R121): right after the last one. -/
def placeAfter {α : Type} (before : α → Bool) (x : α) : List α → List α
  | [] => [x]
  | y :: ys => if (y :: ys).any before then y :: placeAfter before x ys else x :: y :: ys

/-- The first element that `p` holds of, and the list without it; the rest keep their order. -/
def takeFirst {α : Type} (p : α → Bool) : List α → Option (α × List α)
  | [] => none
  | y :: ys =>
    if p y then some (y, ys)
    else match takeFirst p ys with
      | none => none
      | some (x, rest) => some (x, y :: rest)

/-- The element that no later one beats, walking from the head. -/
def bestOf {α : Type} (beats : α → α → Bool) : List α → Option α
  | [] => none
  | x :: xs => some (xs.foldl (fun best y => if beats y best then y else best) x)

/-! ## The blocks -/

/-- "Now" is the Road Clock at the event being described. -/
def Blocks.now (b : Blocks) : Time := b.su.clock

/-- A lane of the Capture Unit, and the blocks with it replaced. -/
def Blocks.lane (b : Blocks) (l : Lane) : LaneUnit := b.lanes[l]
def Blocks.setLane (b : Blocks) (l : Lane) (u : LaneUnit) : Blocks :=
  { b with lanes := b.lanes.set l u }

/-- The blocks with one block changed. -/
def Blocks.onVa (b : Blocks) (f : Assembler → Assembler) : Blocks := { b with va := f b.va }
def Blocks.onVt (b : Blocks) (f : Tracker → Tracker) : Blocks := { b with vt := f b.vt }
def Blocks.onAu (b : Blocks) (f : Admission → Admission) : Blocks := { b with au := f b.au }
def Blocks.onRu (b : Blocks) (f : Restrictions → Restrictions) : Blocks := { b with ru := f b.ru }
def Blocks.onDu (b : Blocks) (f : DirectiveUnit → DirectiveUnit) : Blocks := { b with du := f b.du }
def Blocks.onCsu (b : Blocks) (f : CommandStatus → CommandStatus) : Blocks :=
  { b with csu := f b.csu }
def Blocks.onSu (b : Blocks) (f : Supervisor → Supervisor) : Blocks := { b with su := f b.su }

/-- The state with its blocks, its PTU or its MP changed, or a slot replaced. -/
def State.onBlocks (s : State) (f : Blocks → Blocks) : State := { s with blocks := f s.blocks }
def State.onPtu (s : State) (f : Ptu → Ptu) : State := { s with ptu := f s.ptu }
def State.onMp (s : State) (f : MemoryPort → MemoryPort) : State := { s with mp := f s.mp }
def State.slot (s : State) (m : Master) : Slot := s.slots[m]
def State.setSlot (s : State) (m : Master) (x : Slot) : State := { s with slots := s.slots.set m x }
def State.mode (s : State) : Mode := s.blocks.su.mode

/-! ## Record memory -/

/-- The byte at an address; an unlisted address reads as `unwrittenByte` (log 1). -/
def readByte (a : Nat) : List Host.Cell → Byte
  | [] => unwrittenByte
  | (k, v) :: rest => if k = a then v else readByte a rest

/-- Removes an address's entry. -/
def dropByte (a : Nat) : List Host.Cell → List Host.Cell
  | [] => []
  | (k, v) :: rest => if k = a then rest else (k, v) :: dropByte a rest

/-- Lists an address's entry in rising order of address. -/
def listByte (a : Nat) (x : Byte) : List Host.Cell → List Host.Cell
  | [] => [(a, x)]
  | (k, v) :: rest =>
    if a < k then (a, x) :: (k, v) :: rest
    else if a = k then (a, x) :: rest
    else (k, v) :: listByte a x rest

/-- Writes a byte; writing what an unlisted address reads as removes the entry. -/
def writeByte (a : Nat) (x : Byte) (m : List Host.Cell) : List Host.Cell :=
  if x = unwrittenByte then dropByte a m else listByte a x m

/-- The canonical form of memory: addresses strictly rising and inside the 16 MiB, and no entry
equal to what an unlisted address reads as. `floor` is the lowest address the list may hold. -/
def Memory.wfFrom (floor : Nat) : List Host.Cell → Bool
  | [] => true
  | (k, v) :: rest =>
    decide (floor ≤ k) && decide (k < 2 ^ 24) && decide (v ≠ unwrittenByte)
      && Memory.wfFrom (k + 1) rest

/-- The canonical form of record memory. -/
def Memory.wf (m : List Host.Cell) : Bool := Memory.wfFrom 0 m

/-- The address of byte `i` of the word at `a`; record memory ends at 2^24, where addresses wrap
(no aligned word reaches it). -/
def byteAddress (a : Addr) (i : Nat) : Nat := (a + BitVec.ofNat 24 i).toNat

/-- A word as memory holds it: the byte at the word's own address is its low byte (DESIGN CHOICE,
log 2; no master can see it, since every access is an aligned word). -/
def readWord (m : List Host.Cell) (a : Addr) : Word :=
  readByte (byteAddress a 3) m ++ readByte (byteAddress a 2) m
    ++ readByte (byteAddress a 1) m ++ readByte (byteAddress a 0) m

/-- Stores a word. -/
def writeWord (m : List Host.Cell) (a : Addr) (w : Word) : List Host.Cell :=
  writeByte (byteAddress a 3) (w.extractLsb' 24 8)
    (writeByte (byteAddress a 2) (w.extractLsb' 16 8)
      (writeByte (byteAddress a 1) (w.extractLsb' 8 8)
        (writeByte (byteAddress a 0) (w.extractLsb' 0 8) m)))

end Sys2Proof.Machine
end

