-- ==== Sys2Proof/Machine/Operands.lean ====
section
/-! DEFINITION. The word formats (Chapter 11): the fields of the words that masters write for the
interposer, and the words that it writes. -/

namespace Sys2Proof.Machine

/-! ## Fields (R185) -/

/-- The field of `len` bits that stands from bit `lo` upwards, as the unsigned number it spells. -/
def field (w : Word) (lo len : Nat) : Nat := (w.extractLsb' lo len).toNat

/-- One bit of a word, as a mark. -/
def mark (w : Word) (i : Nat) : Bool := w.getLsbD i

/-- A number's low `len` bits, standing from bit `lo` upwards. -/
def place (n lo len : Nat) : Word := BitVec.ofNat 32 ((n % 2 ^ len) * 2 ^ lo)

/-- A mark standing at bit `i`. -/
def placeMark (b : Bool) (i : Nat) : Word := place b.toNat i 1

/-- A check word: the complement of the exclusive OR of the words it guards (R186). -/
def checkWord (ws : List Word) : Word := ~~~(ws.foldl (· ^^^ ·) 0)

/-! ## Codes -/

/-- Reason codes (11.4). -/
def Reason.code : Reason → Nat
  | .none => 0
  | .settling => 1
  | .closed => 2
  | .unreliable => 3
  | .overlong => 4
  | .overweightGroup => 5
  | .overweightGross => 6
  | .spanFull => 7
  | .revoked => 8
  | .tableFull => 9
  | .service => 10
  | .overload => 11
  | .spanLock => 12
  | .supply => 13
  | .laneDown => 14

/-- Fault kind codes (Table 11-5); 0 is no fault. -/
def FaultKind.code : FaultKind → Nat
  | .misaligned => 1
  | .permission => 2
  | .crossLane => 3
  | .tableMiss => 4
  | .tableFault => 5
  | .entryCheck => 6
  | .windowWrite => 7
  | .windowOffset => 8
  | .framing => 9
  | .malformed => 10
  | .sequenceGap => 11
  | .misdirected => 12

/-- Result codes (Table 11-6, offset 12); 0 is NONE. -/
def Result.code : Result → Nat
  | .done => 1
  | .started => 2
  | .busy => 3
  | .wrongMode => 4
  | .badOperand => 5
  | .isProtected => 6
  | .stackFull => 7
  | .stackEmpty => 8
  | .looser => 9
  | .notFound => 10

/-- Lane state codes (Table 11-6, offset 40). -/
def LaneState.code : LaneState → Nat
  | .unused => 0
  | .disabled => 1
  | .offline => 2
  | .live => 3
  | .degraded => 4
  | .faulted => 5
  | .silent => 6
  | .restarting => 7

/-- Mode codes (Table 11-6, offset 0); START-UP is never answered (R184). -/
def Mode.code : Mode → Nat
  | .startUp => 0
  | .bypass => 1
  | .service => 2
  | .active => 3

/-- Reset cause codes (Table 11-6, offset 0). -/
def ResetCause.code : ResetCause → Nat
  | .powerOn => 1
  | .supplyLow => 2
  | .resetPin => 3

/-- The closed approaches code: 0 NONE, 1 A, 2 B, 3 BOTH. -/
def closedCode (c : PerApproach Bool) : Nat := c.a.toNat + 2 * c.b.toNat

/-- The closed approaches that a code names; 4-7 name nothing. -/
def closedOfCode (n : Nat) : Option (PerApproach Bool) :=
  match n with
  | 0 => some ⟨false, false⟩
  | 1 => some ⟨true, false⟩
  | 2 => some ⟨false, true⟩
  | 3 => some ⟨true, true⟩
  | _ => none

/-- The position of a flag in a flag set (11.3). -/
def Flag.index : Flag → Nat
  | .lane => 0
  | .overload => 1
  | .spanLock => 2
  | .defied => 3
  | .unmatched => 4
  | .overdue => 5
  | .unwarned => 6
  | .tableFull => 7
  | .directiveOverflow => 8
  | .fault => 9
  | .journalLost => 10
  | .longOpDone => 11
  | .supplyWarn => 12

/-- The flag set that holds one flag. -/
def Flag.bit (f : Flag) : BitVec 13 := 1#13 <<< f.index

/-! ## Logical addresses (00_scope "Words, bits and addresses", R20) -/

/-- Region, bits 23-19. -/
def addrRegion (a : Addr) : BitVec 5 := a.extractLsb' 19 5

/-- Page index within the region, bits 18-12. -/
def addrPage (a : Addr) : BitVec 7 := a.extractLsb' 12 7

/-- Byte offset, bits 11-0. -/
def addrOffset (a : Addr) : BitVec 12 := a.extractLsb' 0 12

/-- Set index, bits 15-12. -/
def addrSet (a : Addr) : Fin 16 := (a.extractLsb' 12 4).toFin

/-- Tag: region × 8 plus page bits 18-16. -/
def addrTag (a : Addr) : BitVec 8 := a.extractLsb' 16 8

/-- A physical page and a byte offset within it. -/
def physical (page offset : BitVec 12) : Addr := page ++ offset

/-- A logical address is misaligned when it is not a multiple of 4 (R2). -/
def misaligned (a : Addr) : Bool := a.extractLsb' 0 2 ≠ 0#2

/-- The word index of an offset, (offset mod 16) / 4 (3.2). -/
def wordIndex (offset : BitVec 12) : BitVec 2 := offset.extractLsb' 2 2

/-- The slot of an offset: the offset with its low four bits cleared (3.2). -/
def slotOf (offset : BitVec 12) : BitVec 12 := offset.extractLsb' 4 8 ++ 0#4

/-! ## Page tables (Table 11-1) -/

/-- The valid flag of a region or page entry. -/
def entryValid (w : Word) : Bool := mark w 31

/-- The physical page of a region or page entry. -/
def entryPage (w : Word) : BitVec 12 := w.extractLsb' 0 12

/-- The window kind that a page entry's code names; 5-7 name nothing. -/
def windowKindOf (code : Nat) : Option WindowKind :=
  match code with
  | 0 => some .plain
  | 1 => some .capture
  | 2 => some .command
  | 3 => some .status
  | 4 => some .directive
  | _ => none

/-- The channels a page of each kind may name (R26): a lane 0-5 for CAPTURE, an approach 0-1 for
DIRECTIVE, any for the others. -/
def channelAllowed (kind : WindowKind) (channel : Nat) : Bool :=
  match kind with
  | .capture => channel < 6
  | .directive => channel < 2
  | .plain | .command | .status => true

/-- The lane that a channel names. -/
def channelLane (c : BitVec 3) : Option Lane :=
  if h : c.toNat < 6 then some ⟨c.toNat, h⟩ else none

/-- The approach that a channel names: 0 is A, 1 is B (R26 accepts no other). -/
def channelApproach (c : BitVec 3) : Approach := if c = 0 then .A else .B

/-! ## Capture records (11.2) -/

/-- An accepted capture record (R42). -/
inductive CaptureRecord where
  | axle (r : AxleRecord)
  | passage (r : PassageRecord)
  | heartbeat (r : HeartbeatRecord)
  | laneFault (r : LaneFaultRecord)
  deriving DecidableEq, Repr

/-- The straddle that a code names; 3 names nothing. -/
def straddleOf (code : Nat) : Option Straddle :=
  match code with
  | 0 => some .none
  | 1 => some .left
  | 2 => some .right
  | _ => none

/-- The loop that a code names; 0 names nothing. -/
def loopOf (code : Nat) : Option Loop :=
  match code with
  | 1 => some .spanEntry
  | 2 => some .spanExit
  | 3 => some .divertExit
  | _ => none

/-- The health that a code names; 0 and 3 name nothing. -/
def healthOf (code : Nat) : Option Health :=
  match code with
  | 1 => some .healthy
  | 2 => some .degraded
  | _ => none

/-- The fields of a capture record whose kind and coded fields name something (R42, tests 2 and 3).
Numeric fields are taken as they stand. -/
def captureFields (w0 w1 w2 : Word) : Option CaptureRecord :=
  let sequence := w0.extractLsb' 16 8
  let age := w0.extractLsb' 8 8
  match field w0 28 4 with
  | 1 => (straddleOf (field w2 2 2)).map fun straddle =>
      .axle { sequence, age, left := w1.extractLsb' 16 16, right := w1.extractLsb' 0 16,
              spacing := w2.extractLsb' 16 16, speed := w2.extractLsb' 4 12, straddle,
              quality := w2.extractLsb' 0 2 }
  | 2 => (loopOf (field w1 24 2)).map fun loop =>
      .passage { sequence, age, loop, length := w1.extractLsb' 16 8, speed := w1.extractLsb' 0 12 }
  | 3 => (healthOf (field w1 0 2)).map fun health => .heartbeat { sequence, age, health }
  | 4 => some (.laneFault { sequence, age, code := w1.extractLsb' 0 8 })
  | _ => none

/-- A complete record's checks (R42): the check word, then the kind and the coded fields. -/
def acceptedRecord (w0 w1 w2 w3 : Word) : Option CaptureRecord :=
  if w3 = checkWord [w0, w1, w2] then captureFields w0 w1 w2 else none

/-! ## Command records (11.3) -/

/-- The command code and the tag in word 0. -/
def commandCode (w0 : Word) : BitVec 8 := w0.extractLsb' 8 8
def commandTag (w0 : Word) : BitVec 8 := w0.extractLsb' 0 8

/-- The operands of a PUSH_RESTRICTION (Table 11-3). -/
def pushOperandsOf (w1 w2 : Word) : PushOperands :=
  { origin := w1.extractLsb' 24 8, spanLoadPresent := mark w1 23, heavyPresent := mark w1 22,
    grossPresent := mark w1 21, closedPresent := mark w1 20, spanLoad := w1.extractLsb' 0 20,
    heavy := w2.extractLsb' 28 4, closed := w2.extractLsb' 24 3, gross := w2.extractLsb' 0 20 }

/-! ## Directive record (Table 11-4) -/

/-- Directive kind codes; 0 is NONE. -/
def DirectiveKind.code : DirectiveKind → Nat
  | .proceed => 1
  | .divert => 2
  | .standingOn => 3
  | .standingOff => 4

/-- Word 0 of a directive record. -/
def Directive.word0 (d : Directive) : Word :=
  place d.kind.code 28 4 ||| place d.lane.val 24 3 ||| placeMark d.stale 23
    ||| place d.reason.code 16 4 ||| place d.vehicle.toNat 0 16

/-- Word 1 of a directive record. -/
def Directive.word1 (d : Directive) : Word := place d.gross.toNat 16 16 ||| place d.deadline.toNat 0 16

/-! ## Fault record (Table 11-5) -/

/-- The first word of a fault record. -/
def FaultRecord.word0 (f : FaultRecord) : Word :=
  let subject := match f.subject with
    | .lane l => placeMark true 27 ||| place l.val 24 3
    | .master m => place m.val 24 3
  place f.kind.code 28 4 ||| subject ||| place f.clock16.toNat 0 16

/-- The second word of a fault record. -/
def FaultRecord.word1 (f : FaultRecord) : Word := place f.location.toNat 0 24

/-! ## Profile pages (Table 11-8) -/

/-- A word of a page of a profile. -/
def Pages.word (p : Pages) (page : Fin 5) (i : Fin 16) : Word := (p[page])[i]

/-- Page 0: the statutory limits. -/
def grossLimit (p : Pages) : Nat := field (p.word 0 0) 0 20
def groupLimit (p : Pages) : GroupKind → Nat
  | .single => field (p.word 0 1) 0 20
  | .tandem => field (p.word 0 2) 0 20
  | .tridem => field (p.word 0 3) 0 20
  | .multi => field (p.word 0 4) 0 20
def spanLoadLimit (p : Pages) : Nat := field (p.word 0 5) 0 20
def spanHeavyLimit (p : Pages) : Nat := field (p.word 0 6) 0 4
def lightThreshold (p : Pages) : Nat := field (p.word 0 7) 0 16

/-- Page 1: the geometry. -/
def dDecision (p : Pages) : Approach → Nat
  | .A => field (p.word 1 0) 0 18
  | .B => field (p.word 1 4) 0 18
def dEntry (p : Pages) : Approach → Nat
  | .A => field (p.word 1 1) 0 18
  | .B => field (p.word 1 5) 0 18
def dDivert (p : Pages) : Approach → Nat
  | .A => field (p.word 1 2) 0 18
  | .B => field (p.word 1 6) 0 18
def overhang (p : Pages) : Approach → Nat
  | .A => field (p.word 1 3) 0 10
  | .B => field (p.word 1 7) 0 10
def spanLen (p : Pages) : Nat := field (p.word 1 8) 0 17
def spanSpeed (p : Pages) : Nat := field (p.word 1 9) 0 11
def minSpeed (p : Pages) : Nat := field (p.word 1 9) 16 11
def speedTol (p : Pages) : Nat := field (p.word 1 10) 0 6
def entryMargin (p : Pages) : Nat := field (p.word 1 11) 0 16
def exitMargin (p : Pages) : Nat := field (p.word 1 12) 0 16
def directiveLead (p : Pages) : Nat := field (p.word 1 13) 0 16

/-- Page 2: the lanes; lane L in word L. -/
def laneWord (p : Pages) (l : Lane) : Word := p.word 2 (l.castLE (by decide))
def laneInUse (p : Pages) (l : Lane) : Bool := mark (laneWord p l) 31
def laneApproach (p : Pages) (l : Lane) : Approach := approachOf (mark (laneWord p l) 30)
def laneOwner (p : Pages) (l : Lane) : Master := ((laneWord p l).extractLsb' 24 3).toFin
def silenceRestarts (p : Pages) (l : Lane) : Bool := mark (laneWord p l) 23
def heavyLenMin (p : Pages) (l : Lane) : Nat := field (laneWord p l) 14 8
def silenceMs (p : Pages) (l : Lane) : Nat := field (laneWord p l) 0 14
def loopLane (p : Pages) : Approach → Nat
  | .A => field (p.word 2 6) 0 3
  | .B => field (p.word 2 6) 8 3

/-- Page 3: the timing and options. -/
def maxAxleSpacing (p : Pages) : Nat := field (p.word 3 0) 0 12
def groupSpacing (p : Pages) : Nat := field (p.word 3 0) 16 12
def assemblyGap (p : Pages) : Nat := field (p.word 3 1) 0 13
def straddleWindow (p : Pages) : Nat := field (p.word 3 1) 16 8
def maxAge (p : Pages) : Nat := field (p.word 3 1) 24 8
def unknownHeavyLoad (p : Pages) : Nat := field (p.word 3 2) 0 20
def beaconOn (p : Pages) : Nat := field (p.word 3 3) 0 11
def beaconPeriod (p : Pages) : Nat := field (p.word 3 3) 16 11
def beaconHold (p : Pages) : Nat := field (p.word 3 4) 0 16
def resetPulse (p : Pages) : Nat := field (p.word 3 5) 0 10
def restartLimit (p : Pages) : Nat := field (p.word 3 5) 16 3
def autostart (p : Pages) : Bool := mark (p.word 3 5) 31
def settleMs (p : Pages) : Nat := field (p.word 3 6) 0 20
def defaultLength (p : Pages) : Nat := field (p.word 3 7) 0 17
def clockDivisor (p : Pages) : Nat := field (p.word 3 8) 0 16

/-- Page 4: the memory map; master m in word 2 + m. -/
def memoryPages (p : Pages) : Nat := field (p.word 4 0) 0 13
def journalBase (p : Pages) : BitVec 12 := (p.word 4 1).extractLsb' 0 12
def journalCount (p : Pages) : Nat := field (p.word 4 1) 16 13
def masterWord (p : Pages) (m : Master) : Word := p.word 4 ((m.natAdd 2).castLE (by decide))
def isDirect (p : Pages) (m : Master) : Bool := mark (masterWord p m) 31
def regionTableBase (p : Pages) (m : Master) : BitVec 12 := (masterWord p m).extractLsb' 0 12

/-- A profile of zero words: what the profile fields read as while no profile is active, in
START-UP and BYPASS, where no block uses one (R132, log 26). No lane of it is in use. -/
def noProfile : Pages := Vector.replicate 5 (Vector.replicate 16 0)

/-- The active profile. -/
def Blocks.profile (b : Blocks) : Pages := b.su.active.getD noProfile

/-! ## Page validity (Table 10-2, R173) -/

/-- A number lies in a range. -/
def inRange (n lo hi : Nat) : Bool := decide (lo ≤ n) && decide (n ≤ hi)

/-- The ranges of page 0. -/
def validLimits (p : Pages) : Bool :=
  inRange (grossLimit p) 1 1048575 && inRange (groupLimit p .single) 1 1048575
    && inRange (groupLimit p .tandem) 1 1048575 && inRange (groupLimit p .tridem) 1 1048575
    && inRange (groupLimit p .multi) 1 1048575 && inRange (spanLoadLimit p) 1 1048575
    && inRange (spanHeavyLimit p) 1 8 && inRange (lightThreshold p) 1 65535

/-- The ranges of one approach in page 1; d_decision is below both d_entry and d_divert. -/
def validApproach (p : Pages) (x : Approach) : Bool :=
  inRange (dDecision p x) 1 200000 && inRange (dEntry p x) 1 200000
    && inRange (dDivert p x) 1 200000 && decide (dDecision p x < dEntry p x)
    && decide (dDecision p x < dDivert p x) && inRange (overhang p x) 0 1000

/-- The ranges of page 1. -/
def validGeometry (p : Pages) : Bool :=
  validApproach p .A && validApproach p .B && inRange (spanLen p) 1 100000
    && inRange (spanSpeed p) 10 1300 && inRange (minSpeed p) 10 1300 && inRange (speedTol p) 0 50
    && inRange (entryMargin p) 0 60000 && inRange (exitMargin p) 0 60000
    && inRange (directiveLead p) 0 60000

/-- The loop lane of an approach is a lane 0-5 whose approach field names that approach. -/
def validLoopLane (p : Pages) (x : Approach) : Bool :=
  allLanes.any fun l => decide (l.val = loopLane p x) && decide (laneApproach p l = x)

/-- The ranges of page 2, checked for every lane whether or not it is in use. -/
def validLanes (p : Pages) : Bool :=
  allLanes.all (fun l => inRange (silenceMs p l) 50 10000)
    && validLoopLane p .A && validLoopLane p .B

/-- The ranges of page 3. -/
def validTiming (p : Pages) : Bool :=
  inRange (maxAxleSpacing p) 1 4095 && inRange (groupSpacing p) 1 4095
    && decide (groupSpacing p < maxAxleSpacing p) && inRange (assemblyGap p) 100 5000
    && inRange (straddleWindow p) 5 200 && inRange (maxAge p) 1 255
    && inRange (settleMs p) 0 600000 && inRange (beaconPeriod p) 200 2000
    && decide (50 ≤ beaconOn p) && decide (beaconOn p + 50 ≤ beaconPeriod p)
    && inRange (beaconHold p) 1000 60000 && inRange (resetPulse p) 1 1000
    && inRange (unknownHeavyLoad p) 1 1048575 && inRange (defaultLength p) 0 100000
    && inRange (clockDivisor p) 1000 50000

/-- The ranges of page 4; the journal ring ends within memory_pages. -/
def validMap (p : Pages) : Bool :=
  inRange (memoryPages p) 1 4096 && inRange (journalCount p) 16 4096
    && decide ((journalBase p).toNat * 4096 + journalCount p * 32 ≤ memoryPages p * 4096)
    && allMasters.all fun m => decide ((regionTableBase p m).toNat < memoryPages p)

/-- A page's check word agrees with its words 0 to 14. -/
def pageChecks (p : Pages) (page : Fin 5) : Bool :=
  decide (p.word page 15 = checkWord ((p[page]).toList.take 15))

/-- A page is valid when its check word agrees and every field is in its range (R173). -/
def pageValid (p : Pages) (page : Fin 5) : Bool :=
  pageChecks p page && match page with
    | 0 => validLimits p
    | 1 => validGeometry p
    | 2 => validLanes p
    | 3 => validTiming p
    | 4 => validMap p

/-- The validity of all five pages. -/
def pagesValidity (p : Pages) : Vector Bool 5 :=
  #v[pageValid p 0, pageValid p 1, pageValid p 2, pageValid p 3, pageValid p 4]

end Sys2Proof.Machine
end

