-- ==== Sys2Proof/Machine/Flags.lean ====
section
/-! DEFINITION. The thirteen event flags, the attention line and the Fault Log (9.3, 9.5). -/

namespace Sys2Proof.Machine

/-- A block asks the CSU to set an event flag: it is set, and stays set if it was (R163). -/
def Blocks.request (b : Blocks) (f : Flag) : Blocks :=
  b.onCsu fun c => { c with flags := c.flags ||| f.bit }

/-- Whether a flag is set, and whether it is enabled. -/
def Blocks.flagSet (b : Blocks) (f : Flag) : Bool := b.csu.flags.getLsbD f.index
def Blocks.flagEnabled (b : Blocks) (f : Flag) : Bool := b.csu.enables.getLsbD f.index

/-- CLEAR_EVENTS clears each named flag and leaves the others (R163). -/
def clearFlags (names : BitVec 13) (b : Blocks) : Blocks :=
  b.onCsu fun c => { c with flags := c.flags &&& ~~~names }

/-- SET_EVENT_ENABLES makes exactly the named flags enabled (R163). -/
def setEnables (names : BitVec 13) (b : Blocks) : Blocks :=
  b.onCsu fun c => { c with enables := names }

/-- The ATTN line: asserted while at least one flag is both set and enabled (R164, its first sentence). Its
last sentence would keep the line released after a reset where an enable names a clear flag that is set
later; that the first is followed there too is the model's choice (DESIGN CHOICE, log 44). -/
def Blocks.attn (b : Blocks) : Bool := b.csu.flags &&& b.csu.enables ≠ 0

/-- The most records the Fault Log holds (Table 0-3). -/
def faultLogCapacity : Nat := 8

/-- The CSU takes a fault record: appended, or dropped with the overrun when the log is full; the
FAULT flag is asked for either way (R166). -/
def sendFault (f : FaultRecord) (b : Blocks) : Blocks :=
  (b.onCsu fun c =>
    if c.faultLog.length < faultLogCapacity then { c with faultLog := c.faultLog ++ [f] }
    else { c with overrun := true }).request .fault

/-- The low 16 bits of the Road Clock, which every fault record carries (9.5). -/
def Blocks.clock16 (b : Blocks) : BitVec 16 := b.now.extractLsb' 0 16

/-- A fault of a master's access or command: its place is a logical address or a slot (Table 9-5). -/
def masterFault (kind : FaultKind) (m : Master) (location : Addr) (b : Blocks) : Blocks :=
  sendFault { kind, subject := .master m, clock16 := b.clock16, location } b

/-- A fault of a lane's capture record: its place is the slot (Table 9-5). -/
def laneFaultRecord (kind : FaultKind) (l : Lane) (slot : BitVec 12) (b : Blocks) : Blocks :=
  sendFault { kind, subject := .lane l, clock16 := b.clock16, location := slot.setWidth 24 } b

/-- CLEAR_FAULTS empties the log and the holding pair and clears the overrun (R168). -/
def clearFaultLog (b : Blocks) : Blocks :=
  b.onCsu fun c => { c with faultLog := [], overrun := false, holding := none }

/-- The word answered at status offset 68: the fault count and the overrun before the pop
(Table 11-6). -/
def faultPopWord (b : Blocks) : Word :=
  place b.csu.faultLog.length 0 4 ||| placeMark b.csu.overrun 8

/-- The pop of R167: the oldest record becomes the holding pair, or the pair becomes empty. -/
def popFault (b : Blocks) : Blocks :=
  b.onCsu fun c =>
    match c.faultLog with
    | [] => { c with holding := none }
    | f :: rest => { c with faultLog := rest, holding := some f }

end Sys2Proof.Machine
end

