-- ==== Sys2Proof/Machine/Records.lean ====
section
/-! DEFINITION. Finding and changing vehicle records (5.1), and the DU's two reports to the VT
(R91, R92). -/

namespace Sys2Proof.Machine

/-- The record that holds a vehicle number, if the table has one. -/
def Blocks.record (b : Blocks) (n : VehicleNumber) : Option VehicleRecord :=
  b.vt.table.find? fun r => r.number == n

/-- The blocks with one vehicle's record changed; nothing is touched when the table does not hold
the number (R85). -/
def Blocks.onRecord (b : Blocks) (n : VehicleNumber) (f : VehicleRecord → VehicleRecord) : Blocks :=
  b.onVt fun v => { v with table := v.table.map fun r => if r.number = n then f r else r }

/-- The record moved to a state. -/
def VehicleRecord.to (r : VehicleRecord) (st : VehicleState) : VehicleRecord := { r with state := st }

/-- Marks a record UNWARNED; the flag is asked for if the mark was clear (R87, R92). -/
def markUnwarned (n : VehicleNumber) (b : Blocks) : Blocks :=
  match b.record n with
  | none => b
  | some r =>
    if r.flags.unwarned then b
    else (b.onRecord n fun r => { r with flags := { r.flags with unwarned := true } }).request .unwarned

/-- A directive kind agrees with a verdict: PROCEED with ADMIT, DIVERT with DIVERT (R91). -/
def kindAgrees (kind : DirectiveKind) (verdict : Option Verdict) : Bool :=
  match kind, verdict with
  | .proceed, some .admitted => true
  | .divert, some (.divert _) => true
  | _, _ => false

/-- The record that a directive's report names (R91). -/
def namedByReport (d : Directive) (b : Blocks) : Option VehicleRecord :=
  b.vt.table.find? fun r =>
    r.number == d.vehicle && r.times.d.extractLsb' 0 16 == d.deadline && kindAgrees d.kind r.verdict

/-- The VT takes a delivery report: the named record's directive delivery time becomes now (R91). -/
def reportDelivery (d : Directive) (b : Blocks) : Blocks :=
  match namedByReport d b with
  | none => b
  | some r => b.onRecord r.number fun r => { r with delivery := some b.now }

/-- The VT takes the report of a dropped DIVERT: the named record is marked UNWARNED (R92). -/
def reportDrop (d : Directive) (b : Blocks) : Blocks :=
  match namedByReport d b with
  | none => b
  | some r => markUnwarned r.number b

end Sys2Proof.Machine
end

