-- ==== Sys2Proof/Machine/Directive.lean ====
section
/-! DEFINITION. The Directive Unit (Chapter 8): the Directive Queues, standing divert, beacons. -/

namespace Sys2Proof.Machine

/-- The most entries a Directive Queue holds (Table 0-3). -/
def directiveCapacity : Nat := 16

/-- An approach's Directive Queue, and the blocks with it replaced. -/
def Blocks.directives (b : Blocks) (x : Approach) : List Directive := b.du.queues.at x
def Blocks.setDirectives (b : Blocks) (x : Approach) (q : List Directive) : Blocks :=
  b.onDu fun d => { d with queues := d.queues.put x q }

/-- A lane's standing state, reason and mark, and the blocks with them replaced. -/
def Blocks.standing (b : Blocks) (l : Lane) : StandingLane := b.du.lanes[l]
def Blocks.setStanding (b : Blocks) (l : Lane) (s : StandingLane) : Blocks :=
  b.onDu fun d => { d with lanes := d.lanes.set l s }

/-- The in-use lanes, and those of an approach, in ascending order. -/
def Blocks.inUseLanes (b : Blocks) : List Lane := allLanes.filter (laneInUse b.profile)
def Blocks.lanesOf (b : Blocks) (x : Approach) : List Lane :=
  b.inUseLanes.filter fun l => laneApproach b.profile l = x

/-! ## Beacons (8.5) -/

/-- The beacon state whose condition holds first (R154). -/
def beaconState (b : Blocks) (x : Approach) : Beacon :=
  if b.du.inputs.mode ≠ .active || b.du.overflow.at x
      || (b.lanesOf x).any (fun l => (b.standing l).state = .on) then .steady
  else if (b.du.hold.at x).isSome then .pulse
  else .dark

/-- Both beacons are evaluated (R155). -/
def evalBeacons (b : Blocks) : Blocks :=
  b.onDu fun d => { d with beacon := ⟨beaconState b .A, beaconState b .B⟩ }

/-- The beacon line of an approach: high is lit (R157). -/
def Blocks.beaconLine (b : Blocks) (x : Approach) : Bool :=
  match b.du.beacon.at x with
  | .steady => true
  | .dark => false
  | .pulse =>
    match b.du.hold.at x with
    | none => false
    | some h => (b.now - h.start).toNat % beaconPeriod b.profile < beaconOn b.profile

/-! ## Queueing (8.2) -/

/-- A lane's resend mark is set (R146, R147). -/
def markResend (l : Lane) (b : Blocks) : Blocks :=
  b.setStanding l { b.standing l with resend := true }

/-- What a full queue gives up for a DIVERT or a STANDING_ON (R146). -/
def displaceable (d : Directive) : Bool := d.kind = .proceed || d.kind = .standingOff

/-- The approach's overflow condition becomes HOLDS; at a change the beacons are evaluated (R147). -/
def setOverflow (x : Approach) (b : Blocks) : Blocks :=
  if b.du.overflow.at x then b
  else evalBeacons (b.onDu fun d => { d with overflow := d.overflow.put x true })

/-- An entry is dropped (R147). -/
def dropDirective (x : Approach) (e : Directive) (b : Blocks) : Blocks :=
  let b := setOverflow x (b.request .directiveOverflow)
  match e.kind with
  | .divert => if e.tracked then reportDrop e b else b
  | .proceed => b
  | .standingOn => markResend e.lane b
  | .standingOff => markResend e.lane b

/-- An entry joins its approach's queue, displacing or being dropped when the queue is full (R146). -/
def queueDirective (x : Approach) (e : Directive) (b : Blocks) : Blocks :=
  let q := b.directives x
  if q.length < directiveCapacity then b.setDirectives x (q ++ [e])
  else if e.kind = .divert || e.kind = .standingOn then
    match takeFirst displaceable q with
    | none => dropDirective x e b
    | some (gone, rest) =>
      let b := b.setDirectives x (rest ++ [e])
      if gone.kind = .standingOff then markResend gone.lane b else b
  else dropDirective x e b

/-- The gross load as a directive shows it: in 100 kg units, rounded up, saturating (R145). -/
def directiveGross (lu : Nat) : BitVec 16 := BitVec.ofNat 16 (min 65535 ((lu + 9) / 10))

/-- A vehicle directive as R145 forms it; a DIVERT with reason TABLE_FULL carries no full deadline
and is not tracked. -/
def vehicleDirective (kind : DirectiveKind) (lane : Lane) (reason : Reason) (number : VehicleNumber)
    (gross : Nat) (d : Time) : Directive :=
  { kind, lane, stale := false, reason, vehicle := number, gross := directiveGross gross,
    deadline := d.extractLsb' 0 16,
    fullDeadline := if reason = .tableFull then none else some d,
    tracked := reason ≠ .tableFull }

/-- A standing directive as the DU forms it (R145, R153). -/
def standingDirective (kind : DirectiveKind) (lane : Lane) (reason : Reason) : Directive :=
  { kind, lane, stale := false, reason, vehicle := 0, gross := 0, deadline := 0,
    fullDeadline := none, tracked := false }

/-- Queues a STANDING_ON with its reason on the lane's approach. -/
def queueStandingOn (l : Lane) (r : Reason) (b : Blocks) : Blocks :=
  queueDirective (laneApproach b.profile l) (standingDirective .standingOn l r) b

/-- Queues a STANDING_OFF on the lane's approach. Its reason NONE, code 0, is the model's choice: R152 and
R148 give no reason for the entry (DESIGN CHOICE, log 37). -/
def queueStandingOff (l : Lane) (b : Blocks) : Blocks :=
  queueDirective (laneApproach b.profile l) (standingDirective .standingOff l .none) b

/-- A queue has become empty (R148): the overflow condition ends, the standing directive of every
lane with a resend mark is queued afresh, and the beacons are evaluated. -/
def resendLane (l : Lane) (b : Blocks) : Blocks :=
  let s := b.standing l
  if !s.resend then b
  else
    let b := b.setStanding l { s with resend := false }
    match s.state with
    | .on => queueStandingOn l (s.reason.getD .none) b
    | .off => queueStandingOff l b
    | .absent => b
def queueEmptied (x : Approach) (b : Blocks) : Blocks :=
  let b := b.onDu fun d => { d with overflow := d.overflow.put x false }
  evalBeacons ((b.lanesOf x).foldl (fun b l => resendLane l b) b)

/-! ## Standing divert (8.4) -/

/-- The highest standing-divert cause that holds for a lane, by its reason (Table 8-3). -/
def standingCause (b : Blocks) (l : Lane) : Option Reason :=
  let i := b.du.inputs
  if i.mode = .service then some .service
  else if i.settling then some .settling
  else if i.alarm then some .overload
  else if i.lock then some .spanLock
  else if i.supplyWarning then some .supply
  else if i.closed.at (laneApproach b.profile l) then some .closed
  else if i.lanes[l] ≠ .live then some .laneDown
  else none

/-- One in-use lane's standing evaluation (R152). -/
def evalLane (l : Lane) (b : Blocks) : Blocks :=
  if !laneInUse b.profile l then b
  else
    let s := b.standing l
    match s.state, standingCause b l with
    | .off, some r => queueStandingOn l r (b.setStanding l { s with state := .on, reason := some r })
    | .on, none => queueStandingOff l (b.setStanding l { s with state := .off, reason := none })
    | _, _ => b

/-- The evaluation of the lanes that a notice can concern, in ascending order, and of the beacons
after it (R152). -/
def evalStanding (ls : List Lane) (b : Blocks) : Blocks :=
  evalBeacons (ls.foldl (fun b l => evalLane l b) b)

/-- The DU records a notice and evaluates the lanes it can concern (R152). -/
def notice (ls : List Lane) (f : DirectiveInputs → DirectiveInputs) (b : Blocks) : Blocks :=
  evalStanding ls (b.onDu fun d => { d with inputs := f d.inputs })

/-- The AU tells the DU of the overload alarm or span lock (R125, R128). -/
def noticeAlarm (on : Bool) (b : Blocks) : Blocks := notice allLanes (fun i => { i with alarm := on }) b
def noticeLock (on : Bool) (b : Blocks) : Blocks := notice allLanes (fun i => { i with lock := on }) b

/-- The SU tells the DU of the supply warning (R183) or of the settle interval's end (R179). -/
def noticeSupply (on : Bool) (b : Blocks) : Blocks :=
  notice allLanes (fun i => { i with supplyWarning := on }) b
def noticeSettled (b : Blocks) : Blocks := notice allLanes (fun i => { i with settling := false }) b

/-- The CU tells the DU of a lane's new state (R52). -/
def noticeLane (l : Lane) (st : LaneState) (b : Blocks) : Blocks :=
  notice [l] (fun i => { i with lanes := i.lanes.set l st }) b

/-- The RU tells the DU which approaches became closed and open (R138); the in-use lanes of each
approach that changed are evaluated. -/
def noticeClosure (before after : PerApproach Bool) (b : Blocks) : Blocks :=
  if before = after then b
  else
    let changed (l : Lane) : Bool :=
      let x := laneApproach b.profile l
      before.at x ≠ after.at x
    notice (allLanes.filter changed) (fun i => { i with closed := after }) b

/-! ## Reading the directive window (8.3) -/

/-- Starts or extends an approach's beacon hold at the delivery of a DIVERT (R156). -/
def startHold (x : Approach) (b : Blocks) : Blocks :=
  let expiry := timeAdd b.now (beaconHold b.profile)
  match b.du.hold.at x with
  | none => evalBeacons (b.onDu fun d => { d with hold := d.hold.put x (some ⟨b.now, expiry⟩) })
  | some h => b.onDu fun d => { d with hold := d.hold.put x (some { h with expiry }) }

/-- A directive as the pop marks it: STALE when its full deadline is reached at the read (R149). -/
def judged (now : Time) (e : Directive) : Directive :=
  { e with stale := match e.fullDeadline with
    | none => false
    | some d => reached now d }

/-- The pop of R149 on a queue. -/
def popDirective (x : Approach) (b : Blocks) : Blocks :=
  match b.directives x with
  | [] => b.onDu fun d => { d with lastPopped := d.lastPopped.put x none }
  | e :: rest =>
    let e := judged b.now e
    let b := (b.setDirectives x rest).onDu fun d => { d with lastPopped := d.lastPopped.put x (some e) }
    let b := if e.tracked then reportDelivery e b else b
    let b := if e.kind = .divert then startHold x b else b
    if rest.isEmpty then queueEmptied x b else b

/-- The word that the pop is answered with: word 0 of the record, or kind NONE and zeros (R149). -/
def popWord (x : Approach) (b : Blocks) : Word :=
  match b.directives x with
  | [] => 0
  | e :: _ => (judged b.now e).word0

/-- Word 1 of the approach's last-popped record (R150). -/
def lastPoppedWord (x : Approach) (b : Blocks) : Word :=
  match b.du.lastPopped.at x with
  | none => 0
  | some e => e.word1

/-! ## The modes (R144, R153) -/

/-- Every lane's standing state as a change of profile or mode leaves it: absent for a lane not in
use, and given by `f` for a lane in use; the resend marks are cleared. That an absent lane's reason becomes
none is the model's choice where R153 makes the change (DESIGN CHOICE, log 41). -/
def resetStanding (f : Lane → StandingLane) (b : Blocks) : Blocks :=
  allLanes.foldl (fun b' l => b'.setStanding l
    (if laneInUse b.profile l then f l else { state := .absent, reason := none, resend := false })) b

/-- Both queues emptied without delivery and without R148, with the conditions, last-popped records
and holds that go with them (R153, R156). -/
def emptyQueues (b : Blocks) : Blocks :=
  b.onDu fun d => { d with queues := ⟨[], []⟩, overflow := ⟨false, false⟩,
                           lastPopped := ⟨none, none⟩, hold := ⟨none, none⟩ }

/-- Queues a STANDING_ON with its recorded reason for each in-use lane, in ascending order. -/
def queueAllStanding (b : Blocks) : Blocks :=
  b.inUseLanes.foldl (fun b l => queueStandingOn l ((b.standing l).reason.getD .none) b) b

/-- The end of start-up (R144). The mode, settle interval and supply warning are recorded as the SU
reports them, and each in-use lane is taken as OFFLINE. -/
def startUpEnds (mode : Mode) (settling warning : Bool) (b : Blocks) : Blocks :=
  let b := b.onDu fun d => { d with inputs := { d.inputs with
    mode, settling, supplyWarning := warning,
    lanes := b.inUseLanes.foldl (fun (v : Vector LaneState 6) (l : Lane) => v.set l LaneState.offline)
      d.inputs.lanes } }
  evalBeacons (queueAllStanding (resetStanding
    (fun l => { state := .on, reason := standingCause b l, resend := false }) b))

/-- START (R153): the mode cause ends and the settle cause begins, and every in-use lane is
evaluated. -/
def startNotice (settling : Bool) (b : Blocks) : Blocks :=
  notice allLanes (fun i => { i with mode := .active, settling }) b

/-- Every PROCEED is removed from an approach's queue; a queue that this leaves empty is handled by
R148 (R153). -/
def purgeProceeds (x : Approach) (b : Blocks) : Blocks :=
  let q := b.directives x
  let kept := q.filter fun e => e.kind ≠ .proceed
  let b := b.setDirectives x kept
  if kept.isEmpty && !q.isEmpty then queueEmptied x b else b

/-- STOP (R153). -/
def stopNotice (b : Blocks) : Blocks :=
  notice allLanes (fun i => { i with mode := .service, settling := false })
    (purgeProceeds .B (purgeProceeds .A b))

/-- APPLY_PROFILE (R153): every in-use lane of the new profile is ON with reason SERVICE, and a
STANDING_ON is queued for it. -/
def applyNotice (b : Blocks) : Blocks :=
  let b := (emptyQueues b).onDu fun d => { d with inputs := { d.inputs with mode := .service, settling := false } }
  evalBeacons (queueAllStanding (resetStanding
    (fun _ => { state := .on, reason := some .service, resend := false }) b))

/-- ENTER_BYPASS (R153): every lane's standing state becomes absent. That its reason becomes none is the
model's choice (DESIGN CHOICE, log 41). -/
def bypassNotice (b : Blocks) : Blocks :=
  let b := (emptyQueues b).onDu fun d => { d with inputs := { d.inputs with mode := .bypass, settling := false } }
  evalBeacons (allLanes.foldl
    (fun b l => b.setStanding l { state := .absent, reason := none, resend := false }) b)

end Sys2Proof.Machine
end

