-- ==== Sys2Proof/Machine/Journal.lean ====
section
/-! DEFINITION. Forming journal records and offering them to the Journal Writer queue (9.6, 11.7). -/

namespace Sys2Proof.Machine

/-- The outcomes of a journal record (Table 9-6). -/
inductive JournalOutcome where
  | cleared
  | divertConfirmed
  | lost
  | abandoned
  | clearedByCommand
  | untracked
  deriving DecidableEq, Repr

/-- Outcome codes (Table 11-7). -/
def JournalOutcome.code : JournalOutcome → Nat
  | .cleared => 1
  | .divertConfirmed => 2
  | .lost => 3
  | .abandoned => 4
  | .clearedByCommand => 5
  | .untracked => 6

/-- The reason field: 0 with verdict ADMIT, 15 with no verdict, otherwise the DIVERT reason. -/
def verdictCode : Option Verdict → Nat
  | none => 15
  | some .admitted => 0
  | some (.divert r) => r.code

/-- The nine flags at bits 28-20 (Table 11-7, word 2). -/
def VehicleFlags.word (f : VehicleFlags) : Word :=
  placeMark f.isPartial 20 ||| placeMark f.overlong 21 ||| placeMark f.suspect 22
    ||| placeMark f.incomplete 23 ||| placeMark f.straddled 24 ||| placeMark f.unreliable 25
    ||| placeMark f.late 26 ||| placeMark f.unwarned 27 ||| placeMark f.unreserved 28

/-- The eight words of a journal record, with the check of words 0 to 6 in word 7 (Table 11-7).
`leadTime` is D − W, a signed 24-bit field. -/
def journalWords (outcome : JournalOutcome) (number : VehicleNumber) (x : Approach) (lane : Lane)
    (verdict : Option Verdict) (flags : VehicleFlags) (axleCount gross : Nat) (w leadTime : Time)
    (delivery entryTime : Option Time) (closing : Time) : Vector Word 8 :=
  let w0 := place outcome.code 29 3 ||| placeMark (approachIsB x) 28 ||| place lane.val 25 3
    ||| placeMark delivery.isSome 24 ||| placeMark entryTime.isSome 23
    ||| place (verdictCode verdict) 16 4 ||| place number.toNat 0 16
  let w1 := place axleCount 24 8 ||| place leadTime.toNat 0 24
  let w2 := flags.word ||| place gross 0 20
  let w4 := delivery.getD 0
  let w5 := entryTime.getD 0
  #v[w0, w1, w2, w, w4, w5, closing, checkWord [w0, w1, w2, w, w4, w5, closing]]

/-- The most records the Journal Writer queue holds (Table 0-3). -/
def journalCapacity : Nat := 8

/-- The CSU takes an offered record: appended with its next word 0, or dropped with JOURNAL_LOST when
the queue is full (R169). -/
def offerJournal (words : Vector Word 8) (b : Blocks) : Blocks :=
  if b.csu.journal.length < journalCapacity then
    b.onCsu fun c => { c with journal := c.journal ++ [{ words, next := 0 }] }
  else b.request .journalLost

/-- The journal record of a retiring vehicle record (R101). -/
def recordWords (outcome : JournalOutcome) (r : VehicleRecord) (now : Time) : Vector Word 8 :=
  journalWords outcome r.number r.approach r.lane r.verdict r.flags r.axleCount r.gross r.weighTime
    (r.times.d - r.weighTime) r.delivery r.entryTime now

/-- The journal record of a vehicle diverted with TABLE_FULL: no number, no D, no delivery time and
no entry passage time (R108). -/
def untrackedWords (v : ClosedVehicle) (now : Time) : Vector Word 8 :=
  journalWords .untracked 0 v.approach v.lane (some (.divert .tableFull)) v.flags v.axleCount v.gross
    v.weighTime 0 none none now

end Sys2Proof.Machine
end

