-- ==== Sys2Proof/Machine/Limits.lean ====
section
/-! DEFINITION. The Restriction Unit's effective values (7.2). -/

namespace Sys2Proof.Machine

/-- The topmost entry's value of a field, among the entries in which it is present (R132). -/
def topmost {α : Type} (get : Restriction → Option α) (stack : List Restriction) : Option α :=
  stack.findSome? get

/-- The effective span load limit (Table 7-2). -/
def Blocks.effSpanLoad (b : Blocks) : Nat :=
  (topmost (·.spanLoad) b.ru.stack).getD (spanLoadLimit b.profile)

/-- The effective span heavy limit (Table 7-2). -/
def Blocks.effHeavy (b : Blocks) : Nat :=
  (topmost (·.heavy) b.ru.stack).getD (spanHeavyLimit b.profile)

/-- The effective gross limit (Table 7-2). -/
def Blocks.effGross (b : Blocks) : Nat :=
  (topmost (·.gross) b.ru.stack).getD (grossLimit b.profile)

/-- The closed approaches; the profile closes none (Table 7-2). -/
def Blocks.effClosed (b : Blocks) : PerApproach Bool :=
  (topmost (·.closed) b.ru.stack).getD ⟨false, false⟩

/-- A present limit is looser than statutory when it is greater (7.1). -/
def exceeds (limit : Option Nat) (statutory : Nat) : Bool := limit.any fun n => statutory < n

/-- An entry has a field looser than page 0 of a profile gives (R135, R142). -/
def looserThan (p : Pages) (e : Restriction) : Bool :=
  exceeds e.spanLoad (spanLoadLimit p) || exceeds e.heavy (spanHeavyLimit p)
    || exceeds e.gross (grossLimit p)

end Sys2Proof.Machine
end

