-- ==== Sys2Proof/Machine/Admission.lean ====
section
/-! DEFINITION. The Admission Unit (Chapter 6) with the parts of the Vehicle Tracker that its
requests reach: the Reservation List, the span check, the Held List, retirement, the shortfall
sweep, the overload alarm and span lock. -/

namespace Sys2Proof.Machine

/-! ## The Reservation List (6.3) -/

/-- The capacities of Table 0-3. -/
def reservationCapacity : Nat := 40
def normalCapacity : Nat := 32
def tableCapacity : Nat := 48
def occupantCapacity : Nat := 24

/-- A reservation contains an instant (R115). -/
def Reservation.contains (r : Reservation) (t : Time) : Bool :=
  match r.finish with
  | some e => inWindow t r.start e
  | none => reached t r.start

/-- The reservations that contain an instant. -/
def Blocks.claims (b : Blocks) (t : Time) : List Reservation :=
  b.au.reservations.filter fun r => r.contains t

/-- The reserved load and the heavy count at an instant (R115). -/
def Blocks.reservedLoad (b : Blocks) (t : Time) : Nat := ((b.claims t).map (·.load)).sum
def Blocks.heavyCount (b : Blocks) (t : Time) : Nat := (b.claims t).length

/-- The number of NORMAL reservations. -/
def Blocks.normalCount (b : Blocks) : Nat :=
  (b.au.reservations.filter fun r => r.kind = .normal).length

/-- A new reservation is placed after every one whose start is not later than its own (R114). -/
def placeReservation (r : Reservation) (b : Blocks) : Blocks :=
  b.onAu fun a => { a with
    reservations := placeAfter (fun x => !later x.start r.start) r a.reservations }

/-- The reservation of an owner is in the list. -/
def Blocks.holds (b : Blocks) (o : Owner) : Bool := b.au.reservations.any fun r => r.owner = o

/-- An owner's reservation is taken out of the list; the rest keep their order. -/
def dropReservation (o : Owner) (b : Blocks) : Blocks :=
  b.onAu fun a => { a with reservations := a.reservations.filter fun r => r.owner ≠ o }

/-- An instant at which the claims, with a candidate's added, keep both limits (R116). -/
def fitsAt (b : Blocks) (load heavy : Nat) (t : Time) : Bool :=
  decide (b.reservedLoad t + load ≤ b.effSpanLoad) && decide (b.heavyCount t + heavy ≤ b.effHeavy)

/-- The check points of a candidate's interval, from its S to its T (R116). -/
def checkPoints (b : Blocks) (r : VehicleRecord) : List Time :=
  if r.tReached b.now then [b.now]
  else
    let x := if later r.times.s b.now then r.times.s else b.now
    x :: (b.au.reservations.map (·.start)).filter fun p => later p x && !later p r.times.t

/-- The span check of a candidate, for its gross load (R116). -/
def spanCheck (b : Blocks) (r : VehicleRecord) : Bool :=
  (checkPoints b r).all (fitsAt b r.gross 1)

/-- The overload condition: at now, or at a start that lies after now, a limit is exceeded (R117). -/
def overloaded (b : Blocks) : Bool :=
  (b.now :: (b.au.reservations.map (·.start)).filter fun p => later p b.now).any
    fun t => !fitsAt b 0 0 t

/-- The four conditions of R110, for a record. -/
def admissible (b : Blocks) (r : VehicleRecord) : Bool :=
  spanCheck b r && decide (b.normalCount < normalCapacity)
    && decide (b.au.reservations.length < reservationCapacity) && !b.au.alarm && !b.au.lock

/-! ## Alarm and lock (6.5, 6.7) -/

/-- An alarm evaluation (R125): it clears a set alarm when the condition is false; the one at the end
of a sweep sets the alarm when the condition holds. -/
def evalAlarm (maySet : Bool) (b : Blocks) : Blocks :=
  if overloaded b then
    if maySet && !b.au.alarm then
      noticeAlarm true ((b.onAu fun a => { a with alarm := true }).request .overload)
    else b
  else if b.au.alarm then noticeAlarm false (b.onAu fun a => { a with alarm := false })
  else b

/-- Span lock is set (R128). -/
def setLock (b : Blocks) : Blocks :=
  if b.au.lock then b
  else noticeLock true ((b.onAu fun a => { a with lock := true }).request .spanLock)

/-- An UNRESERVED occupant. -/
def Occupant.unreserved : Occupant → Bool
  | .vehicle _ _ reserved => !reserved
  | .phantom _ _ reserved _ _ => !reserved

/-- The UNRESERVED occupants of both queues. -/
def Blocks.unreservedCount (b : Blocks) : Nat :=
  (b.vt.occupants.a.filter Occupant.unreserved).length
    + (b.vt.occupants.b.filter Occupant.unreserved).length

/-- The VT's count report (R93, R128): the AU records the counts, and a set lock clears when they
meet the clearing test; `again` is the re-evaluation of the Held List that follows. -/
def reportCounts (again : Blocks → Blocks) (b : Blocks) : Blocks :=
  let b := b.onAu fun a => { a with
    occupants := ⟨b.vt.occupants.a.length, b.vt.occupants.b.length⟩, unreserved := b.unreservedCount }
  if b.au.lock && decide (b.au.occupants.a < occupantCapacity)
      && decide (b.au.occupants.b < occupantCapacity) && b.au.unreserved = 0 then
    again (noticeLock false (b.onAu fun a => { a with lock := false }))
  else b

/-- The VT asks for a release (R120): the reservation leaves the list, then an alarm evaluation and a
re-evaluation. A request that names none has no effect (R106). -/
def release (again : Blocks → Blocks) (o : Owner) (b : Blocks) : Blocks :=
  if b.holds o then again (evalAlarm false (dropReservation o b)) else b

/-! ## Retirement (5.7) -/

/-- An occupant is the one of a vehicle number. -/
def Occupant.isVehicle (n : VehicleNumber) : Occupant → Bool
  | .vehicle k _ _ => k = n
  | .phantom _ _ _ _ _ => false

/-- A vehicle is in an occupant queue. -/
def Blocks.queued (b : Blocks) (n : VehicleNumber) : Bool :=
  b.vt.occupants.a.any (Occupant.isVehicle n) || b.vt.occupants.b.any (Occupant.isVehicle n)

/-- Both occupant queues without the occupants that `gone` names; the rest keep their order. -/
def dropOccupants (gone : Occupant → Bool) (b : Blocks) : Blocks :=
  b.onVt fun v => { v with
    occupants := ⟨v.occupants.a.filter (!gone ·), v.occupants.b.filter (!gone ·)⟩ }

/-- Retirement of a vehicle with an outcome (R101), in the order of its steps: out of its occupant
queue, its reservation released and its number off the Held List, its journal record offered, its
record out of the table. -/
def retire (again : Blocks → Blocks) (outcome : JournalOutcome) (n : VehicleNumber) (b : Blocks) :
    Blocks :=
  let b := if b.queued n then reportCounts again (dropOccupants (Occupant.isVehicle n) b) else b
  let b := if (b.record n).any (·.reserved) then release again (.vehicle n) b else b
  let b := b.onAu fun a => { a with held := a.held.erase n }
  match b.record n with
  | none => b
  | some r =>
    (offerJournal (recordWords outcome r b.now) b).onVt fun v =>
      { v with table := v.table.filter fun r => r.number ≠ n }

/-! ## Admission and the Held List (R110, R121, R122) -/

/-- A directive of the AU for a record (R113). -/
def queueVehicle (kind : DirectiveKind) (reason : Reason) (r : VehicleRecord) (b : Blocks) : Blocks :=
  queueDirective r.approach (vehicleDirective kind r.lane reason r.number r.gross r.times.d) b

/-- A reservation placed for a record over its own interval with a stamp from the admission counter,
and the VT's admission of the record (R85, R110, R111). -/
def admitRecord (kind : ReservationKind) (st : VehicleState) (late : Bool) (r : VehicleRecord)
    (b : Blocks) : Blocks :=
  let stamp := b.au.counter
  let claim : Reservation :=
    { owner := .vehicle r.number, kind, approach := r.approach, load := r.gross,
      start := r.times.s, finish := some r.times.t }
  let b := placeReservation claim b
  let b := b.onAu fun a => { a with counter := a.counter + 1 }
  b.onRecord r.number fun r => { r with
    state := st, verdict := some .admitted, reserved := true, stamp := some stamp,
    flags := { r.flags with late := r.flags.late || late } }

/-- A NORMAL admission: ADMITTED, or COMMITTED with LATE when D is already reached (R110). -/
def admitNormal (r : VehicleRecord) (b : Blocks) : Blocks :=
  let late := r.dReached b.now
  admitRecord .normal (if late then .committed else .admitted) late r b

/-- The expiries already reached of a record that has entered ADMITTED or COMMITTED, in the order D,
E1, T (R86). -/
def examineAdmitted (again : Blocks → Blocks) (n : VehicleNumber) (b : Blocks) : Blocks :=
  match b.record n with
  | none => b
  | some r =>
    let st := if r.state = .admitted && r.dReached b.now then .committed else r.state
    let st := if (st = .admitted || st = .committed) && r.e1Reached b.now then .missing else st
    let b := b.onRecord n (·.to st)
    if st = .missing && r.tReached b.now then retire again .lost n b else b

/-- One vehicle's turn in a re-evaluation (R122). -/
def tryHeld (again : Blocks → Blocks) (n : VehicleNumber) (b : Blocks) : Blocks :=
  match b.record n with
  | none => b
  | some r =>
    if b.au.held.contains n && !(b.effClosed.at r.approach) && admissible b r then
      let b := (admitNormal r b).onAu fun a => { a with held := a.held.erase n }
      queueVehicle .proceed .none r (examineAdmitted again n b)
    else b

/-- The re-evaluation, one pass over the list from head to tail, with `n` levels for the
re-evaluations that a release inside the pass starts in turn. Each admission takes a number off the
list, so a list of k numbers needs no more than k + 1 levels (log 22). -/
def reevaluateLevel : Nat → Blocks → Blocks
  | 0, b => b
  | n + 1, b => b.au.held.foldl (fun b v => tryHeld (reevaluateLevel n) v b) b

/-- The re-evaluation of the Held List (R122). -/
def reevaluate (b : Blocks) : Blocks := reevaluateLevel (b.au.held.length + 1) b

/-! ## Diverted records (R86, R87, R89, R90) -/

/-- The expiries already reached of a record that has entered DIVERTED, in the order D, V1, T. -/
def examineDiverted (n : VehicleNumber) (b : Blocks) : Blocks :=
  match b.record n with
  | none => b
  | some r =>
    if r.state ≠ .diverted then b
    else
      let b := if r.dReached b.now && r.delivery.isNone then markUnwarned n b else b
      if r.v1Reached b.now then
        let b := b.onRecord n (·.to .divertUnconfirmed)
        if r.tReached b.now then retire reevaluate .lost n b else b
      else b

/-- The record takes verdict DIVERT with a reason and enters DIVERTED (R85). -/
def divertRecord (reason : Reason) (n : VehicleNumber) (b : Blocks) : Blocks :=
  b.onRecord n fun r => { r with state := .diverted, verdict := some (.divert reason) }

/-! ## The shortfall sweep (R124, R127) -/

/-- The revocation of an ADMITTED vehicle, in the order of its three steps (R124). -/
def revoke (r : VehicleRecord) (b : Blocks) : Blocks :=
  let b := dropReservation (.vehicle r.number) b
  let b := (divertRecord .revoked r.number b).onRecord r.number fun r =>
    { r with reserved := false, delivery := none }
  queueVehicle .divert .revoked r (examineDiverted r.number b)

/-- One stamp is later than another, compared as Road Clock times are (R124). -/
def laterStamp (x y : VehicleRecord) : Bool :=
  match x.stamp, y.stamp with
  | some a, some b => later a b
  | some _, none => true
  | none, _ => false

/-- The ADMITTED vehicle with the latest stamp, of those that `among` names. -/
def latestAdmitted (among : VehicleRecord → Bool) (b : Blocks) : Option VehicleRecord :=
  bestOf laterStamp (b.vt.table.filter fun r => r.state = .admitted && among r)

/-- Revocations, latest stamp first, while `while_` holds and a vehicle is left; with whether any was
made. Each takes a vehicle out of ADMITTED, so the number of records bounds them. -/
def revokeWhile (while_ : Blocks → Bool) (among : VehicleRecord → Bool) :
    Nat → Blocks × Bool → Blocks × Bool
  | 0, p => p
  | n + 1, (b, any) =>
    if while_ b then
      match latestAdmitted among b with
      | none => (b, any)
      | some r => revokeWhile while_ among n (revoke r b, true)
    else (b, any)

/-- The sweep, after revocations that a closure may already have made. -/
def sweepAfter (p : Blocks × Bool) : Blocks :=
  let (b, any) := revokeWhile overloaded (fun _ => true) p.1.vt.table.length p
  let b := evalAlarm true b
  if any && !b.au.alarm then reevaluate b else b

/-- The shortfall sweep (R124). -/
def shortfallSweep (b : Blocks) : Blocks := sweepAfter (b, false)

/-- An approach became closed (R127). -/
def closeApproach (x : Approach) (b : Blocks) : Blocks :=
  sweepAfter (revokeWhile (fun _ => true) (fun r => r.approach = x) b.vt.table.length (b, false))

/-- The VT asks for a reservation to be made OPEN (R119). -/
def makeOpen (o : Owner) (b : Blocks) : Blocks :=
  if b.holds o then
    shortfallSweep (b.onAu fun a => { a with
      reservations := a.reservations.map fun r => if r.owner = o then { r with finish := none } else r })
  else b

/-! ## Records on the span (R86, R90, R94) -/

/-- T is reached for an ON_SPAN record (R90). -/
def goOverdue (n : VehicleNumber) (b : Blocks) : Blocks :=
  match b.record n with
  | none => b
  | some r =>
    let b := b.onRecord n (·.to .overdue)
    (if r.reserved then makeOpen (.vehicle n) b else b).request .overdue

/-- The expiry already reached of a record that has entered ON_SPAN: T (R86). -/
def examineOnSpan (n : VehicleNumber) (b : Blocks) : Blocks :=
  match b.record n with
  | none => b
  | some r => if r.state = .onSpan && r.tReached b.now then goOverdue n b else b

/-- Placing an occupant on an approach's queue (R94). -/
def placeOccupant (x : Approach) (o : Occupant) (b : Blocks) : Blocks :=
  let q := b.vt.occupants.at x
  if q.length < occupantCapacity then
    reportCounts reevaluate (b.onVt fun v => { v with occupants := v.occupants.put x (q ++ [o]) })
  else (setLock b).request .tableFull

/-- The occupants changed one by one, with the count report of a change in the UNRESERVED
occupants. -/
def changeOccupants (f : Occupant → Occupant) (b : Blocks) : Blocks :=
  reportCounts reevaluate (b.onVt fun v => { v with
    occupants := ⟨v.occupants.a.map f, v.occupants.b.map f⟩ })

/-- D is reached for a HELD vehicle (R123): off the Held List, DIVERTED with SPAN_FULL, its expiries
examined, its DIVERT queued. -/
def divertHeld (r : VehicleRecord) (b : Blocks) : Blocks :=
  let b := b.onAu fun a => { a with held := a.held.erase r.number }
  queueVehicle .divert .spanFull r (examineDiverted r.number (divertRecord .spanFull r.number b))

/-- How the effective value of a limit moved (R137). -/
inductive LimitChange where
  | tightened
  | loosened
  | stayed
  deriving DecidableEq, Repr

/-- The RU's report to the AU: the three limits, each, and the approaches that became closed and those
that became open (R137, R138). -/
structure RestrictionReport where
  spanLoad : LimitChange
  heavy : LimitChange
  gross : LimitChange
  becameClosed : PerApproach Bool
  becameOpen : PerApproach Bool
  deriving DecidableEq, Repr

/-- The span load or the heavy limit moved as `c` says; a moved gross limit starts nothing (R126). -/
def RestrictionReport.spanMoved (p : RestrictionReport) (c : LimitChange) : Bool :=
  p.spanLoad = c || p.heavy = c

/-- The AU acts on a report: closures, tightening, loosening, in that order (R126). -/
def actOnReport (p : RestrictionReport) (b : Blocks) : Blocks :=
  let closing := p.becameClosed.a || p.becameClosed.b
  let b := if p.becameClosed.a then closeApproach .A b else b
  let b := if p.becameClosed.b then closeApproach .B b else b
  let b := if p.spanMoved .tightened && !closing then shortfallSweep b else b
  if p.spanMoved .loosened || p.becameOpen.a || p.becameOpen.b then
    reevaluate (evalAlarm false b) else b

/-- STOP (R130): both lists are emptied, alarm and lock cleared with a notice of each that was set,
and zero occupants recorded. -/
def stopAdmission (b : Blocks) : Blocks :=
  let alarm := b.au.alarm
  let lock := b.au.lock
  let b := b.onAu fun a => { a with reservations := [], held := [], alarm := false, lock := false,
                                    occupants := ⟨0, 0⟩, unreserved := 0 }
  let b := if alarm then noticeAlarm false b else b
  if lock then noticeLock false b else b

end Sys2Proof.Machine
end

