-- ==== Sys2Proof/Machine/Tracking.lean ====
section
/-! DEFINITION. The Vehicle Tracker (Chapter 5): entry and the computed times, the expiries, passage
matching, phantoms, and leaving the table. -/

namespace Sys2Proof.Machine

/-! ## Entry (5.1, 5.2) -/

/-- The travel time in ms of a distance in cm at a speed in 0.1 km/h, rounded down or up
(00_scope "Travel time"). -/
def travelDown (distance speed : Nat) : Nat := distance * 360 / speed
def travelUp (distance speed : Nat) : Nat := (distance * 360 + speed - 1) / speed

/-- The four speeds of R83. -/
def baseSpeed (p : Pages) (speed : Nat) : Nat := max speed (minSpeed p)
def fastSpeed (p : Pages) (speed : Nat) : Nat := baseSpeed p speed * (100 + speedTol p) / 100
def slowSpeed (p : Pages) (speed : Nat) : Nat :=
  max (baseSpeed p speed * (100 - speedTol p) / 100) (minSpeed p)
def crossingSpeed (p : Pages) (speed : Nat) : Nat := min (slowSpeed p speed) (spanSpeed p)

/-- The travel time over the span, at the span speed, of a vehicle of a length. -/
def crossingTime (p : Pages) (speed length : Nat) : Nat :=
  travelUp (spanLen p + length) (crossingSpeed p speed)

/-- The computed times (Table 5-2). -/
def computeTimes (p : Pages) (x : Approach) (speed length : Nat) (w : Time) : VehicleTimes :=
  let vf := fastSpeed p speed
  let vs := slowSpeed p speed
  let e0 := timeSub (timeAdd w (travelDown (dEntry p x) vf)) (entryMargin p)
  { d := timeSub (timeAdd w (travelDown (dDecision p x) vf)) (directiveLead p)
    e0
    e1 := timeAdd w (travelUp (dEntry p x) vs + entryMargin p)
    v0 := timeSub (timeAdd w (travelDown (dDivert p x) vf)) (entryMargin p)
    v1 := timeAdd w (travelUp (dDivert p x) vs + entryMargin p)
    s := e0
    t := timeAdd w (travelUp (dEntry p x) vs + crossingTime p speed length + exitMargin p) }

/-- The first number not held, from `n` upward modulo 65536 (R82). A list of k held numbers is passed
in k steps at most. -/
def freeNumber (held : List VehicleNumber) : Nat → VehicleNumber → VehicleNumber
  | 0, n => n
  | k + 1, n => if held.contains n then freeNumber held k (n + 1) else n

/-- The number that the next entry assigns (R82). -/
def Blocks.numberToAssign (b : Blocks) : VehicleNumber :=
  freeNumber (b.vt.table.map (·.number)) b.vt.table.length b.vt.nextNumber

/-- The record that an entry makes (R82); it awaits its verdict as HELD. -/
def enteredRecord (p : Pages) (n : VehicleNumber) (v : ClosedVehicle) : VehicleRecord :=
  { number := n, approach := v.approach, lane := v.lane, state := .held, axles := v.axles,
    axleCount := v.axleCount, groups := v.groups, gross := v.gross, speed := v.speed,
    length := v.length, flags := v.flags, weighTime := v.weighTime,
    times := computeTimes p v.approach v.speed v.length v.weighTime,
    past := { d := false, e1 := false, v1 := false, t := false }, verdict := none,
    reserved := false, delivery := none, entryTime := none, stamp := none }

/-- The VT enters a vehicle under a number (R82). -/
def enterVehicle (n : VehicleNumber) (v : ClosedVehicle) (b : Blocks) : Blocks :=
  b.onVt fun t => { t with table := t.table ++ [enteredRecord b.profile n v], nextNumber := n + 1 }

/-! ## Expiries (5.3) -/

/-- The record becomes MISSING, and LOST when its T is already reached (R86, R88, R90). -/
def goMissing (n : VehicleNumber) (r : VehicleRecord) (b : Blocks) : Blocks :=
  let b := b.onRecord n (·.to .missing)
  if r.tReached b.now then retire reevaluate .lost n b else b

/-- The record becomes DIVERT_UNCONFIRMED, and LOST when its T is already reached (R86, R89, R90). -/
def goUnconfirmed (n : VehicleNumber) (r : VehicleRecord) (b : Blocks) : Blocks :=
  let b := b.onRecord n (·.to .divertUnconfirmed)
  if r.tReached b.now then retire reevaluate .lost n b else b

/-- The effect of D, once it is reached, by the record's state (R87). -/
def serveD (n : VehicleNumber) (b : Blocks) : Blocks :=
  match b.record n with
  | none => b
  | some r =>
    if !r.dReached b.now then b
    else match r.state with
      | .admitted => examineAdmitted reevaluate n b
      | .held => divertHeld r b
      | .diverted => if r.delivery.isNone then markUnwarned n b else b
      | .committed | .onSpan | .overdue | .missing | .divertUnconfirmed => b

/-- The effect of E1, once it is reached (R88). -/
def serveE1 (n : VehicleNumber) (b : Blocks) : Blocks :=
  match b.record n with
  | none => b
  | some r =>
    if !r.e1Reached b.now then b
    else match r.state with
      | .admitted | .committed => goMissing n r b
      | .held | .onSpan | .overdue | .missing | .diverted | .divertUnconfirmed => b

/-- The effect of V1, once it is reached (R89). -/
def serveV1 (n : VehicleNumber) (b : Blocks) : Blocks :=
  match b.record n with
  | none => b
  | some r =>
    if !r.v1Reached b.now then b
    else match r.state with
      | .diverted => goUnconfirmed n r b
      | .held | .admitted | .committed | .onSpan | .overdue | .missing | .divertUnconfirmed => b

/-- The effect of T, once it is reached (R90). -/
def serveT (n : VehicleNumber) (b : Blocks) : Blocks :=
  match b.record n with
  | none => b
  | some r =>
    if !r.tReached b.now then b
    else match r.state with
      | .onSpan => goOverdue n b
      | .missing | .divertUnconfirmed => retire reevaluate .lost n b
      | .held | .admitted | .committed | .overdue | .diverted => b

/-- The effects of several expiries already reached are made in the order D, then E1 or V1, then T, each
on the state that the one before it left (R86). So an expiry, when it is reached, is served after
those before it that are reached too: D itself, E1, V1 and T. -/
def reachD (n : VehicleNumber) (b : Blocks) : Blocks := serveD n b
def reachE1 (n : VehicleNumber) (b : Blocks) : Blocks :=
  if (b.record n).any (·.e1Reached b.now) then serveE1 n (serveD n b) else b
def reachV1 (n : VehicleNumber) (b : Blocks) : Blocks :=
  if (b.record n).any (·.v1Reached b.now) then serveV1 n (serveD n b) else b
def reachT (n : VehicleNumber) (b : Blocks) : Blocks :=
  if (b.record n).any (·.tReached b.now) then serveT n (serveV1 n (serveE1 n (serveD n b))) else b

/-! ## Phantoms (R97, R98) -/

/-- An occupant is the phantom of a number. -/
def Occupant.isPhantom (k : Phantom) : Occupant → Bool
  | .vehicle _ _ _ => false
  | .phantom j _ _ _ _ => j = k

/-- The phantom occupant of a number, wherever it is queued. -/
def Blocks.phantom (b : Blocks) (k : Phantom) : Option Occupant :=
  (b.vt.occupants.a ++ b.vt.occupants.b).find? (Occupant.isPhantom k)

/-- The sixteen phantom numbers in ascending order, and the lowest free one. -/
def allPhantoms : List Phantom := [0, 1, 2, 3, 4, 5, 6, 7, 8, 9, 10, 11, 12, 13, 14, 15]
def Blocks.freePhantom (b : Blocks) : Option Phantom :=
  allPhantoms.find? fun k => (b.phantom k).isNone

/-- An occupant marked overdue, and an occupant marked UNRESERVED. -/
def Occupant.markOverdue : Occupant → Occupant
  | .phantom k e r t _ => .phantom k e r t true
  | .vehicle n e r => .vehicle n e r
def Occupant.markUnreserved : Occupant → Occupant
  | .phantom k e _ t o => .phantom k e false t o
  | .vehicle n e _ => .vehicle n e false

/-- Applies a change to the occupants that `p` names. -/
def onlyFor (p : Occupant → Bool) (f : Occupant → Occupant) (o : Occupant) : Occupant :=
  if p o then f o else o

/-- A phantom's end time is reached, and it was not (R98). -/
def reachPhantomEnd (k : Phantom) (b : Blocks) : Blocks :=
  match b.phantom k with
  | some (.phantom _ _ reserved endTime false) =>
    if reached b.now endTime then
      let mark := onlyFor (Occupant.isPhantom k) Occupant.markOverdue
      let b := b.onVt fun v => { v with
        occupants := ⟨v.occupants.a.map mark, v.occupants.b.map mark⟩ }
      (if reserved then makeOpen (.phantom k) b else b).request .overdue
    else b
  | some _ => b
  | none => b

/-! ## Reservations regardless of room (R118) -/

/-- The list has an entry free for a FORCED or PHANTOM reservation. -/
def Blocks.entryFree (b : Blocks) : Bool := decide (b.au.reservations.length < reservationCapacity)

/-- The occupants that `p` names become UNRESERVED, reported when there is one; span lock is set
(R96, R97, R118). -/
def refuseReservation (p : Occupant → Bool) (b : Blocks) : Blocks :=
  setLock (if (b.vt.occupants.a ++ b.vt.occupants.b).any p then
    changeOccupants (onlyFor p Occupant.markUnreserved) b else b)

/-! ## Passage matching (5.6) -/

/-- The earliest-weighed of two records, then the lower lane, then the lower number (R95). -/
def matchedBefore (x y : VehicleRecord) : Bool :=
  later y.weighTime x.weighTime
    || (x.weighTime = y.weighTime
      && (x.lane < y.lane || (x.lane = y.lane && decide (x.number.toNat < y.number.toNat))))

/-- The earliest-weighed record that `p` names. -/
def Blocks.earliest (b : Blocks) (p : VehicleRecord → Bool) : Option VehicleRecord :=
  bestOf matchedBefore (b.vt.table.filter p)

/-- The records that a passage at `p` may match: of the approach, in one of two states, with the
window containing `p`. -/
def entryCandidate (x : Approach) (p : Time) (s1 s2 : VehicleState) (r : VehicleRecord) : Bool :=
  r.approach = x && (r.state = s1 || r.state = s2) && inWindow p r.times.e0 r.times.e1
def divertCandidate (x : Approach) (p : Time) (r : VehicleRecord) : Bool :=
  r.approach = x && (r.state = .diverted || r.state = .divertUnconfirmed)
    && inWindow p r.times.v0 r.times.v1

/-- Step 1, an admitted vehicle (R95). A T already reached takes effect after the placing with its count
report; R86 and R95 do not order the two (DESIGN CHOICE, log 39). -/
def enterAdmitted (x : Approach) (p : Time) (r : VehicleRecord) (b : Blocks) : Blocks :=
  let b := b.onRecord r.number fun r => { r with state := .onSpan, entryTime := some p }
  examineOnSpan r.number (placeOccupant x (.vehicle r.number p true) b)

/-- The record at a defied entry: ON_SPAN, with its new S and T (R96, step 1); T is then reached only
when its new time is (R86). -/
def defiedRecord (profile : Pages) (p : Time) (r : VehicleRecord) : VehicleRecord :=
  { r with state := .onSpan, entryTime := some p, past := { r.past with t := false },
           times := { r.times with s := p,
                                   t := timeAdd p (crossingTime profile r.speed r.length
                                     + exitMargin profile) } }

/-- Step 2, a defied diversion (R96). A new T already reached takes effect after the sweep and DEFIED
(DESIGN CHOICE, log 39). -/
def enterDefied (x : Approach) (p : Time) (r : VehicleRecord) (b : Blocks) : Blocks :=
  let n := r.number
  let r := defiedRecord b.profile p r
  let claim : Reservation :=
    { owner := .vehicle n, kind := .forced, approach := x, load := r.gross, start := r.times.s,
      finish := some r.times.t }
  let b := b.onRecord n (defiedRecord b.profile p)
  let b := placeOccupant x (.vehicle n p true) b
  let b := if b.entryFree then
      shortfallSweep ((placeReservation claim b).onRecord n fun r => { r with reserved := true })
    else refuseReservation (Occupant.isVehicle n)
      (b.onRecord n fun r => { r with flags := { r.flags with unreserved := true } })
  examineOnSpan n (b.request .defied)

/-- The end time of a phantom that entered at `p` (R97). -/
def phantomEnd (profile : Pages) (p : Time) : Time :=
  timeAdd p (travelUp (spanLen profile + defaultLength profile) (minSpeed profile)
    + exitMargin profile)

/-- A phantom that can be queued, under its number (R97, steps 2 to 4, R98). An end time already reached
acts after those steps; R98 says only in that event (DESIGN CHOICE, log 40). -/
def queuePhantom (x : Approach) (p : Time) (k : Phantom) (b : Blocks) : Blocks :=
  let finish := phantomEnd b.profile p
  let claim : Reservation :=
    { owner := .phantom k, kind := .phantom, approach := x, load := unknownHeavyLoad b.profile,
      start := p, finish := some finish }
  let b := placeOccupant x (.phantom k p true finish false) b
  let b := if b.entryFree then shortfallSweep (placeReservation claim b)
    else refuseReservation (Occupant.isPhantom k) b
  reachPhantomEnd k (b.request .unmatched)

/-- Step 3, a phantom (R97). -/
def enterPhantom (x : Approach) (p : Time) (b : Blocks) : Blocks :=
  match b.freePhantom with
  | some k =>
    if (b.vt.occupants.at x).length < occupantCapacity then queuePhantom x p k b
    else ((setLock b).request .tableFull).request .unmatched
  | none => ((setLock b).request .tableFull).request .unmatched

/-- A SPAN_ENTRY passage (R95 to R97). -/
def spanEntry (x : Approach) (p : Time) (b : Blocks) : Blocks :=
  match b.earliest (entryCandidate x p .admitted .committed) with
  | some r => enterAdmitted x p r b
  | none =>
    match b.earliest (entryCandidate x p .diverted .divertUnconfirmed) with
    | some r => enterDefied x p r b
    | none => enterPhantom x p b

/-- A phantom leaves its queue: the count report, then the release of its reservation if it holds one
(R99). -/
def freePhantomAt (k : Phantom) (reserved : Bool) (b : Blocks) : Blocks :=
  let b := reportCounts reevaluate (dropOccupants (Occupant.isPhantom k) b)
  if reserved then release reevaluate (.phantom k) b else b

/-- A SPAN_EXIT passage (R99). -/
def spanExit (x : Approach) (b : Blocks) : Blocks :=
  match b.vt.occupants.at x with
  | [] => b.request .unmatched
  | .vehicle n _ _ :: _ => retire reevaluate .cleared n b
  | .phantom k _ reserved _ _ :: _ => freePhantomAt k reserved b

/-- A DIVERT_EXIT passage (R100). -/
def divertExit (x : Approach) (p : Time) (b : Blocks) : Blocks :=
  match b.earliest (divertCandidate x p) with
  | some r => retire reevaluate .divertConfirmed r.number b
  | none => b.request .unmatched

/-- The VT takes a heavy passage: discarded in SERVICE, matched by its loop in ACTIVE (R95). -/
def takePassage (x : Approach) (loop : Loop) (p : Time) (b : Blocks) : Blocks :=
  if b.su.mode ≠ .active then b
  else match loop with
    | .spanEntry => spanEntry x p b
    | .spanExit => spanExit x b
    | .divertExit => divertExit x p b

/-! ## Commands and STOP (5.8) -/

/-- CLEAR_VEHICLE in ACTIVE (R102). -/
def clearRecord (n : VehicleNumber) (b : Blocks) : Result × Blocks :=
  match b.record n with
  | none => (.notFound, b)
  | some _ => (.done, retire reevaluate .clearedByCommand n b)

/-- The phantoms of a queue that hold a reservation, in queue order. -/
def reservedPhantoms : List Occupant → List Phantom
  | [] => []
  | .phantom k _ true _ _ :: rest => k :: reservedPhantoms rest
  | .phantom _ _ false _ _ :: rest => reservedPhantoms rest
  | .vehicle _ _ _ :: rest => reservedPhantoms rest

/-- An occupant is a phantom. -/
def Occupant.phantomKind : Occupant → Bool
  | .vehicle _ _ _ => false
  | .phantom _ _ _ _ _ => true

/-- The phantoms of an approach leave its queue: one count report, then the releases in queue order
(R103, log 31). -/
def dropPhantoms (x : Approach) (b : Blocks) : Blocks :=
  let q := b.vt.occupants.at x
  if q.any Occupant.phantomKind then
    let b := reportCounts reevaluate (b.onVt fun v => { v with
      occupants := v.occupants.put x (q.filter fun o => !o.phantomKind) })
    (reservedPhantoms q).foldl (fun b k => release reevaluate (.phantom k) b) b
  else b

/-- CLEAR_PHANTOMS in ACTIVE: approach 0 is A and 1 is B (R103). -/
def clearPhantomsOf (approach : BitVec 8) (b : Blocks) : Result × Blocks :=
  if approach = 0 then (.done, dropPhantoms .A b)
  else if approach = 1 then (.done, dropPhantoms .B b)
  else (.badOperand, b)

/-- The records in ascending order of vehicle number. -/
def byNumber (table : List VehicleRecord) : List VehicleRecord :=
  table.foldl (fun l r => placeAfter (fun y => decide (y.number.toNat ≤ r.number.toNat)) r l) []

/-- STOP in the VT (R104): every record retires ABANDONED with no release and no report, and both
queues are emptied. -/
def abandonAll (b : Blocks) : Blocks :=
  let b := (byNumber b.vt.table).foldl
    (fun b r => offerJournal (recordWords .abandoned r b.now) b) b
  b.onVt fun v => { v with table := [], occupants := ⟨[], []⟩ }

end Sys2Proof.Machine
end

