-- ==== Sys2Proof/Machine/Verdict.lean ====
section
/-! DEFINITION. The Admission Unit's taking of a closed vehicle (6.2): light vehicles, UNTRACKED
vehicles, the diversion steps, admission, late vehicles and held vehicles. -/

namespace Sys2Proof.Machine

/-- A light vehicle (R107). -/
def isLight (p : Pages) (v : ClosedVehicle) : Bool :=
  decide (v.gross < lightThreshold p) && decide (v.axleCount ≤ 2)

/-- The light count of an approach rises by one, from 65535 to 0 (R107). -/
def countLight (x : Approach) (b : Blocks) : Blocks :=
  b.onAu fun a => { a with light := a.light.put x (a.light.at x + 1) }

/-- A heavy vehicle that finds the table full (R108). -/
def takeUntracked (v : ClosedVehicle) (b : Blocks) : Blocks :=
  let b := queueDirective v.approach (vehicleDirective .divert v.lane .tableFull 0 v.gross 0) b
  (offerJournal (untrackedWords v b.now) b).request .tableFull

/-- Step 3 of R109. -/
def unreliableAtEntry (v : ClosedVehicle) : Bool :=
  v.flags.isPartial || v.flags.suspect || v.flags.incomplete
    || (v.flags.unreliable && !v.flags.overlong) || v.laneState ≠ .live

/-- A group's load exceeds the profile's limit for its kind (R109, step 5). -/
def groupOverweight (p : Pages) (v : ClosedVehicle) : Bool :=
  v.groups.any fun g => decide (groupLimit p g.kind < g.load)

/-- The first diversion step that applies, by its reason (R109). -/
def diversionReason (b : Blocks) (v : ClosedVehicle) : Option Reason :=
  if b.su.settleExpiry.isSome then some .settling
  else if b.effClosed.at v.approach then some .closed
  else if unreliableAtEntry v then some .unreliable
  else if v.flags.overlong then some .overlong
  else if groupOverweight b.profile v then some .overweightGroup
  else if b.effGross < v.gross then some .overweightGross
  else none

/-- An entered vehicle takes verdict DIVERT with a reason, and its directive is queued (R109, R111,
R113). -/
def divertEntered (reason : Reason) (r : VehicleRecord) (b : Blocks) : Blocks :=
  examineDiverted r.number (queueVehicle .divert reason r (divertRecord reason r.number b))

/-- A late vehicle: a FORCED reservation, or span lock and a DIVERT when the list holds 40 (R111). -/
def takeLate (r : VehicleRecord) (b : Blocks) : Blocks :=
  if b.entryFree then
    let b := queueVehicle .proceed .none r (admitRecord .forced .committed true r b)
    examineAdmitted reevaluate r.number (shortfallSweep b)
  else divertEntered .spanFull r (setLock b)

/-- The D of a number on the Held List is not later than a time. -/
def heldNotLater (b : Blocks) (d : Time) (n : VehicleNumber) : Bool :=
  (b.record n).any fun r => !later r.times.d d

/-- The vehicle becomes HELD: its number joins the Held List by its D (R112, R121). -/
def holdVehicle (r : VehicleRecord) (b : Blocks) : Blocks :=
  b.onAu fun a => { a with held := placeAfter (heldNotLater b r.times.d) r.number a.held }

/-- An entered vehicle is given its verdict (R109 to R112). -/
def giveVerdict (v : ClosedVehicle) (r : VehicleRecord) (b : Blocks) : Blocks :=
  match diversionReason b v with
  | some reason => divertEntered reason r b
  | none =>
    if admissible b r then
      examineAdmitted reevaluate r.number (queueVehicle .proceed .none r (admitNormal r b))
    else if r.dReached b.now then takeLate r b
    else holdVehicle r b

/-- The AU takes a closed vehicle (R107 to R113). -/
def takeClosed (v : ClosedVehicle) (b : Blocks) : Blocks :=
  if isLight b.profile v then countLight v.approach b
  else if tableCapacity ≤ b.vt.table.length then takeUntracked v b
  else
    let n := b.numberToAssign
    giveVerdict v (enteredRecord b.profile n v) (enterVehicle n v b)

end Sys2Proof.Machine
end

