-- ==== Sys2Proof/Machine/Assembly.lean ====
section
/-! DEFINITION. The Vehicle Assembler (Chapter 4): joining and closing, straddles, and the hand-off of
a closed vehicle to the AU. -/

namespace Sys2Proof.Machine

/-! ## The per-lane items (4.1) -/

/-- A lane's open vehicle and straddle slot, and the blocks with one replaced. -/
def Blocks.openVehicle (b : Blocks) (l : Lane) : Option OpenVehicle := b.va.opened[l]
def Blocks.straddleSlot (b : Blocks) (l : Lane) : Option HeldAxle := b.va.straddle[l]
def Blocks.setOpen (b : Blocks) (l : Lane) (v : Option OpenVehicle) : Blocks :=
  b.onVa fun a => { a with opened := a.opened.set l v }
def Blocks.setStraddle (b : Blocks) (l : Lane) (h : Option HeldAxle) : Blocks :=
  b.onVa fun a => { a with straddle := a.straddle.set l h }

/-- The most axles a vehicle stores, and the largest axle load and axle count (R63, R66, R68). -/
def axleCapacity : Nat := 9
def maxAxleLoad : Nat := 65535
def maxAxleCount : Nat := 255

/-- A lane state in which axles are taken and a partner is usable (R47, R72). -/
def reporting (st : LaneState) : Bool := st = .live || st = .degraded

/-! ## Closing a vehicle (4.6) -/

/-- The kind of a group of a number of axles (R77). -/
def groupKind : Nat → GroupKind
  | 0 | 1 => .single
  | 2 => .tandem
  | 3 => .tridem
  | _ + 4 => .multi

/-- The groups of the axles that follow a group under way, of `n` axles and load `load` (R77). -/
def groupsAfter (spacing n load : Nat) : List StoredAxle → List Group
  | [] => [⟨groupKind n, load⟩]
  | a :: rest =>
    if a.spacing ≤ spacing then groupsAfter spacing (n + 1) (load + a.load) rest
    else ⟨groupKind n, load⟩ :: groupsAfter spacing 1 a.load rest

/-- The group list of a list of stored axles (R77). -/
def groupsOf (spacing : Nat) : List StoredAxle → List Group
  | [] => []
  | a :: rest => groupsAfter spacing 1 a.load rest

/-- The mean of the stored speeds, rounded down (R78). -/
def meanSpeed (speeds : List Nat) : Nat := speeds.sum / speeds.length

/-- The description that a closing vehicle is handed with (R78, Table 4-5). -/
def closedVehicle (p : Pages) (l : Lane) (st : LaneState) (incomplete : Bool) (v : OpenVehicle) :
    ClosedVehicle :=
  { approach := v.approach, lane := l, laneState := st, axles := v.axles, axleCount := v.axleCount,
    groups := groupsOf (groupSpacing p) v.axles, gross := v.gross, speed := meanSpeed v.speeds,
    length := satAdd maxLoad v.spacingSum (overhang p v.approach),
    flags :=
      { isPartial := v.isPartial, overlong := v.overlong, suspect := v.suspect, incomplete,
        straddled := v.straddled,
        unreliable := v.isPartial || v.overlong || v.suspect || incomplete || v.degradedAxle
          || st ≠ .live,
        late := false, unwarned := false, unreserved := false },
    weighTime := v.lastEvent }

/-- A lane's open vehicle closes and is handed to the AU; the lane then has none (R69, R79). -/
def closeVehicle (l : Lane) (incomplete : Bool) (b : Blocks) : Blocks :=
  match b.openVehicle l with
  | none => b
  | some v =>
    takeClosed (closedVehicle b.profile l (b.lane l).state incomplete v) (b.setOpen l none)

/-- The close at a close time already reached (R65, R66, R69). -/
def closeIfReached (l : Lane) (b : Blocks) : Blocks :=
  match b.openVehicle l with
  | none => b
  | some v => if reached b.now v.closeTime then closeVehicle l false b else b

/-! ## Joining (4.3) -/

/-- A single axle as it goes to the join; `alone` marks one taken alone from a straddle, `suspect`
one from a slot whose suspect mark is set (Table 4-3). -/
def joinOf (alone suspect : Bool) (a : Axle) : JoinAxle :=
  { load := satAdd maxAxleLoad a.left a.right, spacing := a.spacing, speed := a.speed,
    eventTime := a.eventTime, isPartial := alone || a.quality = 3, suspect := suspect || a.aged,
    degraded := a.laneState = .degraded, straddled := false }

/-- The vehicle that an axle opens on a lane (R65). -/
def openedBy (p : Pages) (l : Lane) (j : JoinAxle) : OpenVehicle :=
  { approach := laneApproach p l, axles := [⟨j.load, 0⟩], speeds := [j.speed], axleCount := 1,
    gross := j.load, spacingSum := 0, isPartial := j.isPartial, overlong := false,
    suspect := j.suspect || j.spacing ≠ 0, straddled := j.straddled, degradedAxle := j.degraded,
    lastEvent := j.eventTime, closeTime := timeAdd j.eventTime (assemblyGap p) }

/-- The vehicle after an axle has joined it (R66, R68). -/
def joinedBy (p : Pages) (j : JoinAxle) (v : OpenVehicle) : OpenVehicle :=
  let room := decide (v.axles.length < axleCapacity)
  { v with
    axles := if room then v.axles ++ [⟨j.load, j.spacing⟩] else v.axles
    speeds := if room then v.speeds ++ [j.speed] else v.speeds
    axleCount := satAdd maxAxleCount v.axleCount 1
    gross := satAdd maxLoad v.gross j.load
    spacingSum := satAdd maxLoad v.spacingSum j.spacing
    isPartial := v.isPartial || j.isPartial
    overlong := v.overlong || !room
    suspect := v.suspect || j.suspect
    straddled := v.straddled || j.straddled
    degradedAxle := v.degradedAxle || j.degraded
    lastEvent := j.eventTime
    closeTime := timeAdd j.eventTime (assemblyGap p) }

/-- A spacing of 1 to max_axle_spacing continues a vehicle (R65). -/
def continues (p : Pages) (spacing : Nat) : Bool := inRange spacing 1 (maxAxleSpacing p)

/-- An axle opens a new vehicle on a lane (R65). -/
def openNew (l : Lane) (j : JoinAxle) (b : Blocks) : Blocks :=
  closeIfReached l (b.setOpen l (some (openedBy b.profile l j)))

/-- The join of an axle into a lane (R65). -/
def join (l : Lane) (j : JoinAxle) (b : Blocks) : Blocks :=
  match b.openVehicle l with
  | none => openNew l j b
  | some v =>
    if continues b.profile j.spacing then
      closeIfReached l (b.setOpen l (some (joinedBy b.profile j v)))
    else openNew l j (closeVehicle l false b)

/-! ## Straddles (4.5) -/

/-- A release alone: the held axle of a lane's slot goes to the join (R75). -/
def releaseAlone (l : Lane) (b : Blocks) : Blocks :=
  match b.straddleSlot l with
  | none => b
  | some h => join l (joinOf true h.suspect h.axle) (b.setStraddle l none)

/-- The lane with the next lower or next higher number. -/
def lowerLane (l : Lane) : Option Lane := if l = 0 then none else some (l - 1)
def higherLane (l : Lane) : Option Lane := if l = 5 then none else some (l + 1)

/-- The partner lane of a straddle axle (R72). -/
def partnerOf (l : Lane) : Straddle → Option Lane
  | .none => none
  | .left => lowerLane l
  | .right => higherLane l

/-- The straddle that names a lane back (R73). -/
def reciprocal : Straddle → Straddle
  | .none => .none
  | .left => .right
  | .right => .left

/-- The partner lane when it is usable (R72). -/
def usablePartner (b : Blocks) (l : Lane) (s : Straddle) : Option Lane :=
  (partnerOf l s).filter fun p => laneInUse b.profile p
    && laneApproach b.profile p = laneApproach b.profile l && reporting (b.lane p).state

/-- The held half in the partner's slot merges with a new half (R73). -/
def merges (window : Nat) (h : HeldAxle) (a : Axle) : Bool :=
  h.axle.straddle = reciprocal a.straddle
    && decide (timeGap h.axle.eventTime a.eventTime ≤ window)

/-- The owner lane of two halves: the lower-numbered (R73). -/
def ownerLane (h : HeldAxle) (a : Axle) : Lane := if a.lane < h.axle.lane then a.lane else h.axle.lane

/-- The merged axle (R73, R67). -/
def mergedAxle (h : HeldAxle) (a : Axle) : JoinAxle :=
  { load := min maxAxleLoad (h.axle.left + h.axle.right + a.left + a.right)
    spacing := if a.lane < h.axle.lane then a.spacing else h.axle.spacing
    speed := (h.axle.speed + a.speed) / 2
    eventTime := earlierTime h.axle.eventTime a.eventTime
    isPartial := h.axle.quality = 3 || a.quality = 3
    suspect := h.suspect || h.axle.aged || a.aged
    degraded := h.axle.laneState = .degraded || a.laneState = .degraded
    straddled := true }

/-- The axle is placed in its own lane's slot, and released at once if its hold expiry is already
reached (R74). -/
def holdAxle (a : Axle) (b : Blocks) : Blocks :=
  let expiry := timeAdd a.eventTime (straddleWindow b.profile)
  let b := b.setStraddle a.lane (some { axle := a, suspect := false, expiry })
  if reached b.now expiry then releaseAlone a.lane b else b

/-- A straddle axle with a usable partner merges or is held (R73, R74). -/
def mergeOrHold (partner : Lane) (a : Axle) (b : Blocks) : Blocks :=
  match b.straddleSlot partner with
  | none => holdAxle a b
  | some h =>
    if merges (straddleWindow b.profile) h a then
      join (ownerLane h a) (mergedAxle h a) (b.setStraddle partner none)
    else holdAxle a b

/-- An axle after the slot of its lane has been released (R63, steps 2 and 3). -/
def placeAxle (a : Axle) (b : Blocks) : Blocks :=
  match a.straddle with
  | .none => join a.lane (joinOf false false a) b
  | .left | .right =>
    match usablePartner b a.lane a.straddle with
    | none => join a.lane (joinOf true false a) b
    | some p => mergeOrHold p a b

/-- The VA takes an axle: discarded in SERVICE, taken for its lane in ACTIVE (R63). -/
def takeAxle (a : Axle) (b : Blocks) : Blocks :=
  if b.su.mode ≠ .active then b else placeAxle a (releaseAlone a.lane b)

/-! ## Notices (R64, R70, R71, R80) -/

/-- A suspect notice for a lane (R64). -/
def suspectNotice (l : Lane) (b : Blocks) : Blocks :=
  if b.su.mode ≠ .active then b
  else
    let b := b.setOpen l ((b.openVehicle l).map fun v => { v with suspect := true })
    b.setStraddle l ((b.straddleSlot l).map fun h => { h with suspect := true })

/-- The CU's announcement that a lane went from one state to another: leaving LIVE or DEGRADED
releases its held axle and closes its vehicle INCOMPLETE (R70, R71). -/
def laneChanged (l : Lane) (before after : LaneState) (b : Blocks) : Blocks :=
  if b.su.mode = .active && reporting before && !reporting after then
    closeVehicle l true (releaseAlone l b)
  else b

/-- The close time of a lane's open vehicle is reached (R69). -/
def reachCloseTime (l : Lane) (b : Blocks) : Blocks := closeIfReached l b

/-- The hold expiry of a lane's slot is reached (R76). -/
def reachHoldExpiry (l : Lane) (b : Blocks) : Blocks :=
  match b.straddleSlot l with
  | none => b
  | some h => if reached b.now h.expiry then releaseAlone l b else b

/-- STOP: every open vehicle and held axle is discarded (R80). -/
def discardVehicles (b : Blocks) : Blocks := b.onVa fun _ => Assembler.reset

end Sys2Proof.Machine
end

