-- ==== Sys2Proof/Machine/Capture.lean ====
section
/-! DEFINITION. The Capture Unit (Chapter 3): framing, accepted records, lane states, silence and
restart, lane commands. The framing of four-word records is shared with command records (R159). -/

namespace Sys2Proof.Machine

/-! ## Framing (R40, R41, R159) -/

/-- The slot of a held partial record. -/
def Framing.slot : Framing → Option (BitVec 12)
  | .empty => none
  | .one s _ => some s
  | .two s _ _ => some s
  | .three s _ _ _ => some s

/-- A completed record: its slot and its four words. -/
structure CompleteRecord where
  slot : BitVec 12
  w0 : Word
  w1 : Word
  w2 : Word
  w3 : Word
  deriving DecidableEq, Repr

/-- What framing a word gives: the new framing, the slot of a FRAMING fault, and a completed record. -/
structure Framed where
  framing : Framing
  fault : Option (BitVec 12)
  complete : Option CompleteRecord
  deriving DecidableEq, Repr

/-- A word that is not taken: a held partial is discarded, or the word is dropped (R41). -/
def notTaken (f : Framing) (slot : BitVec 12) : Framed :=
  { framing := .empty, fault := some (f.slot.getD slot), complete := none }

/-- A word of index 1, 2 or 3 (R41). -/
def frameNext (f : Framing) (index : BitVec 2) (slot : BitVec 12) (w : Word) : Framed :=
  match f with
  | .empty => notTaken f slot
  | .one s w0 =>
    if index = 1 && s = slot then { framing := .two s w0 w, fault := none, complete := none }
    else notTaken f slot
  | .two s w0 w1 =>
    if index = 2 && s = slot then { framing := .three s w0 w1 w, fault := none, complete := none }
    else notTaken f slot
  | .three s w0 w1 w2 =>
    if index = 3 && s = slot then
      { framing := .empty, fault := none, complete := some ⟨s, w0, w1, w2, w⟩ }
    else notTaken f slot

/-- A word at an offset goes to the framing; a word of index 0 starts over (R40). -/
def frameWord (f : Framing) (offset : BitVec 12) (w : Word) : Framed :=
  if wordIndex offset = 0 then
    { framing := .one (slotOf offset) w, fault := f.slot, complete := none }
  else frameNext f (wordIndex offset) (slotOf offset) w

/-! ## Lane states (3.4) -/

/-- A lane state in which records are accepted (Table 3-4). -/
def accepting : LaneState → Bool
  | .offline | .live | .degraded | .faulted | .silent => true
  | .unused | .disabled | .restarting => false

/-- Entering a lane state asks for the LANE flag (R52). -/
def flagsLane : LaneState → Bool
  | .silent | .faulted | .degraded | .restarting => true
  | .unused | .disabled | .offline | .live => false

/-- The effects on a lane of entering a state (R43, R52, R53). -/
def LaneUnit.enter (now : Time) (silence : Nat) (st : LaneState) (u : LaneUnit) : LaneUnit :=
  match st with
  | .disabled | .restarting | .unused => { u with state := st, framing := .empty, silence := none }
  | .silent => { u with state := st, silence := none }
  | .offline => { u with state := st, prevSeq := none, silence := some (timeAdd now silence) }
  | .live | .degraded | .faulted => { u with state := st }

/-- A change of lane state is announced to the VA and to the DU, and may ask for the LANE flag
(R52, log 18). -/
def announceLane (l : Lane) (before after : LaneState) (b : Blocks) : Blocks :=
  if before = after then b
  else
    let b := noticeLane l after (laneChanged l before after b)
    if flagsLane after then b.request .lane else b

/-- A lane enters a state. -/
def enterLane (l : Lane) (st : LaneState) (b : Blocks) : Blocks :=
  let u := b.lane l
  announceLane l u.state st (b.setLane l (u.enter b.now (silenceMs b.profile l) st))

/-! ## Accepted records (3.3) -/

/-- The fields common to every record. -/
def CaptureRecord.sequence : CaptureRecord → BitVec 8
  | .axle r => r.sequence
  | .passage r => r.sequence
  | .heartbeat r => r.sequence
  | .laneFault r => r.sequence
def CaptureRecord.age : CaptureRecord → BitVec 8
  | .axle r => r.age
  | .passage r => r.age
  | .heartbeat r => r.age
  | .laneFault r => r.age

/-- A record's number follows the lane's previous sequence, or sets the base (R45). -/
def inOrder (prev : Option (BitVec 8)) (n : BitVec 8) : Bool :=
  match prev with
  | none => true
  | some p => n = p + 1

/-- Stage 1, the sequence check (R45). -/
def checkSequence (l : Lane) (slot : BitVec 12) (n : BitVec 8) (b : Blocks) : Blocks :=
  let b := if inOrder (b.lane l).prevSeq n then b
    else suspectNotice l (laneFaultRecord .sequenceGap l slot b)
  b.setLane l { b.lane l with prevSeq := some n }

/-- The lane state after an accepted record (Table 3-5). -/
def stateAfter (r : CaptureRecord) (st : LaneState) : LaneState :=
  match r with
  | .heartbeat h => match h.health with
    | .healthy => .live
    | .degraded => .degraded
  | .laneFault _ => .faulted
  | .axle _ | .passage _ => match st with
    | .offline | .silent => .live
    | .live | .degraded | .faulted | .unused | .disabled | .restarting => st

/-- Stage 3, the state change (R51). A record that leaves the state as it was changes nothing. -/
def changeState (l : Lane) (r : CaptureRecord) (b : Blocks) : Blocks :=
  enterLane l (stateAfter r (b.lane l).state) b

/-- Stage 4, the silence expiry (R53). -/
def setSilence (l : Lane) (b : Blocks) : Blocks :=
  b.setLane l { b.lane l with silence := some (timeAdd b.now (silenceMs b.profile l)) }

/-- An AXLE as it goes to the VA, with the mark of the age check (R46, R47). -/
def axleOf (b : Blocks) (l : Lane) (r : AxleRecord) : Axle :=
  { lane := l, left := r.left.toNat, right := r.right.toNat, speed := r.speed.toNat,
    spacing := r.spacing.toNat, straddle := r.straddle, quality := r.quality,
    eventTime := timeSub b.now r.age.toNat, aged := decide (maxAge b.profile < r.age.toNat),
    laneState := (b.lane l).state }

/-- Delivery of an AXLE (R47). -/
def deliverAxle (l : Lane) (r : AxleRecord) (b : Blocks) : Blocks :=
  if reporting (b.lane l).state then takeAxle (axleOf b l r) b else b

/-- Delivery of a PASSAGE: the loop lane filter and the length filter (R48, R49). -/
def deliverPassage (l : Lane) (slot : BitVec 12) (r : PassageRecord) (b : Blocks) : Blocks :=
  let x := laneApproach b.profile l
  if l.val ≠ loopLane b.profile x then laneFaultRecord .misdirected l slot b
  else if r.length.toNat < heavyLenMin b.profile l then b
  else takePassage x r.loop (timeSub b.now r.age.toNat) b

/-- Stage 5, delivery by kind (R44). -/
def deliver (l : Lane) (slot : BitVec 12) (r : CaptureRecord) (b : Blocks) : Blocks :=
  match r with
  | .axle a => deliverAxle l a b
  | .passage p => deliverPassage l slot p b
  | .laneFault f => b.setLane l { b.lane l with faultCode := some f.code }
  | .heartbeat _ => b

/-- An accepted record goes through the stages of R44. -/
def acceptRecord (l : Lane) (slot : BitVec 12) (r : CaptureRecord) (b : Blocks) : Blocks :=
  deliver l slot r (setSilence l (changeState l r (checkSequence l slot r.sequence b)))

/-- A record of a lane, complete and past its checks; a lane that accepts none ignores it (R39). -/
def takeRecord (l : Lane) (slot : BitVec 12) (r : CaptureRecord) (b : Blocks) : Blocks :=
  if accepting (b.lane l).state then acceptRecord l slot r b else b

/-! ## Capture words (3.2) -/

/-- A completed record's checks and handling (R42). -/
def completeCapture (l : Lane) (c : CompleteRecord) (b : Blocks) : Blocks :=
  match acceptedRecord c.w0 c.w1 c.w2 c.w3 with
  | none => laneFaultRecord .malformed l c.slot b
  | some r => acceptRecord l c.slot r b

/-- The CU takes a word of a lane's capture window (R39 to R42). -/
def takeCaptureWord (l : Lane) (offset : BitVec 12) (w : Word) (b : Blocks) : Blocks :=
  let u := b.lane l
  if !accepting u.state then b
  else
    let f := frameWord u.framing offset w
    let b := b.setLane l { u with framing := f.framing }
    let b := match f.fault with
      | none => b
      | some slot => laneFaultRecord .framing l slot b
    match f.complete with
    | none => b
    | some c => completeCapture l c b

/-! ## Silence and restart (3.5) -/

/-- A lane restarts: its line is driven low until its pulse end (R54). -/
def restartLane (l : Lane) (b : Blocks) : Blocks :=
  let u := b.lane l
  enterLane l .restarting (b.setLane l
    { u with restartCount := u.restartCount + 1, lineLow := true, disablePending := false,
             pulseEnd := some (timeAdd b.now (resetPulse b.profile)) })

/-- The silence action (R54). -/
def silenceAction (l : Lane) (b : Blocks) : Blocks :=
  if silenceRestarts b.profile l && decide ((b.lane l).restartCount < restartLimit b.profile) then
    restartLane l b
  else enterLane l .silent b

/-- A state in which the silence expiry acts (R54). -/
def listening : LaneState → Bool
  | .offline | .live | .degraded | .faulted => true
  | .silent | .unused | .disabled | .restarting => false

/-- A lane's silence expiry is reached (R54). -/
def reachSilence (l : Lane) (b : Blocks) : Blocks :=
  let u := b.lane l
  if listening u.state && u.silence.any (reached b.now) then silenceAction l b else b

/-- A lane's pulse end is reached (R55). -/
def reachPulseEnd (l : Lane) (b : Blocks) : Blocks :=
  let u := b.lane l
  if u.state = .restarting && u.pulseEnd.any (reached b.now) then
    enterLane l (if u.disablePending then .disabled else .offline)
      (b.setLane l { u with lineLow := false, pulseEnd := none, disablePending := false })
  else b

/-! ## Lane commands (3.6) -/

/-- The lane that an operand names; above 5 it names none. -/
def laneOf (n : BitVec 8) : Option Lane := if h : n.toNat < 6 then some ⟨n.toNat, h⟩ else none

/-- LANE_DISABLE on a lane (R57). -/
def disableLane (l : Lane) (b : Blocks) : Result × Blocks :=
  match (b.lane l).state with
  | .unused => (.badOperand, b)
  | .restarting => (.done, b.setLane l { b.lane l with disablePending := true })
  | .disabled => (.done, b)
  | .offline | .live | .degraded | .faulted | .silent => (.done, enterLane l .disabled b)

/-- LANE_ENABLE on a lane (R58). -/
def enableLane (l : Lane) (b : Blocks) : Result × Blocks :=
  match (b.lane l).state with
  | .disabled => (.done, enterLane l .offline b)
  | .unused | .restarting | .offline | .live | .degraded | .faulted | .silent => (.badOperand, b)

/-- LANE_RECOVER on a lane (R59). -/
def recoverLane (l : Lane) (b : Blocks) : Result × Blocks :=
  let cleared := b.setLane l { b.lane l with restartCount := 0 }
  match (b.lane l).state with
  | .unused => (.badOperand, b)
  | .silent => (.done, enterLane l .offline cleared)
  | .disabled | .restarting | .offline | .live | .degraded | .faulted => (.done, cleared)

/-- A lane command: an operand above 5 is refused before any other test (3.6). -/
def laneCommand (act : Lane → Blocks → Result × Blocks) (n : BitVec 8) (b : Blocks) :
    Result × Blocks :=
  match laneOf n with
  | none => (.badOperand, b)
  | some l => act l b

/-! ## Mode changes (3.7) -/

/-- A lane as ENTER_BYPASS and APPLY_PROFILE leave it before its new state is entered; the previous
sequence becomes absent at an entry to OFFLINE alone (R60, R45). -/
def LaneUnit.cleared (u : LaneUnit) : LaneUnit :=
  { LaneUnit.reset with state := u.state, prevSeq := u.prevSeq }

/-- Every lane's view is reset, and each enters OFFLINE when in use in the active profile and UNUSED
otherwise (R38, R60). -/
def resetLanes (b : Blocks) : Blocks :=
  allLanes.foldl (fun b l =>
    enterLane l (if laneInUse b.profile l then .offline else .unused)
      (b.setLane l (b.lane l).cleared)) b

/-- A lane's reset line as the LRST pin shows it: high is released (R61). -/
def Blocks.resetLine (b : Blocks) (l : Lane) : Bool := !(b.lane l).lineLow

end Sys2Proof.Machine
end

