-- ==== Sys2Proof/Machine/Restriction.lean ====
section
/-! DEFINITION. The Restriction Unit (Chapter 7): laying and lifting restrictions, and the reports of
a change. -/

namespace Sys2Proof.Machine

/-- The most entries the Restriction Stack holds (Table 0-3). -/
def stackCapacity : Nat := 8

/-- A field of the operands, where its presence mark is set (R134). -/
def optionalField {α : Type} (present : Bool) (v : α) : Option α := if present then some v else none

/-- The entry that the operands of a push spell (Table 11-3); none when a present field fails R134:
a limit of 0, a heavy limit above 8, or a closed code that names nothing. -/
def entryOf (o : PushOperands) : Option Restriction :=
  if o.spanLoadPresent && o.spanLoad = 0 then none
  else if o.grossPresent && o.gross = 0 then none
  else if o.heavyPresent && !inRange o.heavy.toNat 1 8 then none
  else
    let entry (closed : Option (PerApproach Bool)) : Restriction :=
      { origin := o.origin, spanLoad := optionalField o.spanLoadPresent o.spanLoad.toNat,
        heavy := optionalField o.heavyPresent o.heavy.toNat,
        gross := optionalField o.grossPresent o.gross.toNat, closed }
    if o.closedPresent then (closedOfCode o.closed.toNat).map fun c => entry (some c)
    else some (entry none)

/-- One approach closed after a command and not before it (R137). -/
def newlySet (before after : PerApproach Bool) : PerApproach Bool :=
  ⟨after.a && !before.a, after.b && !before.b⟩

/-- A limit compared: TIGHTENED when its value after is smaller than before, LOOSENED when it is
greater, STAYED when it is equal (R137). -/
def limitChange (before after : Nat) : LimitChange :=
  if after < before then .tightened else if before < after then .loosened else .stayed

/-- The report to the AU: the three limits compared, and the approaches that changed (R137). -/
def reportOf (before after : Blocks) : RestrictionReport :=
  { spanLoad := limitChange before.effSpanLoad after.effSpanLoad
    heavy := limitChange before.effHeavy after.effHeavy
    gross := limitChange before.effGross after.effGross
    becameClosed := newlySet before.effClosed after.effClosed
    becameOpen := newlySet after.effClosed before.effClosed }

/-- The stack changes; the DU and then the AU are told (R137, R138). -/
def changeStack (f : List Restriction → List Restriction) (b : Blocks) : Blocks :=
  let after := b.onRu fun r => { r with stack := f r.stack }
  actOnReport (reportOf b after) (noticeClosure b.effClosed after.effClosed after)

/-- PUSH_RESTRICTION in SERVICE and ACTIVE (R134, R135). -/
def pushEntry (o : PushOperands) (b : Blocks) : Result × Blocks :=
  match entryOf o with
  | none => (.badOperand, b)
  | some e =>
    if looserThan b.profile e then (.looser, b)
    else if stackCapacity ≤ b.ru.stack.length then (.stackFull, b)
    else (.done, changeStack (fun s => e :: s) b)

/-- The expected origin is ANY (Table 11-3). -/
def anyOrigin : BitVec 9 := 0x100

/-- POP_RESTRICTION in SERVICE and ACTIVE (R136). -/
def popEntry (expected : BitVec 9) (b : Blocks) : Result × Blocks :=
  if anyOrigin.toNat < expected.toNat then (.badOperand, b)
  else match b.ru.stack with
    | [] => (.stackEmpty, b)
    | e :: _ =>
      if expected ≠ anyOrigin && expected ≠ e.origin.setWidth 9 then (.notFound, b)
      else (.done, changeStack List.tail b)

/-- The stack holds an entry looser than page 0 of a set of stored pages (R142). -/
def looserThanStored (p : Pages) (b : Blocks) : Bool := b.ru.stack.any (looserThan p)

end Sys2Proof.Machine
end

