-- ==== Sys2Proof/Machine/Supervisor.lean ====
section
/-! DEFINITION. The Supervisor Unit (Chapter 10): the Road Clock, the Profile Store, the modes,
start-up and the supply watch, with what each mode change does in the blocks. -/

namespace Sys2Proof.Machine

/-! ## The Road Clock (R172) -/

/-- The prescaler counts from step 2 of start-up on. -/
def Supervisor.counting (u : Supervisor) : Bool := u.startUp ≠ .causeHolds

/-- The prescaler count reaches its divisor: the count returns to 0 and the Road Clock rises. The
expiries of a vehicle record that were reached stay reached (R86). -/
def tickClock (b : Blocks) : Blocks :=
  (b.onVt fun v => { v with table := v.table.map (·.latch b.now) }).onSu fun u =>
    { u with count := 0, clock := u.clock + 1 }

/-- One period of the reference clock. -/
def clockPeriod (b : Blocks) : Blocks :=
  if !b.su.counting then b
  else if b.su.count + 1 < b.su.divisor then b.onSu fun u => { u with count := u.count + 1 }
  else tickClock b

/-- The remaining periods up to the next rise of the Road Clock (log 12). -/
def clockRises (b : Blocks) : Blocks := if b.su.counting then tickClock b else b

/-! ## Programming and erasing (10.3) -/

/-- The store is busy while its state is not IDLE (Table 10-1). -/
def StoreState.busy : StoreState → Bool
  | .idle => false
  | .reading _ | .programming _ | .erasing _ => true

/-- The page that an operand names; above 4 it names none. -/
def pageOf (n : BitVec 8) : Option (Fin 5) := if h : n.toNat < 5 then some ⟨n.toNat, h⟩ else none

/-- The start word that an operand names; above 15 it names none. -/
def startWordOf (n : BitVec 8) : Option (Fin 16) :=
  if h : n.toNat < 16 then some ⟨n.toNat, h⟩ else none

/-- The program buffer that a PROFILE_PROGRAM's operands give; none where they fail R174. -/
def programOf (page startWord count : BitVec 8) (source : Addr) : Option ProgramBuffer :=
  match pageOf page, startWordOf startWord with
  | some p, some s =>
    if inRange count.toNat 1 16 && !misaligned source
        && decide (source.toNat + 4 * count.toNat ≤ 2 ^ 24) then
      some { page := p, startWord := s, count := count.toNat, source, words := [] }
    else none
  | _, _ => none

/-- BUSY and PROTECTED as R174 and R176 test them. -/
def storeRefusal (u : Supervisor) (page : Fin 5) : Option Result :=
  if u.storeState.busy then some .busy
  else if page = 0 && u.limlock then some .isProtected
  else none

/-- PROFILE_PROGRAM (R174). -/
def beginProgram (page startWord count : BitVec 8) (source : Addr) (b : Blocks) : Result × Blocks :=
  match programOf page startWord count source with
  | none => (.badOperand, b)
  | some p =>
    match storeRefusal b.su p.page with
    | some r => (r, b)
    | none => (.started, b.onSu fun u => { u with storeState := .reading p })

/-- PROFILE_ERASE (R176). -/
def beginErase (page : BitVec 8) (b : Blocks) : Result × Blocks :=
  match pageOf page with
  | none => (.badOperand, b)
  | some p =>
    match storeRefusal b.su p with
    | some r => (r, b)
    | none => (.started, b.onSu fun u => { u with storeState := .erasing p })

/-- A source word joins the program buffer; the full buffer starts programming (R175). -/
def takeSourceWord (w : Word) (b : Blocks) : Blocks :=
  b.onSu fun u =>
    match u.storeState with
    | .reading p =>
      let p := { p with words := p.words ++ [w] }
      { u with storeState := if p.words.length < p.count then .reading p else .programming p }
    | .idle | .programming _ | .erasing _ => u

/-- Source words programmed into a page from a word upwards, modulo 16: each target word becomes its
old value AND the source word (R175). -/
def programWords (i : Fin 16) : List Word → Page → Page
  | [], p => p
  | w :: ws, p => programWords (i + 1) ws (p.set i (p[i] &&& w))

/-- The end of a store operation: the changed page, the validity of all five pages, the outcome and
LONG_OP_DONE (R175, R176). -/
def storeDone (page : Fin 5) (f : Page → Page) (o : StoreOutcome) (b : Blocks) : Blocks :=
  (b.onSu fun u =>
    let store := u.store.set page (f u.store[page])
    { u with store, storeState := .idle, validity := pagesValidity store, outcome := o }).request
    .longOpDone

/-- Programming completes (R175). -/
def finishProgram (b : Blocks) : Blocks :=
  match b.su.storeState with
  | .programming p => storeDone p.page (programWords p.startWord p.words) (.programmed p.page) b
  | .idle | .reading _ | .erasing _ => b

/-- Erasing completes (R176). -/
def finishErase (b : Blocks) : Blocks :=
  match b.su.storeState with
  | .erasing page => storeDone page (fun _ => erasedPage) (.erased page) b
  | .idle | .reading _ | .programming _ => b

/-- Words of a page that an operation cut off by a reset was changing: each holds its old value or
its new value, as the free value says of it (R177, log 21). -/
def cutWords (lands : Nat → Bool) (i : Fin 16) : Nat → List (Word → Word) → Page → Page
  | _, [], p => p
  | k, f :: fs, p =>
    cutWords lands (i + 1) (k + 1) fs (p.set i (if lands k then f p[i] else p[i]))

/-- The store as a reset leaves it, with the free values it takes (R177). -/
def cutStore (lands : Nat → Bool) (u : Supervisor) : Supervisor :=
  match u.storeState with
  | .idle | .reading _ => u
  | .programming p =>
    { u with
      store := u.store.set p.page (cutWords lands p.startWord u.freeCount
        (p.words.map fun w x => x &&& w) u.store[p.page])
      freeCount := u.freeCount + p.words.length }
  | .erasing page =>
    { u with
      store := u.store.set page (cutWords lands 0 u.freeCount
        (List.replicate 16 fun _ => 0xFFFFFFFF) u.store[page])
      freeCount := u.freeCount + 16 }

/-! ## Modes (10.4) -/

/-- The settle expiry that entering ACTIVE sets: absent with settle_ms 0 (R179). -/
def settleFrom (now : Time) (p : Pages) : Option Time :=
  if 0 < settleMs p then some (timeAdd now (settleMs p)) else none

/-- START in SERVICE (R179). -/
def startActive (b : Blocks) : Blocks :=
  let b := b.onSu fun u => { u with mode := .active, settleExpiry := settleFrom b.now b.profile }
  startNotice b.su.settleExpiry.isSome b

/-- STOP in ACTIVE (R180): the DU takes the SU's notice first (R152), then the VA, the VT and the AU
act (log 32). -/
def stopActive (b : Blocks) : Blocks :=
  let b := b.onSu fun u => { u with mode := .service, settleExpiry := none }
  stopAdmission (abandonAll (discardVehicles (stopNotice b)))

/-- ENTER_BYPASS drops the Journal Writer queue (R171). -/
def dropJournal (b : Blocks) : Blocks :=
  if b.csu.journal.isEmpty then b
  else (b.onCsu fun c => { c with journal := [] }).request .journalLost

/-- ENTER_BYPASS in SERVICE, in the blocks (R181). -/
def bypassBlocks (b : Blocks) : Blocks :=
  let b := b.onSu fun u => { u with mode := .bypass, active := none }
  dropJournal (resetLanes (bypassNotice b))

/-- The oldest record starts again at word 0 (R171). -/
def restartOldest : List JournalEntry → List JournalEntry
  | [] => []
  | e :: rest => { e with next := 0 } :: rest

/-- APPLY_PROFILE brings the journal index within the new ring (R171). -/
def applyJournal (b : Blocks) : Blocks :=
  b.onCsu fun c => { c with
    writeIndex := if c.writeIndex.toNat < journalCount b.profile then c.writeIndex else 0
    journal := restartOldest c.journal }

/-- The apply in the SU (R178, step 4). -/
def Supervisor.apply (u : Supervisor) : Supervisor :=
  { u with active := some u.store, mode := .service, settleExpiry := none,
           divisor := clockDivisor u.store, count := 0 }

/-- An accepted APPLY_PROFILE, in the blocks (R178). -/
def applyBlocks (b : Blocks) : Blocks :=
  applyJournal (resetLanes (applyNotice (b.onSu Supervisor.apply)))

/-- The refusals of APPLY_PROFILE in BYPASS and SERVICE (R178). -/
def applyRefusal (b : Blocks) : Option Result :=
  if b.su.storeState.busy then some .busy
  else if !b.su.validity.toList.all id then some .badOperand
  else if looserThanStored b.su.store b then some .looser
  else none

/-- The settle expiry is reached in ACTIVE (R179). -/
def reachSettle (b : Blocks) : Blocks :=
  if b.su.mode = .active && b.su.settleExpiry.any (reached b.now) then
    noticeSettled (b.onSu fun u => { u with settleExpiry := none })
  else b

/-! ## Reset and start-up (10.5) -/

/-- The SU as a reset leaves it; the store, the validity and the divisor stay as start-up next finds
or sets them (Table 10-1, log 8), and LIMLOCK is a pin. -/
def Supervisor.afterReset (cause : ResetCause) (u : Supervisor) : Supervisor :=
  let u := cutStore cutOffLands u
  { Supervisor.reset with cause, store := u.store, validity := u.validity, divisor := u.divisor,
                          limlock := u.limlock, freeCount := u.freeCount }

/-- Every block takes its state after reset (R182). -/
def resetBlocks (cause : ResetCause) (b : Blocks) : Blocks :=
  { Blocks.reset with su := b.su.afterReset cause }

/-- The mode that start-up chooses (R182, step 4). -/
def chosenMode (validity : Vector Bool 5) (store : Pages) (strap : Bool) : Mode :=
  if strap || !validity.toList.all id then .bypass
  else if autostart store then .active
  else .service

/-- Steps 1 to 4 of start-up (R182). -/
def Supervisor.startUpSteps (below strap : Bool) (u : Supervisor) : Supervisor :=
  let validity := pagesValidity u.store
  { u with
    validity
    divisor := if validity[3] then clockDivisor u.store else defaultDivisor
    supply := if below then .warning else .normal
    startUp := .chosen (chosenMode validity u.store strap) }

/-- No cause holds any more (R182). -/
def causesEnd (below strap : Bool) (b : Blocks) : Blocks :=
  match b.su.startUp with
  | .causeHolds => b.onSu (Supervisor.startUpSteps below strap)
  | .chosen _ | .over => b

/-- The end of start-up in the SU: the mode, the active profile and the settle interval. -/
def Supervisor.endStartUp (m : Mode) (u : Supervisor) : Supervisor :=
  { u with
    mode := m
    startUp := .over
    active := if m = .bypass then none else some u.store
    settleExpiry := if m = .active then settleFrom u.clock u.store else none }

/-- The DU at the end of start-up (R144), told of the supply warning when it holds (R182). -/
def startUpNotice (b : Blocks) : Blocks :=
  let warning := b.su.supply = .warning
  if b.su.mode = .bypass then
    let b := bypassNotice b
    if warning then noticeSupply true b else b
  else startUpEnds b.su.mode b.su.settleExpiry.isSome warning b

/-- The end of start-up, in the blocks (R182): the SU, the SUPPLY_WARN flag, the DU, the CU. -/
def endBlocks (m : Mode) (b : Blocks) : Blocks :=
  let b := b.onSu (Supervisor.endStartUp m)
  let b := if b.su.supply = .warning then b.request .supplyWarn else b
  resetLanes (startUpNotice b)

/-! ## Supply watch (R183) -/

/-- The supply crosses a level: nothing from the reset until step 3 of start-up, the state alone
until the end of start-up, and the state with its notice, and the flag at the start of a warning,
after it. -/
def crossSupply (before after : Supply) (b : Blocks) : Blocks :=
  if b.su.supply ≠ before then b
  else
    let moved := b.onSu fun u => { u with supply := after }
    match b.su.startUp with
    | .causeHolds => b
    | .chosen _ => moved
    | .over =>
      match after with
      | .warning => noticeSupply true (moved.request .supplyWarn)
      | .normal => noticeSupply false moved

end Sys2Proof.Machine
end

