-- ==== Sys2Proof/Machine/MemoryPort.lean ====
section
/-! DEFINITION. The Memory Port (1.3): the waiting requests, the grant, and the completion of a
cycle. -/

namespace Sys2Proof.Machine

/-! ## Waiting requests (R10) -/

/-- A cycle under way that is not marked discarded is a walk read. -/
def CycleState.walkRead : CycleState → Bool
  | .busy (.walkRegion _ discarded) => !discarded
  | .busy (.walkPage _ discarded) => !discarded
  | .busy (.forward _) | .busy (.journal _ _ _) | .busy (.source _) | .idle | .handing => false

/-- The cycle under way is a journal word's, discarded or not. -/
def CycleState.journalWord : CycleState → Bool
  | .busy (.journal _ _ _) => true
  | .busy (.walkRegion _ _) | .busy (.walkPage _ _) | .busy (.forward _) | .busy (.source _)
  | .idle | .handing => false

/-- The cycle under way is a profile source word's. -/
def CycleState.sourceWord : CycleState → Bool
  | .busy (.source _) => true
  | .busy (.walkRegion _ _) | .busy (.walkPage _ _) | .busy (.forward _) | .busy (.journal _ _ _)
  | .idle | .handing => false

/-- The transaction that a slot holds. -/
def Slot.transaction : Slot → Option Transaction
  | .free => none
  | .held t => some t
  | .translating t _ => some t
  | .memory t _ _ => some t

/-- The logical address that a master's slot holds. -/
def State.slotAddress (s : State) (m : Master) : Addr :=
  match (s.slot m).transaction with
  | some t => t.address
  | none => 0

/-- The address of the region entry that a walk reads (R24). -/
def regionEntryAddress (base : BitVec 12) (logical : Addr) : Addr :=
  physical base ((addrRegion logical).setWidth 12 <<< 2)

/-- The address of the page entry that a walk reads (R25). -/
def pageEntryAddress (tablePage : BitVec 12) (logical : Addr) : Addr :=
  physical tablePage ((addrPage logical).setWidth 12 <<< 2)

/-- The Walk Engine's request, when one waits. -/
def State.walkRequest (s : State) : Option Cycle :=
  if s.mp.cycle.walkRead then none
  else match s.ptu.engine with
    | .idle => none
    | .region w => some (.walkRegion (regionEntryAddress w.base (s.slotAddress w.master)) false)
    | .page w tablePage => some (.walkPage (pageEntryAddress tablePage (s.slotAddress w.master)) false)

/-- The forwarded request of a master waits: its slot is in MEMORY and not in its cycle (R5). -/
def State.forwardWaits (s : State) (m : Master) : Bool :=
  match s.slot m with
  | .memory _ _ _ => s.mp.cycle ≠ .busy (.forward m)
  | .free | .held _ | .translating _ _ => false

/-- The physical address of word `k` of the record being written (R10). -/
def journalAddress (b : Blocks) (k : Fin 8) : Addr :=
  BitVec.ofNat 24 ((journalBase b.profile).toNat * 4096 + b.csu.writeIndex.toNat * 32 + 4 * k.val)

/-- The Journal Writer's request, when one waits: the next unwritten word of the oldest record. -/
def State.journalRequest (s : State) : Option Cycle :=
  if s.mp.cycle.journalWord then none
  else match s.blocks.csu.journal with
    | [] => none
    | e :: _ => some (.journal (journalAddress s.blocks e.next) (e.words[e.next]) false)

/-- The profile source reader's request, when one waits: the next source word. -/
def State.sourceRequest (s : State) : Option Cycle :=
  if s.mp.cycle.sourceWord then none
  else match s.blocks.su.storeState with
    | .reading p => some (.source (p.source + BitVec.ofNat 24 (4 * p.words.length)))
    | .idle | .programming _ | .erasing _ => none

/-! ## Grants (R11, R12) -/

/-- The masters in the order in which a grant looks at them (R11, step 3). -/
def searchOrder (pointer : Master) : List Master :=
  [pointer + 1, pointer + 2, pointer + 3, pointer + 4, pointer + 5, pointer + 6, pointer + 7, pointer]

/-- The first master in the search order with a forwarded request waiting. -/
def State.nextForward (s : State) : Option Master :=
  (searchOrder s.mp.pointer).find? s.forwardWaits

/-- A forwarded grant: the pointer takes the master's number, and the journal wait count rises when
the Journal Writer waits (R11, R12). -/
def grantForward (m : Master) (s : State) : State :=
  s.onMp fun p => { p with
    cycle := .busy (.forward m), pointer := m,
    waitCount := if s.journalRequest.isSome then min 4 (p.waitCount + 1) else p.waitCount }

/-- A journal grant sets the journal wait count to 0 (R12). -/
def grantJournal (c : Cycle) (s : State) : State :=
  s.onMp fun p => { p with cycle := .busy c, waitCount := 0 }

/-- A walk or source grant leaves the pointer and the count as they are (R12). -/
def grantOther (c : Cycle) (s : State) : State := s.onMp fun p => { p with cycle := .busy c }

/-- The grant among the requests below the walk's (R11, steps 2 to 5). -/
def grantBelowWalk (s : State) : State :=
  match s.journalRequest, s.nextForward with
  | some j, some m => if s.mp.waitCount = 4 then grantJournal j s else grantForward m s
  | some j, none => grantJournal j s
  | none, some m => grantForward m s
  | none, none =>
    match s.sourceRequest with
    | some c => grantOther c s
    | none => s

/-- The grant (R11). -/
def grant (s : State) : State :=
  match s.walkRequest with
  | some c => grantOther c s
  | none => grantBelowWalk s

/-- A request that arrives while the MP is IDLE is granted at once (R9). -/
def poke (s : State) : State := if s.mp.cycle = .idle then grant s else s

/-- An event in the blocks, after which the MP looks at what it may have presented. -/
def State.act (s : State) (f : Blocks → Blocks) : State := poke (s.onBlocks f)

/-- A cycle completes: the result is handed over, and then the next cycle is granted (R9). -/
def complete (hand : State → State) (s : State) : State :=
  let s := hand (s.onMp fun p => { p with cycle := .handing })
  grant (s.onMp fun p => { p with cycle := .idle })

/-- The journal wait count is set to 0 when the Journal Writer queue becomes empty (R12). -/
def journalEmptied (s : State) : State :=
  if s.blocks.csu.journal.isEmpty then s.onMp fun p => { p with waitCount := 0 } else s

/-! ## Journal and source words (R170, R175) -/

/-- The next index of the ring, and the wrap count after it (R170). -/
def advanceIndex (b : Blocks) : Blocks :=
  b.onCsu fun c =>
    if c.writeIndex.toNat + 1 < journalCount b.profile then
      { c with writeIndex := c.writeIndex + 1 }
    else { c with writeIndex := 0, wrapCount := c.wrapCount + 1 }

/-- A journal word's completion is reported: the next word of the record, or after word 7 the record
leaves the queue and the write index advances (R170). -/
def journalWordWritten (b : Blocks) : Blocks :=
  match b.csu.journal with
  | [] => b
  | e :: rest =>
    if e.next = 7 then advanceIndex (b.onCsu fun c => { c with journal := rest })
    else b.onCsu fun c => { c with journal := { e with next := e.next + 1 } :: rest }

/-- The completion of a journal word's cycle; one marked discarded stores its word and advances
nothing (R171). -/
def journalDone (s : State) : State :=
  match s.mp.cycle with
  | .busy (.journal address data discarded) =>
    complete (fun s =>
      let s := { s with mem := writeWord s.mem address data }
      if discarded then s else journalEmptied (s.onBlocks journalWordWritten)) s
  | .busy (.walkRegion _ _) | .busy (.walkPage _ _) | .busy (.forward _) | .busy (.source _)
  | .idle | .handing => s

/-- The completion of a profile source word's cycle (R175). -/
def sourceDone (s : State) : State :=
  match s.mp.cycle with
  | .busy (.source address) =>
    complete (fun s => s.onBlocks (takeSourceWord (readWord s.mem address))) s
  | .busy (.walkRegion _ _) | .busy (.walkPage _ _) | .busy (.forward _) | .busy (.journal _ _ _)
  | .idle | .handing => s

end Sys2Proof.Machine
end

