-- ==== Sys2Proof/Machine/Translation.lean ====
section
/-! DEFINITION. The Page Translation Unit (Chapter 2): the Translation Buffer, the Walk Engine and its
queue, the Sweep, and what APPLY_PROFILE and ENTER_BYPASS do there. -/

namespace Sys2Proof.Machine

/-! ## The Translation Buffer (2.1) -/

/-- The check value of the seven guarded fields: the fields themselves, side by side (DESIGN CHOICE,
log 4), so that any changed field shows. -/
def checkValue (tag : BitVec 8) (e : WalkedEntry) : BitVec 28 :=
  tag ++ BitVec.ofBool e.readPermit ++ BitVec.ofBool e.writePermit
    ++ (match e.kind with
        | .plain => 0#3
        | .capture => 1#3
        | .command => 2#3
        | .status => 3#3
        | .directive => 4#3)
    ++ e.channel ++ e.page

/-- The fields of an entry that an access uses. -/
def Entry.walked (e : Entry) : WalkedEntry :=
  { readPermit := e.readPermit, writePermit := e.writePermit, kind := e.kind, channel := e.channel,
    page := e.page }

/-- The check of an entry passes (R18). -/
def Entry.checks (e : Entry) : Bool := e.check = checkValue e.tag e.walked

/-- The entry that a fill writes (R17, R28). -/
def filledEntry (tag : BitVec 8) (e : WalkedEntry) : Entry :=
  { valid := true, tag, readPermit := e.readPermit, writePermit := e.writePermit, kind := e.kind,
    channel := e.channel, page := e.page, check := checkValue tag e }

/-- A way is valid and matches a tag. -/
def Entry.matchesTag (tag : BitVec 8) (e : Entry) : Bool := e.valid && e.tag = tag

/-- A way after a look-up: a matching way that fails its check is invalidated (R20). -/
def Entry.afterLookup (tag : BitVec 8) (e : Entry) : Entry :=
  if e.matchesTag tag && !e.checks then { e with valid := false } else e

/-- What a look-up of a set finds: the entry of a hit, and whether a matching way failed its check. -/
def BufferSet.find (tag : BitVec 8) (b : BufferSet) : Option Entry :=
  if b.wayA.matchesTag tag && b.wayA.checks then some b.wayA
  else if b.wayB.matchesTag tag && b.wayB.checks then some b.wayB
  else none
def BufferSet.checkFails (tag : BitVec 8) (b : BufferSet) : Bool :=
  (b.wayA.matchesTag tag && !b.wayA.checks) || (b.wayB.matchesTag tag && !b.wayB.checks)

/-- A set after a look-up; its toggle is not changed (R20). -/
def BufferSet.afterLookup (tag : BitVec 8) (b : BufferSet) : BufferSet :=
  { b with wayA := b.wayA.afterLookup tag, wayB := b.wayB.afterLookup tag }

/-- A set after a fill (R28). -/
def BufferSet.fill (tag : BitVec 8) (e : WalkedEntry) (b : BufferSet) : BufferSet :=
  let new := filledEntry tag e
  if b.wayA.matchesTag tag then { b with wayA := new }
  else if b.wayB.matchesTag tag then { b with wayB := new }
  else if !b.wayA.valid then { b with wayA := new }
  else if !b.wayB.valid then { b with wayB := new }
  else match b.toggle with
    | .A => { b with wayA := new, toggle := .B }
    | .B => { b with wayB := new, toggle := .A }

/-- A set of a master's area, and the PTU with it changed. -/
def Ptu.set (p : Ptu) (m : Master) (i : Fin 16) : BufferSet := (p.buffer[m])[i]
def Ptu.onSet (p : Ptu) (m : Master) (i : Fin 16) (f : BufferSet → BufferSet) : Ptu :=
  { p with buffer := p.buffer.set m ((p.buffer[m]).set i (f (p.set m i))) }

/-- The whole buffer cleared (R35, R36). -/
def Ptu.clear (p : Ptu) : Ptu := { p with buffer := Ptu.reset.buffer }

/-! ## Slots in TRANSLATING (Table 1-1) -/

/-- The place of a master's transaction with the PTU changes. -/
def State.moveTo (s : State) (m : Master) (stage : PtuPlace) : State :=
  match s.slot m with
  | .translating t _ => s.setSlot m (.translating t stage)
  | .free | .held _ | .memory _ _ _ => s

/-- A slot's transaction is at a place with the PTU. -/
def Slot.isAt (stage : PtuPlace) : Slot → Bool
  | .translating _ p => p = stage
  | .free | .held _ | .memory _ _ _ => false

/-- The masters whose transactions are at a place, in ascending order. -/
def State.mastersAt (s : State) (stage : PtuPlace) : List Master :=
  allMasters.filter fun m => (s.slot m).isAt stage

/-- A passed access enters MEMORY and presents its request (R5). -/
def toMemory (m : Master) (t : Transaction) (address : Addr) (kind : WindowKind) (s : State) : State :=
  poke (s.setSlot m (.memory t address kind))

/-! ## The Walk Engine (2.4) -/

/-- The next walk begins when the engine is IDLE and a master waits (R24). -/
def walkNext (s : State) : State :=
  match s.ptu.engine, s.ptu.queue with
  | .idle, m :: rest =>
    let p := s.blocks.profile
    let w : Walk := { master := m, base := regionTableBase p m, memoryPages := memoryPages p,
                      areaSwept := false, profileApplied := false }
    poke ((s.moveTo m .walking).onPtu fun t => { t with engine := .region w, queue := rest })
  | .idle, [] => s
  | .region _, _ => s
  | .page _ _, _ => s

/-- A master that misses joins the tail of the queue, and its walk begins when the engine is IDLE
(R23). -/
def joinQueue (m : Master) (s : State) : State :=
  walkNext ((s.moveTo m .queued).onPtu fun p => { p with queue := p.queue ++ [m] })

/-- The walk that the engine makes. -/
def Engine.walk : Engine → Option Walk
  | .idle => none
  | .region w => some w
  | .page w _ => some w

/-- The engine with its walk's marks changed. -/
def Engine.onWalk (f : Walk → Walk) : Engine → Engine
  | .idle => .idle
  | .region w => .region (f w)
  | .page w t => .page (f w) t

/-- The walked entry that a page entry's word gives; none where R26 finds it out of range. -/
def walkedEntry (memoryPages : Nat) (w : Word) : Option WalkedEntry :=
  let channel := w.extractLsb' 13 3
  match windowKindOf (field w 16 3) with
  | none => none
  | some kind =>
    if decide ((entryPage w).toNat < memoryPages) && channelAllowed kind channel.toNat then
      some { readPermit := mark w 30, writePermit := mark w 29, kind, channel, page := entryPage w }
    else none

/-- The fill of a successful walk, when neither mark is set (R28, R29). -/
def fillBuffer (w : Walk) (logical : Addr) (e : WalkedEntry) (p : Ptu) : Ptu :=
  if w.areaSwept || w.profileApplied then p
  else p.onSet w.master (addrSet logical) (BufferSet.fill (addrTag logical) e)

/-! ## The Sweep (2.5) -/

/-- A target covers an area. -/
def SweepTarget.covers (m : Master) : SweepTarget → Bool
  | .area a => a = m
  | .all => true

/-- A running sweep covers an area. -/
def Sweep.coversNow (m : Master) (w : Sweep) : Bool :=
  w.running && w.target.any (SweepTarget.covers m)

/-- The target that an operand names: an area 0-7, or 0xFF for ALL. -/
def sweepTargetOf (area : BitVec 8) : Option SweepTarget :=
  if h : area.toNat < 8 then some (.area ⟨area.toNat, h⟩)
  else if area = 0xFF then some .all
  else none

/-- The first area of a target. -/
def SweepTarget.first : SweepTarget → Master
  | .area m => m
  | .all => 0

/-- The sweep of a target starts (R30). -/
def startSweep (t : SweepTarget) (p : Ptu) : Ptu :=
  { p with
    sweep := { p.sweep with running := true, target := some t, position := some ⟨t.first, 0⟩ }
    engine := p.engine.onWalk fun w =>
      if t.covers w.master then { w with areaSwept := true } else w }

/-- INVALIDATE_AREA in SERVICE and ACTIVE (R30). -/
def invalidate (area : BitVec 8) (s : State) : Result × State :=
  match sweepTargetOf area with
  | none => (.badOperand, s)
  | some t =>
    if s.ptu.sweep.running then (.busy, s)
    else (.started, s.onPtu (startSweep t))

/-- The position after a step; none after the last set of the target (R31). -/
def SweepTarget.nextPosition (q : SweepPosition) : SweepTarget → Option SweepPosition
  | .area _ => if q.index = 15 then none else some ⟨q.area, q.index + 1⟩
  | .all =>
    if q.index = 15 then
      if q.area = 7 then none else some ⟨q.area + 1, 0⟩
    else some ⟨q.area, q.index + 1⟩

/-- A running sweep ends early (R35, R36). -/
def supersede (s : State) : State :=
  if s.ptu.sweep.running then
    (s.onPtu fun p => { p with
      sweep := { p.sweep with running := false, position := none, outcome := .superseded } }).onBlocks
      fun b => b.request .longOpDone
  else s

/-! ## APPLY_PROFILE and ENTER_BYPASS (2.6) -/

/-- A transaction handed to R19 again at an apply: passed at once for a DIRECT master; otherwise it
misses on the empty buffer and joins the queue (R35). -/
def handAgain (s : State) (m : Master) : State :=
  match s.slot m with
  | .translating t _ =>
    if isDirect s.blocks.profile m then toMemory m t t.address .plain s else joinQueue m s
  | .free | .held _ | .memory _ _ _ => s

/-- The PTU at APPLY_PROFILE, with the new active profile in place (R35): the queued masters in queue
order, then the transactions that waited for a sweep in ascending order (log 17). -/
def applyPtu (s : State) : State :=
  let again := s.ptu.queue ++ s.mastersAt .sweepWait
  let s := supersede (s.onPtu Ptu.clear)
  let s := s.onPtu fun p => { p with
    queue := [], engine := p.engine.onWalk fun w => { w with profileApplied := true } }
  again.foldl handAgain s

/-- A walk cycle under way is to be discarded (R36). -/
def CycleState.discardWalk : CycleState → CycleState
  | .busy (.walkRegion a _) => .busy (.walkRegion a true)
  | .busy (.walkPage a _) => .busy (.walkPage a true)
  | .busy (.forward m) => .busy (.forward m)
  | .busy (.journal a d x) => .busy (.journal a d x)
  | .busy (.source a) => .busy (.source a)
  | .idle => .idle
  | .handing => .handing

/-- A journal cycle under way advances nothing (R171). -/
def CycleState.discardJournal : CycleState → CycleState
  | .busy (.journal a d _) => .busy (.journal a d true)
  | .busy (.walkRegion a x) => .busy (.walkRegion a x)
  | .busy (.walkPage a x) => .busy (.walkPage a x)
  | .busy (.forward m) => .busy (.forward m)
  | .busy (.source a) => .busy (.source a)
  | .idle => .idle
  | .handing => .handing

/-- A transaction that was with the PTU leaves it, to be handed to the fixed classification (R36). -/
def leavePtu : Slot → Slot
  | .translating t .queued | .translating t .walking | .translating t .sweepWait
  | .translating t .toHand => .translating t .toHand
  | .translating t .looking => .translating t .looking
  | .free => .free
  | .held t => .held t
  | .memory t a k => .memory t a k

/-- The PTU at ENTER_BYPASS (R36). -/
def bypassPtu (s : State) : State :=
  let s := supersede (s.onPtu Ptu.clear)
  let s := s.onPtu fun p => { p with queue := [], engine := .idle }
  let s := s.onMp fun p => { p with cycle := p.cycle.discardWalk }
  { s with slots := s.slots.map leavePtu }

end Sys2Proof.Machine
end

