-- ==== Sys2Proof/Machine/Commands.lean ====
section
/-! DEFINITION. The Command and Status Unit's taking of commands (9.1, 9.2): the mode table, the last
result, each command's action, and the framing of command words. -/

namespace Sys2Proof.Machine

/-! ## Modes and results (R161) -/

/-- The modes in which a command is taken, by the rows of Table 9-2. -/
def inService : Mode → Bool
  | .service => true
  | .startUp | .bypass | .active => false
def inActive : Mode → Bool
  | .active => true
  | .startUp | .bypass | .service => false
def inApply : Mode → Bool
  | .bypass | .service => true
  | .startUp | .active => false
def inOperation : Mode → Bool
  | .service | .active => true
  | .startUp | .bypass => false
def inEvery : Mode → Bool
  | .bypass | .service | .active => true
  | .startUp => false

/-- The CSU records the last result (R161). -/
def recordResult (m : Master) (tag code : BitVec 8) (result : Result) (b : Blocks) : Blocks :=
  b.onCsu fun c => { c with lastResult := some { master := m, tag, code, result } }

/-- A taken command: the mode test, the owner's action and the last result (R161). The hand-overs of an
ENTER_BYPASS come after it (DESIGN CHOICE, log 43). -/
def takeCommand (m : Master) (tag code : BitVec 8) (taken : Mode → Bool)
    (owner : State → Result × State) (s : State) : State :=
  let (result, s) := if taken s.mode then owner s else (.wrongMode, s)
  s.act (recordResult m tag code result)

/-- An owner that acts in the blocks alone. -/
def ownerOf (f : Blocks → Result × Blocks) (s : State) : Result × State :=
  let (result, b) := f s.blocks
  (result, { s with blocks := b })

/-- An owner whose action is always DONE. -/
def always (f : Blocks → Blocks) (b : Blocks) : Result × Blocks := (.done, f b)

/-! ## The mode commands that reach the ports (R178, R181) -/

/-- APPLY_PROFILE in BYPASS and SERVICE (R178, R35, R171). -/
def applyProfile (s : State) : Result × State :=
  match applyRefusal s.blocks with
  | some r => (r, s)
  | none =>
    (.done, applyPtu ((s.onBlocks applyBlocks).onMp fun p =>
      { p with cycle := p.cycle.discardJournal }))

/-- ENTER_BYPASS in SERVICE (R181, R36, R171). -/
def enterBypassMode (s : State) : Result × State :=
  (.done, bypassPtu ((journalEmptied (s.onBlocks bypassBlocks)).onMp fun p =>
    { p with cycle := p.cycle.discardJournal }))

/-! ## The commands (Tables 9-2 and 11-3) -/

/-- START (R179). -/
def doStart (m : Master) (tag : BitVec 8) (s : State) : State :=
  takeCommand m tag 0x01 inService (ownerOf (always startActive)) s

/-- STOP (R180). -/
def doStop (m : Master) (tag : BitVec 8) (s : State) : State :=
  takeCommand m tag 0x02 inActive (ownerOf (always stopActive)) s

/-- ENTER_BYPASS (R181). -/
def doEnterBypass (m : Master) (tag : BitVec 8) (s : State) : State :=
  takeCommand m tag 0x03 inService enterBypassMode s

/-- APPLY_PROFILE (R178). -/
def doApplyProfile (m : Master) (tag : BitVec 8) (s : State) : State :=
  takeCommand m tag 0x04 inApply applyProfile s

/-- PROFILE_PROGRAM (R174). -/
def doProfileProgram (m : Master) (tag page startWord count : BitVec 8) (source : Addr) (s : State) :
    State :=
  takeCommand m tag 0x05 inEvery (ownerOf (beginProgram page startWord count source)) s

/-- PROFILE_ERASE (R176). -/
def doProfileErase (m : Master) (tag page : BitVec 8) (s : State) : State :=
  takeCommand m tag 0x06 inEvery (ownerOf (beginErase page)) s

/-- INVALIDATE_AREA (R30). -/
def doInvalidateArea (m : Master) (tag area : BitVec 8) (s : State) : State :=
  takeCommand m tag 0x07 inOperation (invalidate area) s

/-- PUSH_RESTRICTION (R134, R135). -/
def doPushRestriction (m : Master) (tag : BitVec 8) (o : PushOperands) (s : State) : State :=
  takeCommand m tag 0x08 inOperation (ownerOf (pushEntry o)) s

/-- POP_RESTRICTION (R136). -/
def doPopRestriction (m : Master) (tag : BitVec 8) (expected : BitVec 9) (s : State) : State :=
  takeCommand m tag 0x09 inOperation (ownerOf (popEntry expected)) s

/-- CLEAR_VEHICLE (R102). -/
def doClearVehicle (m : Master) (tag : BitVec 8) (n : VehicleNumber) (s : State) : State :=
  takeCommand m tag 0x0A inActive (ownerOf (clearRecord n)) s

/-- CLEAR_PHANTOMS (R103). -/
def doClearPhantoms (m : Master) (tag approach : BitVec 8) (s : State) : State :=
  takeCommand m tag 0x0B inActive (ownerOf (clearPhantomsOf approach)) s

/-- LANE_DISABLE (R57). -/
def doLaneDisable (m : Master) (tag lane : BitVec 8) (s : State) : State :=
  takeCommand m tag 0x0C inOperation (ownerOf (laneCommand disableLane lane)) s

/-- LANE_ENABLE (R58). -/
def doLaneEnable (m : Master) (tag lane : BitVec 8) (s : State) : State :=
  takeCommand m tag 0x0D inOperation (ownerOf (laneCommand enableLane lane)) s

/-- LANE_RECOVER (R59). -/
def doLaneRecover (m : Master) (tag lane : BitVec 8) (s : State) : State :=
  takeCommand m tag 0x0E inOperation (ownerOf (laneCommand recoverLane lane)) s

/-- CLEAR_EVENTS (R163). -/
def doClearEvents (m : Master) (tag : BitVec 8) (names : BitVec 13) (s : State) : State :=
  takeCommand m tag 0x0F inEvery (ownerOf (always (clearFlags names))) s

/-- SET_EVENT_ENABLES (R163). -/
def doSetEventEnables (m : Master) (tag : BitVec 8) (names : BitVec 13) (s : State) : State :=
  takeCommand m tag 0x10 inEvery (ownerOf (always (setEnables names))) s

/-- CLEAR_FAULTS (R168). -/
def doClearFaults (m : Master) (tag : BitVec 8) (s : State) : State :=
  takeCommand m tag 0x11 inEvery (ownerOf (always clearFaultLog)) s

/-- A command whose code names none: refused with BAD_OPERAND (R161, step 1). -/
def doUnknown (m : Master) (tag code : BitVec 8) (s : State) : State :=
  s.act (recordResult m tag code .badOperand)

/-- A taken record's command, by its code and operands (Table 11-3). -/
def runCommand (m : Master) (w0 w1 w2 : Word) (s : State) : State :=
  let tag := commandTag w0
  let low := w1.extractLsb' 0 8
  match (commandCode w0).toNat with
  | 0x01 => doStart m tag s
  | 0x02 => doStop m tag s
  | 0x03 => doEnterBypass m tag s
  | 0x04 => doApplyProfile m tag s
  | 0x05 => doProfileProgram m tag (w1.extractLsb' 16 8) (w1.extractLsb' 8 8) low
      (w2.extractLsb' 0 24) s
  | 0x06 => doProfileErase m tag (w1.extractLsb' 16 8) s
  | 0x07 => doInvalidateArea m tag low s
  | 0x08 => doPushRestriction m tag (pushOperandsOf w1 w2) s
  | 0x09 => doPopRestriction m tag (w1.extractLsb' 0 9) s
  | 0x0A => doClearVehicle m tag (w1.extractLsb' 0 16) s
  | 0x0B => doClearPhantoms m tag low s
  | 0x0C => doLaneDisable m tag low s
  | 0x0D => doLaneEnable m tag low s
  | 0x0E => doLaneRecover m tag low s
  | 0x0F => doClearEvents m tag (w1.extractLsb' 0 13) s
  | 0x10 => doSetEventEnables m tag (w1.extractLsb' 0 13) s
  | 0x11 => doClearFaults m tag s
  | _ => doUnknown m tag (commandCode w0) s

/-! ## Command words (R159, R160) -/

/-- A completed command record's check (R160). -/
def completeCommand (m : Master) (c : CompleteRecord) (s : State) : State :=
  if c.w3 = checkWord [c.w0, c.w1, c.w2] then runCommand m c.w0 c.w1 c.w2 s
  else s.onBlocks (masterFault .malformed m (c.slot.setWidth 24))

/-- A master's command framing after a word, with the FRAMING fault that it may make. -/
def frameCommand (m : Master) (offset : BitVec 12) (w : Word) (b : Blocks) : Blocks :=
  let f := frameWord b.csu.framing[m] offset w
  let b := b.onCsu fun c => { c with framing := c.framing.set m f.framing }
  match f.fault with
  | none => b
  | some slot => masterFault .framing m (slot.setWidth 24) b

/-- The CSU takes a word of a master's command window (R159). -/
def takeCommandWord (m : Master) (offset : BitVec 12) (w : Word) (s : State) : State :=
  let complete := (frameWord s.blocks.csu.framing[m] offset w).complete
  let s := s.onBlocks (frameCommand m offset w)
  match complete with
  | none => s
  | some c => completeCommand m c s

end Sys2Proof.Machine
end

