-- ==== Sys2Proof/Machine/Status.lean ====
section
/-! DEFINITION. The status window (9.4, 11.6): the twenty-one status words. -/

namespace Sys2Proof.Machine

/-- A word made by joining the words that `f` gives for the items of a list. -/
def joinWords {α : Type} (f : α → Word) (l : List α) : Word := l.foldl (fun w x => w ||| f x) 0

/-- A page's validity bit (Table 11-6, offset 0). -/
def validityBits (v : Vector Bool 5) : Word :=
  placeMark v[0] 8 ||| placeMark v[1] 9 ||| placeMark v[2] 10 ||| placeMark v[3] 11
    ||| placeMark v[4] 12

/-- The store outcome and its page (Table 11-6, offset 0). -/
def outcomeBits : StoreOutcome → Word
  | .none => 0
  | .programmed p => place 1 16 3 ||| place p.val 20 3
  | .erased p => place 2 16 3 ||| place p.val 20 3

/-- Offset 0: the SU's state, the fault count and the overrun (R184). -/
def statusMain (b : Blocks) : Word :=
  place b.su.mode.code 0 2 ||| placeMark b.su.settleExpiry.isSome 2 ||| place b.su.cause.code 4 2
    ||| placeMark (b.su.supply = .warning) 6 ||| placeMark b.su.storeState.busy 7
    ||| validityBits b.su.validity ||| outcomeBits b.su.outcome
    ||| place b.csu.faultLog.length 24 4 ||| placeMark b.csu.overrun 28

/-- Offset 8: the flags and the enables. -/
def statusFlags (b : Blocks) : Word := place b.csu.flags.toNat 0 13 ||| place b.csu.enables.toNat 16 13

/-- Offset 12: the last result; NONE reads as zero. -/
def statusResult (b : Blocks) : Word :=
  match b.csu.lastResult with
  | none => 0
  | some r => place r.master.val 24 3 ||| place r.result.code 16 4 ||| place r.code.toNat 8 8
      ||| place r.tag.toNat 0 8

/-- A limit as the RU supplies it: 0 in BYPASS (R143). -/
def shownLimit (b : Blocks) (n : Nat) : Nat := if b.su.mode = .bypass then 0 else n

/-- The closed approaches as the RU supplies them: NONE in BYPASS (R143). -/
def shownClosed (b : Blocks) : PerApproach Bool :=
  if b.su.mode = .bypass then ⟨false, false⟩ else b.effClosed

/-- Offset 24: the effective heavy limit, the closed approaches, the stack depth and top origin. -/
def statusRestriction (b : Blocks) : Word :=
  let top := match b.ru.stack with
    | [] => 0
    | e :: _ => placeMark true 24 ||| place e.origin.toNat 16 8
  place (shownLimit b b.effHeavy) 0 4 ||| place (closedCode (shownClosed b)) 4 2
    ||| place b.ru.stack.length 8 4 ||| top

/-- Offset 32: the heavy count now, the alarm, the lock and the reservation counts (R129). -/
def statusReservations (b : Blocks) : Word :=
  place (b.heavyCount b.now) 0 6 ||| placeMark b.au.alarm 8 ||| placeMark b.au.lock 9
    ||| place b.au.reservations.length 16 6 ||| place b.normalCount 24 6

/-- Offset 36: the table count, the Held List count, the occupants and the UNRESERVED occupants. -/
def statusVehicles (b : Blocks) : Word :=
  place b.vt.table.length 0 6 ||| place b.au.held.length 6 6
    ||| place b.vt.occupants.a.length 12 6 ||| place b.vt.occupants.b.length 18 6
    ||| place b.unreservedCount 24 6

/-- Offset 40: the lane states. -/
def statusLanes (b : Blocks) : Word :=
  joinWords (fun l => place (b.lane l).state.code (4 * l.val) 4) allLanes

/-- The sweep target code: an area, 8 for ALL, 15 for none. -/
def sweepTargetCode : Option SweepTarget → Nat
  | none => 15
  | some (.area m) => m.val
  | some .all => 8

/-- The sweep outcome code. -/
def sweepOutcomeCode : SweepOutcome → Nat
  | .none => 0
  | .done => 1
  | .superseded => 2

/-- Offset 44: the restart counts and the sweep (R34). -/
def statusSweep (sweep : Sweep) (b : Blocks) : Word :=
  joinWords (fun l => place (b.lane l).restartCount (3 * l.val) 3) allLanes
    ||| placeMark sweep.running 20 ||| place (sweepTargetCode sweep.target) 24 4
    ||| place (sweepOutcomeCode sweep.outcome) 29 2

/-- A lane's last lane fault code, standing at a bit (offsets 48 and 52). -/
def faultCodeBits (b : Blocks) (lo : Nat) (l : Lane) : Word :=
  match (b.lane l).faultCode with
  | none => 0
  | some c => placeMark true (lo + 8) ||| place c.toNat lo 8

/-- The beacon code. -/
def Beacon.code : Beacon → Nat
  | .dark => 0
  | .pulse => 1
  | .steady => 2

/-- An approach's half of offset 56 (R158). -/
def statusDirectives (b : Blocks) (x : Approach) (lo : Nat) : Word :=
  place (b.directives x).length lo 5 ||| placeMark (b.du.overflow.at x) (lo + 5)
    ||| place (b.du.beacon.at x).code (lo + 6) 2 ||| placeMark (b.du.hold.at x).isSome (lo + 8)

/-- A lane's standing code: 0 absent, 15 OFF, any other value ON with that reason code. -/
def StandingLane.code (s : StandingLane) : Nat :=
  match s.state with
  | .absent => 0
  | .off => 15
  | .on => (s.reason.getD .none).code

/-- Offset 60: the standing states and reasons. -/
def statusStanding (b : Blocks) : Word :=
  joinWords (fun l => place (b.standing l).code (4 * l.val) 4) allLanes

/-- A word of the holding pair; an empty pair reads as zero (R167). -/
def holdingWord (f : FaultRecord → Word) (b : Blocks) : Word :=
  match b.csu.holding with
  | none => 0
  | some r => f r

/-- The word that a status read at an offset answers; none for an offset that the CSU does not answer
(R165, Tables 9-4 and 11-6). -/
def statusWord (sweep : Sweep) (b : Blocks) (offset : BitVec 12) : Option Word :=
  match offset.toNat with
  | 0 => some (statusMain b)
  | 4 => some b.now
  | 8 => some (statusFlags b)
  | 12 => some (statusResult b)
  | 16 => some (place (shownLimit b b.effSpanLoad) 0 20)
  | 20 => some (place (shownLimit b b.effGross) 0 20)
  | 24 => some (statusRestriction b)
  | 28 => some (BitVec.ofNat 32 (b.reservedLoad b.now))
  | 32 => some (statusReservations b)
  | 36 => some (statusVehicles b)
  | 40 => some (statusLanes b)
  | 44 => some (statusSweep sweep b)
  | 48 => some (faultCodeBits b 0 0 ||| faultCodeBits b 10 1 ||| faultCodeBits b 20 2)
  | 52 => some (faultCodeBits b 0 3 ||| faultCodeBits b 10 4 ||| faultCodeBits b 20 5)
  | 56 => some (statusDirectives b .A 0 ||| statusDirectives b .B 16)
  | 60 => some (statusStanding b)
  | 64 => some (place b.au.light.a.toNat 0 16 ||| place b.au.light.b.toNat 16 16)
  | 68 => some (faultPopWord b)
  | 72 => some (holdingWord FaultRecord.word0 b)
  | 76 => some (holdingWord FaultRecord.word1 b)
  | 80 => some (place b.csu.writeIndex.toNat 0 12 ||| place b.csu.wrapCount.toNat 16 16)
  | _ => none

/-- What a status read at an offset changes: the pop at 68, and nothing elsewhere (R165, R167). -/
def statusEffect (offset : BitVec 12) (b : Blocks) : Blocks :=
  if offset.toNat = 68 then popFault b else b

end Sys2Proof.Machine
end

