-- ==== Sys2Proof/Machine/Port.lean ====
section
/-! DEFINITION. The System Port (1.1, 1.2, 1.4): taking, classifying, routing and answering a
transaction, the look-up and checks of the PTU (2.2), the end of a walk (2.4) and of a sweep. -/

namespace Sys2Proof.Machine

/-! ## Answers (R4) -/

/-- The data lines of a WRITE answer and of a REFUSED answer: all-ones. -/
def allOnes : Word := 0xFFFFFFFF

/-- A master's transaction is answered and its slot is FREE. -/
def answer (m : Master) (okay : Bool) (data : Word) (s : State) : State :=
  { (s.setSlot m .free) with answers := s.answers ++ [{ master := m, okay, data }] }

/-- An OKAY answer with a word. -/
def answerOkay (m : Master) (data : Word) (s : State) : State := answer m true data s

/-- A REFUSED answer with its fault record (R4). -/
def refuse (m : Master) (kind : FaultKind) (address : Addr) (s : State) : State :=
  answer m false allOnes (s.onBlocks (masterFault kind m address))

/-! ## Answering windows (R7, R8) -/

/-- A READ of a status window at an offset (R7, R165). -/
def readStatus (m : Master) (t : Transaction) (offset : BitVec 12) (s : State) : State :=
  match statusWord s.ptu.sweep s.blocks offset with
  | some w => answerOkay m w (s.onBlocks (statusEffect offset))
  | none => refuse m .windowOffset t.address s

/-- A READ of an approach's directive window at an offset (R149, R150). -/
def readDirective (m : Master) (t : Transaction) (x : Approach) (offset : BitVec 12) (s : State) :
    State :=
  match offset.toNat with
  | 0 => answerOkay m (popWord x s.blocks) (s.onBlocks (popDirective x))
  | 4 => answerOkay m (lastPoppedWord x s.blocks) s
  | 8 => answerOkay m (place (s.blocks.directives x).length 0 5) s
  | _ => refuse m .windowOffset t.address s

/-- A word written to a lane's capture window is taken, and the write forwarded (R6). The lane of a
capture page is 0-5 (R26); the checks of R21 let no other pass. -/
def writeCapture (m : Master) (t : Transaction) (w : Word) (channel : BitVec 3) (address : Addr)
    (s : State) : State :=
  let s := match channelLane channel with
    | some l => s.act (takeCaptureWord l (addrOffset address) w)
    | none => s
  toMemory m t address .capture s

/-- A word written to a command window is taken, and the write forwarded (R6). Where the word completes an
ENTER_BYPASS, the write reaches the MP before the hand-overs of R36; those of R35 at an APPLY_PROFILE reach
it before the write. The spec orders neither (DESIGN CHOICE, log 38). -/
def writeCommand (m : Master) (t : Transaction) (w : Word) (address : Addr) (s : State) : State :=
  toMemory m t address .command (takeCommandWord m (addrOffset address) w s)

/-- The routing of a passed access by window kind (Table 1-2). -/
def route (m : Master) (t : Transaction) (kind : WindowKind) (channel : BitVec 3) (address : Addr)
    (s : State) : State :=
  match kind, t.access with
  | .plain, .read | .plain, .write _ => toMemory m t address .plain s
  | .capture, .read => toMemory m t address .capture s
  | .capture, .write w => writeCapture m t w channel address s
  | .command, .read => toMemory m t address .command s
  | .command, .write w => writeCommand m t w address s
  | .status, .read => readStatus m t (addrOffset address) s
  | .directive, .read => readDirective m t (channelApproach channel) (addrOffset address) s
  | .status, .write _ | .directive, .write _ => refuse m .windowWrite t.address s

/-! ## Look-up and checks (2.2) -/

/-- The permit that an access needs is given (R21, check 1). -/
def permitted (e : WalkedEntry) : Access → Bool
  | .read => e.readPermit
  | .write _ => e.writePermit

/-- The channel lane is in use with the master as its owner (R21, check 3). -/
def ownsLane (p : Pages) (m : Master) (channel : BitVec 3) : Bool :=
  (channelLane channel).any fun l => laneInUse p l && laneOwner p l = m

/-- The first check of R21 that fails, by its fault. -/
def entryRefusal (p : Pages) (m : Master) (e : WalkedEntry) (a : Access) : Option FaultKind :=
  if !permitted e a then some .permission
  else match a, e.kind with
    | .write _, .status | .write _, .directive => some .windowWrite
    | .write _, .capture => if ownsLane p m e.channel then none else some .crossLane
    | .write _, .plain | .write _, .command => none
    | .read, _ => none

/-- An access that holds an entry is checked and given its result (R21, R22). -/
def useEntry (m : Master) (t : Transaction) (e : WalkedEntry) (s : State) : State :=
  match entryRefusal s.blocks.profile m e t.access with
  | some fault => refuse m fault t.address s
  | none => route m t e.kind e.channel (physical e.page (addrOffset t.address)) s

/-- The look-up (R20). -/
def lookup (m : Master) (t : Transaction) (s : State) : State :=
  let i := addrSet t.address
  let tag := addrTag t.address
  let set := s.ptu.set m i
  let s := s.onPtu fun p => p.onSet m i (BufferSet.afterLookup tag)
  let s := if set.checkFails tag then s.onBlocks (masterFault .entryCheck m t.address) else s
  match set.find tag with
  | some e => useEntry m t e.walked s
  | none => joinQueue m s

/-! ## Taking and handing over (R1, R2, R13, R19) -/

/-- The PTU takes a hand-over (R19, R32). -/
def handToPtu (m : Master) (t : Transaction) (s : State) : State :=
  if isDirect s.blocks.profile m then toMemory m t t.address .plain s
  else if s.ptu.sweep.coversNow m then s.moveTo m .sweepWait
  else lookup m t s

/-- The fallback page of master 7 (R14, Table 1-6). -/
def fallback (t : Transaction) (s : State) : State :=
  let m : Master := 7
  let offset := addrOffset t.address
  if offset.toNat < 0x100 then
    match t.access with
    | .read => toMemory m t t.address .command s
    | .write w => writeCommand m t w t.address s
  else
    match t.access with
    | .read => readStatus m t (offset - 0x100) s
    | .write _ => refuse m .windowWrite t.address s

/-- The fixed classification of BYPASS (R13). -/
def classify (m : Master) (t : Transaction) (s : State) : State :=
  if m = 7 && decide (t.address.toNat < 0x200) then fallback t s
  else toMemory m t t.address .plain s

/-- The SP hands a transaction on by the mode (R1). -/
def handOver (m : Master) (t : Transaction) (s : State) : State :=
  let s := s.setSlot m (.translating t .looking)
  match s.mode with
  | .bypass => classify m t s
  | .service | .active => handToPtu m t s
  | .startUp => s.setSlot m (.held t)

/-- The SP takes a transaction into a FREE slot (R1, R2, R16). -/
def takeTransaction (m : Master) (t : Transaction) (s : State) : State :=
  if misaligned t.address then refuse m .misaligned t.address s else handOver m t s

/-! ## The end of an event (logs 17 and 36) -/

/-- The next thing that the SP does before the event ends: hand over a transaction that left the PTU,
or take the oldest bus request of a FREE slot; the lowest master first. -/
def State.toHand (s : State) : Option Master := allMasters.find? fun m => (s.slot m).isAt .toHand
def State.canTake (s : State) (m : Master) : Bool := s.slot m = .free && !(s.bus[m]).isEmpty
def State.toTake (s : State) : Option Master := allMasters.find? s.canTake

/-- The oldest request of a master's bus is taken. -/
def takeFromBus (m : Master) (s : State) : State :=
  match s.bus[m] with
  | [] => s
  | t :: rest => takeTransaction m t { s with bus := s.bus.set m rest }

/-- Everything that the SP does before the event ends, in at most `n` turns. A bus request is taken only
when nothing is left to hand over: R1 does not order it against the hand-overs of R16 and R36 (DESIGN
CHOICE, log 36). -/
def drainLevel : Nat → State → State
  | 0, s => s
  | n + 1, s =>
    match s.toHand with
    | some m =>
      match (s.slot m).transaction with
      | some t => drainLevel n (handOver m t s)
      | none => s
    | none =>
      match s.toTake with
      | some m => drainLevel n (takeFromBus m s)
      | none => s

/-- The bus requests not yet taken. -/
def State.busCount (s : State) : Nat := (s.bus.toList.map List.length).sum

/-- A bound on the turns: each request taken can put at most eight transactions back in the SP's
hands, by ENTER_BYPASS. -/
def State.turns (s : State) : Nat := 16 * (9 + s.busCount)

/-- Everything that the SP does before the event ends (R1, R36). -/
def drain (s : State) : State := drainLevel s.turns s

/-! ## The end of a walk (R25 to R27) -/

/-- The engine goes to IDLE and the next walk begins (R27, step 3). A request held off by the slot that
this event answers is taken after it: drained last, since the spec does not order the two (DESIGN
CHOICE, log 35). -/
def endWalk (s : State) : State := walkNext (s.onPtu fun p => { p with engine := .idle })

/-- A failed walk: its access is refused with the walk's fault, and the walk ends (R27); the refused
master's held-off request is then taken (R1, log 35). -/
def failWalk (m : Master) (fault : FaultKind) (s : State) : State :=
  drain (endWalk (refuse m fault (s.slotAddress m) s))

/-- The region entry's word reaches the engine (R25). -/
def regionWord (w : Word) (s : State) : State :=
  match s.ptu.engine with
  | .region k =>
    if !entryValid w then failWalk k.master .tableMiss s
    else if (entryPage w).toNat < k.memoryPages then
      s.onPtu fun p => { p with engine := .page k (entryPage w) }
    else failWalk k.master .tableFault s
  | .idle | .page _ _ => s

/-- A successful walk: the fill, the access's result with the walked entry, the end of the walk (R27 to
R29); a held-off request of a master that the result answers is then taken (R1, log 35). -/
def finishWalk (k : Walk) (e : WalkedEntry) (s : State) : State :=
  match (s.slot k.master).transaction with
  | none => drain (endWalk s)
  | some t =>
    let s := s.onPtu (fillBuffer k t.address e)
    drain (endWalk (useEntry k.master t e (s.moveTo k.master .looking)))

/-- The page entry's word reaches the engine (R26). -/
def pageWord (w : Word) (s : State) : State :=
  match s.ptu.engine with
  | .page k _ =>
    if !entryValid w then failWalk k.master .tableMiss s
    else match walkedEntry k.memoryPages w with
      | some e => finishWalk k e s
      | none => failWalk k.master .tableFault s
  | .idle | .region _ => s

/-- The completion of a region entry's read; one marked discarded hands nothing over (R36). -/
def regionDone (s : State) : State :=
  match s.mp.cycle with
  | .busy (.walkRegion address discarded) =>
    complete (fun s => if discarded then s else regionWord (readWord s.mem address) s) s
  | .busy (.walkPage _ _) | .busy (.forward _) | .busy (.journal _ _ _) | .busy (.source _)
  | .idle | .handing => s

/-- The completion of a page entry's read; one marked discarded hands nothing over (R36). -/
def pageDone (s : State) : State :=
  match s.mp.cycle with
  | .busy (.walkPage address discarded) =>
    complete (fun s => if discarded then s else pageWord (readWord s.mem address) s) s
  | .busy (.walkRegion _ _) | .busy (.forward _) | .busy (.journal _ _ _) | .busy (.source _)
  | .idle | .handing => s

/-! ## Forwarded accesses (R5, R9) -/

/-- The access of a slot in MEMORY takes effect and is answered OKAY (R5). -/
def forwardResult (m : Master) (s : State) : State :=
  match s.slot m with
  | .memory t address _ =>
    match t.access with
    | .read => answerOkay m (readWord s.mem address) s
    | .write w => answerOkay m allOnes { s with mem := writeWord s.mem address w }
  | .free | .held _ | .translating _ _ => s

/-- The completion of a forwarded access's cycle (R5). -/
def forwardDone (s : State) : State :=
  match s.mp.cycle with
  | .busy (.forward m) => complete (fun s => drain (forwardResult m s)) s
  | .busy (.walkRegion _ _) | .busy (.walkPage _ _) | .busy (.journal _ _ _) | .busy (.source _)
  | .idle | .handing => s

/-! ## The sweep's steps (R31, R33) -/

/-- A transaction that waits for a sweep is looked up (R33). One that an earlier look-up of the same
event has taken out of the wait, by the ENTER_BYPASS or APPLY_PROFILE that it completed, is not
(R35, R36). -/
def lookupWaiting (s : State) (m : Master) : State :=
  match s.slot m with
  | .translating t .sweepWait => lookup m t (s.moveTo m .looking)
  | .translating _ .toHand | .translating _ .looking | .translating _ .queued
  | .translating _ .walking | .free | .held _ | .memory _ _ _ => s

/-- The sweep ends: DONE, the flag, and the waiting transactions (R33). A request held off by a slot that
one of them answers is taken after all of them: R1 and R33 do not order the two (DESIGN CHOICE,
log 36). -/
def endSweep (s : State) : State :=
  let waiting := s.mastersAt .sweepWait
  let s := s.onPtu fun p => { p with
    sweep := { p.sweep with running := false, position := none, outcome := .done } }
  drain (waiting.foldl lookupWaiting (s.onBlocks fun b => b.request .longOpDone))

/-- The set at the sweep position is invalidated and the position advances (R31). -/
def sweepStep (s : State) : State :=
  if !s.ptu.sweep.running then s
  else match s.ptu.sweep.position, s.ptu.sweep.target with
    | some q, some t =>
      let s := s.onPtu fun p => p.onSet q.area q.index fun _ => .cleared
      match t.nextPosition q with
      | some next => s.onPtu fun p => { p with sweep := { p.sweep with position := some next } }
      | none => endSweep s
    | _, _ => s

/-! ## Reset and start-up at the ports (1.5) -/

/-- The masters whose slots hold a transaction, in ascending order. -/
def State.holders (s : State) : List Master := allMasters.filter fun m => (s.slot m).transaction.isSome

/-- The ports at a reset: every held transaction is answered REFUSED with no fault record, and a cycle
under way is cut off (R15). The bus requests then untaken are taken into HELD (R1, R16). -/
def resetEvent (cause : ResetCause) (s : State) : State :=
  let s := s.holders.foldl (fun s m => answer m false allOnes s) s
  drain { s with mp := .reset, ptu := .reset, blocks := resetBlocks cause s.blocks }

/-- Every HELD slot goes to TRANSLATING, to be handed over before the event ends (R16). -/
def leaveHeld : Slot → Slot
  | .held t => .translating t .toHand
  | .free => .free
  | .translating t p => .translating t p
  | .memory t a k => .memory t a k

/-- The end of start-up with the mode that was chosen (R182, R16). The blocks act before the hand-overs, so
that a HELD status read answered here shows SUPPLY_WARN; neither rule orders the two (DESIGN CHOICE,
log 42). -/
def endStartUp (s : State) : State :=
  match s.blocks.su.startUp with
  | .chosen m =>
    let s := s.onBlocks (endBlocks m)
    drain { s with slots := s.slots.map leaveHeld }
  | .causeHolds | .over => s

end Sys2Proof.Machine
end

