-- ==== Sys2Proof/Machine/Bus.lean ====
section
/-! DEFINITION. The meanings of the bus rows, the Memory Port's completions, the window pops, the
sweep step and the store's completions. -/

namespace Sys2Proof.Machine

/-- The meanings' outcome: no row of this block stops. -/
abbrev Answered := Host.Outcome State Fault Refusal

/-- An event begins with no answer given in it (log 15). -/
def State.fresh (s : State) : State := { s with answers := [] }

/-- TRANSACTION (R1): the access appears on the master's bus, and the SP takes it, and whatever the
event then frees the way for, by R1. -/
def execTransaction (m : Master) (address : Addr) (access : Access) (s : State) : Answered :=
  let s := s.fresh
  .next (drain { s with bus := s.bus.set m (s.bus[m] ++ [{ address, access }]) })

/-- FORWARDED_CYCLE_DONE (R5). -/
def execForwardedCycleDone (s : State) : Answered := .next (forwardDone s.fresh)

/-- REGION_READ_DONE (R25). -/
def execRegionReadDone (s : State) : Answered := .next (regionDone s.fresh)

/-- PAGE_READ_DONE (R26). -/
def execPageReadDone (s : State) : Answered := .next (pageDone s.fresh)

/-- JOURNAL_WORD_DONE (R170). -/
def execJournalWordDone (s : State) : Answered := .next (journalDone s.fresh)

/-- SOURCE_WORD_DONE (R175). -/
def execSourceWordDone (s : State) : Answered := .next (sourceDone s.fresh)

/-- PROGRAMMING_DONE (R175). -/
def execProgrammingDone (s : State) : Answered := .next (s.fresh.onBlocks finishProgram)

/-- ERASING_DONE (R176). -/
def execErasingDone (s : State) : Answered := .next (s.fresh.onBlocks finishErase)

/-- SWEEP_STEP (R31). -/
def execSweepStep (s : State) : Answered := .next (sweepStep s.fresh)

/-- A window read answered outside a slot (log 33): the answer, and the read's effect. -/
def answerRead (m : Master) (w : Word) (f : Blocks → Blocks) (s : State) : State :=
  { s.onBlocks f with answers := s.answers ++ [{ master := m, okay := true, data := w }] }

/-- DIRECTIVE_POP (R149): answered in SERVICE and in ACTIVE alone (R151). -/
def execDirectivePop (m : Master) (x : Approach) (s : State) : Answered :=
  let s := s.fresh
  .next (if inOperation s.mode then answerRead m (popWord x s.blocks) (popDirective x) s else s)

/-- FAULT_POP (R167): answered in every mode once start-up has ended (R165). -/
def execFaultPop (m : Master) (s : State) : Answered :=
  let s := s.fresh
  .next (if inEvery s.mode then answerRead m (faultPopWord s.blocks) popFault s else s)

end Sys2Proof.Machine
end

