-- ==== Sys2Proof/Machine/CommandRows.lean ====
section
/-! DEFINITION. The meanings of the command rows: a command record of a master, complete and past its
check, taken as R161 states (log 14). -/

namespace Sys2Proof.Machine

/-- A command outside START-UP, in which the CSU takes none (R16). -/
def commandEvent (f : State → State) (s : State) : Answered :=
  let s := s.fresh
  .next (if inEvery s.mode then f s else s)

/-- START (R179). -/
def execStart (m : Master) (tag : BitVec 8) (s : State) : Answered := commandEvent (doStart m tag) s

/-- STOP (R180). -/
def execStop (m : Master) (tag : BitVec 8) (s : State) : Answered := commandEvent (doStop m tag) s

/-- ENTER_BYPASS (R181); the transactions that leave the PTU are handed over before the event ends
(R36), here after the last result is recorded: R36 and R161 do not order the two (DESIGN CHOICE,
log 43). -/
def execEnterBypass (m : Master) (tag : BitVec 8) (s : State) : Answered :=
  commandEvent (fun s => drain (doEnterBypass m tag s)) s

/-- APPLY_PROFILE (R178). -/
def execApplyProfile (m : Master) (tag : BitVec 8) (s : State) : Answered :=
  commandEvent (doApplyProfile m tag) s

/-- PROFILE_PROGRAM (R174). -/
def execProfileProgram (m : Master) (tag page startWord count : BitVec 8) (source : Addr)
    (s : State) : Answered :=
  commandEvent (doProfileProgram m tag page startWord count source) s

/-- PROFILE_ERASE (R176). -/
def execProfileErase (m : Master) (tag page : BitVec 8) (s : State) : Answered :=
  commandEvent (doProfileErase m tag page) s

/-- INVALIDATE_AREA (R30). -/
def execInvalidateArea (m : Master) (tag area : BitVec 8) (s : State) : Answered :=
  commandEvent (doInvalidateArea m tag area) s

/-- PUSH_RESTRICTION (R135). -/
def execPushRestriction (m : Master) (tag : BitVec 8) (o : PushOperands) (s : State) : Answered :=
  commandEvent (doPushRestriction m tag o) s

/-- POP_RESTRICTION (R136). -/
def execPopRestriction (m : Master) (tag : BitVec 8) (expected : BitVec 9) (s : State) : Answered :=
  commandEvent (doPopRestriction m tag expected) s

/-- CLEAR_VEHICLE (R102). -/
def execClearVehicle (m : Master) (tag : BitVec 8) (n : VehicleNumber) (s : State) : Answered :=
  commandEvent (doClearVehicle m tag n) s

/-- CLEAR_PHANTOMS (R103). -/
def execClearPhantoms (m : Master) (tag approach : BitVec 8) (s : State) : Answered :=
  commandEvent (doClearPhantoms m tag approach) s

/-- LANE_DISABLE (R57). -/
def execLaneDisable (m : Master) (tag lane : BitVec 8) (s : State) : Answered :=
  commandEvent (doLaneDisable m tag lane) s

/-- LANE_ENABLE (R58). -/
def execLaneEnable (m : Master) (tag lane : BitVec 8) (s : State) : Answered :=
  commandEvent (doLaneEnable m tag lane) s

/-- LANE_RECOVER (R59). -/
def execLaneRecover (m : Master) (tag lane : BitVec 8) (s : State) : Answered :=
  commandEvent (doLaneRecover m tag lane) s

/-- CLEAR_EVENTS (R163). -/
def execClearEvents (m : Master) (tag : BitVec 8) (flags : BitVec 13) (s : State) : Answered :=
  commandEvent (doClearEvents m tag flags) s

/-- SET_EVENT_ENABLES (R163). -/
def execSetEventEnables (m : Master) (tag : BitVec 8) (flags : BitVec 13) (s : State) : Answered :=
  commandEvent (doSetEventEnables m tag flags) s

/-- CLEAR_FAULTS (R168). -/
def execClearFaults (m : Master) (tag : BitVec 8) (s : State) : Answered :=
  commandEvent (doClearFaults m tag) s

end Sys2Proof.Machine
end

