-- ==== Sys2Proof/Machine/Lanes.lean ====
section
/-! DEFINITION. The meanings of the capture record rows and of the lane timers. A row's record acts as
it does when word 3 completes it inside a TRANSACTION (log 13). -/

namespace Sys2Proof.Machine

/-- AXLE (R47). -/
def execAxle (l : Lane) (slot : BitVec 12) (r : AxleRecord) (s : State) : Answered :=
  .next (s.fresh.act (takeRecord l slot (.axle r)))

/-- PASSAGE (R48). -/
def execPassage (l : Lane) (slot : BitVec 12) (r : PassageRecord) (s : State) : Answered :=
  .next (s.fresh.act (takeRecord l slot (.passage r)))

/-- HEARTBEAT (R51). -/
def execHeartbeat (l : Lane) (slot : BitVec 12) (r : HeartbeatRecord) (s : State) : Answered :=
  .next (s.fresh.act (takeRecord l slot (.heartbeat r)))

/-- LANE_FAULT (R50). -/
def execLaneFault (l : Lane) (slot : BitVec 12) (r : LaneFaultRecord) (s : State) : Answered :=
  .next (s.fresh.act (takeRecord l slot (.laneFault r)))

/-- SILENCE_EXPIRY (R54). -/
def execSilenceExpiry (l : Lane) (s : State) : Answered := .next (s.fresh.act (reachSilence l))

/-- PULSE_END (R55). -/
def execPulseEnd (l : Lane) (s : State) : Answered := .next (s.fresh.act (reachPulseEnd l))

end Sys2Proof.Machine
end

