-- ==== Sys2Proof/Machine/Power.lean ====
section
/-! DEFINITION. The meanings of the clock, settle, reset, start-up and supply rows. -/

namespace Sys2Proof.Machine

/-- SETTLE_EXPIRY (R179). -/
def execSettleExpiry (s : State) : Answered := .next (s.fresh.onBlocks reachSettle)

/-- ROAD_CLOCK_TICK (R172): the remaining periods of the reference clock up to the next rise of the
Road Clock (log 12). -/
def execRoadClockTick (s : State) : Answered := .next (s.fresh.onBlocks clockRises)

/-- POWER_ON (R182). -/
def execPowerOn (s : State) : Answered := .next (resetEvent .powerOn s.fresh)

/-- RESET_PIN (R182). -/
def execResetPin (s : State) : Answered := .next (resetEvent .resetPin s.fresh)

/-- SUPPLY_LOW (R183). -/
def execSupplyLow (s : State) : Answered := .next (resetEvent .supplyLow s.fresh)

/-- RESET_CAUSE_ENDS (R182): steps 1 to 4 of start-up, with the supply and BYPSTRAP as sampled. -/
def execResetCauseEnds (below strap : Bool) (s : State) : Answered :=
  .next (s.fresh.onBlocks (causesEnd below strap))

/-- END_OF_START_UP (R182). -/
def execEndOfStartUp (s : State) : Answered := .next (endStartUp s.fresh)

/-- SUPPLY_WARNING (R183). -/
def execSupplyWarning (s : State) : Answered := .next (s.fresh.onBlocks (crossSupply .normal .warning))

/-- SUPPLY_WARNING_END (R183). -/
def execSupplyWarningEnd (s : State) : Answered :=
  .next (s.fresh.onBlocks (crossSupply .warning .normal))

end Sys2Proof.Machine
end

