-- ==== Sys2Proof/Machine/Vehicles.lean ====
section
/-! DEFINITION. The meanings of the expiries of vehicles, phantoms and beacon holds. An expiry that is
not reached, or has nothing to act on, changes nothing (logs 10, 11). -/

namespace Sys2Proof.Machine

/-- CLOSE_TIME (R69). -/
def execCloseTime (l : Lane) (s : State) : Answered := .next (s.fresh.act (reachCloseTime l))

/-- HOLD_EXPIRY (R76). -/
def execHoldExpiry (l : Lane) (s : State) : Answered := .next (s.fresh.act (reachHoldExpiry l))

/-- DECISION_DEADLINE (R87). -/
def execDecisionDeadline (n : VehicleNumber) (s : State) : Answered := .next (s.fresh.act (reachD n))

/-- E1_REACHED (R88). -/
def execE1Reached (n : VehicleNumber) (s : State) : Answered := .next (s.fresh.act (reachE1 n))

/-- V1_REACHED (R89). -/
def execV1Reached (n : VehicleNumber) (s : State) : Answered := .next (s.fresh.act (reachV1 n))

/-- T_REACHED (R90). -/
def execTReached (n : VehicleNumber) (s : State) : Answered := .next (s.fresh.act (reachT n))

/-- PHANTOM_END_TIME (R98). -/
def execPhantomEndTime (k : Phantom) (s : State) : Answered :=
  .next (s.fresh.act (reachPhantomEnd k))

/-- A beacon hold expires: it becomes absent and the beacons are evaluated (R156). -/
def reachHoldEnd (x : Approach) (b : Blocks) : Blocks :=
  if (b.du.hold.at x).any fun h => reached b.now h.expiry then
    evalBeacons (b.onDu fun d => { d with hold := d.hold.put x none })
  else b

/-- BEACON_HOLD_EXPIRY (R156). -/
def execBeaconHoldExpiry (x : Approach) (s : State) : Answered :=
  .next (s.fresh.onBlocks (reachHoldEnd x))

end Sys2Proof.Machine
end

