-- ==== Sys2Proof/Machine/Dispatch.lean ====
section
/-! DEFINITION. One arm per command: the meaning that exec calls. -/

namespace Sys2Proof.Machine

def exec (i : Instr) (s : State) : Host.Outcome State Fault Refusal :=
  match i with
  | .transaction m a x => Sys2Proof.Machine.execTransaction m a x s
  | .forwardedCycleDone => Sys2Proof.Machine.execForwardedCycleDone s
  | .regionReadDone => Sys2Proof.Machine.execRegionReadDone s
  | .pageReadDone => Sys2Proof.Machine.execPageReadDone s
  | .journalWordDone => Sys2Proof.Machine.execJournalWordDone s
  | .sourceWordDone => Sys2Proof.Machine.execSourceWordDone s
  | .programmingDone => Sys2Proof.Machine.execProgrammingDone s
  | .erasingDone => Sys2Proof.Machine.execErasingDone s
  | .sweepStep => Sys2Proof.Machine.execSweepStep s
  | .axle l p r => Sys2Proof.Machine.execAxle l p r s
  | .passage l p r => Sys2Proof.Machine.execPassage l p r s
  | .heartbeat l p r => Sys2Proof.Machine.execHeartbeat l p r s
  | .laneFault l p r => Sys2Proof.Machine.execLaneFault l p r s
  | .closeTime l => Sys2Proof.Machine.execCloseTime l s
  | .holdExpiry l => Sys2Proof.Machine.execHoldExpiry l s
  | .decisionDeadline n => Sys2Proof.Machine.execDecisionDeadline n s
  | .e1Reached n => Sys2Proof.Machine.execE1Reached n s
  | .v1Reached n => Sys2Proof.Machine.execV1Reached n s
  | .tReached n => Sys2Proof.Machine.execTReached n s
  | .phantomEndTime k => Sys2Proof.Machine.execPhantomEndTime k s
  | .directivePop m x => Sys2Proof.Machine.execDirectivePop m x s
  | .beaconHoldExpiry x => Sys2Proof.Machine.execBeaconHoldExpiry x s
  | .faultPop m => Sys2Proof.Machine.execFaultPop m s
  | .start m t => Sys2Proof.Machine.execStart m t s
  | .stop m t => Sys2Proof.Machine.execStop m t s
  | .enterBypass m t => Sys2Proof.Machine.execEnterBypass m t s
  | .applyProfile m t => Sys2Proof.Machine.execApplyProfile m t s
  | .profileProgram m t p w c a => Sys2Proof.Machine.execProfileProgram m t p w c a s
  | .profileErase m t p => Sys2Proof.Machine.execProfileErase m t p s
  | .invalidateArea m t a => Sys2Proof.Machine.execInvalidateArea m t a s
  | .pushRestriction m t o => Sys2Proof.Machine.execPushRestriction m t o s
  | .popRestriction m t e => Sys2Proof.Machine.execPopRestriction m t e s
  | .clearVehicle m t n => Sys2Proof.Machine.execClearVehicle m t n s
  | .clearPhantoms m t a => Sys2Proof.Machine.execClearPhantoms m t a s
  | .laneDisable m t l => Sys2Proof.Machine.execLaneDisable m t l s
  | .laneEnable m t l => Sys2Proof.Machine.execLaneEnable m t l s
  | .laneRecover m t l => Sys2Proof.Machine.execLaneRecover m t l s
  | .clearEvents m t f => Sys2Proof.Machine.execClearEvents m t f s
  | .setEventEnables m t f => Sys2Proof.Machine.execSetEventEnables m t f s
  | .clearFaults m t => Sys2Proof.Machine.execClearFaults m t s
  | .silenceExpiry l => Sys2Proof.Machine.execSilenceExpiry l s
  | .pulseEnd l => Sys2Proof.Machine.execPulseEnd l s
  | .settleExpiry => Sys2Proof.Machine.execSettleExpiry s
  | .roadClockTick => Sys2Proof.Machine.execRoadClockTick s
  | .powerOn => Sys2Proof.Machine.execPowerOn s
  | .resetPin => Sys2Proof.Machine.execResetPin s
  | .supplyLow => Sys2Proof.Machine.execSupplyLow s
  | .resetCauseEnds w b => Sys2Proof.Machine.execResetCauseEnds w b s
  | .endOfStartUp => Sys2Proof.Machine.execEndOfStartUp s
  | .supplyWarning => Sys2Proof.Machine.execSupplyWarning s
  | .supplyWarningEnd => Sys2Proof.Machine.execSupplyWarningEnd s

end Sys2Proof.Machine
end

