-- ==== Sys2Proof/Machine/Step.lean ====
section
/-! DEFINITION. One step: the command at the front of the queue, or, on an empty queue, one period of
the reference clock (DESIGN CHOICE, log 12). -/

namespace Sys2Proof.Machine

/-- The state with a command put at the front of its queue. -/
def State.withFront (s : State) (c : Instr) : State := { s with pending := c :: s.pending }

/-- The state with the command that a word spells at the front of its queue; unchanged where the word
spells none. -/
def State.withFetchWord (s : State) (nbits w : Nat) : State :=
  match Sys2Proof.decodeTableWord nbits w with
  | some c => s.withFront c
  | none => s

/-- One step. -/
def step (s : State) : Host.Outcome State Fault Refusal :=
  match s.pending with
  | c :: rest => exec c { s with pending := rest }
  | [] => .next (s.fresh.onBlocks clockPeriod)

end Sys2Proof.Machine
end

