-- ==== Sys2Proof/Safety.lean ====
section
/-! DEFINITION. What it is for a state to be sound: the canonical form of memory, the capacities of
Table 0-3, the Translation Buffer's two guarantees, and the rest of the blocks outside ACTIVE; and the
words of the statements: frames, what joins a Directive Queue, standing evaluations, admissions,
revocations, sweeps, count reports and retirements. -/

namespace Sys2Proof.Machine

/-- Record memory is in its canonical form. -/
abbrev State.MemoryOk (s : State) : Prop := Memory.wf s.mem = true

/-- The collections of the CSU, the RU and the DU are within the capacities of Table 0-3. -/
def Blocks.QueuesFit (b : Blocks) : Prop :=
  b.csu.faultLog.length ≤ 8 ∧ b.csu.journal.length ≤ 8 ∧ b.ru.stack.length ≤ 8
    ∧ b.du.queues.a.length ≤ 16 ∧ b.du.queues.b.length ≤ 16

/-- The collections of the VA, the VT and the AU are within the capacities of Table 0-3. The Held List
names each vehicle once, and records of the table alone. -/
structure Blocks.ListsFit (b : Blocks) : Prop where
  table : b.vt.table.length ≤ 48
  occupants : ∀ x : Approach, (b.vt.occupants.at x).length ≤ 24
  reservations : b.au.reservations.length ≤ 40
  normal : b.normalCount ≤ 32
  held : b.au.held.length ≤ 48
  heldOnce : b.au.held.Nodup
  heldRecords : ∀ n ∈ b.au.held, n ∈ b.vt.table.map (·.number)
  axles : ∀ (l : Lane) (v : OpenVehicle), b.openVehicle l = some v → v.axles.length ≤ 9

/-- The Walk Engine's waiting queue holds at most eight masters, each once, and each with its
transaction queued; the walking master's transaction is the one that is walked (Table 2-3, R23). -/
structure State.QueueSound (s : State) : Prop where
  bound : s.ptu.queue.length ≤ 8
  once : s.ptu.queue.Nodup
  waits : ∀ m ∈ s.ptu.queue, (s.slot m).isAt .queued = true
  walks : ∀ w, s.ptu.engine.walk = some w → (s.slot w.master).isAt .walking = true

/-- A set holds no two valid entries with the same tag (R28), and its valid entries pass their checks
(R18: an entry written by a fill passes its check). -/
def BufferSet.Sound (w : BufferSet) : Prop :=
  ¬ (w.wayA.valid = true ∧ w.wayB.valid = true ∧ w.wayA.tag = w.wayB.tag)
    ∧ (w.wayA.valid = true → w.wayA.checks = true) ∧ (w.wayB.valid = true → w.wayB.checks = true)

/-- Every set of the Translation Buffer is sound. -/
def Ptu.Sound (p : Ptu) : Prop := ∀ (m : Master) (i : Fin 16), (p.set m i).Sound

/-- The Vehicle Table holds at most 48 records, and no two of them share a vehicle number (R81). -/
def Blocks.NumbersDistinct (b : Blocks) : Prop :=
  b.vt.table.length ≤ 48 ∧ (b.vt.table.map (·.number)).Nodup

/-- The VA, the VT and the AU hold nothing of a vehicle, and the overload alarm and span lock are
clear. -/
structure Blocks.AtRest (b : Blocks) : Prop where
  va : b.va = Assembler.reset
  table : b.vt.table = []
  occupants : b.vt.occupants = ⟨[], []⟩
  reservations : b.au.reservations = []
  held : b.au.held = []
  alarm : b.au.alarm = false
  lock : b.au.lock = false

/-- The part mode agrees with the rest of the SU and with the blocks: START-UP exactly until start-up
ends (Table 10-1), the active profile present exactly in SERVICE and ACTIVE (Table 10-3), a settle
expiry in ACTIVE alone (R179, R180), the blocks at rest outside ACTIVE (R62, R80, R105, R130), and the
lanes and the DU in their state after reset until start-up ends (R38, R144, R182). -/
structure Blocks.ModeSound (b : Blocks) : Prop where
  startUp : b.su.mode = .startUp ↔ b.su.startUp ≠ .over
  chosen : b.su.startUp ≠ .chosen .startUp
  profile : b.su.active.isSome = true ↔ b.su.mode = .service ∨ b.su.mode = .active
  settle : b.su.settleExpiry.isSome = true → b.su.mode = .active
  rest : b.su.mode ≠ .active → b.AtRest
  fresh : b.su.startUp ≠ .over → b.du = DirectiveUnit.reset ∧ ∀ l : Lane, b.lane l = LaneUnit.reset

/-- No field of an entry of the Restriction Stack is looser than the active profile's page 0, and the
stack is empty from a reset until start-up ends (R131). -/
def Blocks.StackSound (b : Blocks) : Prop :=
  (∀ p, b.su.active = some p → ∀ e ∈ b.ru.stack, looserThan p e = false)
    ∧ (b.su.startUp ≠ .over → b.ru.stack = [])

/-- The SP has nothing left to do before the event ends: no transaction waits to be handed over, and
no FREE slot has a bus request (R1). -/
def State.Settled (s : State) : Prop :=
  ∀ m : Master, (s.slot m).isAt .toHand = false ∧ (s.slot m = .free → s.bus[m] = [])

/-- No requester of Table 1-3 has a request waiting at the MP. -/
def State.NothingWaits (s : State) : Prop :=
  s.walkRequest = none ∧ s.journalRequest = none ∧ s.sourceRequest = none
    ∧ ∀ m : Master, s.forwardWaits m = false

/-- Every byte of record memory reads as before. -/
def SameMemory (s t : State) : Prop := ∀ a : Nat, readByte a t.mem = readByte a s.mem

/-- The frame of an event inside the blocks: no answer is given; the slots, the bus, the PTU, every
byte of memory and the queue are unchanged; and so is the MP, unless it was IDLE (R9). -/
structure InsideBlocks (s t : State) : Prop where
  answers : t.answers = []
  slots : t.slots = s.slots
  bus : t.bus = s.bus
  ptu : t.ptu = s.ptu
  mem : SameMemory s t
  pending : t.pending = s.pending
  mp : s.mp.cycle ≠ .idle → t.mp = s.mp

/-- The frame of an event that presents nothing to the MP either. -/
structure InsideQuietly (s t : State) : Prop extends InsideBlocks s t where
  port : t.mp = s.mp

/-- The frame of an event at the ports: the blocks, every byte of memory and the queue are
unchanged. -/
structure AtThePorts (s t : State) : Prop where
  blocks : t.blocks = s.blocks
  mem : SameMemory s t
  pending : t.pending = s.pending

/-- The flags other than one are as before. -/
def FlagsBut (f : Flag) (b c : Blocks) : Prop := ∀ g : Flag, g ≠ f → c.flagSet g = b.flagSet g

/-- The state after an event inside the blocks: no answer is given, the blocks are as given, and an MP
that was IDLE grants what they present (R9). All else is as before. -/
def State.became (s : State) (b : Blocks) : State := poke { s with answers := [], blocks := b }

/-- A record's number sets the lane's base or follows it (R45). -/
def InOrder (u : LaneUnit) (n : BitVec 8) : Prop := ∀ p, u.prevSeq = some p → n = p + 1

/-- The number of words that a framing holds; its expected word index. -/
def Framing.held : Framing → Nat
  | .empty => 0
  | .one _ _ => 1
  | .two _ _ _ => 2
  | .three _ _ _ _ => 3

/-- A word of an index and a slot that completes no record takes framing `f` to `g`, with a FRAMING
fault for the slot `fault` names (R40, R41). -/
def Framing.Takes (f : Framing) (index : Nat) (slot : BitVec 12) (w : Word) (g : Framing)
    (fault : Option (BitVec 12)) : Prop :=
  (index = 0 ∧ g = .one slot w ∧ fault = f.slot)
    ∨ (∃ w0, f = .one slot w0 ∧ index = 1 ∧ g = .two slot w0 w ∧ fault = none)
    ∨ (∃ w0 w1, f = .two slot w0 w1 ∧ index = 2 ∧ g = .three slot w0 w1 w ∧ fault = none)
    ∨ (index ≠ 0 ∧ (f.held ≠ index ∨ f.slot ≠ some slot) ∧ g = .empty
        ∧ fault = some (f.slot.getD slot))

/-! ## Joining a Directive Queue (8.2) -/

/-- What becomes of a Directive Queue that entries have joined: its entries, the lanes whose resend mark
this sets, and whether an entry was dropped. -/
structure Joined where
  queue : List Directive
  marks : List Lane
  dropped : Bool
  deriving DecidableEq, Repr

/-- An entry joins the tail of a queue of fewer than 16. In a full one a DIVERT or a STANDING_ON
displaces the oldest PROCEED or STANDING_OFF, a displaced STANDING_OFF marking its lane; an entry of
another kind, and one that finds nothing to displace, is dropped, a standing one marking its lane (R146,
R147). -/
def joins (q : List Directive) (e : Directive) : Joined :=
  let oldest : Option Directive := if e.kind = .divert ∨ e.kind = .standingOn then
    q.find? fun y => y.kind = .proceed || y.kind = .standingOff else none
  if q.length < 16 then { queue := q ++ [e], marks := [], dropped := false }
  else match oldest with
    | some y => { queue := q.erase y ++ [e]
                  marks := if y.kind = .standingOff then [y.lane] else [], dropped := false }
    | none => { queue := q
                marks := if e.kind = .standingOn ∨ e.kind = .standingOff then [e.lane] else []
                dropped := true }

/-- Entries join a queue one after the other. -/
def joinsAll (q : List Directive) : List Directive → Joined
  | [] => { queue := q, marks := [], dropped := false }
  | e :: es =>
    let j := joins q e
    let k := joinsAll j.queue es
    { queue := k.queue, marks := j.marks ++ k.marks, dropped := j.dropped || k.dropped }

/-- The standing states with the resend marks of some lanes set. -/
def marked (lanes : Vector StandingLane 6) (ls : List Lane) : Vector StandingLane 6 :=
  Vector.ofFn fun l => { lanes[l] with resend := lanes[l].resend || ls.contains l }

/-- `b` with the record of a number changed. -/
def Blocks.recordNow (b : Blocks) (n : VehicleNumber) (f : VehicleRecord → VehicleRecord) : Blocks :=
  { b with vt := { b.vt with table := b.vt.table.map fun w => if w.number = n then f w else w } }

/-- `b` after the report of a dropped entry: of a tracked DIVERT, the record of its number and deadline
with verdict DIVERT is marked UNWARNED, with the flag if the mark was clear (R147, R92). -/
def Blocks.dropReported (b : Blocks) (e : Directive) : Blocks :=
  let named (r : VehicleRecord) : Bool := r.number = e.vehicle
    && r.times.d.extractLsb' 0 16 = e.deadline
    && (match r.verdict with
        | some (.divert _) => true
        | some .admitted | none => false)
  match if e.kind = .divert ∧ e.tracked = true then b.vt.table.find? named else none with
  | none => b
  | some r =>
    if r.flags.unwarned then b
    else { b.recordNow r.number fun w => { w with flags := { w.flags with unwarned := true } } with
      csu := { b.csu with flags := b.csu.flags ||| Flag.unwarned.bit } }

/-- `b` after an entry has joined an approach's queue. A drop sets DIRECTIVE_OVERFLOW and the overflow
condition, the beacons being evaluated where it was CLEAR, and is reported (R146, R147, R155). -/
def Blocks.told (b : Blocks) (x : Approach) (e : Directive) : Blocks :=
  let j := joins (b.du.queues.at x) e
  let c : Blocks := { b with du := { b.du with
    queues := b.du.queues.put x j.queue, lanes := marked b.du.lanes j.marks } }
  if j.dropped then
    let d : Blocks := { c with
      du := { c.du with overflow := c.du.overflow.put x true }
      csu := { c.csu with flags := c.csu.flags ||| Flag.directiveOverflow.bit } }
    let beacon : PerApproach Beacon :=
      if b.du.overflow.at x then b.du.beacon else ⟨beaconState d .A, beaconState d .B⟩
    Blocks.dropReported { d with du := { d.du with beacon } } e
  else c

/-! ## Standing evaluations (8.4) -/

/-- What an evaluation makes of a lane's standing state and reason (R152). -/
def standingAfter (b : Blocks) (l : Lane) : Standing × Option Reason :=
  match (b.standing l).state, standingCause b l with
  | .off, some r => (.on, some r)
  | .on, none => (.off, none)
  | st, _ => (st, (b.standing l).reason)

/-- The directive that an evaluation queues for a lane whose standing state it changes (R152). That a
STANDING_OFF carries reason NONE is the model's choice (log 37). -/
def standingTold (b : Blocks) (l : Lane) : Option Directive :=
  match (b.standing l).state, standingCause b l with
  | .off, some r => some (standingDirective .standingOn l r)
  | .on, none => some (standingDirective .standingOff l .none)
  | _, _ => none

/-- The directive that a queue that has become empty takes afresh for a marked lane (R148); of a
STANDING_OFF, with reason NONE (log 37). -/
def standingResent (b : Blocks) (l : Lane) : Option Directive :=
  match (b.standing l).state with
  | .on => some (standingDirective .standingOn l ((b.standing l).reason.getD .none))
  | .off => some (standingDirective .standingOff l .none)
  | .absent => none

/-- The directives that an approach's queue takes afresh when it has become empty, in ascending lane
order (R148). -/
def resentTo (b : Blocks) (x : Approach) : List Directive :=
  (allLanes.filter fun l => laneInUse b.profile l && laneApproach b.profile l = x
    && (b.standing l).resend).filterMap (standingResent b)

/-- What becomes of an approach's queue in the evaluation of the lanes `ls`: the directives of those
whose standing state changes join it, in the order of `ls` (R152). -/
def evaluatedQueue (ls : List Lane) (b : Blocks) (x : Approach) : Joined :=
  joinsAll (b.directives x)
    ((ls.filter fun l => laneInUse b.profile l && laneApproach b.profile l = x).filterMap
      (standingTold b))

/-- `c` is `b` after the standing evaluation of the lanes `ls` and of the beacons, on the inputs that
`b` records (R152, R154). The directives join their queues, and a queue without room displaces and drops
as R146 and R147 state, with the overflow condition, its flag and the resend marks. Nothing else
changes. -/
structure Evaluated (ls : List Lane) (b c : Blocks) : Prop where
  frame : c = { b with
    du := { b.du with
      queues := c.du.queues, overflow := c.du.overflow, lanes := c.du.lanes, beacon := c.du.beacon }
    csu := { b.csu with flags := c.csu.flags } }
  flags : ∀ f : Flag, c.flagSet f = (b.flagSet f || (decide (f = .directiveOverflow)
    && ((evaluatedQueue ls b .A).dropped || (evaluatedQueue ls b .B).dropped)))
  lanes : ∀ l : Lane, ((c.standing l).state, (c.standing l).reason) =
    if l ∈ ls ∧ laneInUse b.profile l = true then standingAfter b l
    else ((b.standing l).state, (b.standing l).reason)
  marks : ∀ l : Lane, (c.standing l).resend = ((b.standing l).resend
    || (evaluatedQueue ls b .A).marks.contains l || (evaluatedQueue ls b .B).marks.contains l)
  beacons : ∀ x : Approach, c.du.beacon.at x = beaconState c x
  queued : ∀ x : Approach, c.directives x = (evaluatedQueue ls b x).queue
  overflow : ∀ x : Approach, c.du.overflow.at x
    = (b.du.overflow.at x || (evaluatedQueue ls b x).dropped)

/-! ## Admissions, revocations and sweeps (Chapter 6) -/

/-- The directive that the AU asks for on behalf of a record (R113, R145). -/
def directiveFor (kind : DirectiveKind) (reason : Reason) (r : VehicleRecord) : Directive :=
  { kind, lane := r.lane, stale := false, reason, vehicle := r.number
    gross := BitVec.ofNat 16 (min 65535 ((r.gross + 9) / 10))
    deadline := r.times.d.extractLsb' 0 16, fullDeadline := some r.times.d, tracked := true }

/-- The Reservation List with a vehicle's reservation over its interval placed (R110, R111, R114). -/
def reservedFor (kind : ReservationKind) (r : VehicleRecord) (l : List Reservation) :
    List Reservation :=
  placeAfter (fun y => !later y.start r.times.s)
    { owner := .vehicle r.number, kind, approach := r.approach, load := r.gross
      start := r.times.s, finish := some r.times.t } l

/-- `b` after the admission of a HELD vehicle in a re-evaluation: ADMITTED, or COMMITTED with LATE once
its D is reached, or MISSING once its E1 is, with a NORMAL reservation, a stamp and a PROCEED, off the
Held List (R86, R88, R110, R122). -/
def Blocks.readmitted (b : Blocks) (r : VehicleRecord) : Blocks :=
  let c := (b.recordNow r.number fun w => { w with
    state := if r.e1Reached b.now then .missing else if r.dReached b.now then .committed else .admitted
    verdict := some .admitted, reserved := true, stamp := some b.au.counter
    flags := { w.flags with late := w.flags.late || r.dReached b.now } }).told r.approach
      (directiveFor .proceed .none r)
  { c with au := { b.au with
      held := b.au.held.erase r.number
      reservations := reservedFor .normal r b.au.reservations
      counter := b.au.counter + 1 } }

/-- `c` is `b` after a pass over the numbers `ks` of the Held List (R122): one whose approach is closed,
or for which a condition of R110 fails, is passed over; any other is admitted, here before its E1 or its
T. -/
def Readmits : List VehicleNumber → Blocks → Blocks → Prop
  | [], b, c => c = b
  | k :: ks, b, c =>
    ((∀ r, b.record k = some r → b.effClosed.at r.approach = true ∨ admissible b r = false)
        ∧ Readmits ks b c)
      ∨ ∃ r, b.record k = some r ∧ k ∈ b.au.held ∧ b.effClosed.at r.approach = false
          ∧ admissible b r = true ∧ (r.e1Reached b.now = false ∨ r.tReached b.now = false)
          ∧ Readmits ks (b.readmitted r) c

/-- `b` after the revocation of an ADMITTED vehicle: its reservation released, its record DIVERTED with
reason REVOKED, a DIVERT queued (R124, R85). -/
def Blocks.revoked (b : Blocks) (r : VehicleRecord) : Blocks :=
  let c := (b.recordNow r.number fun w => { w with
    state := .diverted, verdict := some (.divert .revoked), reserved := false
    delivery := none }).told r.approach (directiveFor .divert .revoked r)
  { c with au := { b.au with
      reservations := b.au.reservations.filter fun w => w.owner ≠ .vehicle r.number } }

/-- The revocations of R124 and R127 from `b` on are those of `rs`: each time the ADMITTED vehicle with
the latest stamp, of those that `among` names, until `goOn` fails or none is left. Here each comes before
its D and its V1. -/
def RevokesInOrder (goOn : Blocks → Bool) (among : VehicleRecord → Bool) :
    List VehicleRecord → Blocks → Prop
  | [], b => goOn b = false ∨ ∀ y ∈ b.vt.table, y.state = .admitted → among y = false
  | r :: rs, b =>
    goOn b = true ∧ r ∈ b.vt.table ∧ r.state = .admitted ∧ among r = true
      ∧ (∀ y ∈ b.vt.table, y.state = .admitted → among y = true → y ≠ r →
          laterStamp r y = true ∧ laterStamp y r = false)
      ∧ r.dReached b.now = false ∧ r.v1Reached b.now = false
      ∧ RevokesInOrder goOn among rs (b.revoked r)

/-- `d` is `b` after the revocations of `rs` and the end of the sweep: an alarm that the overload
condition contradicts is set with OVERLOAD, or cleared, and told to the DU; and where a vehicle was
revoked and the condition is false, a re-evaluation of the Held List follows (R124, R125). -/
def SweepEnds (rs : List VehicleRecord) (b d : Blocks) : Prop :=
  let c := rs.foldl Blocks.revoked b
  let told : Blocks := { c with
    au := { c.au with alarm := overloaded c }
    du := { c.du with inputs := { c.du.inputs with alarm := overloaded c } }
    csu := { c.csu with
      flags := if overloaded c then c.csu.flags ||| Flag.overload.bit else c.csu.flags } }
  ∃ e, (c.au.alarm = overloaded c → e = c)
    ∧ (c.au.alarm ≠ overloaded c → Evaluated allLanes told e)
    ∧ (rs ≠ [] → overloaded c = false → ∀ e', Readmits e.au.held e e' → d = e')
    ∧ (rs = [] ∨ overloaded c = true → d = e)

/-- `d` is `b` after an alarm evaluation that cannot set the alarm and the re-evaluation of the Held List
that follows it: a set alarm that the overload condition contradicts is cleared and told to the DU
(R125, R126). -/
def Reevaluates (b d : Blocks) : Prop :=
  ∃ e, (b.au.alarm = false ∨ overloaded b = true → e = b)
    ∧ (b.au.alarm = true → overloaded b = false → Evaluated allLanes { b with
        au := { b.au with alarm := false }
        du := { b.du with inputs := { b.du.inputs with alarm := false } } } e)
    ∧ ∀ e', Readmits e.au.held e e' → d = e'

/-- `d` is `b` after a count report and what follows it: the AU records the counts of both queues, and a
set lock clears where both hold fewer than 24 and no UNRESERVED occupant remains, which the DU is told,
and the Held List is re-evaluated (R93, R128). -/
def CountsReported (b d : Blocks) : Prop :=
  let lengths : PerApproach Nat := ⟨b.vt.occupants.a.length, b.vt.occupants.b.length⟩
  let c : Blocks := { b with
    au := { b.au with occupants := lengths, unreserved := b.unreservedCount } }
  let clears : Prop :=
    b.au.lock = true ∧ lengths.a < 24 ∧ lengths.b < 24 ∧ b.unreservedCount = 0
  (¬ clears → d = c)
    ∧ (clears → ∃ e, Evaluated allLanes { c with
          au := { c.au with lock := false }
          du := { c.du with inputs := { c.du.inputs with lock := false } } } e
        ∧ ∀ e', Readmits e.au.held e e' → d = e')

/-- `d` is `b` after the VT's request to release an owner's reservation: it leaves the list, and the
alarm evaluation and the re-evaluation of the Held List follow; nothing where there is none (R120,
R106). -/
def Releases (o : Owner) (b d : Blocks) : Prop :=
  ((∃ w ∈ b.au.reservations, w.owner = o) → Reevaluates { b with au := { b.au with
      reservations := b.au.reservations.filter fun w => w.owner ≠ o } } d)
    ∧ ((∀ w ∈ b.au.reservations, w.owner ≠ o) → d = b)

/-- The reservations of `os` are released one after the other. -/
def ReleasesInOrder : List Owner → Blocks → Blocks → Prop
  | [], b, d => d = b
  | o :: os, b, d => ∃ c, Releases o b c ∧ ReleasesInOrder os c d

/-- Both occupant queues without the occupants that `gone` names; the rest keep their order (R93). -/
def Blocks.withoutOccupants (b : Blocks) (gone : Occupant → Bool) : Blocks :=
  { b with vt := { b.vt with occupants :=
    ⟨b.vt.occupants.a.filter (!gone ·), b.vt.occupants.b.filter (!gone ·)⟩ } }

/-- `d` is `b` after the retirement of vehicle `n` with an outcome, in the order of its steps: a queued
one leaves its queue, with a count report; its reservation is released; its number leaves the Held List;
its journal record is offered, JOURNAL_LOST where the queue holds 8; its record leaves the table (R101,
R169). That the count report comes before the release is the model's reading (log 19). -/
def Retires (outcome : JournalOutcome) (n : VehicleNumber) (b d : Blocks) : Prop :=
  ∃ c e, (b.queued n = true → CountsReported (b.withoutOccupants (Occupant.isVehicle n)) c)
    ∧ (b.queued n = false → c = b)
    ∧ (∀ v, c.record n = some v →
        (v.reserved = true → Releases (.vehicle n) c e) ∧ (v.reserved = false → e = c))
    ∧ (∀ v, e.record n = some v → d = { e with
        vt := { e.vt with table := e.vt.table.filter fun w => w.number ≠ n }
        au := { e.au with held := e.au.held.erase n }
        csu := if e.csu.journal.length < 8 then { e.csu with
            journal := e.csu.journal ++ [{ words := recordWords outcome v e.now, next := 0 }] }
          else { e.csu with flags := e.csu.flags ||| Flag.journalLost.bit } })

/-- The machine stops nowhere: every command in every state answers a next state (log 28). -/
def NeverStops : Prop := ∀ (i : Instr) (s : State), ∃ t, exec i s = .next t

end Sys2Proof.Machine
end

