-- ==== Sys2Proof/Certificates/Slice0/Obligations.lean ====
section
/-! DEFINITION. What is claimed of the model, for the provers: one Prop for each claim. A claim about a
command says, for every state and operands that meet its premises, that exec answers a next state, and
what that state holds, what changed and what did not. Wherever a STANDING_OFF joins a queue, its reason
NONE is the model's choice (log 37). -/

open Sys2Proof Sys2Proof.Machine

/-! ## The queue and the outcome of a step -/

/-- A step with a command at the front of the queue is exec of the command on the queue's rest. -/
def Obligations.StepRunsTheFrontCommand : Prop :=
  ∀ (c : Instr) (s : State),
    Machine.step (s.withFront c) = Machine.exec c s

/-- On an empty queue a step is one period of the reference clock: nothing until start-up's step 2,
then one count of the prescaler, and at the divisor a rise of the Road Clock, 2^32 - 1 to 0;
ROAD_CLOCK_TICK is the remaining periods up to that rise (R172). At a rise every expiry of a vehicle
record that is reached is marked so, and stays reached whatever the clock becomes (R86). That an idle
step is a period, and the row the rest of them, is the model's choice (log 12). -/
def Obligations.ReferenceClockCounts : Prop :=
  ∀ s : State,
    let b := s.blocks
    let after (b : Blocks) : State := { s with answers := [], blocks := b }
    let risen : Blocks := { b with
      vt := { b.vt with table := b.vt.table.map fun r => { r with past :=
        { d := r.past.d || reached b.now r.times.d, e1 := r.past.e1 || reached b.now r.times.e1
          v1 := r.past.v1 || reached b.now r.times.v1, t := r.past.t || reached b.now r.times.t } } }
      su := { b.su with count := 0, clock := b.su.clock + 1 } }
    Machine.exec .roadClockTick s
        = .next (after (if b.su.startUp = .causeHolds then b else risen))
      ∧ (s.pending = [] →
          (b.su.startUp = .causeHolds → Machine.step s = .next (after b))
          ∧ (b.su.startUp ≠ .causeHolds → b.su.count + 1 < b.su.divisor →
              Machine.step s
                = .next (after { b with su := { b.su with count := b.su.count + 1 } }))
          ∧ (b.su.startUp ≠ .causeHolds → b.su.divisor ≤ b.su.count + 1 →
              Machine.step s = .next (after risen)))
      ∧ (∀ (r : VehicleRecord) (later : Time),
          (r.dReached b.now = true → (r.latch b.now).dReached later = true)
          ∧ (r.e1Reached b.now = true → (r.latch b.now).e1Reached later = true)
          ∧ (r.v1Reached b.now = true → (r.latch b.now).v1Reached later = true)
          ∧ (r.tReached b.now = true → (r.latch b.now).tReached later = true)
          ∧ (r.latch b.now).times = r.times)

/-- No command ever stops the machine, and none touches the queue (log 28). -/
def Obligations.EveryCommandAnswersNext : Prop :=
  ∀ (i : Instr) (s : State), ∃ t, Machine.exec i s = .next t ∧ t.pending = s.pending

/-! ## Invariants -/

/-- The invariants below hold at reset; the values there that the spec leaves open are the model's
(logs 1, 3, 7, 8). -/
def Obligations.InvariantsHoldAtReset : Prop :=
  State.reset.MemoryOk ∧ State.reset.Settled ∧ State.reset.ptu.Sound ∧ State.reset.blocks.QueuesFit
    ∧ State.reset.blocks.ListsFit ∧ State.reset.QueueSound ∧ State.reset.blocks.NumbersDistinct
    ∧ State.reset.blocks.ModeSound ∧ State.reset.blocks.StackSound

/-- Every step keeps record memory in its canonical form, which is the model's (log 1): addresses
strictly rising and inside the 16 MiB, and no byte listed that equals an unwritten one. -/
def Obligations.MemoryStaysCanonical : Prop :=
  ∀ s t : State, s.MemoryOk → Machine.step s = .next t → t.MemoryOk

/-- After every step the SP has nothing left to do: no transaction waits to be handed over, and no
FREE slot has a bus request untaken (R1). -/
def Obligations.PortStaysSettled : Prop :=
  ∀ s t : State, s.Settled → Machine.step s = .next t → t.Settled

/-- Every step keeps every set of the Translation Buffer free of two valid entries with one tag, and
every valid entry passing its check (R28, R18); the check value is the model's choice (log 4). -/
def Obligations.TranslationBufferStaysSound : Prop :=
  ∀ s t : State, s.ptu.Sound → Machine.step s = .next t → t.ptu.Sound

/-- Every step keeps the collections of Table 0-3 within their capacities: the Fault Log, the Journal
Writer queue, the Restriction Stack, the Directive Queues; the Vehicle Table, the occupant queues, the
Reservation List, the Held List, which names each vehicle once, and the stored axles of an open
vehicle; and the Walk Engine's waiting queue, which names each master once. -/
def Obligations.CollectionsStayWithinCapacity : Prop :=
  ∀ s t : State, Machine.step s = .next t →
    (s.blocks.QueuesFit → s.blocks.ListsFit → t.blocks.QueuesFit ∧ t.blocks.ListsFit)
      ∧ (s.QueueSound → t.QueueSound)

/-- Every step keeps the vehicle numbers of the Vehicle Table distinct (R81). -/
def Obligations.VehicleNumbersStayDistinct : Prop :=
  ∀ s t : State, s.blocks.NumbersDistinct → Machine.step s = .next t → t.blocks.NumbersDistinct

/-- Every step keeps the mode in agreement with start-up, with the active profile, with the settle
expiry, with the rest of the blocks outside ACTIVE, and with the lanes and the DU until start-up
ends. -/
def Obligations.ModeStaysSound : Prop :=
  ∀ s t : State, s.blocks.ModeSound → Machine.step s = .next t → t.blocks.ModeSound

/-- Every step keeps every entry of the Restriction Stack no looser than the statutory limits of the
active profile (R131). -/
def Obligations.RestrictionsStayWithinStatutory : Prop :=
  ∀ s t : State, s.blocks.ModeSound → s.blocks.StackSound → Machine.step s = .next t →
    t.blocks.StackSound

/-! ## The System Port (Chapter 1) -/

/-- TRANSACTION at a misaligned address, in every mode: REFUSED at once with a MISALIGNED fault record;
the slot stays FREE and nothing else changes (R2, R4, R166). -/
def Obligations.MisalignedTransactionIsRefused : Prop :=
  ∀ (s : State) (m : Master) (a : Addr) (x : Access),
    s.Settled → s.slot m = .free → a.toNat % 4 ≠ 0 →
    let c := s.blocks.csu
    let fault : FaultRecord :=
      { kind := .misaligned, subject := .master m,
        clock16 := s.blocks.su.clock.extractLsb' 0 16, location := a }
    Machine.exec (.transaction m a x) s = .next { s with
      answers := [{ master := m, okay := false, data := 0xFFFFFFFF }]
      blocks := { s.blocks with csu := { c with
        faultLog := if c.faultLog.length < 8 then c.faultLog ++ [fault] else c.faultLog
        overrun := if c.faultLog.length < 8 then c.overrun else true
        flags := c.flags ||| Flag.fault.bit } } }

/-- TRANSACTION while start-up is in progress: the slot goes to HELD (R1, R16). TRANSACTION of a master
whose slot holds one, in any mode: the request stays on the bus, untaken (R1), behind those before it (log 16). -/
def Obligations.TransactionsWaitTheirTurn : Prop :=
  ∀ (s : State) (m : Master) (a : Addr) (x : Access), s.Settled →
    (s.slot m = .free → a.toNat % 4 = 0 → s.blocks.su.mode = .startUp →
        Machine.exec (.transaction m a x) s = .next
          { s with slots := s.slots.set m (.held { address := a, access := x }), answers := [] })
      ∧ (s.slot m ≠ .free →
          Machine.exec (.transaction m a x) s = .next
            { s with bus := s.bus.set m (s.bus[m] ++ [{ address := a, access := x }]), answers := [] })

/-- TRANSACTION passed as PLAIN at its own address: in BYPASS, but for master 7's fallback page (R13),
and of a DIRECT master in SERVICE and ACTIVE (R19). The slot goes to MEMORY; an MP that is IDLE with
nothing else waiting grants the request at once (R5, R9, R11). -/
def Obligations.UntranslatedTransactionIsForwarded : Prop :=
  ∀ (s : State) (m : Master) (a : Addr) (x : Access),
    s.Settled → s.slot m = .free → a.toNat % 4 = 0 →
    (s.blocks.su.mode = .bypass ∧ ¬ (m = 7 ∧ a.toNat < 0x200))
      ∨ ((s.blocks.su.mode = .service ∨ s.blocks.su.mode = .active)
          ∧ isDirect s.blocks.profile m = true) →
    ∃ t, Machine.exec (.transaction m a x) s = .next t ∧ AtThePorts s t
      ∧ t.slots = s.slots.set m (.memory { address := a, access := x } a .plain)
      ∧ t.bus = s.bus ∧ t.ptu = s.ptu ∧ t.answers = []
      ∧ (s.mp.cycle ≠ .idle → t.mp = s.mp)
      ∧ (s.mp.cycle = .idle → s.NothingWaits →
          t.mp = { s.mp with cycle := .busy (.forward m), pointer := m })

/-- TRANSACTION of master 7 to its fallback page in BYPASS (R14): a status read that the CSU answers,
one that it does not, a write of the status half, and a read of the command half. Offset 68, the
fault pop, is the row FAULT_POP's. -/
def Obligations.FallbackPageOfMasterSeven : Prop :=
  ∀ (s : State) (a : Addr) (x : Access),
    s.Settled → s.slot 7 = .free → a.toNat % 4 = 0 → s.blocks.su.mode = .bypass →
    (∀ w, x = .read → 0x100 ≤ a.toNat → a.toNat < 0x200 → a.toNat ≠ 0x144 →
        statusWord s.ptu.sweep s.blocks (BitVec.ofNat 12 (a.toNat - 0x100)) = some w →
        Machine.exec (.transaction 7 a x) s = .next
          { s with answers := [{ master := 7, okay := true, data := w }] })
      ∧ (x = .read → 0x100 + 84 ≤ a.toNat → a.toNat < 0x200 →
          Machine.exec (.transaction 7 a x) s = .next { s with
            answers := [{ master := 7, okay := false, data := 0xFFFFFFFF }]
            blocks := masterFault .windowOffset 7 a s.blocks })
      ∧ (∀ w, x = .write w → 0x100 ≤ a.toNat → a.toNat < 0x200 →
          Machine.exec (.transaction 7 a x) s = .next { s with
            answers := [{ master := 7, okay := false, data := 0xFFFFFFFF }]
            blocks := masterFault .windowWrite 7 a s.blocks })
      ∧ (x = .read → a.toNat < 0x100 →
          ∃ t, Machine.exec (.transaction 7 a x) s = .next t ∧ AtThePorts s t
            ∧ t.slots = s.slots.set 7 (.memory { address := a, access := x } a .command)
            ∧ t.bus = s.bus ∧ t.ptu = s.ptu ∧ t.answers = [])

/-- TRANSACTION that hits an entry whose permit allows it (R20 to R22). To a PLAIN page, or as a READ of
a CAPTURE or COMMAND page, it passes to the entry's page × 4096 plus the offset, and the buffer is
unchanged. A READ of a STATUS page is answered with the CSU's word, offset 68 as FAULT_POP, and one of a
DIRECTIVE page with the DU's: offset 0 as DIRECTIVE_POP, 4 the last-popped record's word 1, 8 the
number of entries (R7, R149, R150, R165). -/
def Obligations.HitPassesToTheEntrysPage : Prop :=
  ∀ (s : State) (m : Master) (a : Addr) (x : Access) (e : Entry),
    let offset := a.toNat % 4096
    let approach : Approach := if e.channel = 0 then .A else .B
    let answered (w : Word) : State := { s with answers := [{ master := m, okay := true, data := w }] }
    s.Settled → s.slot m = .free → a.toNat % 4 = 0 →
    s.blocks.su.mode = .service ∨ s.blocks.su.mode = .active →
    isDirect s.blocks.profile m = false → s.ptu.sweep.coversNow m = false → s.ptu.Sound →
    e = (s.ptu.set m (addrSet a)).wayA ∨ e = (s.ptu.set m (addrSet a)).wayB →
    e.valid = true → e.tag = addrTag a →
    (match x with
      | .read => e.readPermit = true
      | .write _ => e.writePermit = true) →
    (e.kind = .plain ∨ ((e.kind = .capture ∨ e.kind = .command) ∧ x = .read) →
        ∃ (t : State) (p : Addr), Machine.exec (.transaction m a x) s = .next t ∧ AtThePorts s t
          ∧ p.toNat = e.page.toNat * 4096 + offset
          ∧ t.slots = s.slots.set m (.memory { address := a, access := x } p e.kind)
          ∧ t.bus = s.bus ∧ t.ptu = s.ptu ∧ t.answers = []
          ∧ (s.mp.cycle ≠ .idle → t.mp = s.mp))
      ∧ (e.kind = .status → x = .read →
          (∀ w, offset ≠ 68 →
            statusWord s.ptu.sweep s.blocks (BitVec.ofNat 12 offset) = some w →
            Machine.exec (.transaction m a x) s = .next (answered w))
          ∧ (offset = 68 →
              Machine.exec (.transaction m a x) s = Machine.exec (.faultPop m) s))
      ∧ (e.kind = .directive → x = .read →
          (offset = 0 →
            Machine.exec (.transaction m a x) s = Machine.exec (.directivePop m approach) s)
          ∧ (offset = 4 → Machine.exec (.transaction m a x) s = .next (answered
              (((s.blocks.du.lastPopped.at approach).map Directive.word1).getD 0)))
          ∧ (offset = 8 → (s.blocks.directives approach).length ≤ 16 →
              Machine.exec (.transaction m a x) s = .next (answered
                (BitVec.ofNat 32 (s.blocks.directives approach).length))))

/-- TRANSACTION that hits an entry and is refused, with nothing else changed (R4): PERMISSION where the
entry's permit does not allow it, whatever its kind; WINDOW_WRITE for a write of a STATUS or DIRECTIVE
page; CROSS_LANE for a write of a CAPTURE page whose lane is not in use or not the master's own; and
WINDOW_OFFSET for a read at an offset that a STATUS or DIRECTIVE page does not answer (R21, R7, R8). -/
def Obligations.PermissionFailureIsRefused : Prop :=
  ∀ (s : State) (m : Master) (a : Addr) (x : Access) (e : Entry),
    let refused (kind : FaultKind) : State := { s with
      answers := [{ master := m, okay := false, data := 0xFFFFFFFF }]
      blocks := masterFault kind m a s.blocks }
    let allowed : Prop := match x with
      | .read => e.readPermit = true
      | .write _ => e.writePermit = true
    s.Settled → s.slot m = .free → a.toNat % 4 = 0 →
    s.blocks.su.mode = .service ∨ s.blocks.su.mode = .active →
    isDirect s.blocks.profile m = false → s.ptu.sweep.coversNow m = false → s.ptu.Sound →
    e = (s.ptu.set m (addrSet a)).wayA ∨ e = (s.ptu.set m (addrSet a)).wayB →
    e.valid = true → e.tag = addrTag a →
    (¬ allowed → Machine.exec (.transaction m a x) s = .next (refused .permission))
      ∧ (allowed → ∀ w, x = .write w →
          (e.kind = .status ∨ e.kind = .directive →
            Machine.exec (.transaction m a x) s = .next (refused .windowWrite))
          ∧ (e.kind = .capture →
              (∀ l : Lane, e.channel.toNat = l.val → laneInUse s.blocks.profile l = true →
                laneOwner s.blocks.profile l ≠ m) →
              Machine.exec (.transaction m a x) s = .next (refused .crossLane)))
      ∧ (allowed → x = .read →
          (e.kind = .status ∧ 84 ≤ a.toNat % 4096) ∨ (e.kind = .directive ∧ 8 < a.toNat % 4096) →
          Machine.exec (.transaction m a x) s = .next (refused .windowOffset))

/-- TRANSACTION of a translating master that gets no entry. One whose area a running sweep covers waits
for the sweep (R32). One that misses joins the walk queue's tail; on an IDLE engine with nobody queued
its walk begins in the same event, with the parameters of the active profile and clear marks, and an
IDLE MP grants its region read at once (R20, R23, R24, R11). A matching way that fails its check is
recorded as ENTRY_CHECK and invalidated, and the look-up misses (R20). -/
def Obligations.MissBeginsTheWalk : Prop :=
  ∀ (s : State) (m : Master) (a : Addr) (x : Access),
    let i := addrSet a
    let held (stage : PtuPlace) : Vector Slot 8 :=
      s.slots.set m (.translating { address := a, access := x } stage)
    let mine (y : Entry) : Prop := y.valid = true ∧ y.tag = addrTag a
    let gone (y : Entry) : Entry := { y with valid := false }
    let misses (b : Blocks) (ptu : Ptu) : Prop :=
      (s.ptu.engine = .idle → s.ptu.queue = [] →
        ∃ (t : State) (p : Addr), Machine.exec (.transaction m a x) s = .next t
          ∧ AtThePorts { s with blocks := b } t ∧ t.slots = held .walking
          ∧ t.ptu = { ptu with
              engine := .region
                ⟨m, regionTableBase s.blocks.profile m, memoryPages s.blocks.profile, false, false⟩ }
          ∧ t.bus = s.bus ∧ t.answers = []
          ∧ p.toNat = (regionTableBase s.blocks.profile m).toNat * 4096 + (a.toNat / 2 ^ 19) * 4
          ∧ (s.mp.cycle ≠ .idle → t.mp = s.mp)
          ∧ (s.mp.cycle = .idle → t.mp = { s.mp with cycle := .busy (.walkRegion p false) }))
      ∧ (s.ptu.engine ≠ .idle →
          Machine.exec (.transaction m a x) s = .next { s with
            answers := [], blocks := b, slots := held .queued
            ptu := { ptu with queue := s.ptu.queue ++ [m] } })
    s.Settled → s.slot m = .free → a.toNat % 4 = 0 →
    s.blocks.su.mode = .service ∨ s.blocks.su.mode = .active →
    isDirect s.blocks.profile m = false →
    (s.ptu.sweep.coversNow m = true →
        Machine.exec (.transaction m a x) s = .next
          { s with answers := [], slots := held .sweepWait })
      ∧ (s.ptu.sweep.coversNow m = false →
          (¬ mine (s.ptu.set m i).wayA → ¬ mine (s.ptu.set m i).wayB → misses s.blocks s.ptu)
          ∧ (mine (s.ptu.set m i).wayA → (s.ptu.set m i).wayA.checks = false →
              ¬ mine (s.ptu.set m i).wayB →
              misses (masterFault .entryCheck m a s.blocks)
                (s.ptu.onSet m i fun w => { w with wayA := gone w.wayA }))
          ∧ (mine (s.ptu.set m i).wayB → (s.ptu.set m i).wayB.checks = false →
              ¬ mine (s.ptu.set m i).wayA →
              misses (masterFault .entryCheck m a s.blocks)
                (s.ptu.onSet m i fun w => { w with wayB := gone w.wayB })))

/-! ## The Memory Port (1.3) -/

/-- The grant chooses in the order of R11 and moves the pointer and the journal wait count as R11 and
R12 state; it changes nothing but the MP. A request that arrives at an IDLE MP is granted at once (R9). -/
def Obligations.GrantFollowsTheOrder : Prop :=
  ∀ s : State,
    grant s = { s with mp := (grant s).mp }
      ∧ (∀ c, s.walkRequest = some c → (grant s).mp = { s.mp with cycle := .busy c })
      ∧ (∀ c, s.walkRequest = none → s.journalRequest = some c → s.mp.waitCount = 4 →
          (grant s).mp = { s.mp with cycle := .busy c, waitCount := 0 })
      ∧ (∀ k : Fin 8, s.walkRequest = none →
          ¬ (s.journalRequest.isSome = true ∧ s.mp.waitCount = 4) →
          s.forwardWaits (s.mp.pointer + 1 + k) = true →
          (∀ j < k, s.forwardWaits (s.mp.pointer + 1 + j) = false) →
          (grant s).mp = { s.mp with
            cycle := .busy (.forward (s.mp.pointer + 1 + k))
            pointer := s.mp.pointer + 1 + k
            waitCount := if s.journalRequest.isSome then min 4 (s.mp.waitCount + 1)
              else s.mp.waitCount })
      ∧ (∀ c, s.walkRequest = none → s.journalRequest = some c →
          (∀ m, s.forwardWaits m = false) →
          (grant s).mp = { s.mp with cycle := .busy c, waitCount := 0 })
      ∧ (∀ c, s.walkRequest = none → s.journalRequest = none →
          (∀ m, s.forwardWaits m = false) → s.sourceRequest = some c →
          (grant s).mp = { s.mp with cycle := .busy c })
      ∧ (s.NothingWaits → grant s = s)
      ∧ poke s = (if s.mp.cycle = .idle then grant s else s)

/-- FORWARDED_CYCLE_DONE. A WRITE's word is stored at the address that the slot holds, every byte
outside its four reads as before, and the master is answered OKAY with all-ones. A READ is answered
OKAY with the word that memory holds, and memory is as it was. The slot is FREE and the next cycle is
granted (R5, R9). Which of the four bytes lies lower is the model's choice (log 2). -/
def Obligations.ForwardedCycleTakesEffect : Prop :=
  ∀ (s : State) (m : Master) (x : Transaction) (a : Addr) (k : WindowKind),
    let done (mem : List Host.Cell) (data : Word) : State := grant { s with
      slots := s.slots.set m .free
      mem
      answers := [{ master := m, okay := true, data }]
      mp := { s.mp with cycle := .idle } }
    s.Settled → s.mp.cycle = .busy (.forward m) → s.slot m = .memory x a k → s.bus[m] = [] →
    (∀ w, x.access = .write w → s.MemoryOk →
        Machine.exec .forwardedCycleDone s = .next (done (writeWord s.mem a w) 0xFFFFFFFF)
        ∧ readWord (writeWord s.mem a w) a = w
        ∧ (∀ b : Nat, (∀ i < 4, b ≠ byteAddress a i) →
            readByte b (writeWord s.mem a w) = readByte b s.mem))
      ∧ (x.access = .read →
          Machine.exec .forwardedCycleDone s = .next (done s.mem (readWord s.mem a)))

/-! ## The Walk Engine and the sweep (Chapter 2) -/

/-- REGION_READ_DONE with a valid region entry within the walk's memory_pages: the engine goes to PAGE
and its read of the page entry, at page table page × 4096 + page × 4, is granted at once (R25, R11). -/
def Obligations.WalkReadsThePageEntry : Prop :=
  ∀ (s : State) (a : Addr) (k : Walk) (x : Transaction) (st : PtuPlace),
    let w := readWord s.mem a
    s.mp.cycle = .busy (.walkRegion a false) → s.ptu.engine = .region k →
    s.slot k.master = .translating x st →
    w.getLsbD 31 = true → (w.extractLsb' 0 12).toNat < k.memoryPages →
    ∃ p : Addr, p.toNat = (w.extractLsb' 0 12).toNat * 4096 + (x.address.toNat / 4096 % 128) * 4
      ∧ Machine.exec .regionReadDone s = .next { s with
          answers := []
          ptu := { s.ptu with engine := .page k (w.extractLsb' 0 12) }
          mp := { s.mp with cycle := .busy (.walkPage p false) } }

/-- REGION_READ_DONE and PAGE_READ_DONE of a walk that fails: TABLE_MISS for an entry whose valid flag
is clear, TABLE_FAULT for one out of range. The access is refused, nothing is filled, the engine goes
to IDLE, and the next cycle is granted (R25 to R27). -/
def Obligations.FailedWalkIsRefused : Prop :=
  ∀ (s : State) (a : Addr) (k : Walk) (x : Transaction) (st : PtuPlace),
    let w := readWord s.mem a
    let refused (f : FaultKind) : State := grant { s with
      slots := s.slots.set k.master .free
      answers := [{ master := k.master, okay := false, data := 0xFFFFFFFF }]
      ptu := { s.ptu with engine := .idle }
      blocks := masterFault f k.master x.address s.blocks
      mp := { s.mp with cycle := .idle } }
    s.Settled → s.slot k.master = .translating x st → s.bus[k.master] = [] → s.ptu.queue = [] →
    (s.mp.cycle = .busy (.walkRegion a false) → s.ptu.engine = .region k →
        (w.getLsbD 31 = false → Machine.exec .regionReadDone s = .next (refused .tableMiss))
        ∧ (w.getLsbD 31 = true → k.memoryPages ≤ (w.extractLsb' 0 12).toNat →
            Machine.exec .regionReadDone s = .next (refused .tableFault)))
      ∧ (∀ tablePage : BitVec 12,
          s.mp.cycle = .busy (.walkPage a false) → s.ptu.engine = .page k tablePage →
          (w.getLsbD 31 = false → Machine.exec .pageReadDone s = .next (refused .tableMiss))
          ∧ (w.getLsbD 31 = true →
              k.memoryPages ≤ (w.extractLsb' 0 12).toNat ∨ 4 < (w.extractLsb' 16 3).toNat
                ∨ ((w.extractLsb' 16 3).toNat = 1 ∧ 5 < (w.extractLsb' 13 3).toNat)
                ∨ ((w.extractLsb' 16 3).toNat = 4 ∧ 1 < (w.extractLsb' 13 3).toNat) →
              Machine.exec .pageReadDone s = .next (refused .tableFault)))

/-- PAGE_READ_DONE of a walk that succeeds on a PLAIN page whose permit allows the access: the set is
filled unless a walk mark forbids it, the slot goes to MEMORY with the physical address, the engine
goes to IDLE, and the next cycle is granted (R26 to R29, R21, R22). -/
def Obligations.SuccessfulWalkFillsAndPasses : Prop :=
  ∀ (s : State) (a : Addr) (k : Walk) (tablePage : BitVec 12) (x : Transaction) (st : PtuPlace),
    let w := readWord s.mem a
    let e : WalkedEntry :=
      { readPermit := w.getLsbD 30, writePermit := w.getLsbD 29, kind := .plain,
        channel := w.extractLsb' 13 3, page := w.extractLsb' 0 12 }
    let filled := s.ptu.onSet k.master (addrSet x.address) (BufferSet.fill (addrTag x.address) e)
    s.Settled → s.mp.cycle = .busy (.walkPage a false) → s.ptu.engine = .page k tablePage →
    s.slot k.master = .translating x st → s.ptu.queue = [] →
    w.getLsbD 31 = true → (w.extractLsb' 0 12).toNat < k.memoryPages → w.extractLsb' 16 3 = 0 →
    (match x.access with
      | .read => w.getLsbD 30 = true
      | .write _ => w.getLsbD 29 = true) →
    ∃ p : Addr, p.toNat = (w.extractLsb' 0 12).toNat * 4096 + x.address.toNat % 4096
      ∧ Machine.exec .pageReadDone s = .next (grant { s with
          slots := s.slots.set k.master (.memory x p .plain)
          answers := []
          ptu := { (if k.areaSwept || k.profileApplied then s.ptu else filled) with engine := .idle }
          mp := { s.mp with cycle := .idle } })

/-- A fill writes over the valid way of the tag, else the one invalid way, else way A of two invalid
ones, else the way that the toggle names, and the toggle then names the other; the filled way is valid
with the walked fields, the tag and a fresh check, and no two valid ways share a tag. A fill goes to the
set of the walked address in the walking master's area, and changes no other set (R28). -/
def Obligations.FillFollowsItsOrder : Prop :=
  ∀ (tag : BitVec 8) (e : WalkedEntry) (b : BufferSet),
    let new := filledEntry tag e
    let mine (y : Entry) : Prop := y.valid = true ∧ y.tag = tag
    (new.valid = true ∧ new.tag = tag ∧ new.walked = e ∧ new.checks = true)
      ∧ (mine b.wayA → b.fill tag e = { b with wayA := new })
      ∧ (¬ mine b.wayA → mine b.wayB → b.fill tag e = { b with wayB := new })
      ∧ (¬ mine b.wayA → ¬ mine b.wayB → b.wayA.valid = false → b.fill tag e = { b with wayA := new })
      ∧ (¬ mine b.wayA → b.wayA.valid = true → b.wayB.valid = false →
          b.fill tag e = { b with wayB := new })
      ∧ (¬ mine b.wayA → ¬ mine b.wayB → b.wayA.valid = true → b.wayB.valid = true →
          b.fill tag e = (match b.toggle with
            | .A => { b with wayA := new, toggle := .B }
            | .B => { b with wayB := new, toggle := .A }))
      ∧ (b.Sound → (b.fill tag e).Sound)
      ∧ (∀ (k : Walk) (a : Addr) (p : Ptu), k.areaSwept = false → k.profileApplied = false →
          (fillBuffer k a e p).set k.master (addrSet a)
              = (p.set k.master (addrSet a)).fill (addrTag a) e
            ∧ (addrSet a).val = a.toNat / 4096 % 16
            ∧ ∀ (m : Master) (i : Fin 16), m ≠ k.master ∨ i ≠ addrSet a →
                (fillBuffer k a e p).set m i = p.set m i)

/-- SWEEP_STEP: both ways of the set at the position become invalid and its toggle way A, and the
position advances, over sets 0 to 15 of an area and, for ALL, over areas 0 to 7; at the target's last
set, with no transaction waiting for the sweep, the sweep is IDLE with outcome DONE and LONG_OP_DONE is
set (R31, R33). With no sweep running nothing happens (log 10). -/
def Obligations.SweepStepClearsASet : Prop :=
  ∀ (s : State) (q : SweepPosition) (g : SweepTarget),
    let cleared := s.ptu.onSet q.area q.index fun _ => .cleared
    let moved (n : SweepPosition) : State := { s with
      answers := []
      ptu := { cleared with sweep := { s.ptu.sweep with position := some n } } }
    (s.ptu.sweep.running = false → Machine.exec .sweepStep s = .next { s with answers := [] })
      ∧ (s.ptu.sweep.running = true → s.ptu.sweep.position = some q → s.ptu.sweep.target = some g →
          (q.index ≠ 15 → Machine.exec .sweepStep s = .next (moved ⟨q.area, q.index + 1⟩))
          ∧ (q.index = 15 → g = .all → q.area ≠ 7 →
              Machine.exec .sweepStep s = .next (moved ⟨q.area + 1, 0⟩))
          ∧ (q.index = 15 → g ≠ .all ∨ q.area = 7 → s.Settled →
              (∀ m : Master, (s.slot m).isAt .sweepWait = false) →
              Machine.exec .sweepStep s = .next { s with
                answers := []
                ptu := { cleared with
                  sweep := { s.ptu.sweep with running := false, position := none, outcome := .done } }
                blocks := { s.blocks with csu := { s.blocks.csu with
                  flags := s.blocks.csu.flags ||| Flag.longOpDone.bit } } }))
      ∧ ((s.ptu.onSet q.area q.index fun _ => .cleared).set q.area q.index = .cleared)
      ∧ (∀ (m : Master) (i : Fin 16), m ≠ q.area ∨ i ≠ q.index →
          (s.ptu.onSet q.area q.index fun _ => .cleared).set m i = s.ptu.set m i)

/-! ## The Journal Writer and the Profile Store (R170, R174 to R176) -/

/-- JOURNAL_WORD_DONE: the word is stored. The oldest record's next word advances; after word 7 the
record leaves the queue, the write index rises by one, and at journal_count it becomes 0 and the wrap
count rises; a queue left empty sets the journal wait count to 0. A cycle that an ENTER_BYPASS or
APPLY_PROFILE let run stores its word and advances nothing (R170, R171, R9, R12). The Journal Writer
asks for word k at journal_base × 4096 + index × 32 + 4 × k (R10). -/
def Obligations.JournalWordIsWritten : Prop :=
  ∀ (s : State) (a : Addr) (d : Word) (e : JournalEntry) (rest : List JournalEntry),
    let c := s.blocks.csu
    let last := c.writeIndex.toNat + 1 < journalCount s.blocks.profile
    let stored (csu : CommandStatus) (wait : Nat) : State := grant { s with
      answers := []
      mem := writeWord s.mem a d
      blocks := { s.blocks with csu }
      mp := { s.mp with cycle := .idle, waitCount := wait } }
    (s.mp.cycle = .busy (.journal a d true) →
        Machine.exec .journalWordDone s = .next (stored c s.mp.waitCount))
      ∧ (s.mp.cycle = .busy (.journal a d false) → c.journal = e :: rest → e.next ≠ 7 →
          Machine.exec .journalWordDone s = .next (stored
            { c with journal := { e with next := e.next + 1 } :: rest } s.mp.waitCount))
      ∧ (s.mp.cycle = .busy (.journal a d false) → c.journal = e :: rest → e.next = 7 →
          Machine.exec .journalWordDone s = .next (stored
            { c with
              journal := rest
              writeIndex := if last then c.writeIndex + 1 else 0
              wrapCount := if last then c.wrapCount else c.wrapCount + 1 }
            (if rest = [] then 0 else s.mp.waitCount)))
      ∧ (s.MemoryOk → readWord (writeWord s.mem a d) a = d)
      ∧ (s.MemoryOk → ∀ b : Nat, (∀ i < 4, b ≠ byteAddress a i) →
          readByte b (writeWord s.mem a d) = readByte b s.mem)
      ∧ (s.mp.cycle = .idle → c.journal = e :: rest →
          ∃ p : Addr, s.journalRequest = some (.journal p (e.words[e.next]) false)
            ∧ p.toNat = ((journalBase s.blocks.profile).toNat * 4096 + c.writeIndex.toNat * 32
                + 4 * e.next.val) % 2 ^ 24)

/-- SOURCE_WORD_DONE: the word read joins the program buffer, and the buffer that holds its count
starts programming; no byte of memory changes and the next cycle is granted. The reader asks for its
words in order from the source address upwards (R175, R9, R10). -/
def Obligations.SourceWordJoinsTheBuffer : Prop :=
  ∀ (s : State) (a : Addr) (b : ProgramBuffer),
    let full : ProgramBuffer := { b with words := b.words ++ [readWord s.mem a] }
    s.blocks.su.storeState = .reading b →
    (s.mp.cycle = .busy (.source a) →
        Machine.exec .sourceWordDone s = .next (grant { s with
          answers := []
          blocks := { s.blocks with su := { s.blocks.su with
            storeState := if b.words.length + 1 < b.count then .reading full else .programming full } }
          mp := { s.mp with cycle := .idle } }))
      ∧ (s.mp.cycle = .idle →
          ∃ p : Addr, s.sourceRequest = some (.source p)
            ∧ p.toNat = (b.source.toNat + 4 * b.words.length) % 2 ^ 24)

/-- PROGRAMMING_DONE and ERASING_DONE: each target word becomes its old value AND its source word, or
the page all-ones; every other word of the store is unchanged, the store is IDLE, the validity of the
five pages is computed, the outcome names the page and LONG_OP_DONE is set (R175, R176). -/
def Obligations.StoreOperationsComplete : Prop :=
  ∀ s : State,
    let done (store : Pages) (o : StoreOutcome) : State := { s with
      answers := []
      blocks := { s.blocks with
        su := { s.blocks.su with
          store, storeState := .idle, validity := pagesValidity store, outcome := o }
        csu := { s.blocks.csu with flags := s.blocks.csu.flags ||| Flag.longOpDone.bit } } }
    (∀ b : ProgramBuffer, s.blocks.su.storeState = .programming b → b.words.length ≤ 16 →
        ∃ store : Pages,
          Machine.exec .programmingDone s = .next (done store (.programmed b.page))
          ∧ (∀ p : Fin 5, p ≠ b.page → store[p] = s.blocks.su.store[p])
          ∧ (∀ i : Fin 16, (h : i.val < b.words.length) →
              store.word b.page (b.startWord + i)
                = s.blocks.su.store.word b.page (b.startWord + i) &&& b.words[i])
          ∧ (∀ i : Fin 16, b.words.length ≤ i.val →
              store.word b.page (b.startWord + i)
                = s.blocks.su.store.word b.page (b.startWord + i)))
      ∧ (∀ p : Fin 5, s.blocks.su.storeState = .erasing p →
          Machine.exec .erasingDone s = .next
            (done (s.blocks.su.store.set p (Vector.replicate 16 0xFFFFFFFF)) (.erased p)))

/-! ## Capture records (Chapter 3) -/

/-- TRANSACTION, a WRITE of a record's word, to master 7's command half in BYPASS, to a COMMAND page and
to a lane's CAPTURE page by the lane's owner in SERVICE and ACTIVE: the word joins the framing as R40,
R41 and R159 state, or is ignored by a lane that accepts none (R39), and is forwarded whatever becomes
of it (R6). A completed record whose check word fails is MALFORMED (R42, R160); one that passes acts in
the same event: here SET_EVENT_ENABLES (R161, R163), and a HEARTBEAT, which acts as its own row does
(log 13). -/
def Obligations.RecordWordsAreFramed : Prop :=
  ∀ (s : State) (m : Master) (a : Addr) (w : Word) (g : Framing) (fault : Option (BitVec 12)),
    let b := s.blocks
    let index := a.toNat % 16 / 4
    let slot : BitVec 12 := BitVec.ofNat 12 (a.toNat % 4096 / 16 * 16)
    let faulted (kind : FaultKind) (subject : FaultSubject) (o : BitVec 12) (b : Blocks) : Blocks :=
      sendFault { kind, subject, clock16 := b.su.clock.extractLsb' 0 16, location := o.setWidth 24 } b
    let framed (subject : FaultSubject) (b : Blocks) : Blocks :=
      match fault with
      | none => b
      | some o => faulted .framing subject o b
    let passed (kind : WindowKind) (p : Addr) (c : Blocks) : Prop :=
      ∃ t, Machine.exec (.transaction m a (.write w)) s = .next t ∧ AtThePorts { s with blocks := c } t
        ∧ t.slots = s.slots.set m (.memory { address := a, access := .write w } p kind)
        ∧ t.bus = s.bus ∧ t.ptu = s.ptu ∧ t.answers = [] ∧ (s.mp.cycle ≠ .idle → t.mp = s.mp)
    let hits (e : Entry) (kind : WindowKind) : Prop :=
      (b.su.mode = .service ∨ b.su.mode = .active)
        ∧ isDirect b.profile m = false ∧ s.ptu.sweep.coversNow m = false ∧ s.ptu.Sound
        ∧ (e = (s.ptu.set m (addrSet a)).wayA ∨ e = (s.ptu.set m (addrSet a)).wayB)
        ∧ e.valid = true ∧ e.tag = addrTag a ∧ e.kind = kind ∧ e.writePermit = true
    let commanded (p : Addr) : Prop :=
      let left (g : Framing) : Blocks :=
        { b with csu := { b.csu with framing := b.csu.framing.set m g } }
      (b.csu.framing[m].Takes index slot w g fault →
          passed .command p (framed (.master m) (left g)))
        ∧ (∀ w0 w1 w2, b.csu.framing[m] = .three slot w0 w1 w2 → index = 3 →
            (w ≠ ~~~(w0 ^^^ w1 ^^^ w2) →
              passed .command p (faulted .malformed (.master m) slot (left .empty)))
            ∧ (w = ~~~(w0 ^^^ w1 ^^^ w2) → w0.extractLsb' 8 8 = 0x10 →
                passed .command p { left .empty with csu := { (left .empty).csu with
                  enables := w1.extractLsb' 0 13
                  lastResult := some
                    { master := m, tag := w0.extractLsb' 0 8, code := 0x10, result := .done } } }))
    s.Settled → s.slot m = .free → a.toNat % 4 = 0 →
    (b.su.mode = .bypass → m = 7 → a.toNat < 0x100 → commanded a)
      ∧ (∀ e : Entry, hits e .command →
          ∃ p : Addr, p.toNat = e.page.toNat * 4096 + a.toNat % 4096 ∧ commanded p)
      ∧ (∀ (e : Entry) (l : Lane), hits e .capture →
          e.channel.toNat = l.val → laneInUse b.profile l = true → laneOwner b.profile l = m →
          let left (g : Framing) : Blocks :=
            { b with lanes := b.lanes.set l { b.lane l with framing := g } }
          ∃ p : Addr, p.toNat = e.page.toNat * 4096 + a.toNat % 4096
            ∧ (accepting (b.lane l).state = false → passed .capture p b)
            ∧ (accepting (b.lane l).state = true → (b.lane l).framing.Takes index slot w g fault →
                passed .capture p (framed (.lane l) (left g)))
            ∧ (∀ w0 w1 w2, accepting (b.lane l).state = true →
                (b.lane l).framing = .three slot w0 w1 w2 → index = 3 →
                (w ≠ ~~~(w0 ^^^ w1 ^^^ w2) →
                  passed .capture p (faulted .malformed (.lane l) slot (left .empty)))
                ∧ (∀ (r : HeartbeatRecord) (t : State), w = ~~~(w0 ^^^ w1 ^^^ w2) →
                    captureFields w0 w1 w2 = some (.heartbeat r) →
                    Machine.exec (.heartbeat l slot r) { s with blocks := left .empty } = .next t →
                    passed .capture p t.blocks)))

/-- HEARTBEAT: in a lane that accepts records, the lane becomes LIVE or DEGRADED, the record's number
becomes the previous sequence and the silence expiry is set anew. A changed state is told to the DU,
and DEGRADED sets LANE. A gap in the numbers is recorded as SEQUENCE_GAP and marks the lane's open
vehicle and held axle SUSPECT in ACTIVE (R45, R51 to R53, R64). In UNUSED, DISABLED and RESTARTING a
record of any kind is ignored (R39). -/
def Obligations.HeartbeatSetsTheLaneState : Prop :=
  ∀ (s : State) (l : Lane) (slot : BitVec 12) (r : HeartbeatRecord),
    let u := s.blocks.lane l
    let st : LaneState := match r.health with
      | .healthy => .live
      | .degraded => .degraded
    let lanes := s.blocks.lanes.set l { u with
      state := st, prevSeq := some r.sequence
      silence := some (timeAdd s.blocks.now (silenceMs s.blocks.profile l)) }
    (accepting u.state = true → InOrder u r.sequence → u.state = st →
        Machine.exec (.heartbeat l slot r) s = .next (s.became { s.blocks with lanes }))
      ∧ (accepting u.state = true → InOrder u r.sequence → u.state ≠ st →
          ∃ c, Machine.exec (.heartbeat l slot r) s = .next (s.became c)
            ∧ Evaluated [l] { s.blocks with
                lanes
                du := { s.blocks.du with inputs := { s.blocks.du.inputs with
                  lanes := s.blocks.du.inputs.lanes.set l st } }
                csu := { s.blocks.csu with flags :=
                  if st = .degraded then s.blocks.csu.flags ||| Flag.lane.bit
                  else s.blocks.csu.flags } } c)
      ∧ (accepting u.state = true → ¬ InOrder u r.sequence → u.state = st →
          Machine.exec (.heartbeat l slot r) s = .next (s.became { s.blocks with
            lanes
            va := if s.blocks.su.mode = .active then
                { opened := s.blocks.va.opened.set l
                    ((s.blocks.openVehicle l).map fun v => { v with suspect := true })
                  straddle := s.blocks.va.straddle.set l
                    ((s.blocks.straddleSlot l).map fun h => { h with suspect := true }) }
              else s.blocks.va
            csu := (sendFault { kind := .sequenceGap, subject := .lane l,
                                clock16 := s.blocks.su.clock.extractLsb' 0 16,
                                location := slot.setWidth 24 } s.blocks).csu }))
      ∧ (u.state = .unused ∨ u.state = .disabled ∨ u.state = .restarting →
          Machine.exec (.heartbeat l slot r) s = .next (s.became s.blocks)
          ∧ (∀ a, Machine.exec (.axle l slot a) s = .next (s.became s.blocks))
          ∧ (∀ p, Machine.exec (.passage l slot p) s = .next (s.became s.blocks))
          ∧ (∀ f, Machine.exec (.laneFault l slot f) s = .next (s.became s.blocks)))

/-- LANE_FAULT: in a lane that accepts records, the lane becomes FAULTED and keeps the record's code;
in ACTIVE, a lane that leaves LIVE or DEGRADED gives up its held axle and its open vehicle. Where it
held neither, all that happens beside is the notice to the DU and the LANE flag of a changed state
(R50 to R52, R70, R71). -/
def Obligations.LaneFaultMarksTheLane : Prop :=
  ∀ (s : State) (l : Lane) (slot : BitVec 12) (r : LaneFaultRecord),
    let u := s.blocks.lane l
    let b := s.blocks
    let lanes := b.lanes.set l { u with
      state := .faulted, prevSeq := some r.sequence, faultCode := some r.code
      silence := some (timeAdd b.now (silenceMs b.profile l)) }
    accepting u.state = true → InOrder u r.sequence →
    (u.state = .faulted →
        Machine.exec (.laneFault l slot r) s = .next (s.became { b with lanes }))
      ∧ (u.state ≠ .faulted →
          (b.su.mode = .active → reporting u.state = true →
            b.openVehicle l = none ∧ b.straddleSlot l = none) →
          ∃ c, Machine.exec (.laneFault l slot r) s = .next (s.became c)
            ∧ Evaluated [l] { b with
                lanes
                du := { b.du with inputs := { b.du.inputs with
                  lanes := b.du.inputs.lanes.set l .faulted } }
                csu := { b.csu with flags := b.csu.flags ||| Flag.lane.bit } } c)
      ∧ (b.su.mode = .active → reporting u.state = true →
          ∃ c, Machine.exec (.laneFault l slot r) s = .next (s.became c)
            ∧ c.lanes = lanes ∧ c.ru = b.ru ∧ c.su = b.su ∧ c.flagSet .lane = true
            ∧ c.va = { opened := b.va.opened.set l none, straddle := b.va.straddle.set l none })

/-- AXLE of a straddle-free record in ACTIVE: the lane's sequence and silence expiry, and the lane's
vehicle. With no open vehicle it opens one, SUSPECT where its spacing is not 0 or its age is above
max_age; with one and a spacing of 1 to max_axle_spacing it joins it, and beyond nine axles marks it
OVERLONG (R45 to R47, R53, R65 to R68). Outside ACTIVE, and from a FAULTED lane, the axle is
discarded. -/
def Obligations.AxleOpensOrJoinsTheVehicle : Prop :=
  ∀ (s : State) (l : Lane) (slot : BitVec 12) (r : AxleRecord),
    let b := s.blocks
    let p := b.profile
    let u := b.lane l
    let lanes := b.lanes.set l { u with
      prevSeq := some r.sequence, silence := some (timeAdd b.now (silenceMs p l)) }
    let event := b.now - BitVec.ofNat 32 r.age.toNat
    let close := timeAdd event (assemblyGap p)
    let load := min 65535 (r.left.toNat + r.right.toNat)
    let aged := decide (maxAge p < r.age.toNat)
    let degraded := decide (u.state = .degraded)
    let incomplete := decide (r.quality = 3)
    InOrder u r.sequence →
    (u.state = .live ∨ u.state = .degraded → b.su.mode = .active → r.straddle = .none →
        b.straddleSlot l = none → reached b.now close = false →
        (b.openVehicle l = none →
          Machine.exec (.axle l slot r) s = .next (s.became { b with
            lanes
            va := { b.va with opened := b.va.opened.set l (some
              { approach := laneApproach p l, axles := [⟨load, 0⟩], speeds := [r.speed.toNat],
                axleCount := 1, gross := load, spacingSum := 0, isPartial := incomplete,
                overlong := false, suspect := aged || decide (r.spacing ≠ 0), straddled := false,
                degradedAxle := degraded, lastEvent := event, closeTime := close }) } }))
        ∧ (∀ v, b.openVehicle l = some v → 1 ≤ r.spacing.toNat →
            r.spacing.toNat ≤ maxAxleSpacing p →
            Machine.exec (.axle l slot r) s = .next (s.became { b with
              lanes
              va := { b.va with opened := b.va.opened.set l (some { v with
                axles := if v.axles.length < 9 then v.axles ++ [⟨load, r.spacing.toNat⟩] else v.axles
                speeds := if v.axles.length < 9 then v.speeds ++ [r.speed.toNat] else v.speeds
                axleCount := min 255 (v.axleCount + 1)
                gross := min 1048575 (v.gross + load)
                spacingSum := min 1048575 (v.spacingSum + r.spacing.toNat)
                isPartial := v.isPartial || incomplete
                overlong := v.overlong || decide (9 ≤ v.axles.length)
                suspect := v.suspect || aged
                degradedAxle := v.degradedAxle || degraded
                lastEvent := event, closeTime := close }) } })))
      ∧ ((b.su.mode ≠ .active ∧ (u.state = .live ∨ u.state = .degraded)) ∨ u.state = .faulted →
          Machine.exec (.axle l slot r) s = .next (s.became { b with lanes }))

/-- AXLE of a straddle record in ACTIVE, its lane's own slot empty. With a usable partner lane whose
slot holds no half it is held until its event time + straddle_window; the reciprocal half within the
window merges with it into one axle of the lower lane; with no usable partner it opens a PARTIAL
vehicle (R72 to R74). -/
def Obligations.StraddleHalvesMerge : Prop :=
  ∀ (s : State) (l partner : Lane) (slot : BitVec 12) (r : AxleRecord),
    let b := s.blocks
    let p := b.profile
    let u := b.lane l
    let lanes := b.lanes.set l { u with
      prevSeq := some r.sequence, silence := some (timeAdd b.now (silenceMs p l)) }
    let event := b.now - BitVec.ofNat 32 r.age.toNat
    let aged := decide (maxAge p < r.age.toNat)
    let half : Axle :=
      { lane := l, left := r.left.toNat, right := r.right.toNat, speed := r.speed.toNat,
        spacing := r.spacing.toNat, straddle := r.straddle, quality := r.quality,
        eventTime := event, aged, laneState := u.state }
    let beside (q : Lane) : Prop :=
      (r.straddle = .left ∧ q.val + 1 = l.val) ∨ (r.straddle = .right ∧ l.val + 1 = q.val)
    let usable (q : Lane) : Prop := beside q ∧ laneInUse p q = true
      ∧ laneApproach p q = laneApproach p l
      ∧ ((b.lane q).state = .live ∨ (b.lane q).state = .degraded)
    InOrder u r.sequence → u.state = .live ∨ u.state = .degraded → b.su.mode = .active →
    b.straddleSlot l = none → r.straddle ≠ .none →
    (usable partner → b.straddleSlot partner = none →
        reached b.now (timeAdd event (straddleWindow p)) = false →
        Machine.exec (.axle l slot r) s = .next (s.became { b with
          lanes
          va := { b.va with straddle := b.va.straddle.set l (some
            { axle := half, suspect := false, expiry := timeAdd event (straddleWindow p) }) } }))
      ∧ (∀ h, usable partner → b.straddleSlot partner = some h → h.axle.lane = partner →
          h.axle.straddle = (if r.straddle = .left then .right else .left) →
          timeGap h.axle.eventTime event ≤ straddleWindow p →
          let owner := if l < partner then l else partner
          let first := earlierTime h.axle.eventTime event
          let load := min 65535 (h.axle.left + h.axle.right + half.left + half.right)
          let spacing := if l < partner then half.spacing else h.axle.spacing
          b.openVehicle owner = none → reached b.now (timeAdd first (assemblyGap p)) = false →
          Machine.exec (.axle l slot r) s = .next (s.became { b with
            lanes
            va :=
              { opened := b.va.opened.set owner (some
                  { approach := laneApproach p owner, axles := [⟨load, 0⟩]
                    speeds := [(h.axle.speed + half.speed) / 2], axleCount := 1, gross := load
                    spacingSum := 0
                    isPartial := decide (h.axle.quality = 3) || decide (r.quality = 3)
                    overlong := false
                    suspect := (h.suspect || h.axle.aged || aged) || decide (spacing ≠ 0)
                    straddled := true
                    degradedAxle := decide (h.axle.laneState = .degraded)
                      || decide (u.state = .degraded)
                    lastEvent := first, closeTime := timeAdd first (assemblyGap p) })
                straddle := b.va.straddle.set partner none } }))
      ∧ ((∀ q, ¬ usable q) → b.openVehicle l = none → reached b.now (timeAdd event (assemblyGap p)) = false →
          let load := min 65535 (half.left + half.right)
          Machine.exec (.axle l slot r) s = .next (s.became { b with
            lanes
            va := { b.va with opened := b.va.opened.set l (some
              { approach := laneApproach p l, axles := [⟨load, 0⟩], speeds := [half.speed]
                axleCount := 1, gross := load, spacingSum := 0, isPartial := true, overlong := false
                suspect := aged || decide (half.spacing ≠ 0), straddled := false
                degradedAxle := decide (u.state = .degraded), lastEvent := event
                closeTime := timeAdd event (assemblyGap p) }) } }))

/-- SILENCE_EXPIRY and PULSE_END: a silence expiry reached in a listening lane makes it SILENT, or,
with the RESTART action and restarts left, RESTARTING with its reset line low until the pulse end; a
pulse end reached releases the line and takes the lane to OFFLINE, or to DISABLED where a disable was
pending. The VA is told of a lane that was LIVE or DEGRADED, here one that holds no vehicle (R54,
R55, R43, R52, R53). An expiry not reached, or of a lane in another state, does nothing (log 11). -/
def Obligations.SilenceAndPulseEnd : Prop :=
  ∀ (s : State) (l : Lane),
    let b := s.blocks
    let p := b.profile
    let u := b.lane l
    let restarts : Prop := silenceRestarts p l = true ∧ u.restartCount < restartLimit p
    let told (u' : LaneUnit) (flags : BitVec 13) : Blocks := { b with
      lanes := b.lanes.set l u'
      du := { b.du with inputs := { b.du.inputs with lanes := b.du.inputs.lanes.set l u'.state } }
      csu := { b.csu with flags } }
    (∀ e, listening u.state = true → u.silence = some e → reached b.now e = true →
        (b.su.mode = .active → reporting u.state = true →
          b.openVehicle l = none ∧ b.straddleSlot l = none) →
        (¬ restarts → ∃ c, Machine.exec (.silenceExpiry l) s = .next (s.became c)
            ∧ Evaluated [l] (told { u with state := .silent, silence := none }
                (b.csu.flags ||| Flag.lane.bit)) c)
        ∧ (restarts → ∃ c, Machine.exec (.silenceExpiry l) s = .next (s.became c)
            ∧ Evaluated [l] (told { u with
                  state := .restarting, framing := .empty, silence := none
                  restartCount := u.restartCount + 1, lineLow := true, disablePending := false
                  pulseEnd := some (timeAdd b.now (resetPulse p)) }
                (b.csu.flags ||| Flag.lane.bit)) c))
      ∧ (listening u.state = false ∨ u.silence.any (reached b.now) = false →
          Machine.exec (.silenceExpiry l) s = .next (s.became b))
      ∧ (∀ e, u.state = .restarting → u.pulseEnd = some e → reached b.now e = true →
          ∃ c, Machine.exec (.pulseEnd l) s = .next (s.became c)
            ∧ Evaluated [l] (told
                (if u.disablePending then { u with
                    state := .disabled, framing := .empty, silence := none, lineLow := false
                    pulseEnd := none, disablePending := false }
                  else { u with
                    state := .offline, prevSeq := none, lineLow := false, pulseEnd := none
                    silence := some (timeAdd b.now (silenceMs p l)) })
                b.csu.flags) c)
      ∧ (u.state ≠ .restarting ∨ u.pulseEnd.any (reached b.now) = false →
          Machine.exec (.pulseEnd l) s = .next (s.became b))

/-! ## Passages (5.6) -/

/-- PASSAGE of the span entry loop in ACTIVE that a record matches. The earliest-weighed ADMITTED or
COMMITTED one of the approach whose entry window contains the passage time becomes ON_SPAN with its entry
time and joins the tail of the approach's queue, and the AU records the counts (R48, R93 to R95). With
none such, the earliest-weighed DIVERTED or DIVERT_UNCONFIRMED one has defied its diversion: ON_SPAN with
its new S and T, it takes a FORCED reservation and the sweep follows; or, with 40 in the list, it is
UNRESERVED with its occupant and span lock is set; DEFIED is set (R96, R118, R124, R128). Here T, the
new T and the lock are not yet reached or set. -/
def Obligations.PassageEntersTheSpan : Prop :=
  ∀ (s : State) (l : Lane) (slot : BitVec 12) (r : PassageRecord) (v : VehicleRecord),
    let b := s.blocks
    let p := b.profile
    let u := b.lane l
    let x := laneApproach p l
    let time := b.now - BitVec.ofNat 32 r.age.toNat
    let within (v : VehicleRecord) : Prop := v.approach = x
      ∧ (time - v.times.e0).toNat ≤ (v.times.e1 - v.times.e0).toNat
    let matching (v : VehicleRecord) : Prop := within v ∧ (v.state = .admitted ∨ v.state = .committed)
    let defying (v : VehicleRecord) : Prop :=
      within v ∧ (v.state = .diverted ∨ v.state = .divertUnconfirmed)
    let earliest (among : VehicleRecord → Prop) : Prop :=
      among v ∧ ∀ w ∈ b.vt.table, among w → w ≠ v → matchedBefore v w = true ∧ matchedBefore w v = false
    let occupants := b.vt.occupants.put x
      (b.vt.occupants.at x ++ [.vehicle v.number time true])
    let entered (f : VehicleRecord → VehicleRecord) : Blocks := { b with
      lanes := b.lanes.set l { u with
        prevSeq := some r.sequence, silence := some (timeAdd b.now (silenceMs p l)) }
      vt := { b.vt with
        table := b.vt.table.map fun w =>
          if w.number = v.number then f { w with state := .onSpan, entryTime := some time } else w
        occupants }
      au := { b.au with
        occupants := ⟨occupants.a.length, occupants.b.length⟩, unreserved := b.unreservedCount } }
    let t := timeAdd time (crossingTime p v.speed v.length + exitMargin p)
    let defied (reserved unreserved : Bool) (w : VehicleRecord) : VehicleRecord := { w with
      times := { w.times with s := time, t := timeAdd time (crossingTime p w.speed w.length + exitMargin p) }
      past := { w.past with t := false }
      reserved := w.reserved || reserved
      flags := { w.flags with unreserved := w.flags.unreserved || unreserved } }
    u.state = .live ∨ u.state = .degraded ∨ u.state = .faulted → InOrder u r.sequence →
    b.su.mode = .active → l.val = loopLane p x → heavyLenMin p l ≤ r.length.toNat →
    r.loop = .spanEntry → b.NumbersDistinct → v ∈ b.vt.table →
    (b.vt.occupants.at x).length < 24 → b.au.lock = false →
    (earliest matching → v.tReached b.now = false →
        Machine.exec (.passage l slot r) s = .next (s.became (entered id)))
      ∧ ((∀ w ∈ b.vt.table, ¬ matching w) → earliest defying → reached b.now t = false →
          (b.au.reservations.length < 40 → ∀ rs,
            let placed : Blocks := { entered (defied true false) with au := { (entered id).au with
              reservations := placeAfter (fun y => !later y.start time)
                { owner := .vehicle v.number, kind := .forced, approach := x, load := v.gross
                  start := time, finish := some t } b.au.reservations } }
            RevokesInOrder overloaded (fun _ => true) rs placed →
            ∃ d, Machine.exec (.passage l slot r) s = .next (s.became { d with
                csu := { d.csu with flags := d.csu.flags ||| Flag.defied.bit } })
              ∧ SweepEnds rs placed d)
          ∧ (40 ≤ b.au.reservations.length →
              let marked (o : Occupant) : Occupant := match o with
                | .vehicle k e r => .vehicle k e (r && decide (k ≠ v.number))
                | .phantom k e r t o => .phantom k e r t o
              let after : PerApproach (List Occupant) :=
                ⟨occupants.a.map marked, occupants.b.map marked⟩
              ∃ d, Machine.exec (.passage l slot r) s = .next (s.became d)
                ∧ Evaluated allLanes { entered (defied false true) with
                    vt := { (entered (defied false true)).vt with occupants := after }
                    au := { (entered id).au with
                      lock := true
                      unreserved := (after.a.filter Occupant.unreserved).length
                        + (after.b.filter Occupant.unreserved).length }
                    du := { b.du with inputs := { b.du.inputs with lock := true } }
                    csu := { b.csu with
                      flags := (b.csu.flags ||| Flag.spanLock.bit) ||| Flag.defied.bit } } d))

/-- PASSAGE of an exit loop in ACTIVE. A span exit takes the head of the approach's queue off the span: a
vehicle's record retires CLEARED; a phantom leaves, with a count report, and its reservation is released
(R99). A divert exit retires the earliest-weighed DIVERTED or DIVERT_UNCONFIRMED record of the approach
whose divert window contains the passage time, DIVERT_CONFIRMED (R100). The count report may clear span
lock, and it and a release bring the re-evaluation of the Held List (R93, R101, R120, R122, R128, R169). That the
count report, with what it brings, comes before the release is the model's reading (log 19). -/
def Obligations.SpanExitClearsTheHead : Prop :=
  ∀ (s : State) (l : Lane) (slot : BitVec 12) (r : PassageRecord),
    let b := s.blocks
    let p := b.profile
    let u := b.lane l
    let x := laneApproach p l
    let time := b.now - BitVec.ofNat 32 r.age.toNat
    let taken : Blocks := { b with lanes := b.lanes.set l { u with
      prevSeq := some r.sequence, silence := some (timeAdd b.now (silenceMs p l)) } }
    let awaited (v : VehicleRecord) : Prop := v.approach = x
      ∧ (v.state = .diverted ∨ v.state = .divertUnconfirmed)
      ∧ (time - v.times.v0).toNat ≤ (v.times.v1 - v.times.v0).toNat
    u.state = .live ∨ u.state = .degraded ∨ u.state = .faulted → InOrder u r.sequence →
    b.su.mode = .active → l.val = loopLane p x → heavyLenMin p l ≤ r.length.toNat →
    (∀ (n : VehicleNumber) (entry : Time) (reserved : Bool) (rest : List Occupant),
        r.loop = .spanExit → b.vt.occupants.at x = .vehicle n entry reserved :: rest →
        ∃ d, Machine.exec (.passage l slot r) s = .next (s.became d) ∧ Retires .cleared n taken d)
      ∧ (∀ (k : Phantom) (entry finish : Time) (reserved overdue : Bool) (rest : List Occupant),
          r.loop = .spanExit →
          b.vt.occupants.at x = .phantom k entry reserved finish overdue :: rest →
          ∃ c d, Machine.exec (.passage l slot r) s = .next (s.became d)
            ∧ CountsReported (taken.withoutOccupants (Occupant.isPhantom k)) c
            ∧ (reserved = true → Releases (.phantom k) c d) ∧ (reserved = false → d = c))
      ∧ (∀ v ∈ b.vt.table, r.loop = .divertExit → b.NumbersDistinct → awaited v →
          (∀ w ∈ b.vt.table, awaited w → w ≠ v →
            matchedBefore v w = true ∧ matchedBefore w v = false) →
          ∃ d, Machine.exec (.passage l slot r) s = .next (s.became d)
            ∧ Retires .divertConfirmed v.number taken d)

/-- PASSAGE that matches no record and no occupant: in a lane that is not its approach's loop lane it
is recorded MISDIRECTED; below heavy_len_min, and in SERVICE, it is discarded; an exit of an empty
queue, and a divert exit that no record awaits, set UNMATCHED (R48, R49, R95, R99, R100). An entry that
matches no record is a phantom, under the lowest free number at the tail of the approach's queue, with a
PHANTOM reservation and the sweep; or, with 40 in the list, UNRESERVED and span lock is set; UNMATCHED is
set (R97, R118, R124, R128). With a full queue or no number free it is not queued: span lock, TABLE_FULL
and UNMATCHED (R97). Here the lock is clear and the end time not yet reached. -/
def Obligations.PassageThatMatchesNothing : Prop :=
  ∀ (s : State) (l : Lane) (slot : BitVec 12) (r : PassageRecord),
    let b := s.blocks
    let p := b.profile
    let u := b.lane l
    let x := laneApproach p l
    let time := b.now - BitVec.ofNat 32 r.age.toNat
    let lanes := b.lanes.set l { u with
      prevSeq := some r.sequence, silence := some (timeAdd b.now (silenceMs p l)) }
    let unmatched := { b.csu with flags := b.csu.flags ||| Flag.unmatched.bit }
    let finish := timeAdd time (travelUp (spanLen p + defaultLength p) (minSpeed p) + exitMargin p)
    let joined (k : Phantom) (reserved : Bool) : PerApproach (List Occupant) :=
      b.vt.occupants.put x (b.vt.occupants.at x ++ [.phantom k time reserved finish false])
    let queued (k : Phantom) (reserved : Bool) : Blocks := { b with
      lanes
      vt := { b.vt with occupants := joined k reserved }
      au := { b.au with
        occupants := ⟨(joined k true).a.length, (joined k true).b.length⟩
        unreserved := b.unreservedCount + (if reserved then 0 else 1) } }
    let locked (c : Blocks) (flags : BitVec 13) : Blocks := { c with
      au := { c.au with lock := true }
      du := { b.du with inputs := { b.du.inputs with lock := true } }
      csu := { b.csu with flags := (b.csu.flags ||| Flag.spanLock.bit) ||| flags } }
    u.state = .live ∨ u.state = .degraded ∨ u.state = .faulted → InOrder u r.sequence →
    (l.val ≠ loopLane p x →
        Machine.exec (.passage l slot r) s = .next (s.became { b with
          lanes
          csu := (sendFault { kind := .misdirected, subject := .lane l,
                              clock16 := b.su.clock.extractLsb' 0 16,
                              location := slot.setWidth 24 } b).csu }))
      ∧ (l.val = loopLane p x → r.length.toNat < heavyLenMin p l ∨ b.su.mode ≠ .active →
          Machine.exec (.passage l slot r) s = .next (s.became { b with lanes }))
      ∧ (l.val = loopLane p x → heavyLenMin p l ≤ r.length.toNat → b.su.mode = .active →
          (r.loop = .spanExit → b.vt.occupants.at x = [] →
            Machine.exec (.passage l slot r) s = .next (s.became { b with lanes, csu := unmatched }))
          ∧ (r.loop = .divertExit →
              (∀ v ∈ b.vt.table, v.approach = x →
                v.state = .diverted ∨ v.state = .divertUnconfirmed →
                (v.times.v1 - v.times.v0).toNat < (time - v.times.v0).toNat) →
              Machine.exec (.passage l slot r) s = .next
                (s.became { b with lanes, csu := unmatched }))
          ∧ (r.loop = .spanEntry → b.NumbersDistinct → b.au.lock = false →
              (∀ v ∈ b.vt.table, v.approach = x →
                v.state = .admitted ∨ v.state = .committed ∨ v.state = .diverted
                  ∨ v.state = .divertUnconfirmed →
                (v.times.e1 - v.times.e0).toNat < (time - v.times.e0).toNat) →
              (∀ k : Phantom, b.phantom k = none → (∀ j < k, b.phantom j ≠ none) →
                (b.vt.occupants.at x).length < 24 → reached b.now finish = false →
                (b.au.reservations.length < 40 → ∀ rs,
                  let placed : Blocks := { queued k true with au := { (queued k true).au with
                    reservations := placeAfter (fun y => !later y.start time)
                      { owner := .phantom k, kind := .phantom, approach := x
                        load := unknownHeavyLoad p, start := time, finish := some finish }
                      b.au.reservations } }
                  RevokesInOrder overloaded (fun _ => true) rs placed →
                  ∃ d, Machine.exec (.passage l slot r) s = .next (s.became { d with
                      csu := { d.csu with flags := d.csu.flags ||| Flag.unmatched.bit } })
                    ∧ SweepEnds rs placed d)
                ∧ (40 ≤ b.au.reservations.length →
                    ∃ d, Machine.exec (.passage l slot r) s = .next (s.became d)
                      ∧ Evaluated allLanes (locked (queued k false) Flag.unmatched.bit) d))
              ∧ ((∀ k : Phantom, b.phantom k ≠ none) ∨ 24 ≤ (b.vt.occupants.at x).length →
                  ∃ d, Machine.exec (.passage l slot r) s = .next (s.became d)
                    ∧ Evaluated allLanes (locked { b with lanes }
                        (Flag.tableFull.bit ||| Flag.unmatched.bit)) d)))

/-! ## Vehicles: closing, verdicts and expiries (Chapters 4 to 6) -/

/-- CLOSE_TIME and HOLD_EXPIRY: with the close time reached, an open vehicle below light_threshold of
at most two axles counts as light and leaves no record (R69, R107). With the hold expiry reached, the
held half is released alone: here it opens a PARTIAL vehicle in its lane, which has none (R75, R76,
R65). With none open or held, or its time not reached, nothing happens (log 11). -/
def Obligations.LightVehicleAndLoneHalf : Prop :=
  ∀ (s : State) (l : Lane),
    let b := s.blocks
    let p := b.profile
    (∀ v, b.openVehicle l = some v → reached b.now v.closeTime = true →
        v.gross < lightThreshold p → v.axleCount ≤ 2 →
        Machine.exec (.closeTime l) s = .next (s.became { b with
          va := { b.va with opened := b.va.opened.set l none }
          au := { b.au with light := b.au.light.put v.approach (b.au.light.at v.approach + 1) } }))
      ∧ ((∀ v, b.openVehicle l = some v → reached b.now v.closeTime = false) →
          Machine.exec (.closeTime l) s = .next (s.became b))
      ∧ (∀ h, b.straddleSlot l = some h → reached b.now h.expiry = true → b.openVehicle l = none →
          let close := timeAdd h.axle.eventTime (assemblyGap p)
          let load := min 65535 (h.axle.left + h.axle.right)
          reached b.now close = false →
          Machine.exec (.holdExpiry l) s = .next (s.became { b with
            va :=
              { opened := b.va.opened.set l (some
                  { approach := laneApproach p l, axles := [⟨load, 0⟩], speeds := [h.axle.speed]
                    axleCount := 1, gross := load, spacingSum := 0, isPartial := true
                    overlong := false
                    suspect := (h.suspect || h.axle.aged) || decide (h.axle.spacing ≠ 0)
                    straddled := false, degradedAxle := decide (h.axle.laneState = .degraded)
                    lastEvent := h.axle.eventTime, closeTime := close })
                straddle := b.va.straddle.set l none } }))
      ∧ ((∀ h, b.straddleSlot l = some h → reached b.now h.expiry = false) →
          Machine.exec (.holdExpiry l) s = .next (s.became b))

/-- CLOSE_TIME of a heavy vehicle. With room in the table it is entered under the next free number and
given its verdict: the first diversion step that applies makes it DIVERTED with that reason, UNWARNED
where its D is reached; otherwise it is ADMITTED with a NORMAL reservation and the admission counter's
stamp where the span check passes, there is room and alarm and lock are clear, COMMITTED and LATE where
its D is reached; and where not, HELD in order of D, or past its D a late vehicle: COMMITTED and LATE
with a FORCED reservation and the sweep, or, with 40 in the list, DIVERTED with SPAN_FULL and UNWARNED,
span lock set. A directive of the verdict joins the approach's queue, none for a HELD one; in a full queue
it displaces the oldest PROCEED or STANDING_OFF, or is dropped with DIRECTIVE_OVERFLOW and the overflow
condition, a dropped DIVERT marking its record UNWARNED (R146, R147, R92). With 48 records in the table it
is diverted UNTRACKED (R78, R82, R83, R86, R108 to R114, R121, R124, R128). Here E1 and V1 are not yet
reached. -/
def Obligations.HeavyVehicleIsGivenItsVerdict : Prop :=
  ∀ (s : State) (l : Lane) (v : OpenVehicle),
    let b := s.blocks
    let p := b.profile
    let x := v.approach
    let closed := closedVehicle p l (b.lane l).state false v
    let n := b.numberToAssign
    let entered := enteredRecord p n closed
    let va := { b.va with opened := b.va.opened.set l none }
    let directive (kind : DirectiveKind) (reason : Reason) : Directive :=
      { kind, lane := l, stale := false, reason, vehicle := n
        gross := BitVec.ofNat 16 (min 65535 ((v.gross + 9) / 10))
        deadline := entered.times.d.extractLsb' 0 16, fullDeadline := some entered.times.d
        tracked := true }
    let reason : Option Reason :=
      if b.su.settleExpiry.isSome then some .settling
      else if b.effClosed.at x then some .closed
      else if v.isPartial || v.suspect || (v.degradedAxle && !v.overlong)
          || (b.lane l).state ≠ .live then some .unreliable
      else if v.overlong then some .overlong
      else if closed.groups.any (fun g => decide (groupLimit p g.kind < g.load)) then
        some .overweightGroup
      else if b.effGross < v.gross then some .overweightGross
      else none
    b.openVehicle l = some v → reached b.now v.closeTime = true →
    lightThreshold p ≤ v.gross ∨ 2 < v.axleCount →
    let room : Prop := spanCheck b entered = true
      ∧ b.normalCount < 32 ∧ b.au.reservations.length < 40 ∧ b.au.alarm = false ∧ b.au.lock = false
    let tabled (r : VehicleRecord) (au : Admission) : Blocks :=
      { b with va, vt := { b.vt with table := b.vt.table ++ [r], nextNumber := n + 1 }, au }
    let given (r : VehicleRecord) (au : Admission) (kind : DirectiveKind) (reason : Reason) : Blocks :=
      (tabled r au).told x (directive kind reason)
    let late : VehicleFlags := { entered.flags with late := true }
    let unwarned : VehicleFlags := { entered.flags with unwarned := true }
    let reserved (kind : ReservationKind) : Admission := { b.au with
      reservations := placeAfter (fun y => !later y.start entered.times.s)
        { owner := .vehicle n, kind, approach := x, load := v.gross
          start := entered.times.s, finish := some entered.times.t } b.au.reservations
      counter := b.au.counter + 1 }
    let committed : VehicleRecord := { entered with
      state := .committed, verdict := some .admitted, reserved := true
      stamp := some b.au.counter, flags := late }
    let flagged (f : Flag) (c : Blocks) : Blocks :=
      { c with csu := { c.csu with flags := c.csu.flags ||| f.bit } }
    (b.vt.table.length < 48 → b.NumbersDistinct → reached b.now entered.times.d = false →
        (∀ why, reason = some why → reached b.now entered.times.v1 = false →
          Machine.exec (.closeTime l) s = .next (s.became (given
            { entered with state := .diverted, verdict := some (.divert why) } b.au .divert why)))
        ∧ (reason = none → room → reached b.now entered.times.e1 = false →
            Machine.exec (.closeTime l) s = .next (s.became (given
              { entered with
                state := .admitted, verdict := some .admitted, reserved := true
                stamp := some b.au.counter } (reserved .normal) .proceed .none)))
        ∧ (reason = none → ¬ room → (∀ k ∈ b.au.held, b.record k ≠ none) →
            Machine.exec (.closeTime l) s = .next (s.became (tabled { entered with state := .held }
              { b.au with held := placeAfter (fun k => (b.record k).any fun r =>
                  !later r.times.d entered.times.d) n b.au.held }))))
      ∧ (b.vt.table.length < 48 → b.NumbersDistinct → reached b.now entered.times.d = true →
          (∀ why, reason = some why → reached b.now entered.times.v1 = false →
            Machine.exec (.closeTime l) s = .next (s.became (flagged .unwarned (given
              { entered with
                state := .diverted, verdict := some (.divert why), flags := unwarned }
              b.au .divert why))))
          ∧ (reason = none → room → reached b.now entered.times.e1 = false →
              Machine.exec (.closeTime l) s
                = .next (s.became (given committed (reserved .normal) .proceed .none)))
          ∧ (reason = none → ¬ room → b.au.reservations.length < 40 →
              reached b.now entered.times.e1 = false → ∀ rs,
              let placed := given committed (reserved .forced) .proceed .none
              RevokesInOrder overloaded (fun _ => true) rs placed → n ∉ b.au.held →
              ∃ d, Machine.exec (.closeTime l) s = .next (s.became d) ∧ SweepEnds rs placed d)
          ∧ (reason = none → ¬ room → 40 ≤ b.au.reservations.length →
              reached b.now entered.times.v1 = false →
              let r : VehicleRecord := { entered with
                state := .diverted, verdict := some (.divert .spanFull), flags := unwarned }
              (b.au.lock = true →
                Machine.exec (.closeTime l) s
                  = .next (s.became (flagged .unwarned (given r b.au .divert .spanFull))))
              ∧ (b.au.lock = false →
                  ∃ d, Machine.exec (.closeTime l) s = .next (s.became (flagged .unwarned
                      (d.told x (directive .divert .spanFull))))
                    ∧ Evaluated allLanes (flagged .spanLock
                        { tabled r { b.au with lock := true } with du := { b.du with
                          inputs := { b.du.inputs with lock := true } } }) d)))
      ∧ (48 ≤ b.vt.table.length →
          let q := Blocks.told { b with va } x { directive .divert .tableFull with
            vehicle := 0, deadline := 0, fullDeadline := none, tracked := false }
          Machine.exec (.closeTime l) s = .next (s.became (flagged .tableFull { q with
            csu := if b.csu.journal.length < 8 then { q.csu with
                journal := b.csu.journal ++ [{ words := untrackedWords closed b.now, next := 0 }] }
              else { q.csu with flags := q.csu.flags ||| Flag.journalLost.bit } })))

/-- DECISION_DEADLINE: D reached makes an ADMITTED record COMMITTED (here before its E1), diverts a
HELD one with SPAN_FULL and marks it UNWARNED (here before its V1), and marks a DIVERTED one without a
delivery UNWARNED; a delivered one, any other state, a D not reached and a number not held change
nothing (R86, R87, R123, R92, R146, R147; logs 10, 11, 27). -/
def Obligations.DecisionDeadlineActsByState : Prop :=
  ∀ (s : State) (n : VehicleNumber),
    let b := s.blocks
    let table (f : VehicleRecord → VehicleRecord) : List VehicleRecord :=
      b.vt.table.map fun w => if w.number = n then f w else w
    let unwarned := { b.csu with flags := b.csu.flags ||| Flag.unwarned.bit }
    (∀ v, b.record n = some v → v.dReached b.now = true →
        (v.state = .admitted → v.e1Reached b.now = false →
          Machine.exec (.decisionDeadline n) s = .next (s.became { b with
            vt := { b.vt with table := table fun w => { w with state := .committed } } }))
        ∧ (v.state = .held → v.delivery = none → v.flags.unwarned = false →
            v.v1Reached b.now = false →
            Machine.exec (.decisionDeadline n) s = .next (s.became (Blocks.told { b with
              vt := { b.vt with table := table fun w => { w with
                state := .diverted, verdict := some (.divert .spanFull)
                flags := { w.flags with unwarned := true } } }
              au := { b.au with held := b.au.held.erase n }
              csu := unwarned } v.approach
              { kind := .divert, lane := v.lane, stale := false, reason := .spanFull, vehicle := n
                gross := BitVec.ofNat 16 (min 65535 ((v.gross + 9) / 10))
                deadline := v.times.d.extractLsb' 0 16, fullDeadline := some v.times.d
                tracked := true })))
        ∧ (v.state = .diverted → v.delivery = none → v.flags.unwarned = false →
            Machine.exec (.decisionDeadline n) s = .next (s.became { b with
              vt := { b.vt with table := table fun w => { w with
                flags := { w.flags with unwarned := true } } }
              csu := unwarned }))
        ∧ ((v.state = .diverted ∧ (v.delivery.isSome = true ∨ v.flags.unwarned = true))
              ∨ (v.state ≠ .admitted ∧ v.state ≠ .held ∧ v.state ≠ .diverted) →
            Machine.exec (.decisionDeadline n) s = .next (s.became b)))
      ∧ ((∀ v, b.record n = some v → v.dReached b.now = false) →
          Machine.exec (.decisionDeadline n) s = .next (s.became b))

/-- E1_REACHED makes an ADMITTED or COMMITTED record MISSING, V1_REACHED a DIVERTED one
DIVERT_UNCONFIRMED, here before its T; a D reached before and not yet served is served first, so that a
DIVERTED one without a delivery is marked UNWARNED, and a HELD one is left as its DECISION_DEADLINE
leaves it. In any other state, and before the time, they change nothing (R86, R88, R89; logs 10, 11). -/
def Obligations.WindowEndsMoveTheRecord : Prop :=
  ∀ (s : State) (n : VehicleNumber),
    let b := s.blocks
    let moved (f : VehicleRecord → VehicleRecord) : Blocks := { b with
      vt := { b.vt with table := b.vt.table.map fun w => if w.number = n then f w else w } }
    let served (v : VehicleRecord) : Prop :=
      v.dReached b.now = false ∨ v.delivery.isSome = true ∨ v.flags.unwarned = true
    (∀ v, b.record n = some v → v.tReached b.now = false →
        (v.e1Reached b.now = true → v.state = .admitted ∨ v.state = .committed →
          Machine.exec (.e1Reached n) s
            = .next (s.became (moved fun w => { w with state := .missing })))
        ∧ (v.v1Reached b.now = true → v.state = .diverted → served v →
            Machine.exec (.v1Reached n) s
              = .next (s.became (moved fun w => { w with state := .divertUnconfirmed })))
        ∧ (v.v1Reached b.now = true → v.state = .diverted → ¬ served v →
            Machine.exec (.v1Reached n) s = .next (s.became { moved (fun w => { w with
                state := .divertUnconfirmed, flags := { w.flags with unwarned := true } }) with
              csu := { b.csu with flags := b.csu.flags ||| Flag.unwarned.bit } })))
      ∧ (∀ v, b.record n = some v → v.dReached b.now = true → v.state = .held →
          (v.e1Reached b.now = true →
            Machine.exec (.e1Reached n) s = Machine.exec (.decisionDeadline n) s)
          ∧ (v.v1Reached b.now = true →
              Machine.exec (.v1Reached n) s = Machine.exec (.decisionDeadline n) s))
      ∧ ((∀ v, b.record n = some v → v.e1Reached b.now = false
            ∨ (v.state ≠ .admitted ∧ v.state ≠ .committed
                ∧ (v.dReached b.now = false ∨ (v.state ≠ .held ∧ (v.state = .diverted → served v))))) →
          Machine.exec (.e1Reached n) s = .next (s.became b))
      ∧ ((∀ v, b.record n = some v → v.v1Reached b.now = false
            ∨ (v.state ≠ .diverted
                ∧ (v.dReached b.now = false ∨ (v.state ≠ .held ∧ v.state ≠ .admitted)))) →
          Machine.exec (.v1Reached n) s = .next (s.became b))

/-- T_REACHED makes an ON_SPAN record OVERDUE with the flag, its reservation OPEN, and the sweep follows:
ADMITTED vehicles are revoked, the latest stamp first, while the overload condition holds; the alarm is
then set with OVERLOAD or cleared, and told to the DU (R90, R119, R124, R125). It retires a MISSING or
DIVERT_UNCONFIRMED one LOST with a journal record, and one that an expiry before T, reached and not yet
served, makes so; its reservation is released, with the alarm evaluation, and the Held List is
re-evaluated, its vehicles admitted in order where R110 holds for them (R86, R101, R120 to R122). In any other state, and before the time, it
changes nothing (logs 10, 11). That a count report, where one is due, comes before the release is the model's
reading (log 19). -/
def Obligations.OccupancyEnds : Prop :=
  ∀ (s : State) (n : VehicleNumber),
    let b := s.blocks
    let warned (v : VehicleRecord) : Prop :=
      v.dReached b.now = false ∨ v.delivery.isSome = true ∨ v.flags.unwarned = true
    (∀ v, b.record n = some v → v.tReached b.now = true →
        (v.state = .onSpan →
          let opened := { b with
            vt := { b.vt with table := b.vt.table.map fun w =>
              if w.number = n then { w with state := .overdue } else w }
            au := if v.reserved then { b.au with reservations := b.au.reservations.map fun w =>
                if w.owner = (.vehicle n) then { w with finish := none } else w } else b.au }
          let flagged (d : Blocks) : Blocks :=
            { d with csu := { d.csu with flags := d.csu.flags ||| Flag.overdue.bit } }
          (b.au.alarm = false → overloaded opened = false →
            Machine.exec (.tReached n) s = .next (s.became (flagged opened)))
          ∧ (v.reserved = false → Machine.exec (.tReached n) s = .next (s.became (flagged opened)))
          ∧ (v.reserved = true → (∃ w ∈ b.au.reservations, w.owner = .vehicle n) →
              b.NumbersDistinct → ∀ rs, RevokesInOrder overloaded (fun _ => true) rs opened →
              ∃ d, Machine.exec (.tReached n) s = .next (s.became (flagged d))
                ∧ SweepEnds rs opened d))
        ∧ (v.state = .missing ∨ v.state = .divertUnconfirmed
              ∨ ((v.state = .admitted ∨ v.state = .committed) ∧ v.e1Reached b.now = true)
              ∨ (v.state = .diverted ∧ v.v1Reached b.now = true ∧ warned v) →
            let late : VehicleState := match v.state with
              | .admitted | .committed => .missing
              | .diverted => .divertUnconfirmed
              | st => st
            ∃ d, Machine.exec (.tReached n) s = .next (s.became d)
              ∧ Retires .lost n { b with vt := { b.vt with table := b.vt.table.map fun w =>
                  if w.number = n then { w with state := late } else w } } d))
      ∧ ((∀ v, b.record n = some v → v.tReached b.now = false ∨ v.state = .overdue
            ∨ (v.state = .held ∧ v.dReached b.now = false)
            ∨ (v.state = .admitted ∧ v.dReached b.now = false ∧ v.e1Reached b.now = false)
            ∨ (v.state = .committed ∧ v.e1Reached b.now = false)
            ∨ (v.state = .diverted ∧ warned v ∧ v.v1Reached b.now = false)) →
          Machine.exec (.tReached n) s = .next (s.became b))

/-- PHANTOM_END_TIME marks the phantom overdue, makes its reservation OPEN, the sweep following (R98, R119,
R124), and sets OVERDUE; for a phantom not queued, already overdue or before its end time it changes
nothing (R98, R119; logs 10, 11). -/
def Obligations.PhantomEndTimeMarksOverdue : Prop :=
  ∀ (s : State) (k : Phantom),
    let b := s.blocks
    let marked (o : Occupant) : Occupant := match o with
      | .phantom j e r t d => .phantom j e r t (d || decide (j = k))
      | .vehicle m e r => .vehicle m e r
    (∀ (e t : Time) (r : Bool), b.phantom k = some (.phantom k e r t false) →
        reached b.now t = true →
        let opened := { b with
          vt := { b.vt with
            occupants := ⟨b.vt.occupants.a.map marked, b.vt.occupants.b.map marked⟩ }
          au := if r then { b.au with reservations := b.au.reservations.map fun w =>
              if w.owner = (.phantom k) then { w with finish := none } else w } else b.au }
        let flagged (d : Blocks) : Blocks :=
          { d with csu := { d.csu with flags := d.csu.flags ||| Flag.overdue.bit } }
        ((b.au.alarm = false ∧ overloaded opened = false) ∨ r = false →
          Machine.exec (.phantomEndTime k) s = .next (s.became (flagged opened)))
        ∧ (r = true → (∃ w ∈ b.au.reservations, w.owner = .phantom k) → b.NumbersDistinct →
            ∀ rs, RevokesInOrder overloaded (fun _ => true) rs opened →
            ∃ d, Machine.exec (.phantomEndTime k) s = .next (s.became (flagged d))
              ∧ SweepEnds rs opened d))
      ∧ (b.phantom k = none → Machine.exec (.phantomEndTime k) s = .next (s.became b))
      ∧ (∀ (e t : Time) (r o : Bool), b.phantom k = some (.phantom k e r t o) →
          o = true ∨ reached b.now t = false →
          Machine.exec (.phantomEndTime k) s = .next (s.became b))

/-! ## The Directive Unit (Chapter 8) -/

/-- DIRECTIVE_POP in SERVICE and ACTIVE: an empty queue answers zero and the last-popped record becomes
NONE; else the head leaves, STALE exactly when its full deadline is reached, and becomes the
last-popped record, answered with its word 0; a tracked directive's delivery time is reported to the
record it names, and a DIVERT starts or extends the beacon hold. A queue left empty ends the overflow
condition and takes afresh the directive of each marked lane, in ascending order, clearing its mark; the
beacons are evaluated where it is left empty and where a hold starts, and stay as they are otherwise
(R148, R149, R91, R154 to R156). In other modes nothing is answered (R151). That the row's answer goes
to a master outside its slot is the model's choice (log 33). -/
def Obligations.DirectivePopDeliversTheHead : Prop :=
  ∀ (s : State) (m : Master) (x : Approach) (e : Directive) (rest : List Directive),
    let b := s.blocks
    let popped : Directive := { e with stale := match e.fullDeadline with
      | none => false
      | some d => reached b.now d }
    let named (r : VehicleRecord) : Bool :=
      r.number == e.vehicle && r.times.d.extractLsb' 0 16 == e.deadline
        && (match e.kind, r.verdict with
            | .proceed, some .admitted => true
            | .divert, some (.divert _) => true
            | _, _ => false)
    let resent (l : Lane) : Prop := rest = [] ∧ laneInUse b.profile l = true
      ∧ laneApproach b.profile l = x
    (b.su.mode ≠ .service → b.su.mode ≠ .active →
        Machine.exec (.directivePop m x) s = .next { s with answers := [] })
      ∧ (b.su.mode = .service ∨ b.su.mode = .active → b.du.queues.at x = [] →
          Machine.exec (.directivePop m x) s = .next { s with
            answers := [{ master := m, okay := true, data := 0 }]
            blocks := { b with du := { b.du with lastPopped := b.du.lastPopped.put x none } } })
      ∧ (b.su.mode = .service ∨ b.su.mode = .active → b.du.queues.at x = e :: rest →
          ∃ c : Blocks, Machine.exec (.directivePop m x) s = .next { s with
              answers := [{ master := m, okay := true, data := popped.word0 }], blocks := c }
            ∧ c = { b with
                vt := { b.vt with table := c.vt.table }
                du := { b.du with
                  queues := b.du.queues.put x (if rest = [] then resentTo b x else rest)
                  overflow := if rest = [] then b.du.overflow.put x false else b.du.overflow
                  lastPopped := b.du.lastPopped.put x (some popped)
                  hold := if e.kind = .divert then b.du.hold.put x (some
                      ⟨((b.du.hold.at x).map (·.start)).getD b.now,
                        timeAdd b.now (beaconHold b.profile)⟩) else b.du.hold
                  lanes := c.du.lanes
                  beacon :=
                    if rest = [] ∨ (e.kind = .divert ∧ b.du.hold.at x = none) then
                      ⟨beaconState c .A, beaconState c .B⟩
                    else b.du.beacon } }
            ∧ (∀ l : Lane, (resent l → c.standing l = { b.standing l with resend := false })
                ∧ (¬ resent l → c.standing l = b.standing l))
            ∧ (e.tracked = false ∨ (∀ r ∈ b.vt.table, named r = false) →
                c.vt.table = b.vt.table)
            ∧ (b.NumbersDistinct → e.tracked = true → c.vt.table = b.vt.table.map fun r =>
                if named r then { r with delivery := some b.now } else r))

/-- BEACON_HOLD_EXPIRY ends a hold whose expiry is reached and evaluates both beacons; SETTLE_EXPIRY
ends the settle interval in ACTIVE and tells the DU; before their times they change nothing (R154,
R156, R179; logs 10, 11). -/
def Obligations.HoldAndSettleIntervalEnd : Prop :=
  ∀ (s : State) (x : Approach),
    let b := s.blocks
    let ended := { b with du := { b.du with hold := b.du.hold.put x none } }
    (∀ h, b.du.hold.at x = some h → reached b.now h.expiry = true →
        Machine.exec (.beaconHoldExpiry x) s = .next { s with
          answers := []
          blocks := { ended with du := { ended.du with
            beacon := ⟨beaconState ended .A, beaconState ended .B⟩ } } })
      ∧ ((∀ h, b.du.hold.at x = some h → reached b.now h.expiry = false) →
          Machine.exec (.beaconHoldExpiry x) s = .next { s with answers := [] })
      ∧ (∀ e, b.su.mode = .active → b.su.settleExpiry = some e → reached b.now e = true →
          ∃ c : Blocks, Machine.exec .settleExpiry s = .next { s with answers := [], blocks := c }
            ∧ Evaluated allLanes { b with
                su := { b.su with settleExpiry := none }
                du := { b.du with inputs := { b.du.inputs with settling := false } } } c)
      ∧ (b.su.mode ≠ .active ∨ b.su.settleExpiry.any (reached b.now) = false →
          Machine.exec .settleExpiry s = .next { s with answers := [] })

/-! ## The Command and Status Unit (Chapter 9) -/

/-- FAULT_POP once start-up has ended: answered with the fault count and the overrun as they stood; the
oldest record becomes the holding pair, or the pair becomes empty, and status offsets 72 and 76 answer
its two words, zero for an empty pair (R167). That the row's answer goes to a master outside its slot
is the model's choice (log 33). -/
def Obligations.FaultPopTakesTheOldest : Prop :=
  ∀ (s : State) (m : Master),
    let c := s.blocks.csu
    let word := BitVec.ofNat 32 (c.faultLog.length % 16) ||| (if c.overrun then 0x100 else 0)
    let popped (log : List FaultRecord) (pair : Option FaultRecord) : Blocks :=
      { s.blocks with csu := { c with faultLog := log, holding := pair } }
    (s.blocks.su.mode ≠ .startUp →
        (c.faultLog = [] → Machine.exec (.faultPop m) s = .next { s with
          answers := [{ master := m, okay := true, data := word }], blocks := popped [] none })
        ∧ (∀ f rest, c.faultLog = f :: rest → Machine.exec (.faultPop m) s = .next { s with
            answers := [{ master := m, okay := true, data := word }]
            blocks := popped rest (some f) }))
      ∧ (s.blocks.su.mode = .startUp →
          Machine.exec (.faultPop m) s = .next { s with answers := [] })
      ∧ (∀ log pair, statusWord s.ptu.sweep (popped log pair) 72
            = some ((pair.map FaultRecord.word0).getD 0)
          ∧ statusWord s.ptu.sweep (popped log pair) 76
            = some ((pair.map FaultRecord.word1).getD 0))

/-- A command in a mode that Table 9-2 marks WRONG_MODE changes nothing but the last result (R161). -/
def Obligations.WrongModeIsRefused : Prop :=
  ∀ (s : State) (m : Master) (tag : BitVec 8),
    let mode := s.blocks.su.mode
    let refused (code : BitVec 8) : State := s.became { s.blocks with csu := { s.blocks.csu with
      lastResult := some { master := m, tag, code, result := .wrongMode } } }
    (mode = .bypass ∨ mode = .active →
        Machine.exec (.start m tag) s = .next (refused 0x01)
        ∧ (s.Settled → Machine.exec (.enterBypass m tag) s = .next (refused 0x03)))
      ∧ (mode = .bypass ∨ mode = .service →
          Machine.exec (.stop m tag) s = .next (refused 0x02)
          ∧ (∀ n, Machine.exec (.clearVehicle m tag n) s = .next (refused 0x0A))
          ∧ (∀ a, Machine.exec (.clearPhantoms m tag a) s = .next (refused 0x0B)))
      ∧ (mode = .active → Machine.exec (.applyProfile m tag) s = .next (refused 0x04))
      ∧ (mode = .bypass →
          (∀ a, Machine.exec (.invalidateArea m tag a) s = .next (refused 0x07))
          ∧ (∀ o, Machine.exec (.pushRestriction m tag o) s = .next (refused 0x08))
          ∧ (∀ e, Machine.exec (.popRestriction m tag e) s = .next (refused 0x09))
          ∧ (∀ l, Machine.exec (.laneDisable m tag l) s = .next (refused 0x0C))
          ∧ (∀ l, Machine.exec (.laneEnable m tag l) s = .next (refused 0x0D))
          ∧ (∀ l, Machine.exec (.laneRecover m tag l) s = .next (refused 0x0E)))

/-- CLEAR_EVENTS clears each named flag and no other, SET_EVENT_ENABLES enables exactly the named
flags, and CLEAR_FAULTS empties the Fault Log and the holding pair and clears the overrun, in every
mode with DONE (R163, R168); ATTN is asserted while some flag is set and enabled, and is released at
reset, where the Fault Log and the holding pair are empty. That ATTN is so at every time, after a reset
too, is the model's choice between two sentences of R164 (log 44). -/
def Obligations.EventAndFaultCommands : Prop :=
  ∀ (s : State) (m : Master) (tag : BitVec 8) (names : BitVec 13),
    let c := s.blocks.csu
    let done (code : BitVec 8) : Option LastResult :=
      some { master := m, tag, code, result := .done }
    let after (csu : CommandStatus) : State := s.became { s.blocks with csu }
    (s.blocks.su.mode ≠ .startUp →
        Machine.exec (.clearEvents m tag names) s = .next
          (after { c with flags := c.flags &&& ~~~names, lastResult := done 0x0F })
        ∧ Machine.exec (.setEventEnables m tag names) s = .next
          (after { c with enables := names, lastResult := done 0x10 })
        ∧ Machine.exec (.clearFaults m tag) s = .next
          (after { c with faultLog := [], overrun := false, holding := none, lastResult := done 0x11 }))
      ∧ (s.blocks.attn = true ↔
          ∃ f : Flag, s.blocks.flagSet f = true ∧ s.blocks.flagEnabled f = true)
      ∧ Blocks.reset.attn = false ∧ Blocks.reset.csu.faultLog = []
      ∧ Blocks.reset.csu.overrun = false ∧ Blocks.reset.csu.holding = none

/-! ## The modes and the store (Chapter 10) -/

/-- START in SERVICE makes the mode ACTIVE and starts the settle interval where settle_ms is above 0, and
the DU evaluates every in-use lane (R179, R153). STOP in ACTIVE makes it SERVICE, discards every open
vehicle and held axle, retires every record ABANDONED, empties the occupant queues, the Reservation List
and the Held List, and clears alarm and lock (R180, R80, R104, R130). In the DU every PROCEED is purged
and the rest keep their order, a queue that this empties being handled by R148; then each in-use lane
that was OFF is ON with reason SERVICE, its STANDING_ON joining its queue, and a lane that was ON keeps
its reason; no flag changes but JOURNAL_LOST and, for a queue without room, DIRECTIVE_OVERFLOW (R153, R146
to R148). -/
def Obligations.StartAndStop : Prop :=
  ∀ (s : State) (m : Master) (tag : BitVec 8),
    let b := s.blocks
    let settle := settleMs b.profile
    let kept (x : Approach) : List Directive := (b.directives x).filter fun d => d.kind ≠ .proceed
    let emptied (x : Approach) : Prop := kept x = [] ∧ b.directives x ≠ []
    let waking (l : Lane) : Prop := laneInUse b.profile l = true ∧ (b.standing l).state = .off
    let joined (x : Approach) : Joined :=
      joinsAll (if emptied x then resentTo b x else kept x)
        ((allLanes.filter fun l => waking l ∧ laneApproach b.profile l = x).map fun l =>
          standingDirective .standingOn l .service)
    let abandoned : List JournalEntry := (byNumber b.vt.table).map fun r =>
      { words := recordWords .abandoned r b.now, next := 0 }
    (b.su.mode = .service →
        ∃ c, Machine.exec (.start m tag) s = .next (s.became c)
          ∧ Evaluated allLanes { b with
              su := { b.su with
                mode := .active
                settleExpiry := if 0 < settle then some (timeAdd b.now settle) else none }
              du := { b.du with inputs := { b.du.inputs with
                mode := .active, settling := decide (0 < settle) } }
              csu := { b.csu with
                lastResult := some { master := m, tag, code := 0x01, result := .done } } } c)
      ∧ (b.su.mode = .active →
          ∃ c, Machine.exec (.stop m tag) s = .next (s.became c)
            ∧ c = { b with
                va := Assembler.reset
                vt := { b.vt with table := [], occupants := ⟨[], []⟩ }
                au := { b.au with
                  reservations := [], held := [], alarm := false, lock := false
                  occupants := ⟨0, 0⟩, unreserved := 0 }
                su := { b.su with mode := .service, settleExpiry := none }
                csu := { b.csu with
                  flags := c.csu.flags
                  journal := b.csu.journal ++ abandoned.take (8 - b.csu.journal.length)
                  lastResult := some { master := m, tag, code := 0x02, result := .done } }
                du := { b.du with
                  queues := c.du.queues, overflow := c.du.overflow, lanes := c.du.lanes
                  beacon := ⟨.steady, .steady⟩
                  inputs := { b.du.inputs with
                    mode := .service, settling := false
                    alarm := if b.au.alarm then false else b.du.inputs.alarm
                    lock := if b.au.lock then false else b.du.inputs.lock } } }
            ∧ (∀ l : Lane, ((c.standing l).state, (c.standing l).reason) =
                if waking l then (.on, some .service)
                else ((b.standing l).state, (b.standing l).reason))
            ∧ (∀ x, ∀ d ∈ c.directives x, d.kind ≠ .proceed)
            ∧ (∀ x, c.directives x = (joined x).queue
                ∧ c.du.overflow.at x
                  = ((if emptied x then false else b.du.overflow.at x) || (joined x).dropped))
            ∧ (∀ l : Lane, (c.standing l).resend
                = ((if laneInUse b.profile l = true ∧ emptied (laneApproach b.profile l) then false
                    else (b.standing l).resend)
                  || (joined .A).marks.contains l || (joined .B).marks.contains l))
            ∧ c.flagSet .directiveOverflow
                = (b.flagSet .directiveOverflow || (joined .A).dropped || (joined .B).dropped)
            ∧ c.flagSet .journalLost = (b.flagSet .journalLost
                || decide (8 - b.csu.journal.length < b.vt.table.length))
            ∧ (∀ f : Flag, f ≠ .journalLost → f ≠ .directiveOverflow → c.flagSet f = b.flagSet f))

/-- ENTER_BYPASS in SERVICE, with no transaction in the PTU's hands: the mode is BYPASS with no active
profile; every lane is UNUSED with its line released, and the DU is told of each that was not; the
Directive Queues are empty and every standing state absent; the Journal Writer queue is dropped with
JOURNAL_LOST; the Translation Buffer is cleared, the Walk Engine IDLE and a running sweep SUPERSEDED. A
journal cycle under way is marked to store its word at its address and advance nothing, and a walk cycle
to have its word discarded (R181, R36, R60, R153, R171). That such a cycle completes by its own row is
the model's reading (log 34), and that an absent lane's standing reason is none its choice (log 41). -/
def Obligations.EnterBypassClearsThePart : Prop :=
  ∀ (s : State) (m : Master) (tag : BitVec 8),
    let b := s.blocks
    let dropped := if b.csu.journal = [] then 0 else Flag.journalLost.bit
    let swept := if s.ptu.sweep.running then Flag.longOpDone.bit else 0
    b.su.mode = .service → s.Settled →
    (∀ (k : Master) (t : Transaction) (st : PtuPlace), s.slot k ≠ .translating t st) →
    ∃ (lanes : Vector LaneUnit 6) (told : Vector LaneState 6),
      (∀ l : Lane, lanes[l] = { LaneUnit.reset with prevSeq := (b.lane l).prevSeq }
        ∧ told[l] = if (b.lane l).state = .unused then b.du.inputs.lanes[l] else .unused)
      ∧ Machine.exec (.enterBypass m tag) s = .next (poke { s with
        answers := []
        mp := { s.mp with
          waitCount := 0
          cycle := s.mp.cycle.discardJournal.discardWalk }
        ptu := { s.ptu with
          buffer := Vector.replicate 8 (Vector.replicate 16 BufferSet.cleared)
          engine := .idle, queue := []
          sweep := if s.ptu.sweep.running then
              { s.ptu.sweep with running := false, position := none, outcome := .superseded }
            else s.ptu.sweep }
        blocks := { b with
          lanes
          du := { b.du with
            queues := ⟨[], []⟩, overflow := ⟨false, false⟩, lastPopped := ⟨none, none⟩
            hold := ⟨none, none⟩, beacon := ⟨.steady, .steady⟩
            lanes := Vector.replicate 6 { state := .absent, reason := none, resend := false }
            inputs := { b.du.inputs with mode := .bypass, settling := false, lanes := told } }
          csu := { b.csu with
            journal := [], flags := (b.csu.flags ||| dropped) ||| swept
            lastResult := some { master := m, tag, code := 0x03, result := .done } }
          su := { b.su with mode := .bypass, active := none } } })

/-- APPLY_PROFILE in BYPASS and SERVICE: BUSY, then BAD_OPERAND for a failed page, then LOOSER; else,
with no transaction waiting for a walk or a sweep, the stored pages become the active profile in
SERVICE with a new divisor, every in-use lane is OFFLINE and every other UNUSED, one STANDING_ON with
reason SERVICE is queued for each in-use lane, the journal index is brought within the ring, and the
Translation Buffer is cleared (R178, R35, R60, R153, R171). That an absent lane's standing reason is none
is the model's choice (log 41). -/
def Obligations.ApplyProfileTakesThePages : Prop :=
  ∀ (s : State) (m : Master) (tag : BitVec 8),
    let b := s.blocks
    let p := b.su.store
    let result (r : Result) : Option LastResult := some { master := m, tag, code := 0x04, result := r }
    let refused (r : Result) : State :=
      s.became { b with csu := { b.csu with lastResult := result r } }
    let valid : Prop := ∀ i : Fin 5, b.su.validity[i] = true
    b.su.mode = .bypass ∨ b.su.mode = .service →
    (b.su.storeState ≠ .idle → Machine.exec (.applyProfile m tag) s = .next (refused .busy))
      ∧ (b.su.storeState = .idle → ¬ valid →
          Machine.exec (.applyProfile m tag) s = .next (refused .badOperand))
      ∧ (b.su.storeState = .idle → valid → (∃ e ∈ b.ru.stack, looserThan p e = true) →
          Machine.exec (.applyProfile m tag) s = .next (refused .looser))
      ∧ (b.su.storeState = .idle → valid → (∀ e ∈ b.ru.stack, looserThan p e = false) →
          s.ptu.queue = [] → (∀ k : Master, (s.slot k).isAt .sweepWait = false) →
          ∃ (c : Blocks), Machine.exec (.applyProfile m tag) s = .next (poke { s with
              answers := []
              mp := { s.mp with cycle := s.mp.cycle.discardJournal }
              ptu := { s.ptu with
                buffer := Vector.replicate 8 (Vector.replicate 16 BufferSet.cleared)
                engine := s.ptu.engine.onWalk fun w => { w with profileApplied := true }
                sweep := if s.ptu.sweep.running then
                    { s.ptu.sweep with running := false, position := none, outcome := .superseded }
                  else s.ptu.sweep }
              blocks := c })
            ∧ c = { b with
                lanes := c.lanes
                du := { b.du with
                  queues := c.du.queues, overflow := ⟨false, false⟩, lastPopped := ⟨none, none⟩
                  hold := ⟨none, none⟩, beacon := ⟨.steady, .steady⟩, lanes := c.du.lanes
                  inputs := { b.du.inputs with
                    mode := .service, settling := false, lanes := c.du.inputs.lanes } }
                csu := { b.csu with
                  flags := if s.ptu.sweep.running then b.csu.flags ||| Flag.longOpDone.bit
                    else b.csu.flags
                  writeIndex := if b.csu.writeIndex.toNat < journalCount p then b.csu.writeIndex
                    else 0
                  journal := match b.csu.journal with
                    | [] => []
                    | e :: rest => { e with next := 0 } :: rest
                  lastResult := result .done }
                su := { b.su with
                  active := some p, mode := .service, settleExpiry := none
                  divisor := clockDivisor p, count := 0 } }
            ∧ (∀ l : Lane, c.lane l = if laneInUse p l then
                { LaneUnit.reset with
                  state := .offline, silence := some (timeAdd b.now (silenceMs p l)) }
                else { LaneUnit.reset with prevSeq := (b.lane l).prevSeq })
            ∧ (∀ l : Lane, c.du.inputs.lanes[l] =
                if (b.lane l).state = (c.lane l).state then b.du.inputs.lanes[l]
                else (c.lane l).state)
            ∧ (∀ l : Lane, c.standing l = if laneInUse p l then
                { state := .on, reason := some .service, resend := false }
                else { state := .absent, reason := none, resend := false })
            ∧ (∀ x, c.directives x =
                (allLanes.filter fun l => laneInUse p l && laneApproach p l = x).map fun l =>
                  standingDirective .standingOn l .service))

/-- PROFILE_PROGRAM and PROFILE_ERASE in every mode: BAD_OPERAND, then BUSY, then PROTECTED for page 0
with LIMLOCK asserted; else STARTED, with the store READING into a program buffer that holds no word,
or ERASING (R174, R176). -/
def Obligations.StoreCommandsStart : Prop :=
  ∀ (s : State) (m : Master) (tag page first count : BitVec 8) (source : Addr),
    let b := s.blocks
    let after (code : BitVec 8) (r : Result) (store : StoreState) : State := s.became { b with
      su := { b.su with storeState := store }
      csu := { b.csu with lastResult := some { master := m, tag, code, result := r } } }
    let bad : Prop := 4 < page.toNat ∨ 15 < first.toNat ∨ count = 0 ∨ 16 < count.toNat
      ∨ source.toNat % 4 ≠ 0 ∨ 2 ^ 24 < source.toNat + 4 * count.toNat
    let guarded : Prop := page = 0 ∧ b.su.limlock = true
    b.su.mode ≠ .startUp →
    (bad → Machine.exec (.profileProgram m tag page first count source) s
          = .next (after 0x05 .badOperand b.su.storeState))
      ∧ (¬ bad → b.su.storeState ≠ .idle →
          Machine.exec (.profileProgram m tag page first count source) s
            = .next (after 0x05 .busy b.su.storeState))
      ∧ (¬ bad → b.su.storeState = .idle → guarded →
          Machine.exec (.profileProgram m tag page first count source) s
            = .next (after 0x05 .isProtected .idle))
      ∧ (¬ bad → b.su.storeState = .idle → ¬ guarded →
          ∃ (p : Fin 5) (w : Fin 16), p.val = page.toNat ∧ w.val = first.toNat
            ∧ Machine.exec (.profileProgram m tag page first count source) s
              = .next (after 0x05 .started (.reading
                  { page := p, startWord := w, count := count.toNat, source, words := [] })))
      ∧ (4 < page.toNat → Machine.exec (.profileErase m tag page) s
            = .next (after 0x06 .badOperand b.su.storeState))
      ∧ (page.toNat ≤ 4 → b.su.storeState ≠ .idle → Machine.exec (.profileErase m tag page) s
            = .next (after 0x06 .busy b.su.storeState))
      ∧ (b.su.storeState = .idle → guarded → Machine.exec (.profileErase m tag page) s
            = .next (after 0x06 .isProtected .idle))
      ∧ (page.toNat ≤ 4 → b.su.storeState = .idle → ¬ guarded →
          ∃ p : Fin 5, p.val = page.toNat ∧ Machine.exec (.profileErase m tag page) s
            = .next (after 0x06 .started (.erasing p)))

/-- INVALIDATE_AREA in SERVICE and ACTIVE: BAD_OPERAND for neither an area nor ALL, BUSY while a sweep
runs, else STARTED: the sweep runs from set 0 of the target's first area, its last outcome kept, and a
walk of a covered area is marked (R30). -/
def Obligations.InvalidateAreaStartsTheSweep : Prop :=
  ∀ (s : State) (m : Master) (tag area : BitVec 8),
    let after (r : Result) (ptu : Ptu) : State := poke { s with
      answers := [], ptu
      blocks := { s.blocks with csu := { s.blocks.csu with
        lastResult := some { master := m, tag, code := 0x07, result := r } } } }
    let started (g : SweepTarget) (first : Master) : Ptu :=
      let marked (w : Walk) : Walk :=
        if g = .all ∨ g = .area w.master then { w with areaSwept := true } else w
      { s.ptu with
        sweep := { s.ptu.sweep with running := true, target := some g, position := some ⟨first, 0⟩ }
        engine := match s.ptu.engine with
          | .idle => .idle
          | .region w => .region (marked w)
          | .page w t => .page (marked w) t }
    s.blocks.su.mode = .service ∨ s.blocks.su.mode = .active →
    (7 < area.toNat → area ≠ 0xFF →
        Machine.exec (.invalidateArea m tag area) s = .next (after .badOperand s.ptu))
      ∧ (area.toNat ≤ 7 ∨ area = 0xFF → s.ptu.sweep.running = true →
          Machine.exec (.invalidateArea m tag area) s = .next (after .busy s.ptu))
      ∧ (∀ k : Master, area.toNat = k.val → s.ptu.sweep.running = false →
          Machine.exec (.invalidateArea m tag area) s = .next (after .started (started (.area k) k)))
      ∧ (area = 0xFF → s.ptu.sweep.running = false →
          Machine.exec (.invalidateArea m tag area) s = .next (after .started (started .all 0)))

/-! ## Restrictions, vehicles and lanes by command -/

/-- PUSH_RESTRICTION and POP_RESTRICTION in SERVICE and ACTIVE: their refusals in order, and else DONE
with the entry on the top of the stack, or the top entry gone, and the lanes, the VA and the SU as they
were; in SERVICE, where no vehicle is known and no closure changes, nothing else changes at all (R134
to R138). The reports act in the order of R138 and R126: the DU evaluates the in-use lanes of each
approach that changed; an approach that became closed has its ADMITTED vehicles revoked, latest stamp
first, and the sweep follows; a tightened span load or heavy limit runs the sweep where no closure did; a
loosened one, or an approach that became open, brings an alarm evaluation and the re-evaluation of the
Held List (R122, R124 to R127, R139). A gross limit alone brings nothing. That of two closures A goes
first is the model's choice (log 23). -/
def Obligations.RestrictionsPushAndPop : Prop :=
  ∀ (s : State) (m : Master) (tag : BitVec 8) (o : PushOperands) (expected : BitVec 9)
      (e : Restriction) (rest : List Restriction),
    let b := s.blocks
    let result (code : BitVec 8) (r : Result) : Option LastResult :=
      some { master := m, tag, code, result := r }
    let refused (code : BitVec 8) (r : Result) : State :=
      s.became { b with csu := { b.csu with lastResult := result code r } }
    let bad : Prop := (o.spanLoadPresent = true ∧ o.spanLoad = 0)
      ∨ (o.grossPresent = true ∧ o.gross = 0)
      ∨ (o.heavyPresent = true ∧ (o.heavy = 0 ∨ 8 < o.heavy.toNat))
      ∨ (o.closedPresent = true ∧ 3 < o.closed.toNat)
    let entry : Restriction :=
      { origin := o.origin
        spanLoad := if o.spanLoadPresent then some o.spanLoad.toNat else none
        heavy := if o.heavyPresent then some o.heavy.toNat else none
        gross := if o.grossPresent then some o.gross.toNat else none
        closed := if o.closedPresent then some ⟨o.closed.getLsbD 0, o.closed.getLsbD 1⟩ else none }
    let looser : Prop := (o.spanLoadPresent = true ∧ spanLoadLimit b.profile < o.spanLoad.toNat)
      ∨ (o.heavyPresent = true ∧ spanHeavyLimit b.profile < o.heavy.toNat)
      ∨ (o.grossPresent = true ∧ grossLimit b.profile < o.gross.toNat)
    let changed (code : BitVec 8) (stack : List Restriction) (i : Instr) : Prop :=
      let after : Blocks := { b with ru := { stack } }
      let moved (l : Lane) : Prop := after.effClosed.at (laneApproach b.profile l)
        ≠ b.effClosed.at (laneApproach b.profile l)
      let becameClosed (x : Approach) : Prop :=
        after.effClosed.at x = true ∧ b.effClosed.at x = false
      let becameOpen (x : Approach) : Prop :=
        after.effClosed.at x = false ∧ b.effClosed.at x = true
      let closing : Prop := ∃ x, becameClosed x
      let tightened : Prop := after.effSpanLoad < b.effSpanLoad ∨ after.effHeavy < b.effHeavy
      let relaxed : Prop := b.effSpanLoad < after.effSpanLoad ∨ b.effHeavy < after.effHeavy
        ∨ ∃ x, becameOpen x
      let closes (x : Approach) (d : Blocks) (goesOn : Blocks → Prop) : Prop :=
        (becameClosed x → ∀ rs rs',
          RevokesInOrder (fun _ => true) (fun r => decide (r.approach = x)) rs d →
          RevokesInOrder overloaded (fun _ => true) rs' (rs.foldl Blocks.revoked d) →
          ∃ d', SweepEnds (rs ++ rs') d d' ∧ goesOn d')
        ∧ (¬ becameClosed x → goesOn d)
      let tightens (d : Blocks) (goesOn : Blocks → Prop) : Prop :=
        (tightened ∧ ¬ closing → ∀ rs, RevokesInOrder overloaded (fun _ => true) rs d →
          ∃ d', SweepEnds rs d d' ∧ goesOn d')
        ∧ (¬ (tightened ∧ ¬ closing) → goesOn d)
      let relaxes (d : Blocks) (goesOn : Blocks → Prop) : Prop :=
        (relaxed → ∃ d', Reevaluates d d' ∧ goesOn d') ∧ (¬ relaxed → goesOn d)
      (∃ c, Machine.exec i s = .next (s.became c)
        ∧ c.ru = { stack } ∧ c.csu.lastResult = result code .done
        ∧ c.lanes = b.lanes ∧ c.va = b.va ∧ c.su = b.su
        ∧ (b.su.mode = .service → b.AtRest → after.effClosed = b.effClosed →
            c = { after with csu := { b.csu with lastResult := result code .done } }))
      ∧ (b.NumbersDistinct → ∃ d,
          (after.effClosed = b.effClosed → d = after)
          ∧ (after.effClosed ≠ b.effClosed → Evaluated (allLanes.filter fun l => moved l) { after with
              du := { b.du with inputs := { b.du.inputs with closed := after.effClosed } } } d)
          ∧ closes .A d fun d => closes .B d fun d => tightens d fun d => relaxes d fun d =>
              Machine.exec i s = .next (s.became
                { d with csu := { d.csu with lastResult := result code .done } }))
    b.su.mode = .service ∨ b.su.mode = .active →
    (bad → Machine.exec (.pushRestriction m tag o) s = .next (refused 0x08 .badOperand))
      ∧ (¬ bad → looser → Machine.exec (.pushRestriction m tag o) s = .next (refused 0x08 .looser))
      ∧ (¬ bad → ¬ looser → 8 ≤ b.ru.stack.length →
          Machine.exec (.pushRestriction m tag o) s = .next (refused 0x08 .stackFull))
      ∧ (¬ bad → ¬ looser → b.ru.stack.length < 8 →
          changed 0x08 (entry :: b.ru.stack) (.pushRestriction m tag o))
      ∧ (0x100 < expected.toNat →
          Machine.exec (.popRestriction m tag expected) s = .next (refused 0x09 .badOperand))
      ∧ (expected.toNat ≤ 0x100 → b.ru.stack = [] →
          Machine.exec (.popRestriction m tag expected) s = .next (refused 0x09 .stackEmpty))
      ∧ (b.ru.stack = e :: rest → expected.toNat < 0x100 → expected.toNat ≠ e.origin.toNat →
          Machine.exec (.popRestriction m tag expected) s = .next (refused 0x09 .notFound))
      ∧ (b.ru.stack = e :: rest → expected.toNat = 0x100 ∨ expected.toNat = e.origin.toNat →
          changed 0x09 rest (.popRestriction m tag expected))

/-- CLEAR_VEHICLE and CLEAR_PHANTOMS in ACTIVE. The record of the number retires CLEARED_BY_COMMAND,
whatever its state, a queued vehicle leaving its queue from any position and a HELD one the Held List;
NOT_FOUND where there is none. The phantoms of an approach leave its queue, the vehicles keeping their
order, with a count report, and their reservations are released; BAD_OPERAND for an approach above 1 (R93,
R101 to R103, R120, R122, R128). That a queued vehicle's count report, with what it brings, comes before the
release of its reservation is the model's reading (log 19), and so is it that one report comes first and
the phantoms' releases follow in queue order (log 31). -/
def Obligations.ClearVehicleAndPhantoms : Prop :=
  ∀ (s : State) (m : Master) (tag : BitVec 8) (n : VehicleNumber) (a : BitVec 8),
    let b := s.blocks
    let result (code : BitVec 8) (r : Result) (d : Blocks) : State :=
      s.became { d with csu := { d.csu with
        lastResult := some { master := m, tag, code, result := r } } }
    let cleared (x : Approach) : Prop :=
      let queue := b.vt.occupants.at x
      (queue.any Occupant.phantomKind = false →
        Machine.exec (.clearPhantoms m tag a) s = .next (result 0x0B .done b))
      ∧ (queue.any Occupant.phantomKind = true →
          ∃ c d, Machine.exec (.clearPhantoms m tag a) s = .next (result 0x0B .done d)
            ∧ CountsReported { b with vt := { b.vt with
                occupants := b.vt.occupants.put x (queue.filter fun o => !o.phantomKind) } } c
            ∧ ReleasesInOrder ((reservedPhantoms queue).map Owner.phantom) c d)
    b.su.mode = .active →
    (b.record n = none → Machine.exec (.clearVehicle m tag n) s = .next (result 0x0A .notFound b))
      ∧ (∀ v, b.record n = some v →
          ∃ d, Machine.exec (.clearVehicle m tag n) s = .next (result 0x0A .done d)
            ∧ Retires .clearedByCommand n b d)
      ∧ (1 < a.toNat → Machine.exec (.clearPhantoms m tag a) s = .next (result 0x0B .badOperand b))
      ∧ (a = 0 → cleared .A) ∧ (a = 1 → cleared .B)

/-- LANE_DISABLE, LANE_ENABLE and LANE_RECOVER in SERVICE and ACTIVE, state by state, BAD_OPERAND for a
lane above 5; a lane that leaves LIVE or DEGRADED is here one that holds no vehicle (R57 to R59, R43,
R52, R53). -/
def Obligations.LaneCommandsActByState : Prop :=
  ∀ (s : State) (m : Master) (tag n : BitVec 8) (l : Lane),
    let b := s.blocks
    let u := b.lane l
    let result (code : BitVec 8) (r : Result) : CommandStatus := { b.csu with
      lastResult := some { master := m, tag, code, result := r } }
    let stays (code : BitVec 8) (r : Result) (u' : LaneUnit) : State :=
      s.became { b with lanes := b.lanes.set l u', csu := result code r }
    let told (code : BitVec 8) (u' : LaneUnit) : Blocks := { b with
      lanes := b.lanes.set l u'
      du := { b.du with inputs := { b.du.inputs with lanes := b.du.inputs.lanes.set l u'.state } }
      csu := result code .done }
    let offline : LaneUnit := { u with
      state := .offline, prevSeq := none
      silence := some (timeAdd b.now (silenceMs b.profile l)) }
    b.su.mode = .service ∨ b.su.mode = .active →
    (5 < n.toNat →
        Machine.exec (.laneDisable m tag n) s
          = .next (s.became { b with csu := result 0x0C .badOperand })
        ∧ Machine.exec (.laneEnable m tag n) s
          = .next (s.became { b with csu := result 0x0D .badOperand })
        ∧ Machine.exec (.laneRecover m tag n) s
          = .next (s.became { b with csu := result 0x0E .badOperand }))
      ∧ (n.toNat = l.val →
          (u.state = .unused →
            Machine.exec (.laneDisable m tag n) s = .next (stays 0x0C .badOperand u))
          ∧ (u.state = .restarting → Machine.exec (.laneDisable m tag n) s
              = .next (stays 0x0C .done { u with disablePending := true }))
          ∧ (u.state = .disabled →
              Machine.exec (.laneDisable m tag n) s = .next (stays 0x0C .done u))
          ∧ (accepting u.state = true →
              (b.su.mode = .active → reporting u.state = true →
                b.openVehicle l = none ∧ b.straddleSlot l = none) →
              ∃ c, Machine.exec (.laneDisable m tag n) s = .next (s.became c)
                ∧ Evaluated [l] (told 0x0C { u with
                    state := .disabled, framing := .empty, silence := none }) c)
          ∧ (u.state = .disabled →
              ∃ c, Machine.exec (.laneEnable m tag n) s = .next (s.became c)
                ∧ Evaluated [l] (told 0x0D offline) c)
          ∧ (u.state ≠ .disabled →
              Machine.exec (.laneEnable m tag n) s = .next (stays 0x0D .badOperand u))
          ∧ (u.state = .unused →
              Machine.exec (.laneRecover m tag n) s = .next (stays 0x0E .badOperand u))
          ∧ (u.state = .silent →
              ∃ c, Machine.exec (.laneRecover m tag n) s = .next (s.became c)
                ∧ Evaluated [l] (told 0x0E { offline with restartCount := 0 }) c)
          ∧ (u.state ≠ .unused → u.state ≠ .silent →
              Machine.exec (.laneRecover m tag n) s
                = .next (stays 0x0E .done { u with restartCount := 0 })))

/-! ## Reset, start-up and supply (10.5, 10.6) -/

/-- POWER_ON, RESET_PIN and SUPPLY_LOW, with no request left on a bus: every held transaction is
answered REFUSED with no fault record and every slot is FREE, every block takes its state after reset,
and the cause is recorded; record memory is kept, and so is the store, but for the words that a
programming or an erasing was changing, each of which holds its old or its new value (R182, R183, R15,
R37, R177). The model's choices here: the DU's own record of its inputs takes the owners' reset values
(log 6), the validity bits and the divisor stay until start-up (log 8), the answers stand in State and
come in ascending master order (logs 15, 17), and record memory keeps its contents (log 24). -/
def Obligations.ResetTakesEveryBlock : Prop :=
  ∀ (s : State) (i : Instr) (cause : ResetCause),
    let u := s.blocks.su
    (i = .powerOn ∧ cause = .powerOn) ∨ (i = .resetPin ∧ cause = .resetPin)
      ∨ (i = .supplyLow ∧ cause = .supplyLow) →
    (∀ m : Master, s.bus[m] = []) →
    ∃ (store : Pages) (free : Nat), Machine.exec i s = .next { s with
        slots := Vector.replicate 8 .free
        answers := (allMasters.filter fun m => s.slot m ≠ .free).map fun m =>
          { master := m, okay := false, data := 0xFFFFFFFF }
        mp := MemoryPort.reset, ptu := Ptu.reset
        blocks := { Blocks.reset with su := { Supervisor.reset with
          cause, store, validity := u.validity, divisor := u.divisor, limlock := u.limlock
          freeCount := free } } }
      ∧ (∀ (p : Fin 5) (w : Fin 16), store.word p w = u.store.word p w
          ∨ (∃ b : ProgramBuffer, u.storeState = .programming b ∧ p = b.page
              ∧ (b.words.length ≤ 16 → ∃ k : Fin 16, w = b.startWord + k
                ∧ ∃ h : k.val < b.words.length, store.word p w = u.store.word p w &&& b.words[k]))
          ∨ (u.storeState = .erasing p ∧ store.word p w = 0xFFFFFFFF))

/-- RESET_CAUSE_ENDS after a reset: the validity of the stored pages is computed, the divisor is that of
a valid page 3 and 10,000 otherwise, the supply is sampled, and the mode is chosen: BYPASS with
BYPSTRAP asserted or a failed page, else ACTIVE with AUTOSTART and SERVICE without (R182, R172). At
any other time it changes nothing (log 10). The model's choices here: the strap and the supply are the
row's operands, sampled in its one event (log 9), and the active profile, whose copy step 4 words here,
stays absent until END_OF_START_UP (log 20). -/
def Obligations.StartUpChoosesTheMode : Prop :=
  ∀ (s : State) (below strap : Bool),
    let u := s.blocks.su
    let valid : Vector Bool 5 := #v[pageValid u.store 0, pageValid u.store 1, pageValid u.store 2,
      pageValid u.store 3, pageValid u.store 4]
    let mode : Mode :=
      if strap = true ∨ ∃ p : Fin 5, pageValid u.store p = false then .bypass
      else if autostart u.store then .active else .service
    (u.startUp = .causeHolds → Machine.exec (.resetCauseEnds below strap) s = .next { s with
        answers := []
        blocks := { s.blocks with su := { u with
          validity := valid
          divisor := if pageValid u.store 3 then clockDivisor u.store else 10000
          supply := if below then .warning else .normal
          startUp := .chosen mode } } })
      ∧ (u.startUp ≠ .causeHolds →
          Machine.exec (.resetCauseEnds below strap) s = .next { s with answers := [] })

/-- END_OF_START_UP out of the state after reset: the mode is the chosen one with its active profile and
settle interval, SUPPLY_WARN is set in WARNING, in-use lanes are OFFLINE, and each is in standing divert
for its highest cause, told by one STANDING_ON (R182, R38, R144). Every HELD transaction is handed over in
the event: in BYPASS, and of a DIRECT master, to memory at its own address; of any other to a walk, the
Translation Buffer being empty (R16, R13, R19, R23); and one held alone fares as a TRANSACTION of the mode
reached, the fallback page's among them. That the active profile appears in this event is the model's
reading (log 20); that of several masters the lower goes first (log 17), and that the blocks act before the
hand-overs, whose status reads then show SUPPLY_WARN (log 42), are its choices. -/
def Obligations.StartUpEndsInTheChosenMode : Prop :=
  ∀ (s : State) (mode : Mode),
    let b := s.blocks
    let p := b.su.store
    let settle := decide (mode = .active ∧ 0 < settleMs p)
    let used (l : Lane) : Bool := decide (mode ≠ .bypass) && laneInUse p l
    let reason : Reason :=
      if mode = .service then .service else if settle then .settling
      else if b.su.supply = .warning then .supply else .laneDown
    let after (c : Blocks) : Prop := c = { b with
        lanes := c.lanes, du := c.du
        csu := { b.csu with flags :=
          if b.su.supply = .warning then b.csu.flags ||| Flag.supplyWarn.bit else b.csu.flags }
        su := { b.su with
          mode, startUp := .over
          active := if mode = .bypass then none else some p
          settleExpiry := if settle then some (timeAdd b.now (settleMs p)) else none } }
      ∧ (∀ l : Lane, c.lane l = if used l then { LaneUnit.reset with
            state := .offline, silence := some (timeAdd b.now (silenceMs p l)) }
          else LaneUnit.reset)
      ∧ (∀ l : Lane, c.standing l = if used l then
            { state := .on, reason := some reason, resend := false }
          else { state := .absent, reason := none, resend := false })
      ∧ (∀ x, c.directives x = (allLanes.filter fun l => used l && laneApproach p l = x).map fun l =>
            standingDirective .standingOn l reason)
      ∧ c.du.inputs.mode = mode ∧ c.du.inputs.settling = settle
      ∧ c.du.inputs.supplyWarning = decide (b.su.supply = .warning)
    let fallback (m : Master) (t : Transaction) : Prop :=
      mode = .bypass ∧ m = 7 ∧ t.address.toNat < 0x200
    let walks (m : Master) : Bool :=
      decide (mode ≠ .bypass) && !isDirect p m && decide (s.slot m ≠ .free)
    b.su.startUp = .chosen mode → mode ≠ .startUp → b.du = DirectiveUnit.reset →
    b.su.active = none → b.ru.stack = [] → (∀ m : Master, s.slot m = .free ∨ ∃ t, s.slot m = .held t) →
    (∀ m : Master, s.bus[m] = []) → (∀ l : Lane, b.lane l = LaneUnit.reset) →
    ((∀ m : Master, s.slot m = .free) →
        ∃ c, Machine.exec .endOfStartUp s = .next { s with answers := [], blocks := c } ∧ after c)
      ∧ (s.ptu = Ptu.reset → s.mp.cycle = .idle → s.NothingWaits →
          (∀ m t, s.slot m = .held t → ¬ fallback m t) →
          ∃ (c : Blocks) (slots : Vector Slot 8) (ptu : Ptu) (mp : MemoryPort),
            Machine.exec .endOfStartUp s
              = .next { s with answers := [], blocks := c, slots, ptu, mp }
            ∧ after c
            ∧ (∀ m : Master, s.slot m = .free → slots[m] = .free)
            ∧ (∀ m t, s.slot m = .held t → slots[m] =
                if walks m then
                  .translating t (if ∃ j < m, walks j = true then .queued else .walking)
                else .memory t t.address .plain)
            ∧ ptu = { Ptu.reset with
                engine := match allMasters.filter walks with
                  | [] => .idle
                  | m :: _ => .region ⟨m, regionTableBase p m, memoryPages p, false, false⟩
                queue := (allMasters.filter walks).tail }
            ∧ ((∀ m : Master, s.slot m = .free) → mp = s.mp)
            ∧ (∀ m t, s.slot m = .held t → (∀ j < m, s.slot j = .free) →
                (walks m = false →
                  mp = { s.mp with cycle := .busy (.forward m), pointer := m })
                ∧ (walks m = true → ∃ a : Addr,
                    a.toNat = (regionTableBase p m).toNat * 4096 + (t.address.toNat / 2 ^ 19) * 4
                    ∧ mp = { s.mp with cycle := .busy (.walkRegion a false) })))
      ∧ (∀ m t, s.slot m = .held t → (∀ j, j ≠ m → s.slot j = .free) → t.address.toNat % 4 = 0 →
          ∀ u, Machine.exec .endOfStartUp { s with slots := s.slots.set m .free } = .next u →
          Machine.exec .endOfStartUp s = Machine.exec (.transaction m t.address t.access) u)

/-- SUPPLY_WARNING and SUPPLY_WARNING_END: after start-up a crossing changes the supply state and is
told to the DU, with SUPPLY_WARN at the start of a warning; between start-up's step 3 and its end it
changes the supply state alone; before, or in the state already reached, it changes nothing (R183). -/
def Obligations.SupplyCrossingIsTold : Prop :=
  ∀ (s : State) (i : Instr) (before after : Supply),
    let b := s.blocks
    let moved := { b with su := { b.su with supply := after } }
    let warning := decide (after = .warning)
    (i = .supplyWarning ∧ before = .normal ∧ after = .warning)
      ∨ (i = .supplyWarningEnd ∧ before = .warning ∧ after = .normal) →
    (b.su.supply = before → b.su.startUp = .over →
        ∃ c : Blocks, Machine.exec i s = .next { s with answers := [], blocks := c }
          ∧ Evaluated allLanes { moved with
              du := { b.du with inputs := { b.du.inputs with supplyWarning := warning } }
              csu := { b.csu with flags :=
                if warning then b.csu.flags ||| Flag.supplyWarn.bit else b.csu.flags } } c)
      ∧ (∀ mode, b.su.supply = before → b.su.startUp = .chosen mode →
          Machine.exec i s = .next { s with answers := [], blocks := moved })
      ∧ (b.su.supply ≠ before ∨ b.su.startUp = .causeHolds →
          Machine.exec i s = .next { s with answers := [] })
end

