-- ==== Sys2Proof/Laws/State.lean ====
section
/-! SUPPORT. One lemma per field per update: no proof about the machine unfolds a record update. -/

namespace Sys2Proof.Machine

/-! ## Blocks -/

@[simp] theorem Blocks.onVa_lanes (b : Blocks) (f : Assembler → Assembler) : (b.onVa f).lanes = b.lanes := rfl
@[simp] theorem Blocks.onVa_va (b : Blocks) (f : Assembler → Assembler) : (b.onVa f).va = f b.va := rfl
@[simp] theorem Blocks.onVa_vt (b : Blocks) (f : Assembler → Assembler) : (b.onVa f).vt = b.vt := rfl
@[simp] theorem Blocks.onVa_au (b : Blocks) (f : Assembler → Assembler) : (b.onVa f).au = b.au := rfl
@[simp] theorem Blocks.onVa_ru (b : Blocks) (f : Assembler → Assembler) : (b.onVa f).ru = b.ru := rfl
@[simp] theorem Blocks.onVa_du (b : Blocks) (f : Assembler → Assembler) : (b.onVa f).du = b.du := rfl
@[simp] theorem Blocks.onVa_csu (b : Blocks) (f : Assembler → Assembler) : (b.onVa f).csu = b.csu := rfl
@[simp] theorem Blocks.onVa_su (b : Blocks) (f : Assembler → Assembler) : (b.onVa f).su = b.su := rfl

@[simp] theorem Blocks.onVt_lanes (b : Blocks) (f : Tracker → Tracker) : (b.onVt f).lanes = b.lanes := rfl
@[simp] theorem Blocks.onVt_va (b : Blocks) (f : Tracker → Tracker) : (b.onVt f).va = b.va := rfl
@[simp] theorem Blocks.onVt_vt (b : Blocks) (f : Tracker → Tracker) : (b.onVt f).vt = f b.vt := rfl
@[simp] theorem Blocks.onVt_au (b : Blocks) (f : Tracker → Tracker) : (b.onVt f).au = b.au := rfl
@[simp] theorem Blocks.onVt_ru (b : Blocks) (f : Tracker → Tracker) : (b.onVt f).ru = b.ru := rfl
@[simp] theorem Blocks.onVt_du (b : Blocks) (f : Tracker → Tracker) : (b.onVt f).du = b.du := rfl
@[simp] theorem Blocks.onVt_csu (b : Blocks) (f : Tracker → Tracker) : (b.onVt f).csu = b.csu := rfl
@[simp] theorem Blocks.onVt_su (b : Blocks) (f : Tracker → Tracker) : (b.onVt f).su = b.su := rfl

@[simp] theorem Blocks.onAu_lanes (b : Blocks) (f : Admission → Admission) : (b.onAu f).lanes = b.lanes := rfl
@[simp] theorem Blocks.onAu_va (b : Blocks) (f : Admission → Admission) : (b.onAu f).va = b.va := rfl
@[simp] theorem Blocks.onAu_vt (b : Blocks) (f : Admission → Admission) : (b.onAu f).vt = b.vt := rfl
@[simp] theorem Blocks.onAu_au (b : Blocks) (f : Admission → Admission) : (b.onAu f).au = f b.au := rfl
@[simp] theorem Blocks.onAu_ru (b : Blocks) (f : Admission → Admission) : (b.onAu f).ru = b.ru := rfl
@[simp] theorem Blocks.onAu_du (b : Blocks) (f : Admission → Admission) : (b.onAu f).du = b.du := rfl
@[simp] theorem Blocks.onAu_csu (b : Blocks) (f : Admission → Admission) : (b.onAu f).csu = b.csu := rfl
@[simp] theorem Blocks.onAu_su (b : Blocks) (f : Admission → Admission) : (b.onAu f).su = b.su := rfl

@[simp] theorem Blocks.onRu_lanes (b : Blocks) (f : Restrictions → Restrictions) : (b.onRu f).lanes = b.lanes := rfl
@[simp] theorem Blocks.onRu_va (b : Blocks) (f : Restrictions → Restrictions) : (b.onRu f).va = b.va := rfl
@[simp] theorem Blocks.onRu_vt (b : Blocks) (f : Restrictions → Restrictions) : (b.onRu f).vt = b.vt := rfl
@[simp] theorem Blocks.onRu_au (b : Blocks) (f : Restrictions → Restrictions) : (b.onRu f).au = b.au := rfl
@[simp] theorem Blocks.onRu_ru (b : Blocks) (f : Restrictions → Restrictions) : (b.onRu f).ru = f b.ru := rfl
@[simp] theorem Blocks.onRu_du (b : Blocks) (f : Restrictions → Restrictions) : (b.onRu f).du = b.du := rfl
@[simp] theorem Blocks.onRu_csu (b : Blocks) (f : Restrictions → Restrictions) : (b.onRu f).csu = b.csu := rfl
@[simp] theorem Blocks.onRu_su (b : Blocks) (f : Restrictions → Restrictions) : (b.onRu f).su = b.su := rfl

@[simp] theorem Blocks.onDu_lanes (b : Blocks) (f : DirectiveUnit → DirectiveUnit) : (b.onDu f).lanes = b.lanes := rfl
@[simp] theorem Blocks.onDu_va (b : Blocks) (f : DirectiveUnit → DirectiveUnit) : (b.onDu f).va = b.va := rfl
@[simp] theorem Blocks.onDu_vt (b : Blocks) (f : DirectiveUnit → DirectiveUnit) : (b.onDu f).vt = b.vt := rfl
@[simp] theorem Blocks.onDu_au (b : Blocks) (f : DirectiveUnit → DirectiveUnit) : (b.onDu f).au = b.au := rfl
@[simp] theorem Blocks.onDu_ru (b : Blocks) (f : DirectiveUnit → DirectiveUnit) : (b.onDu f).ru = b.ru := rfl
@[simp] theorem Blocks.onDu_du (b : Blocks) (f : DirectiveUnit → DirectiveUnit) : (b.onDu f).du = f b.du := rfl
@[simp] theorem Blocks.onDu_csu (b : Blocks) (f : DirectiveUnit → DirectiveUnit) : (b.onDu f).csu = b.csu := rfl
@[simp] theorem Blocks.onDu_su (b : Blocks) (f : DirectiveUnit → DirectiveUnit) : (b.onDu f).su = b.su := rfl

@[simp] theorem Blocks.onCsu_lanes (b : Blocks) (f : CommandStatus → CommandStatus) : (b.onCsu f).lanes = b.lanes := rfl
@[simp] theorem Blocks.onCsu_va (b : Blocks) (f : CommandStatus → CommandStatus) : (b.onCsu f).va = b.va := rfl
@[simp] theorem Blocks.onCsu_vt (b : Blocks) (f : CommandStatus → CommandStatus) : (b.onCsu f).vt = b.vt := rfl
@[simp] theorem Blocks.onCsu_au (b : Blocks) (f : CommandStatus → CommandStatus) : (b.onCsu f).au = b.au := rfl
@[simp] theorem Blocks.onCsu_ru (b : Blocks) (f : CommandStatus → CommandStatus) : (b.onCsu f).ru = b.ru := rfl
@[simp] theorem Blocks.onCsu_du (b : Blocks) (f : CommandStatus → CommandStatus) : (b.onCsu f).du = b.du := rfl
@[simp] theorem Blocks.onCsu_csu (b : Blocks) (f : CommandStatus → CommandStatus) : (b.onCsu f).csu = f b.csu := rfl
@[simp] theorem Blocks.onCsu_su (b : Blocks) (f : CommandStatus → CommandStatus) : (b.onCsu f).su = b.su := rfl

@[simp] theorem Blocks.onSu_lanes (b : Blocks) (f : Supervisor → Supervisor) : (b.onSu f).lanes = b.lanes := rfl
@[simp] theorem Blocks.onSu_va (b : Blocks) (f : Supervisor → Supervisor) : (b.onSu f).va = b.va := rfl
@[simp] theorem Blocks.onSu_vt (b : Blocks) (f : Supervisor → Supervisor) : (b.onSu f).vt = b.vt := rfl
@[simp] theorem Blocks.onSu_au (b : Blocks) (f : Supervisor → Supervisor) : (b.onSu f).au = b.au := rfl
@[simp] theorem Blocks.onSu_ru (b : Blocks) (f : Supervisor → Supervisor) : (b.onSu f).ru = b.ru := rfl
@[simp] theorem Blocks.onSu_du (b : Blocks) (f : Supervisor → Supervisor) : (b.onSu f).du = b.du := rfl
@[simp] theorem Blocks.onSu_csu (b : Blocks) (f : Supervisor → Supervisor) : (b.onSu f).csu = b.csu := rfl
@[simp] theorem Blocks.onSu_su (b : Blocks) (f : Supervisor → Supervisor) : (b.onSu f).su = f b.su := rfl

@[simp] theorem Blocks.setLane_lanes (b : Blocks) (l : Lane) (u : LaneUnit) :
    (b.setLane l u).lanes = b.lanes.set l u := rfl
@[simp] theorem Blocks.setLane_va (b : Blocks) (l : Lane) (u : LaneUnit) : (b.setLane l u).va = b.va := rfl
@[simp] theorem Blocks.setLane_vt (b : Blocks) (l : Lane) (u : LaneUnit) : (b.setLane l u).vt = b.vt := rfl
@[simp] theorem Blocks.setLane_au (b : Blocks) (l : Lane) (u : LaneUnit) : (b.setLane l u).au = b.au := rfl
@[simp] theorem Blocks.setLane_ru (b : Blocks) (l : Lane) (u : LaneUnit) : (b.setLane l u).ru = b.ru := rfl
@[simp] theorem Blocks.setLane_du (b : Blocks) (l : Lane) (u : LaneUnit) : (b.setLane l u).du = b.du := rfl
@[simp] theorem Blocks.setLane_csu (b : Blocks) (l : Lane) (u : LaneUnit) : (b.setLane l u).csu = b.csu := rfl
@[simp] theorem Blocks.setLane_su (b : Blocks) (l : Lane) (u : LaneUnit) : (b.setLane l u).su = b.su := rfl

@[simp] theorem Blocks.lane_setLane_same (b : Blocks) (l : Lane) (u : LaneUnit) :
    (b.setLane l u).lane l = u := by simp [Blocks.lane]

theorem Blocks.lane_setLane_other (b : Blocks) {k l : Lane} (u : LaneUnit) (h : l ≠ k) :
    (b.setLane l u).lane k = b.lane k := by
  have h' : l.val ≠ k.val := fun e => h (Fin.ext e)
  simp only [Blocks.lane, Blocks.setLane_lanes, Fin.getElem_fin]
  exact Vector.getElem_set_ne _ _ h'

/-! ## State -/

@[simp] theorem State.onBlocks_slots (s : State) (f : Blocks → Blocks) : (s.onBlocks f).slots = s.slots := rfl
@[simp] theorem State.onBlocks_bus (s : State) (f : Blocks → Blocks) : (s.onBlocks f).bus = s.bus := rfl
@[simp] theorem State.onBlocks_answers (s : State) (f : Blocks → Blocks) : (s.onBlocks f).answers = s.answers := rfl
@[simp] theorem State.onBlocks_mp (s : State) (f : Blocks → Blocks) : (s.onBlocks f).mp = s.mp := rfl
@[simp] theorem State.onBlocks_mem (s : State) (f : Blocks → Blocks) : (s.onBlocks f).mem = s.mem := rfl
@[simp] theorem State.onBlocks_ptu (s : State) (f : Blocks → Blocks) : (s.onBlocks f).ptu = s.ptu := rfl
@[simp] theorem State.onBlocks_blocks (s : State) (f : Blocks → Blocks) : (s.onBlocks f).blocks = f s.blocks := rfl
@[simp] theorem State.onBlocks_pending (s : State) (f : Blocks → Blocks) : (s.onBlocks f).pending = s.pending := rfl

@[simp] theorem State.onPtu_slots (s : State) (f : Ptu → Ptu) : (s.onPtu f).slots = s.slots := rfl
@[simp] theorem State.onPtu_bus (s : State) (f : Ptu → Ptu) : (s.onPtu f).bus = s.bus := rfl
@[simp] theorem State.onPtu_answers (s : State) (f : Ptu → Ptu) : (s.onPtu f).answers = s.answers := rfl
@[simp] theorem State.onPtu_mp (s : State) (f : Ptu → Ptu) : (s.onPtu f).mp = s.mp := rfl
@[simp] theorem State.onPtu_mem (s : State) (f : Ptu → Ptu) : (s.onPtu f).mem = s.mem := rfl
@[simp] theorem State.onPtu_ptu (s : State) (f : Ptu → Ptu) : (s.onPtu f).ptu = f s.ptu := rfl
@[simp] theorem State.onPtu_blocks (s : State) (f : Ptu → Ptu) : (s.onPtu f).blocks = s.blocks := rfl
@[simp] theorem State.onPtu_pending (s : State) (f : Ptu → Ptu) : (s.onPtu f).pending = s.pending := rfl

@[simp] theorem State.onMp_slots (s : State) (f : MemoryPort → MemoryPort) : (s.onMp f).slots = s.slots := rfl
@[simp] theorem State.onMp_bus (s : State) (f : MemoryPort → MemoryPort) : (s.onMp f).bus = s.bus := rfl
@[simp] theorem State.onMp_answers (s : State) (f : MemoryPort → MemoryPort) : (s.onMp f).answers = s.answers := rfl
@[simp] theorem State.onMp_mp (s : State) (f : MemoryPort → MemoryPort) : (s.onMp f).mp = f s.mp := rfl
@[simp] theorem State.onMp_mem (s : State) (f : MemoryPort → MemoryPort) : (s.onMp f).mem = s.mem := rfl
@[simp] theorem State.onMp_ptu (s : State) (f : MemoryPort → MemoryPort) : (s.onMp f).ptu = s.ptu := rfl
@[simp] theorem State.onMp_blocks (s : State) (f : MemoryPort → MemoryPort) : (s.onMp f).blocks = s.blocks := rfl
@[simp] theorem State.onMp_pending (s : State) (f : MemoryPort → MemoryPort) : (s.onMp f).pending = s.pending := rfl

@[simp] theorem State.setSlot_slots (s : State) (m : Master) (x : Slot) :
    (s.setSlot m x).slots = s.slots.set m x := rfl
@[simp] theorem State.setSlot_bus (s : State) (m : Master) (x : Slot) : (s.setSlot m x).bus = s.bus := rfl
@[simp] theorem State.setSlot_answers (s : State) (m : Master) (x : Slot) : (s.setSlot m x).answers = s.answers := rfl
@[simp] theorem State.setSlot_mp (s : State) (m : Master) (x : Slot) : (s.setSlot m x).mp = s.mp := rfl
@[simp] theorem State.setSlot_mem (s : State) (m : Master) (x : Slot) : (s.setSlot m x).mem = s.mem := rfl
@[simp] theorem State.setSlot_ptu (s : State) (m : Master) (x : Slot) : (s.setSlot m x).ptu = s.ptu := rfl
@[simp] theorem State.setSlot_blocks (s : State) (m : Master) (x : Slot) : (s.setSlot m x).blocks = s.blocks := rfl
@[simp] theorem State.setSlot_pending (s : State) (m : Master) (x : Slot) : (s.setSlot m x).pending = s.pending := rfl

@[simp] theorem State.fresh_slots (s : State) : s.fresh.slots = s.slots := rfl
@[simp] theorem State.fresh_bus (s : State) : s.fresh.bus = s.bus := rfl
@[simp] theorem State.fresh_answers (s : State) : s.fresh.answers = [] := rfl
@[simp] theorem State.fresh_mp (s : State) : s.fresh.mp = s.mp := rfl
@[simp] theorem State.fresh_mem (s : State) : s.fresh.mem = s.mem := rfl
@[simp] theorem State.fresh_ptu (s : State) : s.fresh.ptu = s.ptu := rfl
@[simp] theorem State.fresh_blocks (s : State) : s.fresh.blocks = s.blocks := rfl
@[simp] theorem State.fresh_pending (s : State) : s.fresh.pending = s.pending := rfl

@[simp] theorem State.slot_setSlot_same (s : State) (m : Master) (x : Slot) :
    (s.setSlot m x).slot m = x := by simp [State.slot]

theorem State.slot_setSlot_other (s : State) {k m : Master} (x : Slot) (h : m ≠ k) :
    (s.setSlot m x).slot k = s.slot k := by
  have h' : m.val ≠ k.val := fun e => h (Fin.ext e)
  simp only [State.slot, State.setSlot_slots, Fin.getElem_fin]
  exact Vector.getElem_set_ne _ _ h'

/-! ## One item for each approach -/

@[simp] theorem PerApproach.at_put_same {α : Type} (p : PerApproach α) (x : Approach) (v : α) :
    (p.put x v).at x = v := by cases x <;> rfl

theorem PerApproach.at_put_other {α : Type} (p : PerApproach α) {x y : Approach} (v : α) (h : x ≠ y) :
    (p.put x v).at y = p.at y := by
  cases x <;> cases y <;> first | rfl | exact absurd rfl h

end Sys2Proof.Machine
end

