-- ==== Sys2Proof/Laws/Blocks.lean ====
section
/-! SUPPORT. What the operations of the blocks are made of, said once: a property of the blocks that
the primitive changes below keep is kept by every operation built of them. -/

namespace Sys2Proof.Machine

/-- A property of the blocks that the DU's own changes keep: of the DU with queues that stay within
their capacity, and the flag of a dropped directive. -/
structure DuKept (P : Blocks → Prop) : Prop where
  du : ∀ b d, (∀ x, (d.queues.at x).length ≤ max directiveCapacity (b.du.queues.at x).length) →
    P b → P { b with du := d }
  overflow : ∀ b, P b → P (b.request .directiveOverflow)

/-- A property that the everyday changes keep as well: of a vehicle record in its place under its
number, a flag set, a fault sent. -/
structure BaseKept (P : Blocks → Prop) : Prop extends DuKept P where
  record : ∀ (b : Blocks) n f, (∀ r : VehicleRecord, (f r).number = r.number) → P b → P (b.onRecord n f)
  request : ∀ b f, P b → P (b.request f)
  fault : ∀ b f, P b → P (sendFault f b)

/-- The VA holds no open vehicle with more than nine axles, but where it held one with as many. -/
def AxlesKept (v w : Assembler) : Prop :=
  ∀ (l : Lane) (x : OpenVehicle), w.opened[l] = some x →
    x.axles.length ≤ 9 ∨ ∃ y, v.opened[l] = some y ∧ x.axles.length ≤ y.axles.length

/-- The VT and the AU as STOP leaves them (R104, R130). -/
def Blocks.stopped (b : Blocks) : Blocks :=
  { b with
    vt := { b.vt with table := [], occupants := ⟨[], []⟩ }
    au := { b.au with reservations := [], held := [], alarm := false, lock := false,
                      occupants := ⟨0, 0⟩, unreserved := 0 } }

/-- A record out of the table, with its number off the Held List (R101). -/
def Blocks.without (b : Blocks) (n : VehicleNumber) : Blocks :=
  { b with
    vt := { b.vt with table := b.vt.table.filter fun r => r.number ≠ n }
    au := { b.au with held := b.au.held.erase n } }

/-- A property that the changes to vehicles keep as well: of the VA with bounded axle lists; of the VT
under the same numbers; a record entered under the number that R82 assigns, HELD or not; a record gone
with its number; a shrinking or a bounded growing of a list of the VT or the AU; the STOP of both; a
journal record offered. -/
structure BlocksKept (P : Blocks → Prop) : Prop extends BaseKept P where
  va : ∀ b v, AxlesKept b.va v → P b → P { b with va := v }
  vt : ∀ b v, v.table.map (·.number) = b.vt.table.map (·.number) →
    v.occupants.a.length ≤ b.vt.occupants.a.length → v.occupants.b.length ≤ b.vt.occupants.b.length →
    P b → P { b with vt := v }
  entered : ∀ b v, b.vt.table.length < tableCapacity → P b → P (enterVehicle b.numberToAssign v b)
  held : ∀ b v, b.vt.table.length < tableCapacity → P b →
    P (holdVehicle (enteredRecord b.profile b.numberToAssign v) (enterVehicle b.numberToAssign v b))
  without : ∀ b n, P b → P (b.without n)
  stopped : ∀ b, P b → P b.stopped
  joined : ∀ b x o, (b.vt.occupants.at x).length < occupantCapacity → P b →
    P (b.onVt fun v => { v with occupants := v.occupants.put x (b.vt.occupants.at x ++ [o]) })
  au : ∀ b a, a.reservations.length ≤ b.au.reservations.length →
    (a.reservations.filter fun r => r.kind = .normal).length
      ≤ (b.au.reservations.filter fun r => r.kind = .normal).length →
    a.held.Sublist b.au.held → P b → P { b with au := a }
  placed : ∀ b r, b.au.reservations.length < reservationCapacity →
    (r.kind = .normal → b.normalCount < normalCapacity) → P b → P (placeReservation r b)
  offer : ∀ b w, P b → P (offerJournal w b)

/-- A property that the changes to a lane of the CU keep as well. -/
structure LaneKept (P : Blocks → Prop) : Prop extends BlocksKept P where
  lanes : ∀ b v, P b → P { b with lanes := v }

variable {P : Blocks → Prop}

theorem DuKept.fold {α : Type} {f : Blocks → α → Blocks} (hf : ∀ b a, P b → P (f b a)) :
    ∀ (l : List α) (b : Blocks), P b → P (l.foldl f b)
  | [], _, h => h
  | a :: l, _, h => DuKept.fold hf l _ (hf _ a h)

/-! ## Flags and records -/

theorem BaseKept.masterFault (k : BaseKept P) {b : Blocks} (f : FaultKind) (m : Master) (a : Addr)
    (h : P b) : P (masterFault f m a b) := k.fault _ _ h

theorem BaseKept.laneFault (k : BaseKept P) {b : Blocks} (f : FaultKind) (l : Lane) (s : BitVec 12)
    (h : P b) : P (laneFaultRecord f l s b) := k.fault _ _ h

theorem BaseKept.onRecord (k : BaseKept P) {b : Blocks} (n : VehicleNumber)
    (f : VehicleRecord → VehicleRecord) (hf : ∀ r, (f r).number = r.number) (h : P b) :
    P (b.onRecord n f) := k.record _ _ _ hf h

theorem BaseKept.markUnwarned (k : BaseKept P) {b : Blocks} (n : VehicleNumber) (h : P b) :
    P (markUnwarned n b) := by
  unfold Sys2Proof.Machine.markUnwarned
  split
  · exact h
  · split
    · exact h
    · exact k.request _ _ (k.onRecord _ _ (fun _ => rfl) h)

theorem BaseKept.reportDelivery (k : BaseKept P) {b : Blocks} (d : Directive) (h : P b) :
    P (reportDelivery d b) := by
  unfold Sys2Proof.Machine.reportDelivery
  split
  · exact h
  · exact k.onRecord _ _ (fun _ => rfl) h

theorem BaseKept.reportDrop (k : BaseKept P) {b : Blocks} (d : Directive) (h : P b) :
    P (reportDrop d b) := by
  unfold Sys2Proof.Machine.reportDrop
  split
  · exact h
  · exact k.markUnwarned _ h

/-! ## The DU -/

theorem DuKept.duSame (k : DuKept P) {b : Blocks} {f : DirectiveUnit → DirectiveUnit}
    (hq : (f b.du).queues = b.du.queues) (h : P b) : P (b.onDu f) :=
  k.du _ _ (fun x => by rw [hq]; exact le_max_right _ _) h

theorem DuKept.evalBeacons (k : DuKept P) {b : Blocks} (h : P b) : P (evalBeacons b) :=
  k.duSame rfl h

theorem DuKept.setStanding (k : DuKept P) {b : Blocks} (l : Lane) (s : StandingLane) (h : P b) :
    P (b.setStanding l s) := k.duSame rfl h

theorem DuKept.markResend (k : DuKept P) {b : Blocks} (l : Lane) (h : P b) :
    P (markResend l b) := k.setStanding _ _ h

/-- A queue replaced by one within the capacity, or no longer than it was. -/
theorem DuKept.setDirectives (k : DuKept P) {b : Blocks} (x : Approach) (q : List Directive)
    (hq : q.length ≤ max directiveCapacity (b.directives x).length) (h : P b) :
    P (b.setDirectives x q) := by
  refine k.du _ _ (fun y => ?_) h
  by_cases e : x = y
  · subst e; simpa [Blocks.directives] using hq
  · simp only [PerApproach.at_put_other _ _ e]; exact le_max_right _ _

theorem DuKept.setOverflow (k : DuKept P) {b : Blocks} (x : Approach) (h : P b) :
    P (setOverflow x b) := by
  unfold Sys2Proof.Machine.setOverflow
  split
  · exact h
  · exact k.evalBeacons (k.duSame rfl h)

/-- A drop of a directive that is no DIVERT reports nothing to the VT. -/
theorem DuKept.dropOther (k : DuKept P) {b : Blocks} (x : Approach) (e : Directive)
    (he : e.kind ≠ .divert) (h : P b) : P (dropDirective x e b) := by
  have h' := k.setOverflow x (k.overflow b h)
  unfold Sys2Proof.Machine.dropDirective
  dsimp only
  split
  · rename_i hk; exact absurd hk he
  · exact h'
  · exact k.markResend _ h'
  · exact k.markResend _ h'

theorem takeFirst_length {α : Type} {p : α → Bool} :
    ∀ {l : List α} {x : α} {rest : List α}, takeFirst p l = some (x, rest) →
      rest.length + 1 = l.length
  | [], _, _, h => by simp [takeFirst] at h
  | y :: ys, x, rest, h => by
    simp only [takeFirst] at h
    split at h
    · simp only [Option.some.injEq, Prod.mk.injEq] at h
      simp [← h.2]
    · split at h
      · simp at h
      · rename_i z r e
        simp only [Option.some.injEq, Prod.mk.injEq] at h
        have := takeFirst_length e
        simp [← h.2, ← this]

/-- The room and the displacement of R146, whatever a drop does. -/
theorem DuKept.queueWith (k : DuKept P) {b : Blocks} (x : Approach) (e : Directive)
    (hd : P (dropDirective x e b)) (h : P b) : P (queueDirective x e b) := by
  unfold Sys2Proof.Machine.queueDirective
  dsimp only
  split
  · rename_i hl
    exact k.setDirectives _ _ (by simp only [List.length_append, List.length_singleton]; omega) h
  · split
    · split
      · exact hd
      · rename_i gone rest e1
        have hl := takeFirst_length e1
        have h' := k.setDirectives x (rest ++ [e])
          (by simp only [List.length_append, List.length_singleton]; omega) h
        split
        · exact k.markResend _ h'
        · exact h'
    · exact hd

theorem DuKept.queueOther (k : DuKept P) {b : Blocks} (x : Approach) (e : Directive)
    (he : e.kind ≠ .divert) (h : P b) : P (queueDirective x e b) :=
  k.queueWith x e (k.dropOther x e he h) h

theorem DuKept.resendLane (k : DuKept P) {b : Blocks} (l : Lane) (h : P b) :
    P (resendLane l b) := by
  unfold Sys2Proof.Machine.resendLane queueStandingOn queueStandingOff
  dsimp only
  repeat' split
  · exact h
  · exact k.queueOther _ _ (by simp [standingDirective]) (k.setStanding _ _ h)
  · exact k.queueOther _ _ (by simp [standingDirective]) (k.setStanding _ _ h)
  · exact k.setStanding _ _ h

theorem DuKept.queueEmptied (k : DuKept P) {b : Blocks} (x : Approach) (h : P b) :
    P (queueEmptied x b) :=
  k.evalBeacons (DuKept.fold (fun _ l => k.resendLane l) _ _ (k.duSame rfl h))

theorem DuKept.evalLane (k : DuKept P) {b : Blocks} (l : Lane) (h : P b) : P (evalLane l b) := by
  unfold Sys2Proof.Machine.evalLane queueStandingOn queueStandingOff
  dsimp only
  repeat' split
  · exact h
  · exact k.queueOther _ _ (by simp [standingDirective]) (k.setStanding _ _ h)
  · exact k.queueOther _ _ (by simp [standingDirective]) (k.setStanding _ _ h)
  · exact h

theorem DuKept.evalStanding (k : DuKept P) {b : Blocks} (ls : List Lane) (h : P b) :
    P (evalStanding ls b) := k.evalBeacons (DuKept.fold (fun _ l => k.evalLane l) _ _ h)

theorem DuKept.notice (k : DuKept P) {b : Blocks} (ls : List Lane)
    (f : DirectiveInputs → DirectiveInputs) (h : P b) : P (notice ls f b) :=
  k.evalStanding _ (k.duSame rfl h)

theorem DuKept.noticeClosure (k : DuKept P) {b : Blocks} (x y : PerApproach Bool) (h : P b) :
    P (noticeClosure x y b) := by
  unfold Sys2Proof.Machine.noticeClosure
  split
  · exact h
  · exact k.notice _ _ h

theorem DuKept.startHold (k : DuKept P) {b : Blocks} (x : Approach) (h : P b) :
    P (startHold x b) := by
  unfold Sys2Proof.Machine.startHold
  dsimp only
  split
  · exact k.evalBeacons (k.duSame rfl h)
  · exact k.duSame rfl h

theorem DuKept.resetStanding (k : DuKept P) {b : Blocks} (f : Lane → StandingLane) (h : P b) :
    P (resetStanding f b) := DuKept.fold (fun _ _ h => k.setStanding _ _ h) _ _ h

theorem DuKept.emptyQueues (k : DuKept P) {b : Blocks} (h : P b) : P (emptyQueues b) :=
  k.du _ _ (fun x => by cases x <;> simp [PerApproach.at]) h

theorem DuKept.queueAllStanding (k : DuKept P) {b : Blocks} (h : P b) :
    P (queueAllStanding b) := DuKept.fold (fun _ _ h => k.queueOther _ _ (by simp [standingDirective]) h) _ _ h

theorem DuKept.startUpEnds (k : DuKept P) {b : Blocks} (m : Mode) (s w : Bool) (h : P b) :
    P (startUpEnds m s w b) :=
  k.evalBeacons (k.queueAllStanding (k.resetStanding _ (k.duSame rfl h)))

theorem DuKept.purgeProceeds (k : DuKept P) {b : Blocks} (x : Approach) (h : P b) :
    P (purgeProceeds x b) := by
  have h' := k.setDirectives x ((b.directives x).filter fun e => e.kind ≠ .proceed)
    (le_trans (List.length_filter_le _ _) (le_max_right _ _)) h
  unfold Sys2Proof.Machine.purgeProceeds
  dsimp only
  split
  · exact k.queueEmptied _ h'
  · exact h'

theorem DuKept.stopNotice (k : DuKept P) {b : Blocks} (h : P b) : P (stopNotice b) :=
  k.notice _ _ (k.purgeProceeds _ (k.purgeProceeds _ h))

theorem DuKept.applyNotice (k : DuKept P) {b : Blocks} (h : P b) : P (applyNotice b) :=
  k.evalBeacons (k.queueAllStanding (k.resetStanding _ (k.duSame rfl (k.emptyQueues h))))

theorem DuKept.bypassNotice (k : DuKept P) {b : Blocks} (h : P b) : P (bypassNotice b) :=
  k.evalBeacons (DuKept.fold (fun _ _ h => k.setStanding _ _ h) _ _
    (k.duSame rfl (k.emptyQueues h)))

theorem BaseKept.dropDirective (k : BaseKept P) {b : Blocks} (x : Approach) (e : Directive)
    (h : P b) : P (dropDirective x e b) := by
  have h' := k.setOverflow x (k.request b .directiveOverflow h)
  unfold Sys2Proof.Machine.dropDirective
  dsimp only
  repeat' split
  · exact k.reportDrop _ h'
  · exact h'
  · exact h'
  · exact k.markResend _ h'
  · exact k.markResend _ h'

theorem BaseKept.queueDirective (k : BaseKept P) {b : Blocks} (x : Approach) (e : Directive)
    (h : P b) : P (queueDirective x e b) := k.queueWith x e (k.dropDirective x e h) h

theorem BaseKept.popDirective (k : BaseKept P) {b : Blocks} (x : Approach) (h : P b) :
    P (popDirective x b) := by
  unfold Sys2Proof.Machine.popDirective
  split
  · exact k.duSame rfl h
  · rename_i e rest he
    have h1 : P ((b.setDirectives x rest).onDu fun d =>
        { d with lastPopped := d.lastPopped.put x (some (judged b.now e)) }) :=
      k.duSame rfl (k.setDirectives x rest (by rw [he]; simp only [List.length_cons]; omega) h)
    dsimp only
    have h2 (c : Bool) : P (if c = true then Sys2Proof.Machine.reportDelivery (judged b.now e) ((b.setDirectives x rest).onDu
        fun d => { d with lastPopped := d.lastPopped.put x (some (judged b.now e)) })
        else ((b.setDirectives x rest).onDu fun d =>
          { d with lastPopped := d.lastPopped.put x (some (judged b.now e)) })) := by
      split
      · exact k.reportDelivery _ h1
      · exact h1
    have h3 := h2 (judged b.now e).tracked
    split
    · split
      · exact k.queueEmptied _ (k.startHold _ h3)
      · exact k.queueEmptied _ h3
    · split
      · exact k.startHold _ h3
      · exact h3

/-! ## The AU and the records it reaches -/

theorem BlocksKept.auSame (k : BlocksKept P) {b : Blocks} {f : Admission → Admission}
    (hr : (f b.au).reservations = b.au.reservations) (hh : (f b.au).held.Sublist b.au.held)
    (h : P b) : P (b.onAu f) :=
  k.au _ _ (by rw [hr]) (by rw [hr]) hh h

theorem BlocksKept.dropReservation (k : BlocksKept P) {b : Blocks} (o : Owner) (h : P b) :
    P (dropReservation o b) :=
  k.au _ _ (List.length_filter_le _ _)
    ((List.filter_sublist (p := fun r : Reservation => decide (r.owner ≠ o))).filter _).length_le
    (.refl _) h

theorem BlocksKept.evalAlarm (k : BlocksKept P) {b : Blocks} (c : Bool) (h : P b) : P (evalAlarm c b) := by
  unfold Sys2Proof.Machine.evalAlarm noticeAlarm
  repeat' split
  · exact k.notice _ _ (k.request _ _ (k.auSame rfl (.refl _) h))
  · exact h
  · exact k.notice _ _ (k.auSame rfl (.refl _) h)
  · exact h

theorem BlocksKept.setLock (k : BlocksKept P) {b : Blocks} (h : P b) : P (setLock b) := by
  unfold Sys2Proof.Machine.setLock
  split
  · exact h
  · exact k.notice _ _ (k.request _ _ (k.auSame rfl (.refl _) h))

theorem BlocksKept.reportCounts (k : BlocksKept P) {b : Blocks} {again : Blocks → Blocks}
    (ha : ∀ b, P b → P (again b)) (h : P b) : P (reportCounts again b) := by
  have h1 : P (b.onAu fun a => { a with
      occupants := ⟨b.vt.occupants.a.length, b.vt.occupants.b.length⟩,
      unreserved := b.unreservedCount }) := k.auSame rfl (.refl _) h
  unfold Sys2Proof.Machine.reportCounts
  dsimp only
  split
  · exact ha _ (k.notice _ _ (k.auSame rfl (.refl _) h1))
  · exact h1

theorem BlocksKept.release (k : BlocksKept P) {b : Blocks} {again : Blocks → Blocks}
    (ha : ∀ b, P b → P (again b)) (o : Owner) (h : P b) : P (release again o b) := by
  unfold Sys2Proof.Machine.release
  split
  · exact ha _ (k.evalAlarm _ (k.dropReservation _ h))
  · exact h

theorem BlocksKept.dropOccupants (k : BlocksKept P) {b : Blocks} (g : Occupant → Bool) (h : P b) :
    P (dropOccupants g b) :=
  k.vt _ _ rfl (List.length_filter_le _ _) (List.length_filter_le _ _) h

theorem BlocksKept.retire (k : BlocksKept P) {b : Blocks} {again : Blocks → Blocks}
    (ha : ∀ b, P b → P (again b)) (o : JournalOutcome) (n : VehicleNumber) (h : P b) :
    P (retire again o n b) := by
  unfold Sys2Proof.Machine.retire
  dsimp only
  have h1 : P (if b.queued n = true then Sys2Proof.Machine.reportCounts again
      (Sys2Proof.Machine.dropOccupants (Occupant.isVehicle n) b) else b) := by
    split
    · exact k.reportCounts ha (k.dropOccupants _ h)
    · exact h
  generalize (if b.queued n = true then Sys2Proof.Machine.reportCounts again
      (Sys2Proof.Machine.dropOccupants (Occupant.isVehicle n) b) else b) = b1 at h1 ⊢
  have h2 : P (if Option.any (fun x => x.reserved) (b1.record n) = true then
      Sys2Proof.Machine.release again (.vehicle n) b1 else b1) := by
    split
    · exact k.release ha _ h1
    · exact h1
  generalize (if Option.any (fun x => x.reserved) (b1.record n) = true then
      Sys2Proof.Machine.release again (.vehicle n) b1 else b1) = b2 at h2 ⊢
  split
  · exact k.auSame rfl List.erase_sublist h2
  · rename_i r _
    have h3 := k.without _ n (k.offer b2 (recordWords o r b2.now) h2)
    unfold offerJournal Blocks.without at h3
    unfold offerJournal
    dsimp only [Blocks.onAu, Blocks.onCsu, Blocks.onVt, Blocks.request] at h3 ⊢
    split at h3 <;> rename_i hl <;> simpa [hl, Blocks.now] using h3

theorem BlocksKept.queueVehicle (k : BlocksKept P) {b : Blocks} (kind : DirectiveKind) (x : Reason)
    (r : VehicleRecord) (h : P b) : P (queueVehicle kind x r b) := k.queueDirective _ _ h

theorem BlocksKept.admitRecord (k : BlocksKept P) {b : Blocks} (kind : ReservationKind)
    (st : VehicleState) (late : Bool) (r : VehicleRecord)
    (hl : b.au.reservations.length < reservationCapacity)
    (hn : kind = .normal → b.normalCount < normalCapacity) (h : P b) :
    P (admitRecord kind st late r b) :=
  k.onRecord _ _ (fun _ => rfl) (k.auSame rfl (.refl _) (k.placed _ _ hl hn h))

theorem BlocksKept.examineAdmitted (k : BlocksKept P) {b : Blocks} {again : Blocks → Blocks}
    (ha : ∀ b, P b → P (again b)) (n : VehicleNumber) (h : P b) : P (examineAdmitted again n b) := by
  unfold Sys2Proof.Machine.examineAdmitted
  split
  · exact h
  · rename_i r _
    have key (st : VehicleState) (c : Bool) :
        P (if c = true then Sys2Proof.Machine.retire again .lost n (b.onRecord n (·.to st))
          else b.onRecord n (·.to st)) := by
      split
      · exact k.retire ha _ _ (k.onRecord _ _ (fun _ => rfl) h)
      · exact k.onRecord _ _ (fun _ => rfl) h
    exact key _ _

theorem admissible_room {b : Blocks} {r : VehicleRecord} (h : admissible b r = true) :
    b.normalCount < normalCapacity ∧ b.au.reservations.length < reservationCapacity := by
  simp only [admissible, Bool.and_eq_true, decide_eq_true_eq] at h
  exact ⟨h.1.1.1.2, h.1.1.2⟩

theorem BlocksKept.admitNormal (k : BlocksKept P) {b : Blocks} (r : VehicleRecord)
    (hr : b.normalCount < normalCapacity ∧ b.au.reservations.length < reservationCapacity) (h : P b) :
    P (admitNormal r b) := k.admitRecord _ _ _ _ hr.2 (fun _ => hr.1) h

theorem BlocksKept.tryHeld (k : BlocksKept P) {b : Blocks} {again : Blocks → Blocks}
    (ha : ∀ b, P b → P (again b)) (n : VehicleNumber) (h : P b) : P (tryHeld again n b) := by
  unfold Sys2Proof.Machine.tryHeld
  split
  · exact h
  · split
    · rename_i hc
      simp only [Bool.and_eq_true] at hc
      exact k.queueVehicle _ _ _ (k.examineAdmitted ha _
        (k.auSame rfl List.erase_sublist (k.admitNormal _ (admissible_room hc.2) h)))
    · exact h

theorem BlocksKept.reevaluateLevel (k : BlocksKept P) :
    ∀ (n : Nat) (b : Blocks), P b → P (reevaluateLevel n b)
  | 0, _, h => h
  | n + 1, _, h => by
    unfold Sys2Proof.Machine.reevaluateLevel
    exact DuKept.fold (fun _ v h => k.tryHeld (k.reevaluateLevel n) v h) _ _ h

theorem BlocksKept.reevaluate (k : BlocksKept P) (b : Blocks) (h : P b) : P (reevaluate b) :=
  k.reevaluateLevel _ _ h

theorem BlocksKept.divertRecord (k : BlocksKept P) {b : Blocks} (x : Reason) (n : VehicleNumber)
    (h : P b) : P (divertRecord x n b) := k.onRecord _ _ (fun _ => rfl) h

theorem BlocksKept.examineDiverted (k : BlocksKept P) {b : Blocks} (n : VehicleNumber) (h : P b) :
    P (examineDiverted n b) := by
  unfold Sys2Proof.Machine.examineDiverted
  split
  · exact h
  · rename_i r _
    split
    · exact h
    · dsimp only
      have h1 : P (if (r.dReached b.now && r.delivery.isNone) = true then
          Sys2Proof.Machine.markUnwarned n b else b) := by
        split
        · exact k.markUnwarned _ h
        · exact h
      generalize (if (r.dReached b.now && r.delivery.isNone) = true then
          Sys2Proof.Machine.markUnwarned n b else b) = b1 at h1 ⊢
      split
      · split
        · exact k.retire k.reevaluate _ _ (k.onRecord _ _ (fun _ => rfl) h1)
        · exact k.onRecord _ _ (fun _ => rfl) h1
      · exact h1

theorem BlocksKept.revoke (k : BlocksKept P) {b : Blocks} (r : VehicleRecord) (h : P b) :
    P (revoke r b) :=
  k.queueVehicle _ _ _ (k.examineDiverted _ (k.onRecord _ _ (fun _ => rfl) (k.divertRecord _ _ (k.dropReservation _ h))))

theorem BlocksKept.revokeWhile (k : BlocksKept P) {w : Blocks → Bool} {a : VehicleRecord → Bool} :
    ∀ (n : Nat) (p : Blocks × Bool), P p.1 → P (revokeWhile w a n p).1
  | 0, _, h => h
  | n + 1, (b, any), h => by
    unfold Sys2Proof.Machine.revokeWhile
    repeat' split
    · exact h
    · exact k.revokeWhile n _ (k.revoke _ h)
    · exact h

theorem BlocksKept.sweepAfter (k : BlocksKept P) {p : Blocks × Bool} (h : P p.1) : P (sweepAfter p) := by
  have h' := k.evalAlarm true (k.revokeWhile (w := overloaded) (a := fun _ => true) p.1.vt.table.length p h)
  unfold Sys2Proof.Machine.sweepAfter
  dsimp only
  split
  · exact k.reevaluate _ h'
  · exact h'

theorem BlocksKept.shortfallSweep (k : BlocksKept P) {b : Blocks} (h : P b) : P (shortfallSweep b) :=
  k.sweepAfter h

theorem BlocksKept.closeApproach (k : BlocksKept P) {b : Blocks} (x : Approach) (h : P b) :
    P (closeApproach x b) := k.sweepAfter (k.revokeWhile _ (b, false) h)

theorem BlocksKept.makeOpen (k : BlocksKept P) {b : Blocks} (o : Owner) (h : P b) : P (makeOpen o b) := by
  unfold Sys2Proof.Machine.makeOpen
  split
  · refine k.shortfallSweep (k.au _ _ (by simp) ?_ (.refl _) h)
    simp only [List.filter_map, List.length_map]
    refine le_of_eq (congrArg List.length (List.filter_congr fun r _ => ?_))
    simp only [Function.comp]
    split <;> rfl
  · exact h

theorem BlocksKept.goOverdue (k : BlocksKept P) {b : Blocks} (n : VehicleNumber) (h : P b) :
    P (goOverdue n b) := by
  unfold Sys2Proof.Machine.goOverdue
  split
  · exact h
  · dsimp only
    split
    · exact k.request _ _ (k.makeOpen _ (k.onRecord _ _ (fun _ => rfl) h))
    · exact k.request _ _ (k.onRecord _ _ (fun _ => rfl) h)

theorem BlocksKept.examineOnSpan (k : BlocksKept P) {b : Blocks} (n : VehicleNumber) (h : P b) :
    P (examineOnSpan n b) := by
  unfold Sys2Proof.Machine.examineOnSpan
  split
  · exact h
  · split
    · exact k.goOverdue _ h
    · exact h

theorem BlocksKept.placeOccupant (k : BlocksKept P) {b : Blocks} (x : Approach) (o : Occupant) (h : P b) :
    P (placeOccupant x o b) := by
  unfold Sys2Proof.Machine.placeOccupant
  dsimp only
  split
  · rename_i hl
    exact k.reportCounts k.reevaluate (k.joined _ _ _ hl h)
  · exact k.request _ _ (k.setLock h)

theorem BlocksKept.mapOccupants (k : BlocksKept P) {b : Blocks} (f : Occupant → Occupant) (h : P b) :
    P (b.onVt fun v => { v with occupants := ⟨v.occupants.a.map f, v.occupants.b.map f⟩ }) :=
  k.vt _ _ rfl (by simp) (by simp) h

theorem BlocksKept.changeOccupants (k : BlocksKept P) {b : Blocks} (f : Occupant → Occupant) (h : P b) :
    P (changeOccupants f b) := k.reportCounts k.reevaluate (k.mapOccupants f h)

theorem BlocksKept.divertHeld (k : BlocksKept P) {b : Blocks} (r : VehicleRecord) (h : P b) :
    P (divertHeld r b) :=
  k.queueVehicle _ _ _ (k.examineDiverted _ (k.divertRecord _ _ (k.auSame rfl List.erase_sublist h)))

theorem BlocksKept.actOnReport (k : BlocksKept P) {b : Blocks} (p : RestrictionReport) (h : P b) :
    P (actOnReport p b) := by
  unfold Sys2Proof.Machine.actOnReport
  dsimp only
  have h1 : P (if p.becameClosed.a = true then Sys2Proof.Machine.closeApproach .A b else b) := by
    split
    · exact k.closeApproach _ h
    · exact h
  generalize (if p.becameClosed.a = true then Sys2Proof.Machine.closeApproach .A b else b) = b1 at h1 ⊢
  have h2 : P (if p.becameClosed.b = true then Sys2Proof.Machine.closeApproach .B b1 else b1) := by
    split
    · exact k.closeApproach _ h1
    · exact h1
  generalize (if p.becameClosed.b = true then Sys2Proof.Machine.closeApproach .B b1 else b1) = b2 at h2 ⊢
  repeat' split
  all_goals first
    | exact k.reevaluate _ (k.evalAlarm _ (k.shortfallSweep h2))
    | exact k.shortfallSweep h2
    | exact k.reevaluate _ (k.evalAlarm _ h2)
    | exact k.reevaluate _ h2
    | exact h2

/-! ## The VT -/

theorem BlocksKept.goMissing (k : BlocksKept P) {b : Blocks} (n : VehicleNumber) (r : VehicleRecord)
    (h : P b) : P (goMissing n r b) := by
  unfold Sys2Proof.Machine.goMissing
  dsimp only
  split
  · exact k.retire k.reevaluate _ _ (k.onRecord _ _ (fun _ => rfl) h)
  · exact k.onRecord _ _ (fun _ => rfl) h

theorem BlocksKept.goUnconfirmed (k : BlocksKept P) {b : Blocks} (n : VehicleNumber) (r : VehicleRecord)
    (h : P b) : P (goUnconfirmed n r b) := by
  unfold Sys2Proof.Machine.goUnconfirmed
  dsimp only
  split
  · exact k.retire k.reevaluate _ _ (k.onRecord _ _ (fun _ => rfl) h)
  · exact k.onRecord _ _ (fun _ => rfl) h

theorem BlocksKept.serveD (k : BlocksKept P) {b : Blocks} (n : VehicleNumber) (h : P b) :
    P (serveD n b) := by
  unfold Sys2Proof.Machine.serveD
  repeat' split
  all_goals first
    | exact h
    | exact k.examineAdmitted k.reevaluate _ h
    | exact k.divertHeld _ h
    | exact k.markUnwarned _ h

theorem BlocksKept.serveE1 (k : BlocksKept P) {b : Blocks} (n : VehicleNumber) (h : P b) :
    P (serveE1 n b) := by
  unfold Sys2Proof.Machine.serveE1
  repeat' split
  all_goals first
    | exact h
    | exact k.goMissing _ _ h

theorem BlocksKept.serveV1 (k : BlocksKept P) {b : Blocks} (n : VehicleNumber) (h : P b) :
    P (serveV1 n b) := by
  unfold Sys2Proof.Machine.serveV1
  repeat' split
  all_goals first
    | exact h
    | exact k.goUnconfirmed _ _ h

theorem BlocksKept.serveT (k : BlocksKept P) {b : Blocks} (n : VehicleNumber) (h : P b) :
    P (serveT n b) := by
  unfold Sys2Proof.Machine.serveT
  repeat' split
  all_goals first
    | exact h
    | exact k.goOverdue _ h
    | exact k.retire k.reevaluate _ _ h

theorem BlocksKept.reachD (k : BlocksKept P) {b : Blocks} (n : VehicleNumber) (h : P b) :
    P (reachD n b) := k.serveD n h

theorem BlocksKept.reachE1 (k : BlocksKept P) {b : Blocks} (n : VehicleNumber) (h : P b) :
    P (reachE1 n b) := by
  unfold Sys2Proof.Machine.reachE1
  split
  · exact k.serveE1 _ (k.serveD _ h)
  · exact h

theorem BlocksKept.reachV1 (k : BlocksKept P) {b : Blocks} (n : VehicleNumber) (h : P b) :
    P (reachV1 n b) := by
  unfold Sys2Proof.Machine.reachV1
  split
  · exact k.serveV1 _ (k.serveD _ h)
  · exact h

theorem BlocksKept.reachT (k : BlocksKept P) {b : Blocks} (n : VehicleNumber) (h : P b) :
    P (reachT n b) := by
  unfold Sys2Proof.Machine.reachT
  split
  · exact k.serveT _ (k.serveV1 _ (k.serveE1 _ (k.serveD _ h)))
  · exact h

theorem BlocksKept.reachPhantomEnd (k : BlocksKept P) {b : Blocks} (p : Phantom) (h : P b) :
    P (reachPhantomEnd p b) := by
  unfold Sys2Proof.Machine.reachPhantomEnd
  split
  · split
    · dsimp only
      split
      · exact k.request _ _ (k.makeOpen _ (k.mapOccupants _ h))
      · exact k.request _ _ (k.mapOccupants _ h)
    · exact h
  · exact h
  · exact h

theorem BlocksKept.refuseReservation (k : BlocksKept P) {b : Blocks} (p : Occupant → Bool) (h : P b) :
    P (refuseReservation p b) := by
  unfold Sys2Proof.Machine.refuseReservation
  split
  · exact k.setLock (k.changeOccupants _ h)
  · exact k.setLock h

theorem BlocksKept.enterAdmitted (k : BlocksKept P) {b : Blocks} (x : Approach) (p : Time)
    (r : VehicleRecord) (h : P b) : P (enterAdmitted x p r b) :=
  k.examineOnSpan _ (k.placeOccupant _ _ (k.onRecord _ _ (fun _ => rfl) h))

theorem BlocksKept.enterDefied (k : BlocksKept P) {b : Blocks} (x : Approach) (p : Time)
    (r : VehicleRecord) (h : P b) : P (enterDefied x p r b) := by
  have h1 := k.placeOccupant x (.vehicle r.number p true)
    (k.onRecord r.number (defiedRecord b.profile p) (fun _ => rfl) h)
  unfold Sys2Proof.Machine.enterDefied
  dsimp only
  refine k.examineOnSpan _ (k.request _ _ ?_)
  split
  · rename_i hf
    exact k.shortfallSweep (k.onRecord _ _ (fun _ => rfl) (k.placed _ _ (of_decide_eq_true hf) (by simp) h1))
  · exact k.refuseReservation _ (k.onRecord _ _ (fun _ => rfl) h1)

theorem BlocksKept.queuePhantom (k : BlocksKept P) {b : Blocks} (x : Approach) (p : Time) (n : Phantom)
    (h : P b) : P (queuePhantom x p n b) := by
  have h1 := k.placeOccupant x (.phantom n p true (phantomEnd b.profile p) false) h
  unfold Sys2Proof.Machine.queuePhantom
  dsimp only
  refine k.reachPhantomEnd _ (k.request _ _ ?_)
  split
  · rename_i hf
    exact k.shortfallSweep (k.placed _ _ (of_decide_eq_true hf) (by simp) h1)
  · exact k.refuseReservation _ h1

theorem BlocksKept.spanEntry (k : BlocksKept P) {b : Blocks} (x : Approach) (p : Time) (h : P b) :
    P (spanEntry x p b) := by
  unfold Sys2Proof.Machine.spanEntry enterPhantom
  repeat' split
  · exact k.enterAdmitted _ _ _ h
  · exact k.enterDefied _ _ _ h
  · exact k.queuePhantom _ _ _ h
  · exact k.request _ _ (k.request _ _ (k.setLock h))
  · exact k.request _ _ (k.request _ _ (k.setLock h))

theorem BlocksKept.spanExit (k : BlocksKept P) {b : Blocks} (x : Approach) (h : P b) :
    P (spanExit x b) := by
  unfold Sys2Proof.Machine.spanExit freePhantomAt
  dsimp only
  repeat' split
  · exact k.request _ _ h
  · exact k.retire k.reevaluate _ _ h
  · exact k.release k.reevaluate _ (k.reportCounts k.reevaluate (k.dropOccupants _ h))
  · exact k.reportCounts k.reevaluate (k.dropOccupants _ h)

theorem BlocksKept.takePassage (k : BlocksKept P) {b : Blocks} (x : Approach) (l : Loop) (p : Time)
    (h : P b) : P (takePassage x l p b) := by
  unfold Sys2Proof.Machine.takePassage divertExit
  repeat' split
  · exact h
  · exact k.spanEntry _ _ h
  · exact k.spanExit _ h
  · exact k.retire k.reevaluate _ _ h
  · exact k.request _ _ h

theorem BlocksKept.clearRecord (k : BlocksKept P) {b : Blocks} (n : VehicleNumber) (h : P b) :
    P (clearRecord n b).2 := by
  unfold Sys2Proof.Machine.clearRecord
  split
  · exact h
  · exact k.retire k.reevaluate _ _ h

theorem BlocksKept.dropPhantoms (k : BlocksKept P) {b : Blocks} (x : Approach) (h : P b) :
    P (dropPhantoms x b) := by
  unfold Sys2Proof.Machine.dropPhantoms
  dsimp only
  split
  · refine DuKept.fold (fun _ _ h => k.release k.reevaluate _ h) _ _
      (k.reportCounts k.reevaluate (k.vt _ _ rfl ?_ ?_ h))
    · cases x
      · exact List.length_filter_le _ _
      · exact le_rfl
    · cases x
      · exact le_rfl
      · exact List.length_filter_le _ _
  · exact h

theorem BlocksKept.clearPhantomsOf (k : BlocksKept P) {b : Blocks} (a : BitVec 8) (h : P b) :
    P (clearPhantomsOf a b).2 := by
  unfold Sys2Proof.Machine.clearPhantomsOf
  repeat' split
  · exact k.dropPhantoms _ h
  · exact k.dropPhantoms _ h
  · exact h

/-- STOP in the VT and the AU: the journal records, then both emptied, then the notices. -/
theorem BlocksKept.stopVehicles (k : BlocksKept P) {b : Blocks} (h : P b) :
    P (stopAdmission (abandonAll b)) := by
  have h1 : P ((byNumber b.vt.table).foldl
      (fun b r => offerJournal (recordWords .abandoned r b.now) b) b).stopped :=
    k.stopped _ (DuKept.fold (fun _ _ h => k.offer _ _ h) _ _ h)
  unfold Sys2Proof.Machine.stopAdmission Sys2Proof.Machine.abandonAll noticeAlarm noticeLock
  dsimp only
  repeat' split
  · exact k.notice _ _ (k.notice _ _ h1)
  · exact k.notice _ _ h1
  · exact k.notice _ _ h1
  · exact h1

/-! ## Closed vehicles -/

theorem BlocksKept.takeUntracked (k : BlocksKept P) {b : Blocks} (v : ClosedVehicle) (h : P b) :
    P (takeUntracked v b) := k.request _ _ (k.offer _ _ (k.queueDirective _ _ h))

theorem BlocksKept.divertEntered (k : BlocksKept P) {b : Blocks} (x : Reason) (r : VehicleRecord)
    (h : P b) : P (divertEntered x r b) :=
  k.examineDiverted _ (k.queueVehicle _ _ _ (k.divertRecord _ _ h))

theorem BlocksKept.takeLate (k : BlocksKept P) {b : Blocks} (r : VehicleRecord) (h : P b) :
    P (takeLate r b) := by
  unfold Sys2Proof.Machine.takeLate
  dsimp only
  split
  · rename_i hf
    exact k.examineAdmitted k.reevaluate _ (k.shortfallSweep (k.queueVehicle _ _ _
      (k.admitRecord _ _ _ _ (of_decide_eq_true hf) (by simp) h)))
  · exact k.divertEntered _ _ (k.setLock h)

/-- An entered vehicle is given its verdict; one that becomes HELD is given it as `hh` says. -/
theorem BlocksKept.giveVerdict (k : BlocksKept P) {b : Blocks} (v : ClosedVehicle) (r : VehicleRecord)
    (hh : P (holdVehicle r b)) (h : P b) : P (giveVerdict v r b) := by
  unfold Sys2Proof.Machine.giveVerdict
  repeat' split
  · exact k.divertEntered _ _ h
  · rename_i ha
    exact k.examineAdmitted k.reevaluate _ (k.queueVehicle _ _ _ (k.admitNormal _ (admissible_room ha) h))
  · exact k.takeLate _ h
  · exact hh

theorem BlocksKept.takeClosed (k : BlocksKept P) {b : Blocks} (v : ClosedVehicle) (h : P b) :
    P (takeClosed v b) := by
  unfold Sys2Proof.Machine.takeClosed countLight
  dsimp only
  split
  · exact k.auSame rfl (.refl _) h
  · split
    · exact k.takeUntracked _ h
    · rename_i hl
      have hl := Nat.lt_of_not_le hl
      exact k.giveVerdict _ _ (k.held _ _ hl h) (k.entered _ _ hl h)

/-! ## The VA -/

theorem BlocksKept.setOpen (k : BlocksKept P) {b : Blocks} (l : Lane) (v : Option OpenVehicle)
    (hv : ∀ x, v = some x → x.axles.length ≤ 9
      ∨ ∃ y, b.openVehicle l = some y ∧ x.axles.length ≤ y.axles.length) (h : P b) :
    P (b.setOpen l v) := by
  refine k.va _ _ (fun m x hx => ?_) h
  by_cases e : l = m
  · subst e
    simp only [Fin.getElem_fin, Vector.getElem_set_self] at hx
    exact hv x hx
  · have e' : l.val ≠ m.val := fun c => e (Fin.ext c)
    simp only [Fin.getElem_fin, Vector.getElem_set_ne _ _ e'] at hx
    exact .inr ⟨x, hx, le_rfl⟩

theorem BlocksKept.setStraddle (k : BlocksKept P) {b : Blocks} (l : Lane) (v : Option HeldAxle)
    (h : P b) : P (b.setStraddle l v) := k.va _ _ (fun _ x hx => .inr ⟨x, hx, le_rfl⟩) h

theorem BlocksKept.closeVehicle (k : BlocksKept P) {b : Blocks} (l : Lane) (i : Bool) (h : P b) :
    P (closeVehicle l i b) := by
  unfold Sys2Proof.Machine.closeVehicle
  split
  · exact h
  · exact k.takeClosed _ (k.setOpen _ _ (by simp) h)

theorem BlocksKept.closeIfReached (k : BlocksKept P) {b : Blocks} (l : Lane) (h : P b) :
    P (closeIfReached l b) := by
  unfold Sys2Proof.Machine.closeIfReached
  repeat' split
  · exact h
  · exact k.closeVehicle _ _ h
  · exact h

theorem BlocksKept.join (k : BlocksKept P) {b : Blocks} (l : Lane) (j : JoinAxle) (h : P b) :
    P (join l j b) := by
  have ho {b : Blocks} (h : P b) : P (openNew l j b) :=
    k.closeIfReached _ (k.setOpen _ _ (by simp [openedBy]) h)
  unfold Sys2Proof.Machine.join
  repeat' split
  · exact ho h
  · rename_i v hv _
    refine k.closeIfReached _ (k.setOpen _ _ (fun x hx => ?_) h)
    obtain rfl := Option.some.inj hx
    simp only [joinedBy, axleCapacity]
    by_cases hl : v.axles.length < 9
    · exact .inl (by simp [hl])
    · exact .inr ⟨v, hv, by simp [hl]⟩
  · exact ho (k.closeVehicle _ _ h)

theorem BlocksKept.releaseAlone (k : BlocksKept P) {b : Blocks} (l : Lane) (h : P b) :
    P (releaseAlone l b) := by
  unfold Sys2Proof.Machine.releaseAlone
  split
  · exact h
  · exact k.join _ _ (k.setStraddle _ _ h)

theorem BlocksKept.holdAxle (k : BlocksKept P) {b : Blocks} (a : Axle) (h : P b) : P (holdAxle a b) := by
  unfold Sys2Proof.Machine.holdAxle
  dsimp only
  split
  · exact k.releaseAlone _ (k.setStraddle _ _ h)
  · exact k.setStraddle _ _ h

theorem BlocksKept.takeAxle (k : BlocksKept P) {b : Blocks} (a : Axle) (h : P b) : P (takeAxle a b) := by
  unfold Sys2Proof.Machine.takeAxle placeAxle mergeOrHold
  repeat' split
  · exact h
  · exact k.join _ _ (k.releaseAlone _ h)
  · exact k.join _ _ (k.releaseAlone _ h)
  · exact k.holdAxle _ (k.releaseAlone _ h)
  · exact k.join _ _ (k.setStraddle _ _ (k.releaseAlone _ h))
  · exact k.holdAxle _ (k.releaseAlone _ h)
  · exact k.join _ _ (k.releaseAlone _ h)
  · exact k.holdAxle _ (k.releaseAlone _ h)
  · exact k.join _ _ (k.setStraddle _ _ (k.releaseAlone _ h))
  · exact k.holdAxle _ (k.releaseAlone _ h)

theorem BlocksKept.suspectNotice (k : BlocksKept P) {b : Blocks} (l : Lane) (h : P b) :
    P (suspectNotice l b) := by
  unfold Sys2Proof.Machine.suspectNotice
  split
  · exact h
  · refine k.setStraddle _ _ (k.setOpen _ _ (fun x hx => ?_) h)
    obtain ⟨y, hy, rfl⟩ := Option.map_eq_some_iff.mp hx
    exact .inr ⟨y, hy, le_rfl⟩

theorem BlocksKept.laneChanged (k : BlocksKept P) {b : Blocks} (l : Lane) (x y : LaneState) (h : P b) :
    P (laneChanged l x y b) := by
  unfold Sys2Proof.Machine.laneChanged
  split
  · exact k.closeVehicle _ _ (k.releaseAlone _ h)
  · exact h

theorem BlocksKept.reachHoldExpiry (k : BlocksKept P) {b : Blocks} (l : Lane) (h : P b) :
    P (reachHoldExpiry l b) := by
  unfold Sys2Proof.Machine.reachHoldExpiry
  repeat' split
  · exact h
  · exact k.releaseAlone _ h
  · exact h

/-! ## The CU -/

theorem LaneKept.setLane (k : LaneKept P) {b : Blocks} (l : Lane) (u : LaneUnit) (h : P b) :
    P (b.setLane l u) := k.lanes _ _ h

theorem LaneKept.enterLane (k : LaneKept P) {b : Blocks} (l : Lane) (st : LaneState) (h : P b) :
    P (enterLane l st b) := by
  have h' := k.setLane l ((b.lane l).enter b.now (silenceMs b.profile l) st) h
  unfold Sys2Proof.Machine.enterLane announceLane
  dsimp only
  repeat' split
  · exact h'
  · exact k.request _ _ (k.notice _ _ (k.laneChanged _ _ _ h'))
  · exact k.notice _ _ (k.laneChanged _ _ _ h')

theorem LaneKept.checkSequence (k : LaneKept P) {b : Blocks} (l : Lane) (s : BitVec 12)
    (n : BitVec 8) (h : P b) : P (checkSequence l s n b) := by
  unfold Sys2Proof.Machine.checkSequence
  dsimp only
  split
  · exact k.setLane _ _ h
  · exact k.setLane _ _ (k.suspectNotice _ (k.laneFault _ _ _ h))

theorem LaneKept.deliver (k : LaneKept P) {b : Blocks} (l : Lane) (s : BitVec 12) (r : CaptureRecord)
    (h : P b) : P (deliver l s r b) := by
  unfold Sys2Proof.Machine.deliver deliverAxle deliverPassage
  dsimp only
  repeat' split
  · exact k.takeAxle _ h
  · exact h
  · exact k.laneFault _ _ _ h
  · exact h
  · exact k.takePassage _ _ _ h
  · exact k.setLane _ _ h
  · exact h

theorem LaneKept.acceptRecord (k : LaneKept P) {b : Blocks} (l : Lane) (s : BitVec 12)
    (r : CaptureRecord) (h : P b) : P (acceptRecord l s r b) :=
  k.deliver _ _ _ (k.setLane _ _ (k.enterLane _ _ (k.checkSequence _ _ _ h)))

theorem LaneKept.takeRecord (k : LaneKept P) {b : Blocks} (l : Lane) (s : BitVec 12)
    (r : CaptureRecord) (h : P b) : P (takeRecord l s r b) := by
  unfold Sys2Proof.Machine.takeRecord
  split
  · exact k.acceptRecord _ _ _ h
  · exact h

theorem LaneKept.completeCapture (k : LaneKept P) {b : Blocks} (l : Lane) (c : CompleteRecord)
    (h : P b) : P (completeCapture l c b) := by
  unfold Sys2Proof.Machine.completeCapture
  split
  · exact k.laneFault _ _ _ h
  · exact k.acceptRecord _ _ _ h

theorem LaneKept.takeCaptureWord (k : LaneKept P) {b : Blocks} (l : Lane) (o : BitVec 12) (w : Word)
    (h : P b) : P (takeCaptureWord l o w b) := by
  unfold Sys2Proof.Machine.takeCaptureWord
  dsimp only
  repeat' split
  all_goals first
    | exact h
    | exact k.setLane _ _ h
    | exact k.laneFault _ _ _ (k.setLane _ _ h)
    | exact k.completeCapture _ _ (k.setLane _ _ h)
    | exact k.completeCapture _ _ (k.laneFault _ _ _ (k.setLane _ _ h))

theorem LaneKept.reachSilence (k : LaneKept P) {b : Blocks} (l : Lane) (h : P b) :
    P (reachSilence l b) := by
  unfold Sys2Proof.Machine.reachSilence silenceAction restartLane
  dsimp only
  repeat' split
  · exact k.enterLane _ _ (k.setLane _ _ h)
  · exact k.enterLane _ _ h
  · exact h

theorem LaneKept.reachPulseEnd (k : LaneKept P) {b : Blocks} (l : Lane) (h : P b) :
    P (reachPulseEnd l b) := by
  unfold Sys2Proof.Machine.reachPulseEnd
  dsimp only
  split
  · exact k.enterLane _ _ (k.setLane _ _ h)
  · exact h

theorem LaneKept.laneCommand (_ : LaneKept P) {b : Blocks} {act : Lane → Blocks → Result × Blocks}
    (ha : ∀ l b, P b → P (act l b).2) (n : BitVec 8) (h : P b) : P (laneCommand act n b).2 := by
  unfold Sys2Proof.Machine.laneCommand
  split
  · exact h
  · exact ha _ _ h

theorem LaneKept.disableLane (k : LaneKept P) (l : Lane) (b : Blocks) (h : P b) :
    P (disableLane l b).2 := by
  unfold Sys2Proof.Machine.disableLane
  split
  all_goals first
    | exact h
    | exact k.setLane _ _ h
    | exact k.enterLane _ _ h

theorem LaneKept.enableLane (k : LaneKept P) (l : Lane) (b : Blocks) (h : P b) :
    P (enableLane l b).2 := by
  unfold Sys2Proof.Machine.enableLane
  split
  all_goals first
    | exact h
    | exact k.enterLane _ _ h

theorem LaneKept.recoverLane (k : LaneKept P) (l : Lane) (b : Blocks) (h : P b) :
    P (recoverLane l b).2 := by
  unfold Sys2Proof.Machine.recoverLane
  dsimp only
  split
  all_goals first
    | exact h
    | exact k.setLane _ _ h
    | exact k.enterLane _ _ (k.setLane _ _ h)

theorem LaneKept.resetLanes (k : LaneKept P) {b : Blocks} (h : P b) : P (resetLanes b) :=
  DuKept.fold (fun _ _ h => k.enterLane _ _ (k.setLane _ _ h)) _ _ h

theorem DuKept.reachHoldEnd (k : DuKept P) {b : Blocks} (x : Approach) (h : P b) :
    P (reachHoldEnd x b) := by
  unfold Sys2Proof.Machine.reachHoldEnd
  split
  · exact k.evalBeacons (k.duSame rfl h)
  · exact h

end Sys2Proof.Machine
end

