-- ==== Sys2Proof/Laws/Joining.lean ====
section
/-! SUPPORT. What queueing a directive does, said once: an entry joins its queue as `Blocks.told` says, and
the entries of an evaluation join theirs as `joinsAll` says. -/

namespace Sys2Proof.Machine

/-! ## Bits of the flag set -/

theorem Flag.bit_getLsbD (f g : Flag) : f.bit.getLsbD g.index = decide (f = g) := by
  cases f <;> cases g <;> rfl

theorem flagSet_request (b : Blocks) (f g : Flag) :
    (b.request f).flagSet g = (b.flagSet g || decide (f = g)) := by
  simp [Blocks.request, Blocks.flagSet, Flag.bit_getLsbD]

/-! ## Lists and lanes -/

theorem takeFirst_find? {α : Type} [DecidableEq α] (p : α → Bool) (l : List α) :
    takeFirst p l = (l.find? p).map fun y => (y, l.erase y) := by
  induction l with
  | nil => rfl
  | cons y l ih =>
    unfold takeFirst
    by_cases h : p y = true
    · simp [h]
    · rw [if_neg h, ih, List.find?_cons_of_neg h]
      cases hf : l.find? p with
      | none => rfl
      | some x =>
        have hx : p x = true := List.find?_some hf
        have hne : y ≠ x := fun e => h (e ▸ hx)
        simp [hne]

theorem PerApproach.put_at {α : Type} (p : PerApproach α) (x : Approach) : p.put x (p.at x) = p := by
  cases x <;> rfl

theorem put_true {p : PerApproach Bool} {x : Approach} (h : p.at x = true) : p.put x true = p := by
  rw [← h]; exact PerApproach.put_at p x

@[simp] theorem marked_getElem (lanes : Vector StandingLane 6) (ls : List Lane) (l : Lane) :
    (marked lanes ls)[l] = { lanes[l] with resend := lanes[l].resend || ls.contains l } := by
  simp [marked]

theorem lanes_ext {u v : Vector StandingLane 6} (h : ∀ l : Lane, u[l] = v[l]) : u = v := by
  refine Vector.ext fun i hi => ?_
  exact h ⟨i, hi⟩

@[simp] theorem marked_nil (lanes : Vector StandingLane 6) : marked lanes [] = lanes :=
  lanes_ext fun l => by rw [marked_getElem]; simp

theorem marked_one (lanes : Vector StandingLane 6) (l : Lane) :
    marked lanes [l] = lanes.set l { lanes[l] with resend := true } := by
  refine lanes_ext fun k => ?_
  rw [marked_getElem]
  by_cases h : k = l
  · subst h; simp
  · simp [h, Fin.val_ne_of_ne (Ne.symm h)]

/-! ## One entry -/

theorem markResend_eq (l : Lane) (b : Blocks) :
    markResend l b = { b with du := { b.du with lanes := marked b.du.lanes [l] } } := by
  rw [marked_one]; rfl

/-- A standing directive, as the DU forms it. -/
def isStanding (e : Directive) : Prop := e.kind = .standingOn ∨ e.kind = .standingOff

/-- The report of a dropped entry names a record that the table finds by its number. -/
def ReportFinds (e : Directive) (b : Blocks) : Prop :=
  e.kind = .divert → e.tracked = true → ∀ r ∈ b.vt.table, b.record r.number = some r

theorem reportFinds_standing {e : Directive} (h : isStanding e) (b : Blocks) : ReportFinds e b := by
  intro hk
  rcases h with h | h <;> rw [h] at hk <;> cases hk

theorem reportDrop_eq {e : Directive} {b : Blocks} (hk : e.kind = .divert) (ht : e.tracked = true)
    (h : ReportFinds e b) : reportDrop e b = b.dropReported e := by
  have hn : namedByReport e b = b.vt.table.find? fun r => decide (r.number = e.vehicle)
      && decide (r.times.d.extractLsb' 0 16 = e.deadline)
      && (match r.verdict with
          | some (.divert _) => true
          | some .admitted | none => false) := by
    unfold namedByReport
    congr 1
    funext r
    have hv : kindAgrees e.kind r.verdict = (match r.verdict with
          | some (.divert _) => true
          | some .admitted | none => false) := by
      rw [hk]; unfold kindAgrees; rcases r.verdict with _ | _ | _ <;> rfl
    rw [hv]
    rfl
  unfold reportDrop Blocks.dropReported
  simp only [hk, ht, and_self, if_true]
  rw [hn]
  generalize hf : List.find? _ b.vt.table = o
  cases o with
  | none => rfl
  | some r =>
    have hr := h hk ht r (List.mem_of_find?_eq_some hf)
    unfold markUnwarned
    simp only [hr]
    by_cases hu : r.flags.unwarned = true
    · simp only [hu, if_true]
    · simp only [hu, if_false, Bool.false_eq_true]
      rfl

theorem dropReported_other {e : Directive} (h : ¬ (e.kind = .divert ∧ e.tracked = true))
    (b : Blocks) : b.dropReported e = b := by
  unfold Blocks.dropReported
  simp [h]

theorem setOverflow_eq (x : Approach) (b : Blocks) :
    let d : Blocks := { b with du := { b.du with overflow := b.du.overflow.put x true } }
    setOverflow x b = { d with du := { d.du with beacon :=
      if (b.du.overflow.at x) then b.du.beacon else ⟨beaconState d .A, beaconState d .B⟩ } } := by
  unfold setOverflow
  dsimp only
  by_cases h : b.du.overflow.at x = true
  · simp only [h, if_true, put_true h]
  · simp only [h, if_false, Bool.false_eq_true]
    rfl

theorem beaconState_marked (b : Blocks) (ls : List Lane) (x : Approach) :
    beaconState { b with du := { b.du with lanes := marked b.du.lanes ls } } x = beaconState b x := by
  have h : (fun l : Lane => decide ((Blocks.standing
      { b with du := { b.du with lanes := marked b.du.lanes ls } } l).state = .on))
      = fun l => decide ((b.standing l).state = .on) := by
    funext l
    unfold Blocks.standing
    rw [marked_getElem]
  unfold beaconState
  rw [h]
  rfl

/-- The lanes that a dropped entry marks. -/
def dropMarks (e : Directive) : List Lane :=
  if e.kind = .standingOn ∨ e.kind = .standingOff then [e.lane] else []

/-- A dropped entry (R147). -/
theorem dropDirective_eq (x : Approach) {e : Directive} {b : Blocks} (h : ReportFinds e b) :
    let d : Blocks := { b with
      du := { b.du with
        overflow := b.du.overflow.put x true, lanes := marked b.du.lanes (dropMarks e) }
      csu := { b.csu with flags := b.csu.flags ||| Flag.directiveOverflow.bit } }
    dropDirective x e b = Blocks.dropReported { d with du := { d.du with beacon :=
      if (b.du.overflow.at x) then b.du.beacon else ⟨beaconState d .A, beaconState d .B⟩ } } e := by
  intro d
  have hs : setOverflow x (b.request .directiveOverflow) = _ := setOverflow_eq x _
  let d0 : Blocks := { b.request .directiveOverflow with
    du := { b.du with overflow := b.du.overflow.put x true } }
  have hd (y : Approach) : beaconState d y = beaconState d0 y := beaconState_marked d0 (dropMarks e) y
  have ho : (b.request .directiveOverflow).du = b.du := rfl
  unfold dropDirective
  rw [hs, hd .A, hd .B]
  simp only [d, ho]
  cases hk : e.kind
  · rw [dropReported_other (by simp [hk]), show dropMarks e = [] by simp [dropMarks, hk], marked_nil]
    rfl
  · rw [show dropMarks e = [] by simp [dropMarks, hk], marked_nil]
    by_cases ht : e.tracked = true
    · simp only [ht, if_true]
      exact reportDrop_eq hk ht h
    · rw [dropReported_other (by simp [ht])]
      simp only [ht, if_false, Bool.false_eq_true]
      rfl
  all_goals
    rw [dropReported_other (by simp [hk]), show dropMarks e = [e.lane] by simp [dropMarks, hk]]
    exact markResend_eq _ _

/-- An entry joins its queue as R146 and R147 state. -/
theorem queueDirective_told (x : Approach) {e : Directive} {b : Blocks} (h : ReportFinds e b) :
    queueDirective x e b = b.told x e := by
  have hq : b.du.queues.put x (b.du.queues.at x) = b.du.queues := PerApproach.put_at _ _
  have drop (hj : joins (b.du.queues.at x) e = ⟨b.du.queues.at x, dropMarks e, true⟩) :
      dropDirective x e b = b.told x e := by
    rw [dropDirective_eq x h]
    unfold Blocks.told
    simp only [hj, if_true, hq]
  unfold queueDirective
  dsimp only
  by_cases hr : (b.du.queues.at x).length < 16
  · have hj : joins (b.du.queues.at x) e = ⟨b.du.queues.at x ++ [e], [], false⟩ := by
      unfold joins; simp only [hr, if_true]
    have hr' : (b.directives x).length < directiveCapacity := hr
    rw [if_pos hr']
    unfold Blocks.told
    simp only [hj, marked_nil, Bool.false_eq_true, if_false]
    rfl
  · have hr' : ¬ (b.directives x).length < directiveCapacity := hr
    rw [if_neg hr', takeFirst_find?]
    by_cases hk : e.kind = .divert ∨ e.kind = .standingOn
    · have hk' : (decide (e.kind = .divert) || decide (e.kind = .standingOn)) = true := by simpa using hk
      rw [if_pos hk']
      generalize hd : List.find? displaceable (b.directives x) = o
      have hf : List.find? (fun y : Directive =>
          decide (y.kind = .proceed) || decide (y.kind = .standingOff)) (b.du.queues.at x) = o := hd
      cases o with
      | none =>
        refine drop ?_
        unfold joins
        simp only [hr, if_false, hk, if_true, hf]
        rfl
      | some y =>
        have hj : joins (b.du.queues.at x) e = ⟨(b.du.queues.at x).erase y ++ [e],
            if y.kind = .standingOff then [y.lane] else [], false⟩ := by
          unfold joins
          simp only [hr, if_false, hk, if_true, hf]
        unfold Blocks.told
        simp only [hj, Bool.false_eq_true, if_false, Option.map_some]
        by_cases ho : y.kind = .standingOff
        · simp only [ho, if_true]
          exact markResend_eq _ _
        · simp only [ho, if_false, marked_nil]
          rfl
    · have hk' : ¬ (decide (e.kind = .divert) || decide (e.kind = .standingOn)) = true := by
        simpa using hk
      rw [if_neg hk']
      refine drop ?_
      unfold joins
      simp only [hr, if_false, hk]
      rfl

/-- A queue with room takes the directive at its tail. -/
theorem queue_room (x : Approach) (e : Directive) (b : Blocks) (h : (b.directives x).length < 16) :
    queueDirective x e b = b.setDirectives x (b.directives x ++ [e]) := by
  unfold queueDirective
  exact if_pos h

theorem directives_setDirectives (b : Blocks) (x y : Approach) (q : List Directive) :
    (b.setDirectives x q).directives y = if x = y then q else b.directives y := by
  cases x <;> cases y <;> rfl

/-! ## Several entries -/

theorem joinsAll_append (q es fs : List Directive) :
    joinsAll q (es ++ fs) =
      { queue := (joinsAll (joinsAll q es).queue fs).queue
        marks := (joinsAll q es).marks ++ (joinsAll (joinsAll q es).queue fs).marks
        dropped := (joinsAll q es).dropped || (joinsAll (joinsAll q es).queue fs).dropped } := by
  induction es generalizing q with
  | nil => simp [joinsAll]
  | cons e es ih =>
    rw [List.cons_append, joinsAll, ih]
    simp [joinsAll, Bool.or_assoc]

theorem joinsAll_one (q : List Directive) (e : Directive) : joinsAll q [e] = joins q e := by
  simp [joinsAll]

/-- With room for all of them, the entries stand at the tail in order; none is displaced or dropped. -/
theorem joinsAll_room {q es : List Directive} (h : q.length + es.length ≤ 16) :
    joinsAll q es = { queue := q ++ es, marks := [], dropped := false } := by
  induction es generalizing q with
  | nil => simp [joinsAll]
  | cons e es ih =>
    simp only [List.length_cons] at h
    have hj : joins q e = { queue := q ++ [e], marks := [], dropped := false } := by
      unfold joins
      simp only [show q.length < 16 by omega, if_true]
    rw [joinsAll, hj]
    simp only
    rw [ih (by simp only [List.length_append, List.length_cons, List.length_nil]; omega)]
    simp

/-- `c` is `b` with the entries `es x` joined to each queue `x`, as far as queues, conditions, marks and
flags go. -/
structure JoinsQueues (es : Approach → List Directive) (b c : Blocks) : Prop where
  queued : ∀ x, c.directives x = (joinsAll (b.directives x) (es x)).queue
  overflow : ∀ x, c.du.overflow.at x
    = (b.du.overflow.at x || (joinsAll (b.directives x) (es x)).dropped)
  marks : ∀ l : Lane, (c.standing l).resend = ((b.standing l).resend
    || (joinsAll (b.directives .A) (es .A)).marks.contains l
    || (joinsAll (b.directives .B) (es .B)).marks.contains l)
  flags : ∀ f : Flag, c.flagSet f = (b.flagSet f || (decide (f = .directiveOverflow)
    && ((joinsAll (b.directives .A) (es .A)).dropped
      || (joinsAll (b.directives .B) (es .B)).dropped)))

theorem JoinsQueues.none {b c : Blocks} (hq : c.du.queues = b.du.queues)
    (ho : c.du.overflow = b.du.overflow) (hm : ∀ l, (c.standing l).resend = (b.standing l).resend)
    (hf : c.csu.flags = b.csu.flags) : JoinsQueues (fun _ => []) b c where
  queued x := by simp [Blocks.directives, joinsAll, hq]
  overflow x := by simp [joinsAll, ho]
  marks l := by simp [joinsAll, hm l]
  flags f := by simp [joinsAll, Blocks.flagSet, hf]

theorem JoinsQueues.trans {es fs : Approach → List Directive} {a b c : Blocks}
    (h : JoinsQueues es a b) (k : JoinsQueues fs b c) : JoinsQueues (fun x => es x ++ fs x) a c where
  queued x := by rw [joinsAll_append, k.queued, h.queued]
  overflow x := by rw [joinsAll_append, k.overflow, h.overflow, h.queued, Bool.or_assoc]
  marks l := by
    rw [joinsAll_append, joinsAll_append, k.marks, h.marks, h.queued, h.queued]
    simp only [List.contains_append]
    ac_rfl
  flags f := by
    rw [joinsAll_append, joinsAll_append, k.flags, h.flags, h.queued, h.queued]
    cases b.flagSet f <;> cases decide (f = Flag.directiveOverflow) <;> simp <;> ac_rfl

/-- The lists of entries that join: one for a queue, none for the other. -/
def only (x : Approach) (es : List Directive) (y : Approach) : List Directive :=
  if x = y then es else []

/-- An entry that no report follows joins its queue. -/
theorem told_joins (x : Approach) {e : Directive} (h : ¬ (e.kind = .divert ∧ e.tracked = true))
    (b : Blocks) : JoinsQueues (only x [e]) b (b.told x e) := by
  have key (o : Bool) (c : Blocks)
      (hq : c.du.queues = b.du.queues.put x (joins (b.directives x) e).queue)
      (ho : c.du.overflow = if o then b.du.overflow.put x true else b.du.overflow)
      (hm : c.du.lanes = marked b.du.lanes (joins (b.directives x) e).marks)
      (hf : ∀ f, c.flagSet f = (b.flagSet f || (decide (f = .directiveOverflow) && o)))
      (hd : (joins (b.directives x) e).dropped = o) : JoinsQueues (only x [e]) b c := by
    have hs (l : Lane) : (c.standing l).resend
        = ((b.standing l).resend || (joins (b.directives x) e).marks.contains l) := by
      unfold Blocks.standing
      rw [hm, marked_getElem]
    refine ⟨fun y => ?_, fun y => ?_, fun l => ?_, fun f => ?_⟩
    · unfold Blocks.directives
      rw [hq]
      cases x <;> cases y <;> simp [only, joinsAll] <;> rfl
    · rw [ho, ← hd]
      cases x <;> cases y <;> cases h : (joins (b.directives _) e).dropped <;>
        simp [only, joinsAll, h, PerApproach.put, PerApproach.at]
    · rw [hs]
      cases x <;> simp [only, joinsAll]
    · rw [hf, ← hd]
      cases x <;> simp [only, joinsAll]
  cases hd : (joins (b.directives x) e).dropped
  · refine key false _ ?_ ?_ ?_ ?_ hd
    all_goals
      unfold Blocks.told
      simp only [show (joins (b.du.queues.at x) e).dropped = false from hd, Bool.false_eq_true, if_false]
    · rfl
    · rfl
    · intro f; simp; rfl
  · refine key true _ ?_ ?_ ?_ ?_ hd
    all_goals
      unfold Blocks.told
      simp only [show (joins (b.du.queues.at x) e).dropped = true from hd, if_true,
        dropReported_other h]
    · rfl
    · rfl
    · intro f
      simp [Blocks.flagSet, Flag.bit_getLsbD, eq_comm]

end Sys2Proof.Machine
end

