-- ==== Sys2Proof/Laws/Memory.lean ====
section
/-! SUPPORT. Record memory: every write keeps the canonical form, and what reads return after it. -/

namespace Sys2Proof.Machine

/-- The canonical form from a floor is the canonical form from any lower floor. -/
theorem Memory.wfFrom_lower {f g : Nat} (h : g ≤ f) :
    ∀ m : List Host.Cell, Memory.wfFrom f m = true → Memory.wfFrom g m = true
  | [], _ => rfl
  | (k, v) :: rest, hm => by
    simp only [Memory.wfFrom, Bool.and_eq_true, decide_eq_true_eq] at hm ⊢
    exact ⟨⟨⟨le_trans h hm.1.1.1, hm.1.1.2⟩, hm.1.2⟩, hm.2⟩

/-- An address below the floor is not listed. -/
theorem readByte_below {f a : Nat} (h : a < f) :
    ∀ m : List Host.Cell, Memory.wfFrom f m = true → readByte a m = unwrittenByte
  | [], _ => rfl
  | (k, v) :: rest, hm => by
    simp only [Memory.wfFrom, Bool.and_eq_true, decide_eq_true_eq] at hm
    have hk : k ≠ a := by omega
    simp only [readByte, hk, if_false]
    exact readByte_below (by omega : a < k + 1) rest hm.2

/-- Removing an entry keeps the canonical form. -/
theorem Memory.wfFrom_dropByte (a : Nat) :
    ∀ (m : List Host.Cell) (f : Nat), Memory.wfFrom f m = true → Memory.wfFrom f (dropByte a m) = true
  | [], _, _ => rfl
  | (k, v) :: rest, f, hm => by
    simp only [Memory.wfFrom, Bool.and_eq_true, decide_eq_true_eq] at hm
    simp only [dropByte]
    split
    · exact Memory.wfFrom_lower (by omega) rest hm.2
    · simp only [Memory.wfFrom, Bool.and_eq_true, decide_eq_true_eq]
      exact ⟨hm.1, Memory.wfFrom_dropByte a rest _ hm.2⟩

/-- Listing an entry keeps the canonical form. -/
theorem Memory.wfFrom_listByte (a : Nat) (x : Byte) (ha : a < 2 ^ 24) (hx : x ≠ unwrittenByte) :
    ∀ (m : List Host.Cell) (f : Nat), f ≤ a → Memory.wfFrom f m = true →
      Memory.wfFrom f (listByte a x m) = true
  | [], f, hf, _ => by
    simp only [listByte, Memory.wfFrom, Bool.and_true, Bool.and_eq_true, decide_eq_true_eq]
    exact ⟨⟨hf, ha⟩, hx⟩
  | (k, v) :: rest, f, hf, hm => by
    simp only [Memory.wfFrom, Bool.and_eq_true, decide_eq_true_eq] at hm
    simp only [listByte]
    split
    · simp only [Memory.wfFrom, Bool.and_eq_true, decide_eq_true_eq]
      exact ⟨⟨⟨hf, ha⟩, hx⟩, ⟨⟨by omega, hm.1.1.2⟩, hm.1.2⟩, hm.2⟩
    · split
      · rename_i h1 h2
        subst h2
        simp only [Memory.wfFrom, Bool.and_eq_true, decide_eq_true_eq]
        exact ⟨⟨⟨hf, ha⟩, hx⟩, hm.2⟩
      · simp only [Memory.wfFrom, Bool.and_eq_true, decide_eq_true_eq]
        exact ⟨hm.1, Memory.wfFrom_listByte a x ha hx rest _ (by omega) hm.2⟩

/-- A byte write keeps the canonical form. -/
theorem Memory.wf_writeByte (a : Nat) (x : Byte) (ha : a < 2 ^ 24) (m : List Host.Cell)
    (hm : Memory.wf m = true) : Memory.wf (writeByte a x m) = true := by
  unfold writeByte Memory.wf at *
  split
  · exact Memory.wfFrom_dropByte a m 0 hm
  · rename_i hx
    exact Memory.wfFrom_listByte a x ha hx m 0 (Nat.zero_le _) hm

/-- Every byte of a word lies in record memory. -/
theorem byteAddress_lt (a : Addr) (i : Nat) : byteAddress a i < 2 ^ 24 := (a + BitVec.ofNat 24 i).isLt

/-- A word write keeps the canonical form. -/
theorem Memory.wf_writeWord (m : List Host.Cell) (a : Addr) (w : Word) (hm : Memory.wf m = true) :
    Memory.wf (writeWord m a w) = true := by
  unfold writeWord
  exact Memory.wf_writeByte _ _ (byteAddress_lt _ _) _ (Memory.wf_writeByte _ _ (byteAddress_lt _ _) _
    (Memory.wf_writeByte _ _ (byteAddress_lt _ _) _ (Memory.wf_writeByte _ _ (byteAddress_lt _ _) _ hm)))

theorem readByte_dropByte_same (a : Nat) :
    ∀ (m : List Host.Cell) (f : Nat), Memory.wfFrom f m = true →
      readByte a (dropByte a m) = unwrittenByte
  | [], _, _ => rfl
  | (k, v) :: rest, f, hm => by
    simp only [Memory.wfFrom, Bool.and_eq_true, decide_eq_true_eq] at hm
    simp only [dropByte]
    split
    · rename_i h
      exact readByte_below (by omega : a < k + 1) rest hm.2
    · rename_i h
      simp only [readByte, h, if_false]
      exact readByte_dropByte_same a rest _ hm.2

theorem readByte_dropByte_other {a b : Nat} (h : a ≠ b) :
    ∀ m : List Host.Cell, readByte b (dropByte a m) = readByte b m
  | [] => rfl
  | (k, v) :: rest => by
    simp only [dropByte]
    split
    · rename_i hk
      have : k ≠ b := by omega
      simp [readByte, this]
    · simp only [readByte]
      rw [readByte_dropByte_other h rest]

theorem readByte_listByte_same (a : Nat) (x : Byte) :
    ∀ m : List Host.Cell, readByte a (listByte a x m) = x
  | [] => by simp [listByte, readByte]
  | (k, v) :: rest => by
    simp only [listByte]
    split
    · simp [readByte]
    · split
      · simp [readByte]
      · rename_i h1 h2
        have : k ≠ a := fun e => h2 e.symm
        simp only [readByte, this, if_false]
        exact readByte_listByte_same a x rest

theorem readByte_listByte_other {a b : Nat} (h : a ≠ b) (x : Byte) :
    ∀ m : List Host.Cell, readByte b (listByte a x m) = readByte b m
  | [] => by simp [listByte, readByte, h]
  | (k, v) :: rest => by
    simp only [listByte]
    split
    · simp [readByte, h]
    · split
      · rename_i h1 h2
        have : k ≠ b := by omega
        simp [readByte, h, this]
      · simp only [readByte]
        rw [readByte_listByte_other h x rest]

/-- A byte written reads back. -/
theorem readByte_writeByte_same (a : Nat) (x : Byte) (m : List Host.Cell) (hm : Memory.wf m = true) :
    readByte a (writeByte a x m) = x := by
  unfold writeByte
  split
  · rename_i h
    rw [h]
    exact readByte_dropByte_same a m 0 hm
  · exact readByte_listByte_same a x m

/-- A byte write leaves every other byte. -/
theorem readByte_writeByte_other {a b : Nat} (h : a ≠ b) (x : Byte) (m : List Host.Cell) :
    readByte b (writeByte a x m) = readByte b m := by
  unfold writeByte
  split
  · exact readByte_dropByte_other h m
  · exact readByte_listByte_other h x m

/-- The bytes of a word stand at four different addresses. -/
theorem byteAddress_inj (a : Addr) {i j : Nat} (hi : i < 4) (hj : j < 4) (h : i ≠ j) :
    byteAddress a i ≠ byteAddress a j := by
  unfold byteAddress
  intro e
  have e' := BitVec.eq_of_toNat_eq e
  rw [BitVec.add_right_inj] at e'
  have := congrArg BitVec.toNat e'
  simp only [BitVec.toNat_ofNat] at this
  omega

/-- A word written reads back. -/
theorem readWord_writeWord_same (m : List Host.Cell) (a : Addr) (w : Word) (hm : Memory.wf m = true) :
    readWord (writeWord m a w) a = w := by
  have n (i j : Nat) (hi : i < 4 := by omega) (hj : j < 4 := by omega) (h : i ≠ j := by omega) :=
    byteAddress_inj a hi hj h
  have w0 := Memory.wf_writeByte (byteAddress a 0) (w.extractLsb' 0 8) (byteAddress_lt _ _) m hm
  have w1 := Memory.wf_writeByte (byteAddress a 1) (w.extractLsb' 8 8) (byteAddress_lt _ _) _ w0
  have w2 := Memory.wf_writeByte (byteAddress a 2) (w.extractLsb' 16 8) (byteAddress_lt _ _) _ w1
  unfold readWord writeWord
  rw [readByte_writeByte_same _ _ _ w2, readByte_writeByte_other (n 3 2), readByte_writeByte_same _ _ _ w1,
    readByte_writeByte_other (n 3 1), readByte_writeByte_other (n 2 1), readByte_writeByte_same _ _ _ w0,
    readByte_writeByte_other (n 3 0), readByte_writeByte_other (n 2 0), readByte_writeByte_other (n 1 0),
    readByte_writeByte_same _ _ _ hm]
  apply BitVec.eq_of_getLsbD_eq
  intro i hi
  simp only [BitVec.getLsbD_append, BitVec.getLsbD_extractLsb']
  by_cases h1 : i < 8
  · simp [h1]
  · by_cases h2 : i - 8 < 8
    · simp [h1, h2, show 8 + (i - 8) = i by omega]
    · by_cases h3 : i - 8 - 8 < 8
      · simp [h1, h2, h3, show 16 + (i - 8 - 8) = i by omega]
      · simp [h1, h2, h3, show 24 + (i - 8 - 8 - 8) = i by omega, show i - 8 - 8 - 8 < 8 by omega]

/-- A word write leaves every byte outside its four. -/
theorem readByte_writeWord_other (m : List Host.Cell) (a : Addr) (w : Word) (b : Nat)
    (h : ∀ i < 4, byteAddress a i ≠ b) : readByte b (writeWord m a w) = readByte b m := by
  unfold writeWord
  rw [readByte_writeByte_other (h 3 (by omega)), readByte_writeByte_other (h 2 (by omega)),
    readByte_writeByte_other (h 1 (by omega)), readByte_writeByte_other (h 0 (by omega))]

/-- Reset's memory is in its canonical form. -/
theorem Memory.wf_nil : Memory.wf [] = true := rfl

end Sys2Proof.Machine
end

