-- ==== Sys2Proof/Laws/Moves.lean ====
section
/-! SUPPORT. What a step can do, said once: every command's effect is made of moves of the blocks,
moves of the PTU, word writes of record memory, and changes of the ports that carry no invariant of
their own. A property of states that these keep is kept by every step. -/

namespace Sys2Proof.Machine

/-- Everything that an event can do to the blocks in one go. -/
inductive BlockMove : Blocks → Blocks → Prop where
  | fault (k : FaultKind) (m : Master) (a : Addr) (b : Blocks) : BlockMove b (masterFault k m a b)
  | captureWord (l : Lane) (o : BitVec 12) (w : Word) (b : Blocks) : BlockMove b (takeCaptureWord l o w b)
  | captureRecord (l : Lane) (o : BitVec 12) (r : CaptureRecord) (b : Blocks) :
      BlockMove b (takeRecord l o r b)
  | commandWord (m : Master) (o : BitVec 12) (w : Word) (b : Blocks) : BlockMove b (frameCommand m o w b)
  | statusRead (o : BitVec 12) (b : Blocks) : BlockMove b (statusEffect o b)
  | directivePop (x : Approach) (b : Blocks) : BlockMove b (popDirective x b)
  | faultPop (b : Blocks) : BlockMove b (popFault b)
  | longOp (b : Blocks) : BlockMove b (b.request .longOpDone)
  | result (m : Master) (tag code : BitVec 8) (r : Result) (b : Blocks) :
      BlockMove b (recordResult m tag code r b)
  | start (b : Blocks) (h : b.su.mode = .service) : BlockMove b (startActive b)
  | stop (b : Blocks) (h : b.su.mode = .active) : BlockMove b (stopActive b)
  | bypass (b : Blocks) (h : b.su.mode = .service) : BlockMove b (bypassBlocks b)
  | apply (b : Blocks) (h : b.su.mode = .bypass ∨ b.su.mode = .service) (hr : applyRefusal b = none) :
      BlockMove b (applyBlocks b)
  | program (p w c : BitVec 8) (a : Addr) (b : Blocks) : BlockMove b (beginProgram p w c a b).2
  | erase (p : BitVec 8) (b : Blocks) : BlockMove b (beginErase p b).2
  | push (o : PushOperands) (b : Blocks) (h : inOperation b.su.mode = true) :
      BlockMove b (pushEntry o b).2
  | pop (e : BitVec 9) (b : Blocks) (h : inOperation b.su.mode = true) : BlockMove b (popEntry e b).2
  | clearVehicle (n : VehicleNumber) (b : Blocks) (h : b.su.mode = .active) :
      BlockMove b (clearRecord n b).2
  | clearPhantoms (a : BitVec 8) (b : Blocks) (h : b.su.mode = .active) :
      BlockMove b (clearPhantomsOf a b).2
  | laneDisable (l : BitVec 8) (b : Blocks) : BlockMove b (laneCommand disableLane l b).2
  | laneEnable (l : BitVec 8) (b : Blocks) : BlockMove b (laneCommand enableLane l b).2
  | laneRecover (l : BitVec 8) (b : Blocks) : BlockMove b (laneCommand recoverLane l b).2
  | clearEvents (f : BitVec 13) (b : Blocks) : BlockMove b (clearFlags f b)
  | setEnables (f : BitVec 13) (b : Blocks) : BlockMove b (setEnables f b)
  | clearFaults (b : Blocks) : BlockMove b (clearFaultLog b)
  | journalWord (b : Blocks) : BlockMove b (journalWordWritten b)
  | sourceWord (w : Word) (b : Blocks) : BlockMove b (takeSourceWord w b)
  | programmed (b : Blocks) : BlockMove b (finishProgram b)
  | erased (b : Blocks) : BlockMove b (finishErase b)
  | silence (l : Lane) (b : Blocks) : BlockMove b (reachSilence l b)
  | pulse (l : Lane) (b : Blocks) : BlockMove b (reachPulseEnd l b)
  | closeTime (l : Lane) (b : Blocks) : BlockMove b (reachCloseTime l b)
  | holdExpiry (l : Lane) (b : Blocks) : BlockMove b (reachHoldExpiry l b)
  | d (n : VehicleNumber) (b : Blocks) : BlockMove b (reachD n b)
  | e1 (n : VehicleNumber) (b : Blocks) : BlockMove b (reachE1 n b)
  | v1 (n : VehicleNumber) (b : Blocks) : BlockMove b (reachV1 n b)
  | t (n : VehicleNumber) (b : Blocks) : BlockMove b (reachT n b)
  | phantomEnd (k : Phantom) (b : Blocks) : BlockMove b (reachPhantomEnd k b)
  | holdEnd (x : Approach) (b : Blocks) : BlockMove b (reachHoldEnd x b)
  | settle (b : Blocks) : BlockMove b (reachSettle b)
  | clock (b : Blocks) : BlockMove b (clockRises b)
  | period (b : Blocks) : BlockMove b (clockPeriod b)
  | reset (c : ResetCause) (b : Blocks) : BlockMove b (resetBlocks c b)
  | causesEnd (below strap : Bool) (b : Blocks) : BlockMove b (causesEnd below strap b)
  | startUpEnd (m : Mode) (b : Blocks) (h : b.su.startUp = .chosen m) : BlockMove b (endBlocks m b)
  | supply (x y : Supply) (b : Blocks) : BlockMove b (crossSupply x y b)

/-- Everything that an event can do to the PTU in one go: the buffer untouched, or one of the four
changes of the buffer. -/
inductive PtuMove : Ptu → Ptu → Prop where
  | besides (p q : Ptu) (h : q.buffer = p.buffer) : PtuMove p q
  | looked (m : Master) (i : Fin 16) (tag : BitVec 8) (p : Ptu) :
      PtuMove p (p.onSet m i (BufferSet.afterLookup tag))
  | filled (m : Master) (i : Fin 16) (tag : BitVec 8) (e : WalkedEntry) (p : Ptu) :
      PtuMove p (p.onSet m i (BufferSet.fill tag e))
  | swept (m : Master) (i : Fin 16) (p : Ptu) : PtuMove p (p.onSet m i fun _ => .cleared)
  | cleared (p q : Ptu) (h : q.buffer = Ptu.reset.buffer) : PtuMove p q

/-- A property of states that the moves and the carriage of the ports keep. -/
structure Kept (Q : State → Prop) : Prop where
  mp : ∀ s p, Q s → Q { s with mp := p }
  slots : ∀ s v, Q s → Q { s with slots := v }
  bus : ∀ s v, Q s → Q { s with bus := v }
  answers : ∀ s a, Q s → Q { s with answers := a }
  blocks : ∀ s b, BlockMove s.blocks b → Q s → Q { s with blocks := b }
  ptu : ∀ s p, PtuMove s.ptu p → Q s → Q { s with ptu := p }

/-- A property kept by the moves and by word writes of record memory. -/
structure KeptByMemory (Q : State → Prop) : Prop extends Kept Q where
  mem : ∀ s a w, Q s → Q { s with mem := writeWord s.mem a w }

variable {Q : State → Prop}

/-! ## The Memory Port -/

theorem Kept.onMp (k : Kept Q) {s : State} (f : MemoryPort → MemoryPort) (h : Q s) : Q (s.onMp f) :=
  k.mp s _ h

/-- A grant changes the MP alone. -/
theorem grant_onMp (s : State) : grant s = { s with mp := (grant s).mp } := by
  unfold grant grantBelowWalk grantOther grantJournal grantForward
  repeat' split
  all_goals rfl

/-- A poke changes the MP alone. -/
theorem poke_onMp (s : State) : poke s = { s with mp := (poke s).mp } := by
  unfold poke
  split
  · exact grant_onMp s
  · rfl

theorem Kept.grant (k : Kept Q) {s : State} (h : Q s) : Q (grant s) := by
  rw [grant_onMp]; exact k.mp s _ h

theorem Kept.poke (k : Kept Q) {s : State} (h : Q s) : Q (poke s) := by
  rw [poke_onMp]; exact k.mp s _ h

theorem Kept.onBlocks (k : Kept Q) {s : State} {f : Blocks → Blocks} (m : BlockMove s.blocks (f s.blocks))
    (h : Q s) : Q (s.onBlocks f) := k.blocks s _ m h

theorem Kept.act (k : Kept Q) {s : State} {f : Blocks → Blocks} (m : BlockMove s.blocks (f s.blocks))
    (h : Q s) : Q (s.act f) := k.poke (k.onBlocks m h)

theorem Kept.setSlot (k : Kept Q) {s : State} (m : Master) (x : Slot) (h : Q s) : Q (s.setSlot m x) :=
  k.slots s _ h

theorem Kept.moveTo (k : Kept Q) {s : State} (m : Master) (p : PtuPlace) (h : Q s) : Q (s.moveTo m p) := by
  unfold State.moveTo
  split
  · exact k.setSlot m _ h
  all_goals exact h

theorem Kept.onPtu (k : Kept Q) {s : State} {f : Ptu → Ptu} (m : PtuMove s.ptu (f s.ptu)) (h : Q s) :
    Q (s.onPtu f) := k.ptu s _ m h

theorem Kept.complete (k : Kept Q) {s : State} {hand : State → State}
    (hh : ∀ s, Q s → Q (hand s)) (h : Q s) : Q (complete hand s) :=
  k.grant (k.onMp _ (hh _ (k.onMp _ h)))

theorem Kept.toMemory (k : Kept Q) {s : State} (m : Master) (t : Transaction) (a : Addr)
    (w : WindowKind) (h : Q s) : Q (toMemory m t a w s) := k.poke (k.setSlot m _ h)

/-! ## The PTU -/

theorem Kept.walkNext (k : Kept Q) {s : State} (h : Q s) : Q (walkNext s) := by
  unfold Sys2Proof.Machine.walkNext
  split
  · exact k.poke (k.onPtu (.besides _ _ rfl) (k.moveTo _ _ h))
  all_goals exact h

theorem Kept.joinQueue (k : Kept Q) {s : State} (m : Master) (h : Q s) : Q (joinQueue m s) :=
  k.walkNext (k.onPtu (.besides _ _ rfl) (k.moveTo _ _ h))

theorem Kept.supersede (k : Kept Q) {s : State} (h : Q s) : Q (supersede s) := by
  unfold Sys2Proof.Machine.supersede
  split
  · exact k.onBlocks (.longOp _) (k.onPtu (.besides _ _ rfl) h)
  · exact h

theorem Kept.handAgain (k : Kept Q) {s : State} (m : Master) (h : Q s) : Q (handAgain s m) := by
  unfold Sys2Proof.Machine.handAgain
  split
  · split
    · exact k.toMemory _ _ _ _ h
    · exact k.joinQueue _ h
  all_goals exact h

theorem Kept.foldl {α : Type} {f : State → α → State} (hf : ∀ s a, Q s → Q (f s a)) :
    ∀ (l : List α) (s : State), Q s → Q (l.foldl f s)
  | [], _, h => h
  | a :: l, _, h => Kept.foldl hf l _ (hf _ a h)

theorem Kept.applyPtu (k : Kept Q) {s : State} (h : Q s) : Q (applyPtu s) := by
  unfold Sys2Proof.Machine.applyPtu
  refine Kept.foldl (fun s m => k.handAgain m) _ _ ?_
  exact k.onPtu (.besides _ _ rfl) (k.supersede (k.onPtu (.cleared _ _ rfl) h))

theorem Kept.bypassPtu (k : Kept Q) {s : State} (h : Q s) : Q (bypassPtu s) := by
  unfold Sys2Proof.Machine.bypassPtu
  exact k.slots _ _ (k.onMp _ (k.onPtu (.besides _ _ rfl) (k.supersede (k.onPtu (.cleared _ _ rfl) h))))

/-! ## Commands -/

/-- A taken command keeps what its owner's action keeps in the modes that take it. -/
theorem Kept.takeCommand (k : Kept Q) {s : State} {m : Master} {tag code : BitVec 8}
    {taken : Mode → Bool} {owner : State → Result × State}
    (ho : taken s.mode = true → Q (owner s).2) (h : Q s) : Q (takeCommand m tag code taken owner s) := by
  unfold Sys2Proof.Machine.takeCommand
  cases ht : taken s.mode
  · exact k.act (.result _ _ _ _ _) h
  · exact k.act (.result _ _ _ _ _) (ho ht)

theorem Kept.owner (k : Kept Q) {s : State} {f : Blocks → Result × Blocks}
    (m : BlockMove s.blocks (f s.blocks).2) (h : Q s) : Q (ownerOf f s).2 := k.blocks s _ m h

theorem inService_iff {m : Mode} : inService m = true ↔ m = .service := by cases m <;> decide
theorem inActive_iff {m : Mode} : inActive m = true ↔ m = .active := by cases m <;> decide
theorem inApply_iff {m : Mode} : inApply m = true ↔ m = .bypass ∨ m = .service := by cases m <;> decide

theorem Kept.applyProfile (k : Kept Q) {s : State} (hm : inApply s.mode = true) (h : Q s) :
    Q (applyProfile s).2 := by
  unfold Sys2Proof.Machine.applyProfile
  split
  · exact h
  · rename_i hr
    exact k.applyPtu (k.onMp _ (k.onBlocks (.apply _ (inApply_iff.mp hm) hr) h))

theorem Kept.journalEmptied (k : Kept Q) {s : State} (h : Q s) : Q (journalEmptied s) := by
  unfold Sys2Proof.Machine.journalEmptied
  split
  · exact k.onMp _ h
  · exact h

theorem Kept.enterBypass (k : Kept Q) {s : State} (hm : inService s.mode = true) (h : Q s) :
    Q (enterBypassMode s).2 :=
  k.bypassPtu (k.onMp _ (k.journalEmptied (k.onBlocks (.bypass _ (inService_iff.mp hm)) h)))

theorem Kept.invalidate (k : Kept Q) {s : State} (a : BitVec 8) (h : Q s) : Q (invalidate a s).2 := by
  unfold Sys2Proof.Machine.invalidate
  split
  · exact h
  · split
    · exact h
    · exact k.onPtu (.besides _ _ rfl) h

theorem Kept.doStart (k : Kept Q) {s : State} (m : Master) (t : BitVec 8) (h : Q s) :
    Q (doStart m t s) :=
  k.takeCommand (fun hm => k.owner (.start _ (inService_iff.mp hm)) h) h
theorem Kept.doStop (k : Kept Q) {s : State} (m : Master) (t : BitVec 8) (h : Q s) :
    Q (doStop m t s) :=
  k.takeCommand (fun hm => k.owner (.stop _ (inActive_iff.mp hm)) h) h
theorem Kept.doEnterBypass (k : Kept Q) {s : State} (m : Master) (t : BitVec 8) (h : Q s) :
    Q (doEnterBypass m t s) := k.takeCommand (fun hm => k.enterBypass hm h) h
theorem Kept.doApplyProfile (k : Kept Q) {s : State} (m : Master) (t : BitVec 8) (h : Q s) :
    Q (doApplyProfile m t s) := k.takeCommand (fun hm => k.applyProfile hm h) h
theorem Kept.doProfileProgram (k : Kept Q) {s : State} (m : Master) (t p w c : BitVec 8) (a : Addr)
    (h : Q s) : Q (doProfileProgram m t p w c a s) :=
  k.takeCommand (fun _ => k.owner (.program _ _ _ _ _) h) h
theorem Kept.doProfileErase (k : Kept Q) {s : State} (m : Master) (t p : BitVec 8) (h : Q s) :
    Q (doProfileErase m t p s) := k.takeCommand (fun _ => k.owner (.erase _ _) h) h
theorem Kept.doInvalidateArea (k : Kept Q) {s : State} (m : Master) (t a : BitVec 8) (h : Q s) :
    Q (doInvalidateArea m t a s) := k.takeCommand (fun _ => k.invalidate a h) h
theorem Kept.doPushRestriction (k : Kept Q) {s : State} (m : Master) (t : BitVec 8) (o : PushOperands)
    (h : Q s) : Q (doPushRestriction m t o s) := 
  k.takeCommand (fun hm => k.owner (.push _ _ hm) h) h
theorem Kept.doPopRestriction (k : Kept Q) {s : State} (m : Master) (t : BitVec 8) (e : BitVec 9)
    (h : Q s) : Q (doPopRestriction m t e s) := 
  k.takeCommand (fun hm => k.owner (.pop _ _ hm) h) h
theorem Kept.doClearVehicle (k : Kept Q) {s : State} (m : Master) (t : BitVec 8) (n : VehicleNumber)
    (h : Q s) : Q (doClearVehicle m t n s) :=
  k.takeCommand (fun hm => k.owner (.clearVehicle _ _ (inActive_iff.mp hm)) h) h
theorem Kept.doClearPhantoms (k : Kept Q) {s : State} (m : Master) (t a : BitVec 8) (h : Q s) :
    Q (doClearPhantoms m t a s) :=
  k.takeCommand (fun hm => k.owner (.clearPhantoms _ _ (inActive_iff.mp hm)) h) h
theorem Kept.doLaneDisable (k : Kept Q) {s : State} (m : Master) (t l : BitVec 8) (h : Q s) :
    Q (doLaneDisable m t l s) := k.takeCommand (fun _ => k.owner (.laneDisable _ _) h) h
theorem Kept.doLaneEnable (k : Kept Q) {s : State} (m : Master) (t l : BitVec 8) (h : Q s) :
    Q (doLaneEnable m t l s) := k.takeCommand (fun _ => k.owner (.laneEnable _ _) h) h
theorem Kept.doLaneRecover (k : Kept Q) {s : State} (m : Master) (t l : BitVec 8) (h : Q s) :
    Q (doLaneRecover m t l s) := k.takeCommand (fun _ => k.owner (.laneRecover _ _) h) h
theorem Kept.doClearEvents (k : Kept Q) {s : State} (m : Master) (t : BitVec 8) (f : BitVec 13)
    (h : Q s) : Q (doClearEvents m t f s) := k.takeCommand (fun _ => k.owner (.clearEvents _ _) h) h
theorem Kept.doSetEventEnables (k : Kept Q) {s : State} (m : Master) (t : BitVec 8) (f : BitVec 13)
    (h : Q s) : Q (doSetEventEnables m t f s) := k.takeCommand (fun _ => k.owner (.setEnables _ _) h) h
theorem Kept.doClearFaults (k : Kept Q) {s : State} (m : Master) (t : BitVec 8) (h : Q s) :
    Q (doClearFaults m t s) := k.takeCommand (fun _ => k.owner (.clearFaults _) h) h
theorem Kept.doUnknown (k : Kept Q) {s : State} (m : Master) (t c : BitVec 8) (h : Q s) :
    Q (doUnknown m t c s) := k.act (.result _ _ _ _ _) h

theorem Kept.runCommand (k : Kept Q) {s : State} (m : Master) (w0 w1 w2 : Word) (h : Q s) :
    Q (runCommand m w0 w1 w2 s) := by
  unfold Sys2Proof.Machine.runCommand
  dsimp only
  split
  · exact k.doStart _ _ h
  · exact k.doStop _ _ h
  · exact k.doEnterBypass _ _ h
  · exact k.doApplyProfile _ _ h
  · exact k.doProfileProgram _ _ _ _ _ _ h
  · exact k.doProfileErase _ _ _ h
  · exact k.doInvalidateArea _ _ _ h
  · exact k.doPushRestriction _ _ _ h
  · exact k.doPopRestriction _ _ _ h
  · exact k.doClearVehicle _ _ _ h
  · exact k.doClearPhantoms _ _ _ h
  · exact k.doLaneDisable _ _ _ h
  · exact k.doLaneEnable _ _ _ h
  · exact k.doLaneRecover _ _ _ h
  · exact k.doClearEvents _ _ _ h
  · exact k.doSetEventEnables _ _ _ h
  · exact k.doClearFaults _ _ h
  · exact k.doUnknown _ _ _ h

theorem Kept.takeCommandWord (k : Kept Q) {s : State} (m : Master) (o : BitVec 12) (w : Word) (h : Q s) :
    Q (takeCommandWord m o w s) := by
  have h' := k.onBlocks (f := frameCommand m o w) (.commandWord _ _ _ _) h
  unfold Sys2Proof.Machine.takeCommandWord
  dsimp only
  split
  · exact h'
  · unfold completeCommand
    split
    · exact k.runCommand _ _ _ _ h'
    · exact k.onBlocks (.fault _ _ _ _) h'

/-! ## The System Port -/

theorem Kept.answer (k : Kept Q) {s : State} (m : Master) (ok : Bool) (w : Word) (h : Q s) :
    Q (answer m ok w s) := k.answers _ _ (k.setSlot m .free h)

theorem Kept.refuse (k : Kept Q) {s : State} (m : Master) (f : FaultKind) (a : Addr) (h : Q s) :
    Q (refuse m f a s) := k.answer _ _ _ (k.onBlocks (.fault _ _ _ _) h)

theorem Kept.readStatus (k : Kept Q) {s : State} (m : Master) (t : Transaction) (o : BitVec 12) (h : Q s) :
    Q (readStatus m t o s) := by
  unfold Sys2Proof.Machine.readStatus
  split
  · exact k.answer _ _ _ (k.onBlocks (.statusRead _ _) h)
  · exact k.refuse _ _ _ h

theorem Kept.readDirective (k : Kept Q) {s : State} (m : Master) (t : Transaction) (x : Approach)
    (o : BitVec 12) (h : Q s) : Q (readDirective m t x o s) := by
  unfold Sys2Proof.Machine.readDirective
  split
  · exact k.answer _ _ _ (k.onBlocks (.directivePop _ _) h)
  · exact k.answer _ _ _ h
  · exact k.answer _ _ _ h
  · exact k.refuse _ _ _ h

theorem Kept.writeCapture (k : Kept Q) {s : State} (m : Master) (t : Transaction) (w : Word)
    (c : BitVec 3) (a : Addr) (h : Q s) : Q (writeCapture m t w c a s) := by
  unfold Sys2Proof.Machine.writeCapture
  refine k.toMemory _ _ _ _ ?_
  split
  · exact k.act (.captureWord _ _ _ _) h
  · exact h

theorem Kept.route (k : Kept Q) {s : State} (m : Master) (t : Transaction) (w : WindowKind)
    (c : BitVec 3) (a : Addr) (h : Q s) : Q (route m t w c a s) := by
  unfold Sys2Proof.Machine.route
  split
  all_goals first
    | exact k.toMemory _ _ _ _ h
    | exact k.writeCapture _ _ _ _ _ h
    | exact k.toMemory _ _ _ _ (k.takeCommandWord _ _ _ h)
    | exact k.readStatus _ _ _ h
    | exact k.readDirective _ _ _ _ h
    | exact k.refuse _ _ _ h

theorem Kept.useEntry (k : Kept Q) {s : State} (m : Master) (t : Transaction) (e : WalkedEntry) (h : Q s) :
    Q (useEntry m t e s) := by
  unfold Sys2Proof.Machine.useEntry
  split
  · exact k.refuse _ _ _ h
  · exact k.route _ _ _ _ _ h

theorem Kept.lookup (k : Kept Q) {s : State} (m : Master) (t : Transaction) (h : Q s) :
    Q (lookup m t s) := by
  have h1 := k.onPtu (f := fun p => p.onSet m (addrSet t.address)
    (BufferSet.afterLookup (addrTag t.address))) (.looked m _ _ s.ptu) h
  unfold Sys2Proof.Machine.lookup
  dsimp only
  repeat' split
  all_goals first
    | exact k.useEntry _ _ _ (k.onBlocks (.fault _ _ _ _) h1)
    | exact k.joinQueue _ (k.onBlocks (.fault _ _ _ _) h1)
    | exact k.useEntry _ _ _ h1
    | exact k.joinQueue _ h1

theorem Kept.handToPtu (k : Kept Q) {s : State} (m : Master) (t : Transaction) (h : Q s) :
    Q (handToPtu m t s) := by
  unfold Sys2Proof.Machine.handToPtu
  split
  · exact k.toMemory _ _ _ _ h
  · split
    · exact k.moveTo _ _ h
    · exact k.lookup _ _ h

theorem Kept.classify (k : Kept Q) {s : State} (m : Master) (t : Transaction) (h : Q s) :
    Q (classify m t s) := by
  unfold Sys2Proof.Machine.classify fallback writeCommand
  dsimp only
  repeat' split
  all_goals first
    | exact k.toMemory _ _ _ _ h
    | exact k.toMemory _ _ _ _ (k.takeCommandWord _ _ _ h)
    | exact k.readStatus _ _ _ h
    | exact k.refuse _ _ _ h

theorem Kept.handOver (k : Kept Q) {s : State} (m : Master) (t : Transaction) (h : Q s) :
    Q (handOver m t s) := by
  have h' := k.setSlot m (.translating t .looking) h
  unfold Sys2Proof.Machine.handOver
  dsimp only
  split
  · exact k.classify _ _ h'
  · exact k.handToPtu _ _ h'
  · exact k.handToPtu _ _ h'
  · exact k.setSlot _ _ h'

theorem Kept.takeFromBus (k : Kept Q) {s : State} (m : Master) (h : Q s) : Q (takeFromBus m s) := by
  unfold Sys2Proof.Machine.takeFromBus takeTransaction
  split
  · exact h
  · split
    · exact k.refuse _ _ _ (k.bus _ _ h)
    · exact k.handOver _ _ (k.bus _ _ h)

theorem Kept.drainLevel (k : Kept Q) : ∀ (n : Nat) {s : State}, Q s → Q (drainLevel n s)
  | 0, _, h => h
  | n + 1, _, h => by
    unfold Sys2Proof.Machine.drainLevel
    split
    · split
      · exact k.drainLevel n (k.handOver _ _ h)
      · exact h
    · split
      · exact k.drainLevel n (k.takeFromBus _ h)
      · exact h

theorem Kept.drain (k : Kept Q) {s : State} (h : Q s) : Q (drain s) := k.drainLevel _ h

/-! ## Completions, the sweep and start-up -/

theorem Kept.endWalk (k : Kept Q) {s : State} (h : Q s) : Q (endWalk s) :=
  k.walkNext (k.onPtu (.besides _ _ rfl) h)

theorem Kept.failWalk (k : Kept Q) {s : State} (m : Master) (f : FaultKind) (h : Q s) :
    Q (failWalk m f s) := k.drain (k.endWalk (k.refuse _ _ _ h))

theorem Kept.regionDone (k : Kept Q) {s : State} (h : Q s) : Q (regionDone s) := by
  unfold Sys2Proof.Machine.regionDone
  split
  · refine k.complete (fun s h => ?_) h
    split
    · exact h
    · unfold regionWord
      repeat' split
      all_goals first
        | exact k.failWalk _ _ h
        | exact k.onPtu (.besides _ _ rfl) h
        | exact h
  all_goals exact h

theorem Kept.finishWalk (k : Kept Q) {s : State} (w : Walk) (e : WalkedEntry) (h : Q s) :
    Q (finishWalk w e s) := by
  unfold Sys2Proof.Machine.finishWalk
  split
  · exact k.drain (k.endWalk h)
  · refine k.drain (k.endWalk (k.useEntry _ _ _ (k.moveTo _ _ (k.onPtu ?_ h))))
    unfold fillBuffer
    split
    · exact .besides _ _ rfl
    · exact .filled _ _ _ _ _

theorem Kept.pageDone (k : Kept Q) {s : State} (h : Q s) : Q (pageDone s) := by
  unfold Sys2Proof.Machine.pageDone
  split
  · refine k.complete (fun s h => ?_) h
    split
    · exact h
    · unfold pageWord
      repeat' split
      all_goals first
        | exact k.failWalk _ _ h
        | exact k.finishWalk _ _ h
        | exact h
  all_goals exact h

theorem Kept.sourceDone (k : Kept Q) {s : State} (h : Q s) : Q (sourceDone s) := by
  unfold Sys2Proof.Machine.sourceDone
  split
  · exact k.complete (fun s h => k.onBlocks (.sourceWord _ _) h) h
  all_goals exact h

theorem Kept.lookupWaiting (k : Kept Q) {s : State} (m : Master) (h : Q s) : Q (lookupWaiting s m) := by
  unfold Sys2Proof.Machine.lookupWaiting
  split
  · exact k.lookup _ _ (k.moveTo _ _ h)
  all_goals exact h

theorem Kept.sweepStep (k : Kept Q) {s : State} (h : Q s) : Q (sweepStep s) := by
  unfold Sys2Proof.Machine.sweepStep
  split
  · exact h
  · split
    · rename_i q t _ _
      have h1 := k.onPtu (f := fun p => p.onSet q.area q.index fun _ => .cleared)
        (.swept _ _ s.ptu) h
      dsimp only
      split
      · exact k.onPtu (.besides _ _ rfl) h1
      · unfold endSweep
        refine k.drain (Kept.foldl (fun s m => k.lookupWaiting m) _ _ ?_)
        exact k.onBlocks (.longOp _) (k.onPtu (.besides _ _ rfl) h1)
    · exact h

theorem Kept.resetEvent (k : Kept Q) {s : State} (c : ResetCause) (h : Q s) : Q (resetEvent c s) := by
  unfold Sys2Proof.Machine.resetEvent
  have h1 := Kept.foldl (fun s m h => k.answer (s := s) m false allOnes h) s.holders s h
  exact k.drain (k.blocks _ _ (.reset c _) (k.ptu _ _ (.cleared _ _ rfl) (k.mp _ _ h1)))

theorem Kept.endStartUp (k : Kept Q) {s : State} (h : Q s) : Q (endStartUp s) := by
  unfold Sys2Proof.Machine.endStartUp
  split
  · rename_i m hm
    exact k.drain (k.slots _ _ (k.onBlocks (.startUpEnd m _ hm) h))
  all_goals exact h

theorem KeptByMemory.forwardDone (k : KeptByMemory Q) {s : State} (h : Q s) : Q (forwardDone s) := by
  unfold Sys2Proof.Machine.forwardDone
  split
  · refine k.complete (fun s h => k.drain ?_) h
    unfold forwardResult
    split
    · split
      · exact k.answer _ _ _ h
      · exact k.answer _ _ _ (k.mem _ _ _ h)
    all_goals exact h
  all_goals exact h

theorem KeptByMemory.journalDone (k : KeptByMemory Q) {s : State} (h : Q s) : Q (journalDone s) := by
  unfold Sys2Proof.Machine.journalDone
  split
  · rename_i a d _ _
    refine k.complete (fun s h => ?_) h
    have h1 := k.mem s a d h
    dsimp only
    split
    · exact h1
    · exact k.journalEmptied (k.onBlocks (.journalWord _) h1)
  all_goals exact h

/-! ## Every command -/

/-- A property kept by the moves and by memory writes is kept by every command. -/
theorem KeptByMemory.exec (k : KeptByMemory Q) (i : Instr) {s t : State} (h : Q s)
    (e : exec i s = .next t) : Q t := by
  have hf : Q s.fresh := k.answers _ _ h
  have hc (f : State → State) (hf' : Q s.fresh → Q (f s.fresh)) (e : commandEvent f s = .next t) : Q t := by
    unfold commandEvent at e
    dsimp only at e
    injection e with e
    subst e
    split
    · exact hf' hf
    · exact hf
  cases i <;> simp only [Sys2Proof.Machine.exec] at e
  case transaction m a x =>
    injection e with e; subst e; exact k.drain (k.bus _ _ hf)
  case forwardedCycleDone => injection e with e; subst e; exact k.forwardDone hf
  case regionReadDone => injection e with e; subst e; exact k.regionDone hf
  case pageReadDone => injection e with e; subst e; exact k.pageDone hf
  case journalWordDone => injection e with e; subst e; exact k.journalDone hf
  case sourceWordDone => injection e with e; subst e; exact k.sourceDone hf
  case programmingDone => injection e with e; subst e; exact k.onBlocks (.programmed _) hf
  case erasingDone => injection e with e; subst e; exact k.onBlocks (.erased _) hf
  case sweepStep => injection e with e; subst e; exact k.sweepStep hf
  case axle => injection e with e; subst e; exact k.act (.captureRecord _ _ _ _) hf
  case passage => injection e with e; subst e; exact k.act (.captureRecord _ _ _ _) hf
  case heartbeat => injection e with e; subst e; exact k.act (.captureRecord _ _ _ _) hf
  case laneFault => injection e with e; subst e; exact k.act (.captureRecord _ _ _ _) hf
  case closeTime => injection e with e; subst e; exact k.act (.closeTime _ _) hf
  case holdExpiry => injection e with e; subst e; exact k.act (.holdExpiry _ _) hf
  case decisionDeadline => injection e with e; subst e; exact k.act (.d _ _) hf
  case e1Reached => injection e with e; subst e; exact k.act (.e1 _ _) hf
  case v1Reached => injection e with e; subst e; exact k.act (.v1 _ _) hf
  case tReached => injection e with e; subst e; exact k.act (.t _ _) hf
  case phantomEndTime => injection e with e; subst e; exact k.act (.phantomEnd _ _) hf
  case directivePop =>
    injection e with e; subst e; split
    · exact k.answers _ _ (k.onBlocks (.directivePop _ _) hf)
    · exact hf
  case beaconHoldExpiry => injection e with e; subst e; exact k.onBlocks (.holdEnd _ _) hf
  case faultPop =>
    injection e with e; subst e; split
    · exact k.answers _ _ (k.onBlocks (.faultPop _) hf)
    · exact hf
  case start => exact hc _ (k.doStart _ _) e
  case stop => exact hc _ (k.doStop _ _) e
  case enterBypass m tag =>
    exact hc (fun s => drain (doEnterBypass m tag s)) (fun h => k.drain (k.doEnterBypass m tag h)) e
  case applyProfile => exact hc _ (k.doApplyProfile _ _) e
  case profileProgram => exact hc _ (k.doProfileProgram _ _ _ _ _ _) e
  case profileErase => exact hc _ (k.doProfileErase _ _ _) e
  case invalidateArea => exact hc _ (k.doInvalidateArea _ _ _) e
  case pushRestriction => exact hc _ (k.doPushRestriction _ _ _) e
  case popRestriction => exact hc _ (k.doPopRestriction _ _ _) e
  case clearVehicle => exact hc _ (k.doClearVehicle _ _ _) e
  case clearPhantoms => exact hc _ (k.doClearPhantoms _ _ _) e
  case laneDisable => exact hc _ (k.doLaneDisable _ _ _) e
  case laneEnable => exact hc _ (k.doLaneEnable _ _ _) e
  case laneRecover => exact hc _ (k.doLaneRecover _ _ _) e
  case clearEvents => exact hc _ (k.doClearEvents _ _ _) e
  case setEventEnables => exact hc _ (k.doSetEventEnables _ _ _) e
  case clearFaults => exact hc _ (k.doClearFaults _ _) e
  case silenceExpiry => injection e with e; subst e; exact k.act (.silence _ _) hf
  case pulseEnd => injection e with e; subst e; exact k.act (.pulse _ _) hf
  case settleExpiry => injection e with e; subst e; exact k.onBlocks (.settle _) hf
  case roadClockTick => injection e with e; subst e; exact k.onBlocks (.clock _) hf
  case powerOn => injection e with e; subst e; exact k.resetEvent _ hf
  case resetPin => injection e with e; subst e; exact k.resetEvent _ hf
  case supplyLow => injection e with e; subst e; exact k.resetEvent _ hf
  case resetCauseEnds => injection e with e; subst e; exact k.onBlocks (.causesEnd _ _ _) hf
  case endOfStartUp => injection e with e; subst e; exact k.endStartUp hf
  case supplyWarning => injection e with e; subst e; exact k.onBlocks (.supply _ _ _) hf
  case supplyWarningEnd => injection e with e; subst e; exact k.onBlocks (.supply _ _ _) hf

/-- A property of states kept by every command, by the queue's moving on and by a period of the
reference clock is kept by every step. -/
theorem KeptByMemory.step (k : KeptByMemory Q) (hp : ∀ s l, Q s → Q { s with pending := l })
    {s t : State} (h : Q s) (e : step s = .next t) : Q t := by
  unfold Sys2Proof.Machine.step at e
  split at e
  · exact k.exec _ (hp _ _ h) e
  · injection e with e
    subst e
    exact k.onBlocks (.period _) (k.answers _ _ h)

end Sys2Proof.Machine
end

