-- ==== Sys2Proof/Laws/Numbers.lean ====
section
/-! SUPPORT. The number that an entry assigns is held by no record (R82). -/

namespace Sys2Proof.Machine

/-- Going one number up goes one further from a number within 48 below. -/
theorem step_distance {n x : VehicleNumber} (h : (n - x).toNat ≤ 48) (hx : n ≠ x) :
    (n + 1 - x).toNat = (n - x).toNat + 1 := by
  have hn := n.isLt
  have hl := x.isLt
  rw [BitVec.toNat_sub] at h ⊢
  rw [BitVec.toNat_sub, BitVec.toNat_add]
  have h1 : (1 : BitVec 16).toNat = 1 := rfl
  rw [h1]
  have : n.toNat ≠ x.toNat := fun e => hx (BitVec.eq_of_toNat_eq e)
  omega

/-- The search passes every held number: `got` are the numbers passed so far. -/
theorem freeNumber_not_held (held : List VehicleNumber) (hc : held.length ≤ 48) :
    ∀ (k : Nat) (n : VehicleNumber) (got : List VehicleNumber), got.Nodup → got ⊆ held →
      (∀ x ∈ got, (n - x).toNat ≤ got.length ∧ n ≠ x) → got.length + k = held.length →
      freeNumber held k n ∉ held
  | 0, n, got, h1, h2, h3, h4 => fun hn => by
    have hs : (n :: got).Nodup := List.nodup_cons.mpr ⟨fun h => (h3 n h).2 rfl, h1⟩
    have hl := (List.subperm_of_subset hs (List.cons_subset.mpr ⟨hn, h2⟩)).length_le
    simp only [List.length_cons] at hl
    omega
  | k + 1, n, got, h1, h2, h3, h4 => by
    unfold freeNumber
    split
    · rename_i hn
      have hn : n ∈ held := by simpa using hn
      refine freeNumber_not_held held hc k (n + 1) (n :: got)
        (List.nodup_cons.mpr ⟨fun h => (h3 n h).2 rfl, h1⟩) (List.cons_subset.mpr ⟨hn, h2⟩)
        (fun x hx => ?_) (by simp only [List.length_cons]; omega)
      rcases List.mem_cons.mp hx with rfl | hx
      · refine ⟨?_, by simp⟩
        rw [BitVec.add_comm, BitVec.add_sub_cancel]
        simp
      · have h5 := h3 x hx
        have h6 := step_distance (le_trans h5.1 (by omega)) h5.2
        refine ⟨by simp only [List.length_cons]; omega, fun e => ?_⟩
        rw [e, BitVec.sub_self] at h6
        simp at h6
    · rename_i hn
      simpa using hn

/-- The number that R82 assigns is held by no record of a table within its capacity. -/
theorem numberToAssign_free (b : Blocks) (h : b.vt.table.length ≤ 48) :
    b.numberToAssign ∉ b.vt.table.map (·.number) :=
  freeNumber_not_held _ (by simpa using h) _ _ [] (by simp) (by simp) (by simp) (by simp)

end Sys2Proof.Machine
end

