-- ==== Sys2Proof/WellFormed.lean ====
section
/-! DEFINITION. Which commands are well formed. The types of the operands already hold each to its
range; what is left is that a capture record's slot is the byte offset of a 16-byte slot (3.2). -/

namespace Sys2Proof

/-- A slot is an offset "with the low four bits cleared" (3.2). -/
def slotAligned (slot : BitVec 12) : Bool := slot.extractLsb' 0 4 = 0

/-- The check, command by command. -/
def Instr.wellFormed : Instr → Bool
  | .axle _ slot _ => slotAligned slot
  | .passage _ slot _ => slotAligned slot
  | .heartbeat _ slot _ => slotAligned slot
  | .laneFault _ slot _ => slotAligned slot
  | .transaction _ _ _ | .forwardedCycleDone | .regionReadDone | .pageReadDone
  | .journalWordDone | .sourceWordDone | .programmingDone | .erasingDone | .sweepStep
  | .closeTime _ | .holdExpiry _ | .decisionDeadline _ | .e1Reached _ | .v1Reached _
  | .tReached _ | .phantomEndTime _ | .directivePop _ _ | .beaconHoldExpiry _ | .faultPop _
  | .start _ _ | .stop _ _ | .enterBypass _ _ | .applyProfile _ _
  | .profileProgram _ _ _ _ _ _ | .profileErase _ _ _ | .invalidateArea _ _ _
  | .pushRestriction _ _ _ | .popRestriction _ _ _ | .clearVehicle _ _ _
  | .clearPhantoms _ _ _ | .laneDisable _ _ _ | .laneEnable _ _ _ | .laneRecover _ _ _
  | .clearEvents _ _ _ | .setEventEnables _ _ _ | .clearFaults _ _ | .silenceExpiry _
  | .pulseEnd _ | .settleExpiry | .roadClockTick | .powerOn | .resetPin | .supplyLow
  | .resetCauseEnds _ _ | .endOfStartUp | .supplyWarning | .supplyWarningEnd => true

end Sys2Proof
end

