-- ==== Sys2Proof/Laws/PerInstr.lean ====
section
/-! SUPPORT. The family WellFormed: a command is well formed exactly when the slot it names, if it
names one, is the byte offset of a 16-byte slot. One lemma for each command. -/

namespace Sys2Proof.Laws

/-- The slot that a capture record's row names. -/
def namedSlot : Instr → Option (BitVec 12)
  | .axle _ slot _ => some slot
  | .passage _ slot _ => some slot
  | .heartbeat _ slot _ => some slot
  | .laneFault _ slot _ => some slot
  | _ => none

/-- The command is well formed exactly when the slot it names is aligned. -/
def WellFormed.Statement (i : Instr) : Prop :=
  i.wellFormed = (namedSlot i).all slotAligned

theorem WellFormed.transaction (master : Master) (address : Addr) (access : Access) :
    WellFormed.Statement (.transaction master address access) := rfl

theorem WellFormed.forwardedCycleDone :
    WellFormed.Statement (.forwardedCycleDone) := rfl

theorem WellFormed.regionReadDone :
    WellFormed.Statement (.regionReadDone) := rfl

theorem WellFormed.pageReadDone :
    WellFormed.Statement (.pageReadDone) := rfl

theorem WellFormed.journalWordDone :
    WellFormed.Statement (.journalWordDone) := rfl

theorem WellFormed.sourceWordDone :
    WellFormed.Statement (.sourceWordDone) := rfl

theorem WellFormed.programmingDone :
    WellFormed.Statement (.programmingDone) := rfl

theorem WellFormed.erasingDone :
    WellFormed.Statement (.erasingDone) := rfl

theorem WellFormed.sweepStep :
    WellFormed.Statement (.sweepStep) := rfl

theorem WellFormed.axle (lane : Lane) (slot : BitVec 12) (record : AxleRecord) :
    WellFormed.Statement (.axle lane slot record) := rfl

theorem WellFormed.passage (lane : Lane) (slot : BitVec 12) (record : PassageRecord) :
    WellFormed.Statement (.passage lane slot record) := rfl

theorem WellFormed.heartbeat (lane : Lane) (slot : BitVec 12) (record : HeartbeatRecord) :
    WellFormed.Statement (.heartbeat lane slot record) := rfl

theorem WellFormed.laneFault (lane : Lane) (slot : BitVec 12) (record : LaneFaultRecord) :
    WellFormed.Statement (.laneFault lane slot record) := rfl

theorem WellFormed.closeTime (lane : Lane) :
    WellFormed.Statement (.closeTime lane) := rfl

theorem WellFormed.holdExpiry (lane : Lane) :
    WellFormed.Statement (.holdExpiry lane) := rfl

theorem WellFormed.decisionDeadline (vehicle : VehicleNumber) :
    WellFormed.Statement (.decisionDeadline vehicle) := rfl

theorem WellFormed.e1Reached (vehicle : VehicleNumber) :
    WellFormed.Statement (.e1Reached vehicle) := rfl

theorem WellFormed.v1Reached (vehicle : VehicleNumber) :
    WellFormed.Statement (.v1Reached vehicle) := rfl

theorem WellFormed.tReached (vehicle : VehicleNumber) :
    WellFormed.Statement (.tReached vehicle) := rfl

theorem WellFormed.phantomEndTime (phantom : Phantom) :
    WellFormed.Statement (.phantomEndTime phantom) := rfl

theorem WellFormed.directivePop (master : Master) (approach : Approach) :
    WellFormed.Statement (.directivePop master approach) := rfl

theorem WellFormed.beaconHoldExpiry (approach : Approach) :
    WellFormed.Statement (.beaconHoldExpiry approach) := rfl

theorem WellFormed.faultPop (master : Master) :
    WellFormed.Statement (.faultPop master) := rfl

theorem WellFormed.start (master : Master) (tag : BitVec 8) :
    WellFormed.Statement (.start master tag) := rfl

theorem WellFormed.stop (master : Master) (tag : BitVec 8) :
    WellFormed.Statement (.stop master tag) := rfl

theorem WellFormed.enterBypass (master : Master) (tag : BitVec 8) :
    WellFormed.Statement (.enterBypass master tag) := rfl

theorem WellFormed.applyProfile (master : Master) (tag : BitVec 8) :
    WellFormed.Statement (.applyProfile master tag) := rfl

theorem WellFormed.profileProgram (master : Master) (tag page startWord count : BitVec 8) (source : Addr) :
    WellFormed.Statement (.profileProgram master tag page startWord count source) := rfl

theorem WellFormed.profileErase (master : Master) (tag page : BitVec 8) :
    WellFormed.Statement (.profileErase master tag page) := rfl

theorem WellFormed.invalidateArea (master : Master) (tag area : BitVec 8) :
    WellFormed.Statement (.invalidateArea master tag area) := rfl

theorem WellFormed.pushRestriction (master : Master) (tag : BitVec 8) (operands : PushOperands) :
    WellFormed.Statement (.pushRestriction master tag operands) := rfl

theorem WellFormed.popRestriction (master : Master) (tag : BitVec 8) (expected : BitVec 9) :
    WellFormed.Statement (.popRestriction master tag expected) := rfl

theorem WellFormed.clearVehicle (master : Master) (tag : BitVec 8) (vehicle : VehicleNumber) :
    WellFormed.Statement (.clearVehicle master tag vehicle) := rfl

theorem WellFormed.clearPhantoms (master : Master) (tag approach : BitVec 8) :
    WellFormed.Statement (.clearPhantoms master tag approach) := rfl

theorem WellFormed.laneDisable (master : Master) (tag lane : BitVec 8) :
    WellFormed.Statement (.laneDisable master tag lane) := rfl

theorem WellFormed.laneEnable (master : Master) (tag lane : BitVec 8) :
    WellFormed.Statement (.laneEnable master tag lane) := rfl

theorem WellFormed.laneRecover (master : Master) (tag lane : BitVec 8) :
    WellFormed.Statement (.laneRecover master tag lane) := rfl

theorem WellFormed.clearEvents (master : Master) (tag : BitVec 8) (flags : BitVec 13) :
    WellFormed.Statement (.clearEvents master tag flags) := rfl

theorem WellFormed.setEventEnables (master : Master) (tag : BitVec 8) (flags : BitVec 13) :
    WellFormed.Statement (.setEventEnables master tag flags) := rfl

theorem WellFormed.clearFaults (master : Master) (tag : BitVec 8) :
    WellFormed.Statement (.clearFaults master tag) := rfl

theorem WellFormed.silenceExpiry (lane : Lane) :
    WellFormed.Statement (.silenceExpiry lane) := rfl

theorem WellFormed.pulseEnd (lane : Lane) :
    WellFormed.Statement (.pulseEnd lane) := rfl

theorem WellFormed.settleExpiry :
    WellFormed.Statement (.settleExpiry) := rfl

theorem WellFormed.roadClockTick :
    WellFormed.Statement (.roadClockTick) := rfl

theorem WellFormed.powerOn :
    WellFormed.Statement (.powerOn) := rfl

theorem WellFormed.resetPin :
    WellFormed.Statement (.resetPin) := rfl

theorem WellFormed.supplyLow :
    WellFormed.Statement (.supplyLow) := rfl

theorem WellFormed.resetCauseEnds (supplyBelowWarning bypassStrap : Bool) :
    WellFormed.Statement (.resetCauseEnds supplyBelowWarning bypassStrap) := rfl

theorem WellFormed.endOfStartUp :
    WellFormed.Statement (.endOfStartUp) := rfl

theorem WellFormed.supplyWarning :
    WellFormed.Statement (.supplyWarning) := rfl

theorem WellFormed.supplyWarningEnd :
    WellFormed.Statement (.supplyWarningEnd) := rfl

end Sys2Proof.Laws
end

