-- ==== Sys2Proof/Laws/Ports.lean ====
section
/-! SUPPORT. The System Port at the end of an event, said once: where nothing is left to hand over or
to take, the event ends as it stands; and a TRANSACTION into a FREE slot is `takeTransaction`. -/

namespace Sys2Proof.Machine

/-! ## Slots -/

theorem vector_set_same {α : Type} {n : Nat} (v : Vector α n) (i : Fin n) (x : α) (h : v[i] = x) :
    v.set i x = v := by
  subst h; simp

theorem slot_set (s : State) (m k : Master) (y : Slot) :
    State.slot { s with slots := s.slots.set m y } k = if m = k then y else s.slot k := by
  unfold State.slot
  by_cases h : m = k
  · subst h; simp
  · simp [h, Fin.val_ne_of_ne h]

theorem setSlot_free {s : State} {m : Master} (h : s.slot m = .free) : s.setSlot m .free = s := by
  unfold State.setSlot
  rw [vector_set_same _ _ _ h]

/-- A slot that holds a transaction and is not about to be handed over leaves a settled state
settled. -/
theorem Settled.set {s : State} (h : s.Settled) (m : Master) {y : Slot} (hy : y.isAt .toHand = false)
    (hn : y ≠ .free) : State.Settled { s with slots := s.slots.set m y } := by
  intro k
  rw [slot_set]
  by_cases hk : m = k
  · simp [hk, hy, hn]
  · rw [if_neg hk]; exact h k

/-- A slot that becomes FREE with no bus request leaves a settled state settled. -/
theorem Settled.free {s : State} (h : s.Settled) (m : Master) (hb : s.bus[m] = []) :
    State.Settled { s with slots := s.slots.set m .free } := by
  intro k
  rw [slot_set]
  by_cases hk : m = k
  · subst hk; exact ⟨by simp [Slot.isAt], fun _ => hb⟩
  · rw [if_neg hk]; exact h k

/-! ## The end of an event -/

theorem toHand_none {s : State} (h : ∀ m : Master, (s.slot m).isAt .toHand = false) :
    s.toHand = none := by
  simp [State.toHand, h]

theorem toTake_none {s : State} (h : ∀ m : Master, s.slot m = .free → s.bus[m] = []) :
    s.toTake = none := by
  simp only [State.toTake, List.find?_eq_none, State.canTake]
  intro m _
  by_cases hs : s.slot m = .free <;> simp [hs, h]

theorem drainLevel_settled {s : State} (h : s.Settled) (n : Nat) : drainLevel n s = s := by
  cases n with
  | zero => rfl
  | succ n => simp [drainLevel, toHand_none (fun m => (h m).1), toTake_none (fun m => (h m).2)]

/-- Where nothing is left to do, draining does nothing. -/
theorem drain_settled {s : State} (h : s.Settled) : drain s = s := drainLevel_settled h _

theorem find_master (m : Master) : allMasters.find? (fun k => decide (k = m)) = some m := by
  revert m; decide

theorem toTake_one {s : State} (h : s.Settled) (m : Master) (hf : s.slot m = .free)
    (x : Transaction) : State.toTake { s with bus := s.bus.set m [x] } = some m := by
  have key : State.canTake { s with bus := s.bus.set m [x] } = fun k => decide (k = m) := by
    funext k
    simp only [State.canTake]
    have hs : State.slot { s with bus := s.bus.set m [x] } k = s.slot k := rfl
    rw [hs]
    by_cases e : k = m
    · subst e; simp [hf]
    · have hb : (s.bus.set m [x])[k] = s.bus[k] := by simp [Fin.val_ne_of_ne (Ne.symm e)]
      by_cases hk : s.slot k = .free
      · have := (h k).2 hk
        simp only [hb, this]
        simp [e]
      · simp [hk, e]
  unfold State.toTake
  rw [key]
  exact find_master m

/-- A TRANSACTION into a FREE slot: the SP takes it, and the event ends where that leaves the SP with
nothing to do. -/
theorem exec_transaction {s : State} (h : s.Settled) (m : Master) (hf : s.slot m = .free) (a : Addr)
    (x : Access) (t : State) (ht : takeTransaction m ⟨a, x⟩ s.fresh = t) (hs : t.Settled) :
    exec (.transaction m a x) s = .next t := by
  have e : s.fresh.bus[m] = [] := (h m).2 hf
  simp only [exec, execTransaction, drain]
  rw [e, List.nil_append]
  have h1 := toTake_one (s := s.fresh) h m hf ⟨a, x⟩
  have h0 : State.toHand { s.fresh with bus := s.fresh.bus.set m [⟨a, x⟩] } = none :=
    toHand_none fun k => (h k).1
  obtain ⟨k, hk⟩ : ∃ k, State.turns { s.fresh with bus := s.fresh.bus.set m [⟨a, x⟩] } = k + 1 :=
    ⟨16 * (9 + State.busCount { s.fresh with bus := s.fresh.bus.set m [⟨a, x⟩] }) - 1, by
      unfold State.turns; omega⟩
  rw [hk, drainLevel, h0]
  simp only [h1]
  have hb : takeFromBus m { s.fresh with bus := s.fresh.bus.set m [⟨a, x⟩] } = t := by
    unfold takeFromBus
    simp only [Fin.getElem_fin, Vector.getElem_set_self]
    rw [← ht]
    congr 1
    have : (s.fresh.bus.set m [⟨a, x⟩]).set m [] = s.fresh.bus := by
      rw [Vector.set_set]
      exact vector_set_same _ _ _ e
    simp only [this]
  rw [hb, drainLevel_settled hs]

/-! ## Addresses -/

theorem misaligned_iff (a : Addr) : misaligned a = true ↔ a.toNat % 4 ≠ 0 := by
  unfold misaligned
  rw [decide_eq_true_iff, ne_eq, ← BitVec.toNat_inj, BitVec.extractLsb'_toNat]
  simp

theorem aligned {a : Addr} (h : a.toNat % 4 = 0) : misaligned a = false := by
  have := misaligned_iff a
  cases hm : misaligned a <;> simp_all

end Sys2Proof.Machine
end

