-- ==== Sys2Proof/Laws/Queue.lean ====
section
/-! SUPPORT. What the operations of the ports do to the Walk Engine's waiting queue, said once for
each: they keep every queued master queued once, and the walking master walking. -/

namespace Sys2Proof.Machine

/-! ## The slots, the queue and the walking master -/

/-- `QueueSound` in the middle of an event, when one master's transaction may have left its walk. -/
structure QueueBut (x : Option Master) (s : State) : Prop where
  once : s.ptu.queue.Nodup
  waits : ∀ m ∈ s.ptu.queue, (s.slot m).isAt .queued = true
  walks : ∀ w, s.ptu.engine.walk = some w →
    (s.slot w.master).isAt .walking = true ∨ x = some w.master

theorem queueSound_iff (s : State) : s.QueueSound ↔ QueueBut none s := by
  constructor
  · intro h
    exact ⟨h.once, h.waits, fun w hw => .inl (h.walks w hw)⟩
  · intro h
    refine ⟨?_, h.once, h.waits, fun w hw => ?_⟩
    · have := h.once.length_le_card
      simpa using this
    · rcases h.walks w hw with h | h
      · exact h
      · cases h

/-- The slots, the queue and the walking master are the same. -/
structure SamePlaces (s t : State) : Prop where
  slots : t.slots = s.slots
  queue : t.ptu.queue = s.ptu.queue
  walk : t.ptu.engine.walk.map (·.master) = s.ptu.engine.walk.map (·.master)

theorem SamePlaces.refl (s : State) : SamePlaces s s := ⟨rfl, rfl, rfl⟩

theorem SamePlaces.trans {s t u : State} (h : SamePlaces s t) (k : SamePlaces t u) : SamePlaces s u :=
  ⟨k.slots.trans h.slots, k.queue.trans h.queue, k.walk.trans h.walk⟩

theorem SamePlaces.slot {s t : State} (h : SamePlaces s t) (m : Master) : t.slot m = s.slot m := by
  unfold State.slot; rw [h.slots]

theorem SamePlaces.keep {s t : State} (h : SamePlaces s t) {x : Option Master} (k : QueueBut x s) :
    QueueBut x t where
  once := h.queue ▸ k.once
  waits m hm := by rw [h.slot]; exact k.waits m (h.queue ▸ hm)
  walks w hw := by
    have e := h.walk
    rw [hw] at e
    cases hs : s.ptu.engine.walk with
    | none => rw [hs] at e; cases e
    | some v =>
      rw [hs] at e
      have e : w.master = v.master := Option.some.inj e
      rw [h.slot, e]
      exact k.walks v hs

theorem samePlaces_onBlocks (s : State) (f : Blocks → Blocks) : SamePlaces s (s.onBlocks f) :=
  ⟨rfl, rfl, rfl⟩
theorem samePlaces_onMp (s : State) (f : MemoryPort → MemoryPort) : SamePlaces s (s.onMp f) :=
  ⟨rfl, rfl, rfl⟩
theorem samePlaces_onSet (s : State) (m : Master) (k : Fin 16) (f : BufferSet → BufferSet) :
    SamePlaces s (s.onPtu fun p => p.onSet m k f) := ⟨rfl, rfl, rfl⟩
theorem samePlaces_poke (s : State) : SamePlaces s (poke s) := by rw [poke_onMp]; exact ⟨rfl, rfl, rfl⟩
theorem samePlaces_grant (s : State) : SamePlaces s (grant s) := by
  rw [grant_onMp]; exact ⟨rfl, rfl, rfl⟩
theorem samePlaces_act (s : State) (f : Blocks → Blocks) : SamePlaces s (s.act f) :=
  (show SamePlaces s (s.onBlocks f) from ⟨rfl, rfl, rfl⟩).trans (samePlaces_poke (s.onBlocks f))

theorem walk_onWalk (e : Engine) {f : Walk → Walk} (hf : ∀ w, (f w).master = w.master) :
    (e.onWalk f).walk.map (·.master) = e.walk.map (·.master) := by
  cases e <;> simp [Engine.onWalk, Engine.walk, hf]

/-! ## One slot changed -/

/-- A transaction that is neither in the queue nor the walking master's may change its place. -/
theorem QueueBut.setSlot {x : Option Master} {s : State} (h : QueueBut x s) {m : Master}
    (hq : m ∉ s.ptu.queue) (hw : ∀ w, s.ptu.engine.walk = some w → w.master = m → x = some m) (y : Slot) :
    QueueBut x (s.setSlot m y) where
  once := h.once
  waits k hk := by
    have hne : m ≠ k := fun e => hq (e ▸ hk)
    have := h.waits k hk
    rwa [State.setSlot, slot_set, if_neg hne]
  walks w hs := by
    by_cases e : m = w.master
    · exact .inr (e ▸ hw w hs e.symm)
    · have := h.walks w hs
      rwa [State.setSlot, slot_set, if_neg e]

/-- A transaction at a place other than the queue is not in it. -/
theorem QueueBut.not_queued {x : Option Master} {s : State} (h : QueueBut x s) {m : Master}
    (hm : (s.slot m).isAt .queued = false) : m ∉ s.ptu.queue := fun hk => by
  rw [h.waits m hk] at hm; cases hm

/-- A transaction that is not walking is not the walking master's, but for the one that has left. -/
theorem QueueBut.not_walking {x : Option Master} {s : State} (h : QueueBut x s) {m : Master}
    (hm : (s.slot m).isAt .walking = false) (w : Walk) (hs : s.ptu.engine.walk = some w)
    (e : w.master = m) : x = some m := by
  rcases h.walks w hs with h | h
  · rw [e, hm] at h; cases h
  · rw [h, e]

/-- A slot that holds no transaction with the PTU, or one that is neither queued nor walking. -/
def Slot.apart (y : Slot) : Prop := y.isAt .queued = false ∧ y.isAt .walking = false

theorem QueueBut.setApart {x : Option Master} {s : State} (h : QueueBut x s) {m : Master}
    (hm : (s.slot m).apart) (y : Slot) : QueueBut x (s.setSlot m y) :=
  h.setSlot (h.not_queued hm.1) (fun w hs e => h.not_walking hm.2 w hs e) y

theorem isAt_apart {y : Slot} {p : PtuPlace} (h : y.isAt p = true) (h1 : p ≠ .queued)
    (h2 : p ≠ .walking) : y.apart := by
  unfold Slot.isAt at h
  split at h
  · rw [decide_eq_true_eq] at h
    subst h
    exact ⟨by simp [Slot.isAt, h1], by simp [Slot.isAt, h2]⟩
  all_goals cases h

/-! ## The Walk Engine -/

theorem moveTo_translating {s : State} {m : Master} {t : Transaction} {p : PtuPlace}
    (h : s.slot m = .translating t p) (q : PtuPlace) :
    s.moveTo m q = s.setSlot m (.translating t q) := by
  unfold State.moveTo; rw [h]

theorem isAt_translating {y : Slot} {p : PtuPlace} (h : y.isAt p = true) : ∃ t, y = .translating t p := by
  unfold Slot.isAt at h
  split at h
  · rename_i t q
    rw [decide_eq_true_eq] at h
    exact ⟨t, by rw [h]⟩
  all_goals cases h

/-- The next walk begins: the head of the queue walks, and nothing else is moved. -/
theorem QueueBut.walkNext {x : Option Master} {s : State} (h : QueueBut x s) :
    QueueBut x (walkNext s) ∧ (walkNext s).ptu.queue ⊆ s.ptu.queue
      ∧ ∀ k, k ∉ s.ptu.queue → (Machine.walkNext s).slot k = s.slot k := by
  unfold Machine.walkNext
  split
  · rename_i m rest he hq
    obtain ⟨t, ht⟩ := isAt_translating (h.waits m (by simp [hq]))
    have hn : m ∉ rest := (List.nodup_cons.mp (hq ▸ h.once)).1
    dsimp only
    rw [moveTo_translating ht]
    have hs (k : Master) (y : Slot) (f : Ptu → Ptu) :
        State.slot ((s.setSlot m y).onPtu f) k = if m = k then y else s.slot k := slot_set s m k y
    refine ⟨(samePlaces_poke _).keep ⟨(List.nodup_cons.mp (hq ▸ h.once)).2, fun k hk => ?_,
      fun w hw => .inl ?_⟩, ?_, fun k hk => ?_⟩
    · have hne : m ≠ k := fun e => hn (e ▸ hk)
      rw [hs, if_neg hne]
      exact h.waits k (by rw [hq]; exact List.mem_cons_of_mem _ hk)
    · obtain rfl := Option.some.inj hw
      rw [hs, if_pos rfl]
      simp [Slot.isAt]
    · rw [(samePlaces_poke _).queue]
      intro k hk
      rw [hq]
      exact List.mem_cons_of_mem _ hk
    · rw [(samePlaces_poke _).slot, hs, if_neg]
      rintro rfl
      exact hk (by simp [hq])
  all_goals exact ⟨h, fun _ hk => hk, fun _ _ => rfl⟩

/-- A master joins the queue's tail, and a walk may begin. -/
theorem QueueBut.joinQueue {x : Option Master} {s : State} (h : QueueBut x s) {m : Master}
    {t : Transaction} {p : PtuPlace} (ht : s.slot m = .translating t p) (hq : m ∉ s.ptu.queue)
    (hp : p ≠ .walking) :
    QueueBut x (joinQueue m s) ∧ (joinQueue m s).ptu.queue ⊆ s.ptu.queue ++ [m]
      ∧ ∀ k, k ≠ m → k ∉ s.ptu.queue → (Machine.joinQueue m s).slot k = s.slot k := by
  unfold Machine.joinQueue
  rw [moveTo_translating ht]
  have h1 := h.setSlot (m := m) hq (h.not_walking (by simp [ht, Slot.isAt, hp]))
    (.translating t .queued)
  have hs (k : Master) : (s.setSlot m (.translating t .queued)).slot k
      = if m = k then .translating t .queued else s.slot k := slot_set s m k _
  have h2 : QueueBut x ((s.setSlot m (.translating t .queued)).onPtu fun p =>
      { p with queue := p.queue ++ [m] }) :=
    { once := List.Nodup.append h.once (List.nodup_singleton m) (by simpa using hq)
      waits := fun k hk => by
        rcases List.mem_append.mp hk with hk | hk
        · exact h1.waits k hk
        · obtain rfl := List.mem_singleton.mp hk
          change ((s.setSlot k (.translating t .queued)).slot k).isAt .queued = true
          rw [hs, if_pos rfl]
          simp [Slot.isAt]
      walks := h1.walks }
  obtain ⟨h3, h4, h5⟩ := h2.walkNext
  refine ⟨h3, h4, fun k hne hk => ?_⟩
  rw [h5 k (by
    intro hm
    rcases List.mem_append.mp hm with hm | hm
    · exact hk hm
    · exact hne (List.mem_singleton.mp hm))]
  change (s.setSlot m (.translating t .queued)).slot k = _
  rw [hs, if_neg (Ne.symm hne)]

theorem QueueBut.toMemory {x : Option Master} {s : State} (h : QueueBut x s) {m : Master}
    (hq : m ∉ s.ptu.queue) (hw : (s.slot m).isAt .walking = false) (t : Transaction) (a : Addr)
    (k : WindowKind) : QueueBut x (toMemory m t a k s) :=
  (samePlaces_poke _).keep (h.setSlot hq (h.not_walking hw) _)

/-! ## APPLY_PROFILE and ENTER_BYPASS (R35, R36) -/

/-- A master's transaction in the SP's hands while the PTU's queue is sound. -/
structure InHand (m : Master) (x : Option Master) (s : State) : Prop where
  sound : QueueBut x s
  hand : (s.slot m).isAt .looking = true

theorem SamePlaces.keepHand {s t : State} (h : SamePlaces s t) {m : Master} {x : Option Master}
    (k : InHand m x s) : InHand m x t := ⟨h.keep k.sound, by rw [h.slot]; exact k.hand⟩

theorem InHand.apart {m : Master} {x : Option Master} {s : State} (h : InHand m x s) :
    (s.slot m).apart := isAt_apart h.hand (by decide) (by decide)

theorem InHand.not_queued {m : Master} {x : Option Master} {s : State} (h : InHand m x s) :
    m ∉ s.ptu.queue := h.sound.not_queued h.apart.1

/-- The masters that are still to be handed over again: none queued, each at a place that an apply
takes them from. -/
def StillToHand (ms : List Master) (s : State) : Prop :=
  ∀ k ∈ ms, k ∉ s.ptu.queue
    ∧ ((s.slot k).isAt .queued = true ∨ (s.slot k).isAt .sweepWait = true)

theorem QueueBut.handAgain {x : Option Master} {s : State} (h : QueueBut x s) {k : Master}
    (hk : k ∉ s.ptu.queue)
    (hp : (s.slot k).isAt .queued = true ∨ (s.slot k).isAt .sweepWait = true) :
    QueueBut x (handAgain s k) ∧ (handAgain s k).ptu.queue ⊆ s.ptu.queue ++ [k]
      ∧ ∀ j, j ≠ k → j ∉ s.ptu.queue → (Machine.handAgain s k).slot j = s.slot j := by
  obtain ⟨t, p, ht, hp⟩ : ∃ t p, s.slot k = .translating t p ∧ p ≠ .walking := by
    rcases hp with h | h <;> obtain ⟨t, h⟩ := isAt_translating h <;> exact ⟨t, _, h, by decide⟩
  unfold Machine.handAgain
  rw [ht]
  dsimp only
  split
  · refine ⟨h.toMemory hk (by simp [ht, Slot.isAt, hp]) _ _ _, fun j hj => ?_, fun j hne _ => ?_⟩
    · have e : (Machine.toMemory k t t.address .plain s).ptu.queue = s.ptu.queue :=
        (samePlaces_poke _).queue
      exact List.mem_append_left _ (e ▸ hj)
    · unfold Machine.toMemory
      rw [(samePlaces_poke _).slot, State.setSlot, slot_set, if_neg (Ne.symm hne)]
  · exact h.joinQueue ht hk hp

theorem QueueBut.handAgainAll {x : Option Master} :
    ∀ (ms : List Master) {s : State}, QueueBut x s → ms.Nodup → StillToHand ms s →
      QueueBut x (ms.foldl Machine.handAgain s)
        ∧ ∀ m, m ∉ ms → m ∉ s.ptu.queue → (ms.foldl Machine.handAgain s).slot m = s.slot m
  | [], _, h, _, _ => ⟨h, fun _ _ _ => rfl⟩
  | k :: ms, s, h, hn, hs => by
    obtain ⟨hkn, hn⟩ := List.nodup_cons.mp hn
    obtain ⟨hk, hp⟩ := hs k (by simp)
    obtain ⟨h1, h2, h3⟩ := h.handAgain hk hp
    have out {j : Master} (hj : j ∉ s.ptu.queue) (hne : j ≠ k) :
        j ∉ (Machine.handAgain s k).ptu.queue := by
      intro h
      rcases List.mem_append.mp (h2 h) with h | h
      · exact hj h
      · exact hne (List.mem_singleton.mp h)
    obtain ⟨h4, h5⟩ := QueueBut.handAgainAll ms h1 hn fun j hj => by
      have hne : j ≠ k := fun e => hkn (e ▸ hj)
      obtain ⟨h6, h7⟩ := hs j (List.mem_cons_of_mem _ hj)
      exact ⟨out h6 hne, by rw [h3 j hne h6]; exact h7⟩
    refine ⟨h4, fun m hm hq => ?_⟩
    have hmk : m ≠ k := fun e => hm (e ▸ by simp)
    exact (h5 m (fun h => hm (List.mem_cons_of_mem _ h)) (out hq hmk)).trans (h3 m hmk hq)

theorem samePlaces_supersede (s : State) : SamePlaces s (supersede s) := by
  unfold supersede
  split <;> exact ⟨rfl, rfl, rfl⟩

theorem mem_mastersAt {s : State} {p : PtuPlace} {m : Master} :
    m ∈ s.mastersAt p ↔ (s.slot m).isAt p = true := by
  unfold State.mastersAt
  rw [List.mem_filter]
  exact ⟨fun h => h.2, fun h => ⟨(show ∀ m : Master, m ∈ allMasters by decide) m, h⟩⟩

theorem mastersAt_nodup (s : State) (p : PtuPlace) : (s.mastersAt p).Nodup :=
  (show allMasters.Nodup by decide).filter _

theorem isAt_unique {y : Slot} {p q : PtuPlace} (h : y.isAt p = true) (k : y.isAt q = true) : p = q := by
  unfold Slot.isAt at h k
  split at h
  · simp only [decide_eq_true_eq] at h k
    exact h.symm.trans k
  all_goals cases h

/-- At APPLY_PROFILE the queued masters and those that wait for a sweep are handed over again; a
transaction in the SP's hands is not among them. -/
theorem QueueBut.applyPtu {x : Option Master} {s : State} (h : QueueBut x s) :
    QueueBut x (applyPtu s)
      ∧ ∀ m, (s.slot m).isAt .looking = true → (Machine.applyPtu s).slot m = s.slot m := by
  unfold Machine.applyPtu
  have hs : SamePlaces s (supersede (s.onPtu Ptu.clear)) :=
    (show SamePlaces s (s.onPtu Ptu.clear) from ⟨rfl, rfl, rfl⟩).trans (samePlaces_supersede _)
  generalize supersede (s.onPtu Ptu.clear) = v at hs
  have hu : QueueBut x (v.onPtu fun p => { p with
      queue := [], engine := p.engine.onWalk fun w => { w with profileApplied := true } }) :=
    { once := List.nodup_nil
      waits := fun _ hk => by cases hk
      walks := ((show SamePlaces v (v.onPtu fun p => { p with
          engine := p.engine.onWalk fun w => { w with profileApplied := true } }) from
            ⟨rfl, rfl, walk_onWalk _ fun _ => rfl⟩).keep (hs.keep h)).walks }
  have all := QueueBut.handAgainAll (s.ptu.queue ++ s.mastersAt .sweepWait) hu
    (List.Nodup.append h.once (mastersAt_nodup _ _) fun k hk hk' =>
      absurd (isAt_unique (h.waits k hk) (mem_mastersAt.mp hk')) (by decide))
    fun k hk => by
      refine ⟨List.not_mem_nil, ?_⟩
      have e : State.slot (v.onPtu fun p => { p with
        queue := [], engine := p.engine.onWalk fun w => { w with profileApplied := true } }) k
          = s.slot k := hs.slot k
      rw [e]
      rcases List.mem_append.mp hk with hk | hk
      · exact .inl (h.waits k hk)
      · exact .inr (mem_mastersAt.mp hk)
  refine ⟨all.1, fun m hm => (all.2 m (fun hk => ?_) List.not_mem_nil).trans (hs.slot m)⟩
  rcases List.mem_append.mp hk with hk | hk
  · exact absurd (isAt_unique hm (h.waits m hk)) (by decide)
  · exact absurd (isAt_unique hm (mem_mastersAt.mp hk)) (by decide)

/-- At ENTER_BYPASS the queue is empty and nothing walks. -/
theorem bypassPtu_empty (s : State) :
    (bypassPtu s).ptu.queue = [] ∧ (bypassPtu s).ptu.engine = .idle
      ∧ ∀ m, (s.slot m).isAt .looking = true → (bypassPtu s).slot m = s.slot m := by
  refine ⟨rfl, rfl, fun m hm => ?_⟩
  obtain ⟨t, ht⟩ := isAt_translating hm
  have hs : (supersede (s.onPtu Ptu.clear)).slot m = s.slot m :=
    ((show SamePlaces s (s.onPtu Ptu.clear) from ⟨rfl, rfl, rfl⟩).trans (samePlaces_supersede _)).slot m
  have e : (bypassPtu s).slot m = leavePtu ((supersede (s.onPtu Ptu.clear)).slot m) := by
    simp [bypassPtu, State.slot, State.onMp, State.onPtu]
  rw [e, hs, ht]
  rfl

theorem queueBut_empty {x : Option Master} {s : State} (hq : s.ptu.queue = [])
    (he : s.ptu.engine = .idle) : QueueBut x s where
  once := by rw [hq]; exact List.nodup_nil
  waits m hm := by rw [hq] at hm; cases hm
  walks w hw := by rw [he] at hw; cases hw

/-! ## Commands -/

/-- What a command does to the queue: nothing, or what the PTU does at an APPLY_PROFILE or at an
ENTER_BYPASS. -/
inductive CommandPlaces (s t : State) : Prop where
  | same (h : SamePlaces s t)
  | applied (u : State) (h : SamePlaces s u) (k : SamePlaces (applyPtu u) t)
  | bypassed (u : State) (h : SamePlaces s u) (k : SamePlaces (bypassPtu u) t)

theorem CommandPlaces.then {s t u : State} (h : CommandPlaces s t) (k : SamePlaces t u) :
    CommandPlaces s u := by
  cases h with
  | same h => exact .same (h.trans k)
  | applied v h h' => exact .applied v h (h'.trans k)
  | bypassed v h h' => exact .bypassed v h (h'.trans k)

theorem CommandPlaces.after {s t u : State} (k : SamePlaces s t) (h : CommandPlaces t u) :
    CommandPlaces s u := by
  cases h with
  | same h => exact .same (k.trans h)
  | applied v h h' => exact .applied v (k.trans h) h'
  | bypassed v h h' => exact .bypassed v (k.trans h) h'

/-- A command keeps the queue sound, and leaves a transaction in the SP's hands there. -/
theorem CommandPlaces.keep {s t : State} (h : CommandPlaces s t) {x : Option Master}
    (k : QueueBut x s) :
    QueueBut x t ∧ ∀ m, (s.slot m).isAt .looking = true → t.slot m = s.slot m := by
  cases h with
  | same h => exact ⟨h.keep k, fun m _ => h.slot m⟩
  | applied u h h' =>
    obtain ⟨h1, h2⟩ := (h.keep k).applyPtu
    exact ⟨h'.keep h1, fun m hm =>
      (h'.slot m).trans ((h2 m (by rw [h.slot]; exact hm)).trans (h.slot m))⟩
  | bypassed u h h' =>
    obtain ⟨h1, h2, h3⟩ := bypassPtu_empty u
    exact ⟨h'.keep (queueBut_empty h1 h2), fun m hm =>
      (h'.slot m).trans ((h3 m (by rw [h.slot]; exact hm)).trans (h.slot m))⟩

theorem CommandPlaces.takeCommand {s : State} {m : Master} {tag code : BitVec 8} {taken : Mode → Bool}
    {owner : State → Result × State} (ho : CommandPlaces s (owner s).2) :
    CommandPlaces s (takeCommand m tag code taken owner s) := by
  unfold Machine.takeCommand
  cases taken s.mode
  · exact .same (samePlaces_act s _)
  · exact ho.then (samePlaces_act _ _)

theorem CommandPlaces.owner (s : State) (f : Blocks → Result × Blocks) :
    CommandPlaces s (ownerOf f s).2 := .same ⟨rfl, rfl, rfl⟩

theorem samePlaces_journalEmptied (s : State) : SamePlaces s (journalEmptied s) := by
  unfold journalEmptied
  split <;> exact ⟨rfl, rfl, rfl⟩

theorem CommandPlaces.applyProfile (s : State) : CommandPlaces s (applyProfile s).2 := by
  unfold Machine.applyProfile
  split
  · exact .same (.refl s)
  · exact .applied _ ((samePlaces_onBlocks s applyBlocks).trans (samePlaces_onMp _ _)) (.refl _)

theorem CommandPlaces.enterBypass (s : State) : CommandPlaces s (enterBypassMode s).2 := by
  unfold enterBypassMode
  dsimp only
  exact .bypassed _ ((samePlaces_onBlocks s bypassBlocks).trans
    ((samePlaces_journalEmptied _).trans (samePlaces_onMp _ _))) (.refl _)

theorem CommandPlaces.invalidate (a : BitVec 8) (s : State) :
    CommandPlaces s (Machine.invalidate a s).2 := by
  unfold Machine.invalidate
  split
  · exact .same (.refl s)
  · split
    · exact .same (.refl s)
    · exact .same ⟨rfl, rfl, walk_onWalk _ fun w => by split <;> rfl⟩

theorem CommandPlaces.runCommand (m : Master) (w0 w1 w2 : Word) (s : State) :
    CommandPlaces s (runCommand m w0 w1 w2 s) := by
  unfold Machine.runCommand
  dsimp only
  split
  case h_3 => exact CommandPlaces.takeCommand (.enterBypass s)
  case h_4 => exact CommandPlaces.takeCommand (.applyProfile s)
  case h_7 => exact CommandPlaces.takeCommand (.invalidate _ s)
  case h_18 => exact .same (samePlaces_act s _)
  all_goals exact CommandPlaces.takeCommand (.owner s _)

theorem CommandPlaces.commandWord (m : Master) (o : BitVec 12) (w : Word) (s : State) :
    CommandPlaces s (takeCommandWord m o w s) := by
  have h : SamePlaces s (s.onBlocks (frameCommand m o w)) := ⟨rfl, rfl, rfl⟩
  unfold takeCommandWord
  dsimp only
  split
  · exact .same h
  · unfold completeCommand
    split
    · exact .after h (.runCommand m _ _ _ _)
    · exact .same (h.trans ⟨rfl, rfl, rfl⟩)

/-! ## The System Port -/

theorem QueueBut.answer {x : Option Master} {s : State} (h : QueueBut x s) {m : Master}
    (hm : (s.slot m).apart) (ok : Bool) (w : Word) : QueueBut x (answer m ok w s) :=
  (show SamePlaces (s.setSlot m .free) (Machine.answer m ok w s) from ⟨rfl, rfl, rfl⟩).keep
    (h.setApart hm .free)

theorem QueueBut.refuse {x : Option Master} {s : State} (h : QueueBut x s) {m : Master}
    (hm : (s.slot m).apart) (f : FaultKind) (a : Addr) : QueueBut x (refuse m f a s) :=
  QueueBut.answer ((show SamePlaces s (s.onBlocks (masterFault f m a)) from ⟨rfl, rfl, rfl⟩).keep h) hm _ _

theorem InHand.toMemory {m : Master} {x : Option Master} {s : State} (h : InHand m x s)
    (t : Transaction) (a : Addr) (k : WindowKind) : QueueBut x (toMemory m t a k s) :=
  h.sound.toMemory h.not_queued h.apart.2 t a k

theorem InHand.answer {m : Master} {x : Option Master} {s : State} (h : InHand m x s) (ok : Bool)
    (w : Word) (f : Blocks → Blocks) : QueueBut x (answer m ok w (s.onBlocks f)) :=
  QueueBut.answer ((show SamePlaces s (s.onBlocks f) from ⟨rfl, rfl, rfl⟩).keep h.sound) h.apart ok w

theorem InHand.writeCommand {m : Master} {x : Option Master} {s : State} (h : InHand m x s)
    (t : Transaction) (w : Word) (a : Addr) : QueueBut x (writeCommand m t w a s) := by
  obtain ⟨h1, h2⟩ := (CommandPlaces.commandWord m (addrOffset a) w s).keep h.sound
  exact InHand.toMemory ⟨h1, by rw [h2 m h.hand]; exact h.hand⟩ t a .command

theorem InHand.readStatus {m : Master} {x : Option Master} {s : State} (h : InHand m x s)
    (t : Transaction) (o : BitVec 12) : QueueBut x (readStatus m t o s) := by
  unfold Machine.readStatus
  split
  · exact h.answer _ _ _
  · exact h.sound.refuse h.apart _ _

theorem InHand.route {m : Master} {x : Option Master} {s : State} (h : InHand m x s) (t : Transaction)
    (k : WindowKind) (c : BitVec 3) (a : Addr) : QueueBut x (route m t k c a s) := by
  unfold Machine.route
  split
  case h_4 =>
    unfold writeCapture
    dsimp only
    split
    · exact InHand.toMemory ((samePlaces_act s _).keepHand h) _ _ _
    · exact h.toMemory _ _ _
  case h_7 => exact h.readStatus _ _
  case h_8 =>
    unfold readDirective
    split
    · exact h.answer _ _ _
    · exact h.answer _ _ id
    · exact h.answer _ _ id
    · exact h.sound.refuse h.apart _ _
  all_goals first
    | exact h.toMemory _ _ _
    | exact h.writeCommand _ _ _
    | exact h.sound.refuse h.apart _ _

theorem InHand.useEntry {m : Master} {x : Option Master} {s : State} (h : InHand m x s)
    (t : Transaction) (e : WalkedEntry) : QueueBut x (useEntry m t e s) := by
  unfold Machine.useEntry
  split
  · exact h.sound.refuse h.apart _ _
  · exact h.route _ _ _ _

theorem InHand.joinQueue {m : Master} {x : Option Master} {s : State} (h : InHand m x s) :
    QueueBut x (joinQueue m s) := by
  obtain ⟨t, ht⟩ := isAt_translating h.hand
  exact (h.sound.joinQueue ht h.not_queued (by decide)).1

theorem InHand.lookup {m : Master} {x : Option Master} {s : State} (h : InHand m x s)
    (t : Transaction) : QueueBut x (lookup m t s) := by
  have h1 : InHand m x (s.onPtu fun p => p.onSet m (addrSet t.address)
      (BufferSet.afterLookup (addrTag t.address))) :=
    (samePlaces_onSet s m _ _).keepHand h
  have h2 (f : Blocks → Blocks) : InHand m x ((s.onPtu fun p => p.onSet m (addrSet t.address)
      (BufferSet.afterLookup (addrTag t.address))).onBlocks f) :=
    (samePlaces_onBlocks _ f).keepHand h1
  unfold Machine.lookup
  dsimp only
  repeat' split
  · exact InHand.useEntry (h2 _) _ _
  · exact h1.useEntry _ _
  · exact InHand.joinQueue (h2 _)
  · exact h1.joinQueue

theorem InHand.handToPtu {m : Master} {x : Option Master} {s : State} (h : InHand m x s)
    (t : Transaction) : QueueBut x (handToPtu m t s) := by
  unfold Machine.handToPtu
  split
  · exact h.toMemory _ _ _
  · split
    · obtain ⟨u, hu⟩ := isAt_translating h.hand
      rw [moveTo_translating hu]
      exact h.sound.setApart h.apart _
    · exact h.lookup t

theorem InHand.classify {m : Master} {x : Option Master} {s : State} (h : InHand m x s)
    (t : Transaction) : QueueBut x (classify m t s) := by
  unfold Machine.classify
  split
  · rename_i hc
    have hm : m = 7 := by
      simp only [Bool.and_eq_true, decide_eq_true_eq] at hc
      exact hc.1
    subst hm
    unfold fallback
    dsimp only
    repeat' split
    · exact h.toMemory _ _ _
    · exact h.writeCommand _ _ _
    · exact h.readStatus _ _
    · exact h.sound.refuse h.apart _ _
  · exact h.toMemory _ _ _

/-- A transaction that is neither queued nor walking is handed on by the mode (R1). -/
theorem QueueBut.handOver {x : Option Master} {s : State} (h : QueueBut x s) {m : Master}
    (hm : (s.slot m).apart) (t : Transaction) : QueueBut x (handOver m t s) := by
  have h1 : InHand m x (s.setSlot m (.translating t .looking)) :=
    ⟨h.setApart hm _, by rw [State.setSlot, slot_set, if_pos rfl]; simp [Slot.isAt]⟩
  unfold Machine.handOver
  dsimp only
  split
  · exact h1.classify t
  · exact h1.handToPtu t
  · exact h1.handToPtu t
  · exact h1.sound.setApart h1.apart _

theorem QueueBut.takeFromBus {x : Option Master} {s : State} (h : QueueBut x s) {m : Master}
    (hm : s.slot m = .free) : QueueBut x (takeFromBus m s) := by
  unfold Machine.takeFromBus
  split
  · exact h
  · rename_i t rest _
    have h1 : QueueBut x { s with bus := s.bus.set m rest } :=
      (show SamePlaces s { s with bus := s.bus.set m rest } from ⟨rfl, rfl, rfl⟩).keep h
    have hm1 : (State.slot { s with bus := s.bus.set m rest } m).apart := by
      change (s.slot m).apart
      rw [hm]
      exact ⟨rfl, rfl⟩
    unfold takeTransaction
    split
    · exact h1.refuse hm1 _ _
    · exact h1.handOver hm1 _

theorem QueueBut.drainLevel {x : Option Master} :
    ∀ (n : Nat) {s : State}, QueueBut x s → QueueBut x (drainLevel n s)
  | 0, _, h => h
  | n + 1, s, h => by
    unfold Machine.drainLevel
    split
    · rename_i m hm
      have ha : (s.slot m).apart := isAt_apart (p := .toHand)
        (by have := List.find?_some hm; exact this) (by decide) (by decide)
      split
      · exact QueueBut.drainLevel n (h.handOver ha _)
      · exact h
    · split
      · rename_i m hm
        have hf : s.slot m = .free := by
          have := List.find?_some hm
          unfold State.canTake at this
          simp only [Bool.and_eq_true, decide_eq_true_eq] at this
          exact this.1
        exact QueueBut.drainLevel n (h.takeFromBus hf)
      · exact h

/-- Everything that the SP does before the event ends. -/
theorem QueueBut.drain {x : Option Master} {s : State} (h : QueueBut x s) : QueueBut x (drain s) :=
  h.drainLevel _

/-! ## Completions, the sweep and start-up -/

theorem QueueBut.complete {s : State} {hand : State → State}
    (hh : ∀ s, QueueBut none s → QueueBut none (hand s)) (h : QueueBut none s) :
    QueueBut none (complete hand s) := by
  exact (samePlaces_grant _).keep ((samePlaces_onMp _ _).keep (hh _ ((samePlaces_onMp s _).keep h)))

/-- The walk that ends is the one whose master's transaction has left it. -/
theorem QueueBut.endWalk {x : Option Master} {s : State} (h : QueueBut x s) :
    QueueBut none (endWalk s) := by
  refine (QueueBut.walkNext (x := none) (s := s.onPtu fun p => { p with engine := .idle })
    ⟨h.once, h.waits, fun w hw => ?_⟩).1
  cases hw

/-- The walking master's transaction leaves its walk. -/
theorem QueueBut.leaveWalk {s : State} (h : QueueBut none s) {w : Walk}
    (hw : s.ptu.engine.walk = some w) (y : Slot) :
    QueueBut (some w.master) (s.setSlot w.master y) := by
  have hs : (s.slot w.master).isAt .walking = true := by
    rcases h.walks w hw with h | h
    · exact h
    · cases h
  refine QueueBut.setSlot ⟨h.once, h.waits, fun v hv => ?_⟩ (fun hk => ?_) (fun _ _ _ => rfl) y
  · rcases h.walks v hv with h | h
    · exact .inl h
    · cases h
  · exact absurd (isAt_unique hs (h.waits _ hk)) (by decide)

theorem QueueBut.failWalk {s : State} (h : QueueBut none s) {w : Walk}
    (hw : s.ptu.engine.walk = some w) (f : FaultKind) : QueueBut none (failWalk w.master f s) := by
  have h1 := QueueBut.leaveWalk (s := s.onBlocks (masterFault f w.master (s.slotAddress w.master)))
    ((show SamePlaces s (s.onBlocks _) from ⟨rfl, rfl, rfl⟩).keep h) hw .free
  exact (QueueBut.endWalk ((show SamePlaces ((s.onBlocks
    (masterFault f w.master (s.slotAddress w.master))).setSlot w.master .free)
      (Machine.refuse w.master f (s.slotAddress w.master) s) from ⟨rfl, rfl, rfl⟩).keep h1)).drain

theorem QueueBut.finishWalk {s : State} (h : QueueBut none s) {w : Walk}
    (hw : s.ptu.engine.walk = some w) (e : WalkedEntry) : QueueBut none (finishWalk w e s) := by
  unfold Machine.finishWalk
  split
  · exact h.endWalk.drain
  · rename_i t ht
    have hf : SamePlaces s (s.onPtu (fillBuffer w t.address e)) := by
      refine ⟨rfl, ?_, ?_⟩ <;> (simp only [State.onPtu, fillBuffer]; split <;> rfl)
    have h1 := hf.keep h
    have hw1 : (s.onPtu (fillBuffer w t.address e)).ptu.engine.walk = some w := by
      rw [← hw]
      simp only [State.onPtu, fillBuffer]
      split <;> rfl
    obtain ⟨u, hu⟩ := isAt_translating (by
      rcases h1.walks w hw1 with h | h
      · exact h
      · cases h)
    dsimp only
    rw [moveTo_translating hu]
    refine (QueueBut.endWalk (InHand.useEntry (x := some w.master) ⟨h1.leaveWalk hw1 _, ?_⟩ t e)).drain
    rw [State.setSlot, slot_set, if_pos rfl]
    simp [Slot.isAt]

theorem QueueBut.regionDone {s : State} (h : QueueBut none s) : QueueBut none (regionDone s) := by
  unfold Machine.regionDone
  split
  · refine h.complete fun s h => ?_
    split
    · exact h
    · unfold regionWord
      split
      · rename_i k hk
        have hw : s.ptu.engine.walk = some k := by rw [hk]; rfl
        repeat' split
        · exact h.failWalk hw _
        · exact (show SamePlaces s (s.onPtu _) from ⟨rfl, rfl, by
            simp [State.onPtu, hk, Engine.walk]⟩).keep h
        · exact h.failWalk hw _
      all_goals exact h
  all_goals exact h

theorem QueueBut.pageDone {s : State} (h : QueueBut none s) : QueueBut none (pageDone s) := by
  unfold Machine.pageDone
  split
  · refine h.complete fun s h => ?_
    split
    · exact h
    · unfold pageWord
      split
      · rename_i k p hk
        have hw : s.ptu.engine.walk = some k := by rw [hk]; rfl
        repeat' split
        · exact h.failWalk hw _
        · exact h.finishWalk hw _
        · exact h.failWalk hw _
      all_goals exact h
  all_goals exact h

theorem QueueBut.forwardDone {s : State} (h : QueueBut none s) : QueueBut none (forwardDone s) := by
  unfold Machine.forwardDone
  split
  · rename_i m _
    refine h.complete fun s h => QueueBut.drain ?_
    unfold forwardResult
    split
    · rename_i t a k hm
      have ha : (s.slot m).apart := by rw [hm]; exact ⟨rfl, rfl⟩
      split
      · exact h.answer ha _ _
      · exact QueueBut.answer ((show SamePlaces s { s with mem := writeWord s.mem a _ } from
          ⟨rfl, rfl, rfl⟩).keep h) ha _ _
    all_goals exact h
  all_goals exact h

theorem QueueBut.lookupWaiting {x : Option Master} {s : State} (h : QueueBut x s) (m : Master) :
    QueueBut x (lookupWaiting s m) := by
  unfold Machine.lookupWaiting
  split
  · rename_i t ht
    rw [moveTo_translating ht]
    have ha : (s.slot m).apart := by rw [ht]; exact ⟨by simp [Slot.isAt], by simp [Slot.isAt]⟩
    exact InHand.lookup ⟨h.setApart ha _, by
      rw [State.setSlot, slot_set, if_pos rfl]; simp [Slot.isAt]⟩ t
  all_goals exact h

theorem QueueBut.sweepStep {s : State} (h : QueueBut none s) : QueueBut none (sweepStep s) := by
  have fold : ∀ (ms : List Master) {s : State}, QueueBut none s →
      QueueBut none (ms.foldl Machine.lookupWaiting s) := by
    intro ms
    induction ms with
    | nil => exact fun h => h
    | cons m ms ih => exact fun h => ih (h.lookupWaiting m)
  unfold Machine.sweepStep
  split
  · exact h
  · split
    · dsimp only
      split
      · refine SamePlaces.keep ?_ h
        exact ⟨rfl, rfl, rfl⟩
      · unfold endSweep
        refine QueueBut.drain (fold _ (SamePlaces.keep ?_ h))
        exact ⟨rfl, rfl, rfl⟩
    · exact h

/-- A reset leaves the queue empty and nothing walking. -/
theorem queueBut_resetEvent (c : ResetCause) (s : State) : QueueBut none (resetEvent c s) := by
  unfold resetEvent
  exact QueueBut.drain (queueBut_empty rfl rfl)

/-- What start-up held leaves for the PTU; what stands with the PTU stays there. -/
theorem leaveHeld_isAt {y : Slot} {p : PtuPlace} (h : y.isAt p = true) :
    (leaveHeld y).isAt p = true := by
  obtain ⟨t, rfl⟩ := isAt_translating h
  exact h

theorem QueueBut.leaveHeld {s : State} (h : QueueBut none s) :
    QueueBut none { s with slots := s.slots.map Machine.leaveHeld } := by
  have hs (k : Master) :
      State.slot { s with slots := s.slots.map Machine.leaveHeld } k = Machine.leaveHeld (s.slot k) := by
    simp [State.slot]
  refine ⟨h.once, fun m hm => ?_, fun w hw => ?_⟩
  · rw [hs]; exact leaveHeld_isAt (h.waits m hm)
  · rw [hs]; exact (h.walks w hw).imp leaveHeld_isAt id

theorem QueueBut.endStartUp {s : State} (h : QueueBut none s) : QueueBut none (endStartUp s) := by
  unfold Machine.endStartUp
  split
  · exact QueueBut.drain (QueueBut.leaveHeld ((samePlaces_onBlocks s _).keep h))
  all_goals exact h

end Sys2Proof.Machine
end

