-- ==== Sys2Proof/Laws/Standing.lean ====
section
/-! SUPPORT. What a notice to the DU can do, said once: the standing evaluation of a list of lanes is
`Evaluated`, whatever stands in the Directive Queues. -/

namespace Sys2Proof.Machine

/-! ## What queueing a standing directive may change -/

/-- The DU's queues, overflow conditions, resend marks and beacons, and DIRECTIVE_OVERFLOW, and
nothing else. -/
structure Queued (b c : Blocks) : Prop where
  frame : c = { b with
    du := { b.du with
      queues := c.du.queues, overflow := c.du.overflow, lanes := c.du.lanes, beacon := c.du.beacon }
    csu := { b.csu with flags := c.csu.flags } }
  flags : ∀ f : Flag, f ≠ .directiveOverflow → c.flagSet f = b.flagSet f

theorem Queued.refl (b : Blocks) : Queued b b := ⟨rfl, fun _ _ => rfl⟩

theorem Queued.trans {a b c : Blocks} (h : Queued a b) (k : Queued b c) : Queued a c where
  frame := by
    refine k.frame.trans ?_
    have e := congrArg (fun z : Blocks => { z with
      du := { z.du with
        queues := c.du.queues, overflow := c.du.overflow, lanes := c.du.lanes, beacon := c.du.beacon }
      csu := { z.csu with flags := c.csu.flags } }) h.frame
    exact e
  flags f hf := (k.flags f hf).trans (h.flags f hf)

theorem Queued.su {b c : Blocks} (h : Queued b c) : c.su = b.su := by rw [h.frame]
theorem Queued.profile {b c : Blocks} (h : Queued b c) : c.profile = b.profile := by
  unfold Blocks.profile; rw [h.su]
theorem Queued.inputs {b c : Blocks} (h : Queued b c) : c.du.inputs = b.du.inputs := by rw [h.frame]

theorem Queued.cause {b c : Blocks} (h : Queued b c) (l : Lane) :
    standingCause c l = standingCause b l := by
  unfold standingCause; rw [h.inputs, h.profile]

theorem setStanding_queued (l : Lane) (s : StandingLane) (b : Blocks) : Queued b (b.setStanding l s) :=
  ⟨rfl, fun _ _ => rfl⟩
theorem setDirectives_queued (x : Approach) (q : List Directive) (b : Blocks) :
    Queued b (b.setDirectives x q) := ⟨rfl, fun _ _ => rfl⟩
theorem evalBeacons_queued (b : Blocks) : Queued b (evalBeacons b) := ⟨rfl, fun _ _ => rfl⟩
theorem markResend_queued (l : Lane) (b : Blocks) : Queued b (markResend l b) :=
  setStanding_queued _ _ _

theorem setOverflow_queued (x : Approach) (b : Blocks) : Queued b (setOverflow x b) := by
  unfold setOverflow
  split
  · exact .refl b
  · exact ⟨rfl, fun _ _ => rfl⟩

/-! ## Standing states -/

/-- A lane's standing state and reason. -/
def standsAs (b : Blocks) (l : Lane) : Standing × Option Reason :=
  ((b.standing l).state, (b.standing l).reason)

theorem standing_setStanding (b : Blocks) (l k : Lane) (s : StandingLane) :
    (b.setStanding l s).standing k = if l = k then s else b.standing k := by
  unfold Blocks.setStanding Blocks.standing Blocks.onDu
  by_cases h : l = k
  · subst h; simp
  · simp [h, Fin.val_ne_of_ne h]

theorem standsAs_markResend (l k : Lane) (b : Blocks) : standsAs (markResend l b) k = standsAs b k := by
  unfold standsAs markResend
  rw [standing_setStanding]
  by_cases h : l = k
  · subst h; simp
  · simp [h]

theorem standsAs_setOverflow (x : Approach) (k : Lane) (b : Blocks) :
    standsAs (setOverflow x b) k = standsAs b k := by
  unfold setOverflow; split <;> rfl

theorem dropStanding (x : Approach) (e : Directive) (he : isStanding e) (b : Blocks) :
    Queued b (dropDirective x e b) ∧ ∀ k, standsAs (dropDirective x e b) k = standsAs b k := by
  have hq : Queued b (setOverflow x (b.request .directiveOverflow)) := by
    refine Queued.trans ⟨rfl, fun f hf => ?_⟩ (setOverflow_queued _ _)
    rw [flagSet_request]; simp [Ne.symm hf]
  have hs (k : Lane) : standsAs (setOverflow x (b.request .directiveOverflow)) k = standsAs b k :=
    standsAs_setOverflow _ _ _
  unfold dropDirective
  rcases he with h | h <;> rw [h] <;>
    exact ⟨hq.trans (markResend_queued _ _), fun k => (standsAs_markResend _ _ _).trans (hs k)⟩

theorem queueStanding (x : Approach) (e : Directive) (he : isStanding e) (b : Blocks) :
    Queued b (queueDirective x e b) ∧ ∀ k, standsAs (queueDirective x e b) k = standsAs b k := by
  unfold queueDirective
  simp only
  split
  · exact ⟨setDirectives_queued _ _ _, fun _ => rfl⟩
  split
  · split
    · exact dropStanding x e he b
    · rename_i gone rest _
      split
      · exact ⟨(setDirectives_queued _ _ _).trans (markResend_queued _ _),
          fun k => standsAs_markResend _ _ _⟩
      · exact ⟨setDirectives_queued _ _ _, fun _ => rfl⟩
  · exact dropStanding x e he b

theorem profile_setStanding (b : Blocks) (l : Lane) (s : StandingLane) :
    (b.setStanding l s).profile = b.profile := rfl

theorem directives_setStanding (b : Blocks) (l : Lane) (s : StandingLane) (y : Approach) :
    (b.setStanding l s).directives y = b.directives y := rfl

/-! ## One lane's evaluation -/

theorem evalLane_queued (l : Lane) (b : Blocks) : Queued b (evalLane l b) := by
  unfold evalLane
  split
  · exact .refl b
  · simp only
    split
    · exact (setStanding_queued _ _ _).trans (queueStanding _ _ (.inl rfl) _).1
    · exact (setStanding_queued _ _ _).trans (queueStanding _ _ (.inr rfl) _).1
    · exact .refl b

theorem evalLane_standsAs (l k : Lane) (b : Blocks) :
    standsAs (evalLane l b) k =
      if l = k ∧ laneInUse b.profile l = true then standingAfter b l else standsAs b k := by
  unfold evalLane
  by_cases hu : laneInUse b.profile l = true
  · simp only [hu, Bool.not_true, Bool.false_eq_true, if_false, and_true]
    unfold standingAfter
    split
    · rename_i r h1 h2
      unfold queueStandingOn
      rw [(queueStanding _ _ (.inl rfl) _).2]
      simp only [standsAs, standing_setStanding, h1, h2]
      by_cases h : l = k <;> simp [h]
    · rename_i h1 h2
      unfold queueStandingOff
      rw [(queueStanding _ _ (.inr rfl) _).2]
      simp only [standsAs, standing_setStanding, h1, h2]
      by_cases h : l = k <;> simp [h]
    · rename_i h1 h2
      by_cases h : l = k
      · subst h
        simp only [if_true, standsAs]
      · rw [if_neg h]
  · simp [hu]

/-- The directives that the lanes of a list queue, by approach. -/
def toldBy (ls : List Lane) (b : Blocks) (x : Approach) : List Directive :=
  (ls.filter fun l => laneInUse b.profile l && laneApproach b.profile l = x).filterMap (standingTold b)

theorem setStanding_joins {l : Lane} {b : Blocks} {s : StandingLane}
    (h : s.resend = (b.standing l).resend) : JoinsQueues (fun _ => []) b (b.setStanding l s) := by
  refine .none rfl rfl (fun k => ?_) rfl
  rw [standing_setStanding]
  by_cases e : l = k
  · subst e; simpa using h
  · simp [e]

/-- A lane's evaluation queues what it is told, on its approach. -/
theorem evalLane_joins (l : Lane) (b : Blocks) : JoinsQueues (toldBy [l] b) b (evalLane l b) := by
  have aux (e : Directive) (he : isStanding e) (s : StandingLane)
      (hs : s.resend = (b.standing l).resend) (hu : laneInUse b.profile l = true)
      (ht : standingTold b l = some e) :
      JoinsQueues (toldBy [l] b) b
        (queueDirective (laneApproach b.profile l) e (b.setStanding l s)) := by
    have hk : ¬ (e.kind = .divert ∧ e.tracked = true) := by
      rintro ⟨h, _⟩
      rcases he with h' | h' <;> rw [h'] at h <;> cases h
    rw [queueDirective_told _ (reportFinds_standing he _)]
    convert (setStanding_joins hs).trans (told_joins (laneApproach b.profile l) hk (b.setStanding l s))
      using 1
    funext x
    by_cases h : laneApproach b.profile l = x <;> simp [toldBy, only, hu, ht, h]
  unfold evalLane
  by_cases hu : laneInUse b.profile l = true
  · simp only [hu, Bool.not_true, Bool.false_eq_true, if_false]
    split
    · rename_i r h1 h2
      exact aux _ (.inl rfl) _ rfl hu (by unfold standingTold; rw [h1, h2])
    · rename_i h1 h2
      exact aux _ (.inr rfl) _ rfl hu (by unfold standingTold; rw [h1, h2])
    · rename_i h1 h2
      have e : standingTold b l = none := by
        unfold standingTold
        split
        · rename_i h3 h4; exact absurd h4 (h1 _ h3)
        · rename_i h3 h4; exact absurd h4 (h2 h3)
        · rfl
      convert JoinsQueues.none (b := b) (c := b) rfl rfl (fun _ => rfl) rfl using 1
      funext x
      by_cases h : laneApproach b.profile l = x <;> simp [toldBy, hu, e, h]
  · simp only [hu, Bool.not_false, if_true]
    convert JoinsQueues.none (b := b) (c := b) rfl rfl (fun _ => rfl) rfl using 1
    funext x
    simp [toldBy, hu]

/-! ## The evaluation of a list of lanes -/

theorem standingAfter_of {b c : Blocks} {l : Lane} (hc : standingCause c l = standingCause b l)
    (hs : standsAs c l = standsAs b l) : standingAfter c l = standingAfter b l := by
  have h1 : (c.standing l).state = (b.standing l).state := congrArg Prod.fst hs
  have h2 : (c.standing l).reason = (b.standing l).reason := congrArg Prod.snd hs
  unfold standingAfter; rw [hc, h1, h2]

theorem standingTold_of {b c : Blocks} {l : Lane} (hc : standingCause c l = standingCause b l)
    (hs : standsAs c l = standsAs b l) : standingTold c l = standingTold b l := by
  have h1 : (c.standing l).state = (b.standing l).state := congrArg Prod.fst hs
  unfold standingTold; rw [hc, h1]

theorem evalLanes_queued (ls : List Lane) (b : Blocks) :
    Queued b (ls.foldl (fun b l => evalLane l b) b) := by
  induction ls generalizing b with
  | nil => exact .refl b
  | cons l ls ih => exact (evalLane_queued l b).trans (ih _)

theorem evalLanes_standsAs (ls : List Lane) (hn : ls.Nodup) (k : Lane) (b : Blocks) :
    standsAs (ls.foldl (fun b l => evalLane l b) b) k =
      if k ∈ ls ∧ laneInUse b.profile k = true then standingAfter b k else standsAs b k := by
  induction ls generalizing b with
  | nil => simp
  | cons l ls ih =>
    rw [List.foldl_cons, ih (List.nodup_cons.mp hn).2, (evalLane_queued l b).profile]
    have hl := (List.nodup_cons.mp hn).1
    by_cases h : k ∈ ls
    · have hne : l ≠ k := fun e => hl (e ▸ h)
      have hs : standsAs (evalLane l b) k = standsAs b k := by simp [evalLane_standsAs, hne]
      simp [h, hs, standingAfter_of ((evalLane_queued l b).cause k) hs]
    · simp only [h, false_and, if_false, List.mem_cons, or_false, evalLane_standsAs]
      by_cases e : l = k
      · subst e; simp
      · simp [e, Ne.symm e]

theorem evalLanes_joins (ls : List Lane) (hn : ls.Nodup) (b : Blocks) :
    JoinsQueues (toldBy ls b) b (ls.foldl (fun b l => evalLane l b) b) := by
  induction ls generalizing b with
  | nil => exact .none rfl rfl (fun _ => rfl) rfl
  | cons l ls ih =>
    have hl := (List.nodup_cons.mp hn).1
    have hq := evalLane_queued l b
    have e : toldBy ls (evalLane l b) = toldBy ls b := by
      funext x
      unfold toldBy
      rw [hq.profile]
      refine List.filterMap_congr fun k hk => ?_
      have hne : l ≠ k := fun h => hl (h ▸ (List.mem_filter.mp hk).1)
      exact standingTold_of (hq.cause k) (by simp [evalLane_standsAs, hne])
    rw [List.foldl_cons]
    convert (evalLane_joins l b).trans (ih (List.nodup_cons.mp hn).2 _) using 1
    funext x
    rw [e]
    unfold toldBy
    rw [← List.filterMap_append, ← List.filter_append]
    rfl

theorem beaconState_evalBeacons (b : Blocks) (x : Approach) :
    beaconState (evalBeacons b) x = beaconState b x := rfl

/-- The standing evaluation of distinct lanes. -/
theorem evalStanding_evaluated (ls : List Lane) (hn : ls.Nodup) (b : Blocks) :
    Evaluated ls b (evalStanding ls b) := by
  have hq : Queued b (evalStanding ls b) := (evalLanes_queued ls b).trans (evalBeacons_queued _)
  have hj := evalLanes_joins ls hn b
  refine ⟨hq.frame, hj.flags, fun l => evalLanes_standsAs ls hn l b, hj.marks, fun x => ?_, hj.queued,
    hj.overflow⟩
  cases x <;> rfl

/-- An evaluation whose queues have room for every lane: the directives stand at the tails, and no
condition, mark or flag changes. -/
theorem Evaluated.room {ls : List Lane} {b c : Blocks} (h : Evaluated ls b c)
    (hr : ∀ x, (b.directives x).length + ls.length ≤ 16) :
    (∀ x, c.directives x = b.directives x ++ toldBy ls b x) ∧ c.du.overflow = b.du.overflow
      ∧ (∀ l, (c.standing l).resend = (b.standing l).resend) ∧ ∀ f, c.flagSet f = b.flagSet f := by
  have e (x : Approach) : evaluatedQueue ls b x = ⟨b.directives x ++ toldBy ls b x, [], false⟩ := by
    refine joinsAll_room (le_trans (Nat.add_le_add_left ?_ _) (hr x))
    exact (List.length_filterMap_le _ _).trans (List.length_filter_le _ _)
  refine ⟨fun x => by rw [h.queued, e], ?_, fun l => by rw [h.marks, e, e]; simp,
    fun f => by rw [h.flags, e, e]; simp⟩
  have ho (x : Approach) : c.du.overflow.at x = b.du.overflow.at x := by rw [h.overflow, e]; simp
  have ha := ho .A
  have hb := ho .B
  cases hc : c.du.overflow
  cases hd : b.du.overflow
  rw [hc, hd] at ha hb
  exact congrArg₂ PerApproach.mk ha hb

theorem allLanes_nodup : allLanes.Nodup := by decide

/-- A notice is recorded and its lanes are evaluated. -/
theorem notice_evaluated (ls : List Lane) (hn : ls.Nodup) (f : DirectiveInputs → DirectiveInputs)
    (b : Blocks) :
    Evaluated ls { b with du := { b.du with inputs := f b.du.inputs } } (notice ls f b) :=
  evalStanding_evaluated ls hn _

/-- What an evaluation neither reads nor changes may be set before it or after it: the lanes of the
CU, the fields of the CSU but the flags, and a flag other than DIRECTIVE_OVERFLOW. -/
theorem Evaluated.with {ls : List Lane} {b c : Blocks} (h : Evaluated ls b c) (u : Vector LaneUnit 6)
    (k : CommandStatus) (g : BitVec 13) :
    Evaluated ls
      { b with lanes := u, csu := { k with flags := b.csu.flags ||| g } }
      { c with lanes := u, csu := { k with flags := c.csu.flags ||| g } } where
  frame := by
    have e := congrArg (fun z : Blocks =>
      { z with lanes := u, csu := { k with flags := c.csu.flags ||| g } }) h.frame
    exact e
  flags f := by
    have := h.flags f
    simp only [Blocks.flagSet, BitVec.getLsbD_or] at this ⊢
    rw [this, Bool.or_right_comm]
    rfl
  lanes := h.lanes
  marks := h.marks
  beacons := h.beacons
  queued := h.queued
  overflow := h.overflow

end Sys2Proof.Machine
end

