-- ==== Sys2Proof/Laws/Records.lean ====
section
/-! SUPPORT. What an accepted capture record and a change of lane state can do, said once. -/

namespace Sys2Proof.Machine

/-- An event inside the blocks. -/
theorem fresh_act (s : State) (f : Blocks → Blocks) : s.fresh.act f = s.became (f s.blocks) := rfl

/-! ## A lane's unit -/

theorem lane_setLane (b : Blocks) (l : Lane) (u : LaneUnit) : (b.setLane l u).lane l = u := by
  simp [Blocks.lane, Blocks.setLane]

theorem lane_setLane_ne (b : Blocks) {l k : Lane} (h : l ≠ k) (u : LaneUnit) :
    (b.setLane l u).lane k = b.lane k := by
  simp [Blocks.lane, Blocks.setLane, Fin.val_ne_of_ne h]

theorem setLane_setLane (b : Blocks) (l : Lane) (u v : LaneUnit) :
    (b.setLane l u).setLane l v = b.setLane l v := by
  simp [Blocks.setLane]

theorem setLane_lane (b : Blocks) (l : Lane) : b.setLane l (b.lane l) = b := by
  simp [Blocks.setLane, Blocks.lane]

theorem inOrder_iff (u : LaneUnit) (n : BitVec 8) : inOrder u.prevSeq n = true ↔ InOrder u n := by
  unfold inOrder InOrder
  cases u.prevSeq <;> simp [eq_comm]

/-- The sequence check of a record in order. -/
theorem checkSequence_inOrder {b : Blocks} {l : Lane} {n : BitVec 8} (slot : BitVec 12)
    (h : InOrder (b.lane l) n) :
    checkSequence l slot n b = b.setLane l { b.lane l with prevSeq := some n } := by
  unfold checkSequence
  rw [(inOrder_iff _ _).mpr h]
  simp

/-! ## Entering a lane state -/

/-- Entering the state that the lane is in, where entry has no effect of its own. -/
theorem enterLane_same {b : Blocks} {l : Lane} {st : LaneState} (h : (b.lane l).state = st)
    (hst : st = .live ∨ st = .degraded ∨ st = .faulted) : enterLane l st b = b := by
  subst h
  unfold enterLane announceLane
  simp only [if_true]
  have : (b.lane l).enter b.now (silenceMs b.profile l) (b.lane l).state = b.lane l := by
    unfold LaneUnit.enter
    rcases hst with h | h | h <;> rw [h] <;> simp [← h]
  rw [this, setLane_lane]

/-- The lane holds nothing that the VA would give up when the lane leaves LIVE or DEGRADED. -/
def NothingToGiveUp (l : Lane) (st : LaneState) (b : Blocks) : Prop :=
  b.su.mode = .active → reporting (b.lane l).state = true → reporting st = false →
    b.openVehicle l = none ∧ b.straddleSlot l = none

/-- A lane's unit after it enters another state, with the notice to the DU and the LANE flag. -/
theorem enterLane_evaluated {b : Blocks} {l : Lane} {st : LaneState} (hne : (b.lane l).state ≠ st)
    (hv : NothingToGiveUp l st b) :
    Evaluated [l] { b with
        lanes := b.lanes.set l ((b.lane l).enter b.now (silenceMs b.profile l) st)
        du := { b.du with inputs := { b.du.inputs with lanes := b.du.inputs.lanes.set l st } }
        csu := { b.csu with flags := b.csu.flags ||| (if flagsLane st then Flag.lane.bit else 0) } }
      (enterLane l st b) := by
  have hva : ∀ c : Blocks, c.va = b.va → c.su = b.su → laneChanged l (b.lane l).state st c = c := by
    intro c h1 h2
    unfold laneChanged
    split
    · rename_i h
      simp only [Bool.and_eq_true, decide_eq_true_eq, Bool.not_eq_true'] at h
      have := hv (h2 ▸ h.1.1) h.1.2 h.2
      simp only [Blocks.openVehicle, Blocks.straddleSlot] at this
      simp [closeVehicle, releaseAlone, Blocks.openVehicle, Blocks.straddleSlot, h1, this]
    · rfl
  unfold enterLane announceLane
  simp only [hne, if_false]
  rw [hva (b.setLane l _) rfl rfl]
  have h := notice_evaluated [l] (by simp) (fun i => { i with lanes := i.lanes.set l st })
    (b.setLane l ((b.lane l).enter b.now (silenceMs b.profile l) st))
  have hw := h.with (b.lanes.set l ((b.lane l).enter b.now (silenceMs b.profile l) st)) b.csu
    (if flagsLane st then Flag.lane.bit else 0)
  have hf := h.frame
  have hl : (noticeLane l st (b.setLane l ((b.lane l).enter b.now (silenceMs b.profile l) st))).lanes
      = b.lanes.set l ((b.lane l).enter b.now (silenceMs b.profile l) st) := congrArg Blocks.lanes hf
  have hk := congrArg Blocks.csu hf
  convert hw using 1
  · rfl
  · unfold noticeLane at hl ⊢
    generalize notice [l] (fun i => { i with lanes := i.lanes.set l st })
      (b.setLane l ((b.lane l).enter b.now (silenceMs b.profile l) st)) = c at hl hk ⊢
    replace hk : c.csu = { b.csu with flags := c.csu.flags } := hk
    rw [← hl]
    split
    · simp only [Blocks.request, Blocks.onCsu]
      congr 1
      rw [hk]
    · have : c.csu.flags ||| 0 = c.csu.flags := by simp
      rw [this, ← hk]

/-- An evaluation before which, or after which, a lane's unit is replaced. -/
theorem Evaluated.setLane {ls : List Lane} {b c : Blocks} (h : Evaluated ls b c) (l : Lane)
    (u : LaneUnit) : Evaluated ls (b.setLane l u) (c.setLane l u) := by
  have hl : c.lanes = b.lanes := by rw [h.frame]
  have hk : c.csu = { b.csu with flags := c.csu.flags } := by
    conv_lhs => rw [h.frame]
  have hw := h.with (b.lanes.set l u) b.csu 0
  convert hw using 1
  · simp [Blocks.setLane]
  · simp only [Blocks.setLane, hl]
    congr 1
    simpa using hk

/-- An evaluation before which, or after which, a last result is recorded. -/
theorem Evaluated.result {ls : List Lane} {b c : Blocks} (h : Evaluated ls b c) (m : Master)
    (tag code : BitVec 8) (r : Result) :
    Evaluated ls (recordResult m tag code r b) (recordResult m tag code r c) := by
  have hl : c.lanes = b.lanes := by rw [h.frame]
  have hk : c.csu = { b.csu with flags := c.csu.flags } := by
    conv_lhs => rw [h.frame]
  have hw := h.with b.lanes { b.csu with lastResult := some { master := m, tag, code, result := r } } 0
  convert hw using 1
  · simp [recordResult, Blocks.onCsu]
  · simp only [recordResult, Blocks.onCsu, ← hl]
    congr 1
    rw [hk]
    simp

/-! ## Accepted records -/

/-- A record in order that leaves the lane's state as it was. -/
theorem takeRecord_same {b : Blocks} {l : Lane} {r : CaptureRecord} (slot : BitVec 12)
    (h : InOrder (b.lane l) r.sequence) (hs : stateAfter r (b.lane l).state = (b.lane l).state)
    (hst : (b.lane l).state = .live ∨ (b.lane l).state = .degraded ∨ (b.lane l).state = .faulted) :
    takeRecord l slot r b = deliver l slot r (b.setLane l { b.lane l with
      prevSeq := some r.sequence
      silence := some (timeAdd b.now (silenceMs b.profile l)) }) := by
  have ha : accepting (b.lane l).state = true := by rcases hst with h | h | h <;> simp [h, accepting]
  unfold takeRecord
  rw [if_pos ha]
  unfold acceptRecord
  rw [checkSequence_inOrder slot h]
  unfold changeState
  rw [lane_setLane, enterLane_same]
  · unfold setSilence
    rw [lane_setLane, setLane_setLane]
    rfl
  · rw [lane_setLane]; exact hs.symm
  · rw [hs]; exact hst

end Sys2Proof.Machine
end

