-- ==== Sys2Proof/Laws/Sweeps.lean ====
section
/-! SUPPORT. Admissions from the Held List, revocations, alarm evaluations and sweeps, each in the words
of Safety.lean: what the statements say of them is what the AU's operations compute. -/

namespace Sys2Proof.Machine

/-! ## Records -/

theorem onRecord_onRecord (b : Blocks) (n : VehicleNumber) (f g : VehicleRecord → VehicleRecord)
    (hf : ∀ r, (f r).number = r.number) :
    (b.onRecord n f).onRecord n g = b.recordNow n fun r => g (f r) := by
  unfold Blocks.onRecord Blocks.onVt Blocks.recordNow
  simp only [List.map_map]
  congr 3
  funext r
  by_cases h : r.number = n <;> simp [h, hf]

theorem record_onRecord (b : Blocks) (n : VehicleNumber) (f : VehicleRecord → VehicleRecord)
    (hf : ∀ r, (f r).number = r.number) : (b.onRecord n f).record n = (b.record n).map f := by
  unfold Blocks.onRecord Blocks.onVt Blocks.record
  simp only [List.find?_map]
  have e : ((fun r : VehicleRecord => r.number == n) ∘ fun r => if r.number = n then f r else r)
      = fun r => r.number == n := by
    funext r
    by_cases h : r.number = n <;> simp [h, hf]
  rw [e]
  cases h : b.vt.table.find? fun r => r.number == n with
  | none => rfl
  | some r =>
    have := List.find?_some h
    simp only [beq_iff_eq] at this
    simp [this]

theorem record_number {b : Blocks} {n : VehicleNumber} {r : VehicleRecord} (h : b.record n = some r) :
    r.number = n := by
  have := List.find?_some h
  simpa using this

theorem record_of_mem {b : Blocks} (hb : b.NumbersDistinct) {r : VehicleRecord}
    (hr : r ∈ b.vt.table) : b.record r.number = some r := by
  unfold Blocks.record
  have hn := hb.2
  clear hb
  revert hr hn
  generalize b.vt.table = l
  intro hr hn
  induction l with
  | nil => cases hr
  | cons x l ih =>
    simp only [List.map_cons, List.nodup_cons] at hn
    rcases List.mem_cons.mp hr with rfl | hr'
    · simp
    · have hne : x.number ≠ r.number := fun e => hn.1 (e ▸ List.mem_map_of_mem hr')
      rw [List.find?_cons_of_neg (by simpa using hne)]
      exact ih hr' hn.2

/-! ## The AU's directives (R113) -/

theorem numbersDistinct_of_numbers {b c : Blocks} (hb : b.NumbersDistinct)
    (h : c.vt.table.map (·.number) = b.vt.table.map (·.number)) : c.NumbersDistinct := by
  have hl := congrArg List.length h
  simp only [List.length_map] at hl
  exact ⟨hl ▸ hb.1, h ▸ hb.2⟩

theorem numbersDistinct_recordNow {b : Blocks} (hb : b.NumbersDistinct) (n : VehicleNumber)
    {f : VehicleRecord → VehicleRecord} (hf : ∀ r, (f r).number = r.number) :
    (b.recordNow n f).NumbersDistinct := by
  refine numbersDistinct_of_numbers hb ?_
  unfold Blocks.recordNow
  rw [List.map_map]
  refine List.map_congr_left fun w _ => ?_
  simp only [Function.comp]
  split
  · exact hf w
  · rfl

theorem reportFinds_of_distinct {b : Blocks} (hb : b.NumbersDistinct) (e : Directive) :
    ReportFinds e b := fun _ _ _ hr => record_of_mem hb hr

/-- What the AU asks the DU to queue joins its queue. -/
theorem queueVehicle_told {kind : DirectiveKind} {reason : Reason} {r : VehicleRecord} {b : Blocks}
    (hr : reason ≠ .tableFull) (h : ReportFinds (directiveFor kind reason r) b) :
    queueVehicle kind reason r b = b.told r.approach (directiveFor kind reason r) := by
  have e : vehicleDirective kind r.lane reason r.number r.gross r.times.d
      = directiveFor kind reason r := by
    unfold vehicleDirective directiveFor directiveGross
    simp [hr]
  unfold queueVehicle
  rw [e]
  exact queueDirective_told _ h

theorem dropReported_au (b : Blocks) (a : Admission) (e : Directive) :
    Blocks.dropReported { b with au := a } e = { b.dropReported e with au := a } := by
  unfold Blocks.dropReported
  dsimp only
  generalize (if e.kind = .divert ∧ e.tracked = true then List.find? _ b.vt.table else none) = o
  cases o with
  | none => rfl
  | some r =>
    dsimp only
    split <;> rfl

/-- An entry that joins a queue neither reads nor changes the AU. -/
theorem told_au (b : Blocks) (a : Admission) (x : Approach) (e : Directive) :
    Blocks.told { b with au := a } x e = { b.told x e with au := a } := by
  by_cases h : (joins (b.du.queues.at x) e).dropped = true
  · unfold Blocks.told
    simp only [h, if_true]
    rw [← dropReported_au]
    rfl
  · unfold Blocks.told
    simp only [h, if_false, Bool.false_eq_true]

theorem dropReported_table (b : Blocks) (e : Directive) :
    ∃ f : VehicleRecord → VehicleRecord, (∀ r, (f r).number = r.number ∧ (f r).state = r.state)
      ∧ (b.dropReported e).vt.table = b.vt.table.map f := by
  have same : ∃ f : VehicleRecord → VehicleRecord,
      (∀ r, (f r).number = r.number ∧ (f r).state = r.state) ∧ b.vt.table = b.vt.table.map f :=
    ⟨id, fun _ => ⟨rfl, rfl⟩, by simp⟩
  unfold Blocks.dropReported
  dsimp only
  generalize (if e.kind = .divert ∧ e.tracked = true then List.find? _ b.vt.table else none) = o
  cases o with
  | none => exact same
  | some r =>
    dsimp only
    split
    · exact same
    · exact ⟨fun w => if w.number = r.number then
          { w with flags := { w.flags with unwarned := true } } else w,
        fun w => by dsimp only; split <;> exact ⟨rfl, rfl⟩, rfl⟩

/-- An entry that joins a queue changes marks of records alone in the table. -/
theorem told_table (b : Blocks) (x : Approach) (e : Directive) :
    ∃ f : VehicleRecord → VehicleRecord, (∀ r, (f r).number = r.number ∧ (f r).state = r.state)
      ∧ (b.told x e).vt.table = b.vt.table.map f := by
  unfold Blocks.told
  dsimp only
  split
  · exact dropReported_table _ e
  · exact ⟨id, fun _ => ⟨rfl, rfl⟩, by simp⟩

theorem numbersDistinct_told {b : Blocks} (hb : b.NumbersDistinct) (x : Approach) (e : Directive) :
    (b.told x e).NumbersDistinct := by
  obtain ⟨f, hf, ht⟩ := told_table b x e
  refine numbersDistinct_of_numbers hb ?_
  rw [ht, List.map_map]
  exact List.map_congr_left fun w _ => (hf w).1

/-! ## The re-evaluation of the Held List (R122) -/

/-- A vehicle of a closed approach, or one that does not fit, is passed over. -/
theorem tryHeld_pass (again : Blocks → Blocks) {n : VehicleNumber} {b : Blocks}
    (h : ∀ r, b.record n = some r → b.effClosed.at r.approach = true ∨ admissible b r = false) :
    tryHeld again n b = b := by
  unfold tryHeld
  cases hr : b.record n with
  | none => rfl
  | some r =>
    rcases h r hr with h | h <;> simp [h]

/-- Any other is admitted, here before its E1 or its T. -/
theorem tryHeld_admits (again : Blocks → Blocks) {n : VehicleNumber} {b : Blocks} {r : VehicleRecord}
    (hr : b.record n = some r) (hh : n ∈ b.au.held) (hc : b.effClosed.at r.approach = false)
    (ha : admissible b r = true) (he : r.e1Reached b.now = false ∨ r.tReached b.now = false) :
    tryHeld again n b = b.readmitted r := by
  obtain rfl := record_number hr
  let st : VehicleState := if r.dReached b.now then .committed else .admitted
  let f (w : VehicleRecord) : VehicleRecord := { w with
    state := st, verdict := some .admitted, reserved := true, stamp := some b.au.counter
    flags := { w.flags with late := w.flags.late || r.dReached b.now } }
  let last : VehicleState := if r.e1Reached b.now then .missing else st
  let d : Blocks := b.onAu fun a => { a with
    reservations := reservedFor .normal r a.reservations, counter := a.counter + 1
    held := a.held.erase r.number }
  have hc' : (admitNormal r b).onAu (fun a => { a with held := a.held.erase r.number })
      = d.onRecord r.number f := rfl
  have hrec : (d.onRecord r.number f).record r.number = some (f r) := by
    rw [record_onRecord d r.number f fun _ => rfl, show d.record r.number = some r from hr]
    rfl
  have hx : examineAdmitted again r.number (d.onRecord r.number f)
      = d.recordNow r.number fun w => (f w).to last := by
    have hd : (f r).dReached b.now = r.dReached b.now := rfl
    have he' : (f r).e1Reached b.now = r.e1Reached b.now := rfl
    have ht' : (f r).tReached b.now = r.tReached b.now := rfl
    have hs : (f r).state = st := rfl
    have h1 : (if (decide ((f r).state = .admitted) && (f r).dReached b.now) = true
        then VehicleState.committed else (f r).state) = st := by
      rw [hd, hs]
      cases h : r.dReached b.now <;> simp [st, h]
    have h2 : (if ((decide (st = .admitted) || decide (st = .committed)) && (f r).e1Reached b.now) = true
        then VehicleState.missing else st) = last := by
      rw [he']
      cases h : r.dReached b.now <;> cases h' : r.e1Reached b.now <;> simp [last, st, h, h']
    have h3 : (decide (last = .missing) && (f r).tReached b.now) = false := by
      rw [ht']
      rcases he with he | he
      · cases h : r.dReached b.now <;> simp [last, st, h, he]
      · simp [he]
    have hn : (d.onRecord r.number f).now = b.now := rfl
    unfold examineAdmitted
    rw [hrec]
    have hm : ((d.onRecord r.number f).onRecord r.number fun x => x.to last).now = b.now := rfl
    simp only [hn, h1, h2, hm, h3, Bool.false_eq_true, if_false]
    exact onRecord_onRecord d r.number f _ fun _ => rfl
  unfold tryHeld
  rw [hr]
  simp only [List.contains_iff_mem.mpr hh, hc, ha, Bool.not_false, Bool.and_self, if_true]
  rw [hc', hx, queueVehicle_told (by decide) (fun h => by cases h)]
  have hg : (fun w => (f w).to last) = fun w : VehicleRecord => { w with
      state := last, verdict := some .admitted, reserved := true, stamp := some b.au.counter
      flags := { w.flags with late := w.flags.late || r.dReached b.now } } := rfl
  rw [hg]
  exact told_au (b.recordNow r.number _) d.au r.approach _

/-- The pass that `Readmits` describes is the pass that the AU makes. -/
theorem foldl_tryHeld_readmits (again : Blocks → Blocks) {ks : List VehicleNumber} {b c : Blocks}
    (h : Readmits ks b c) : ks.foldl (fun b v => tryHeld again v b) b = c := by
  induction ks generalizing b with
  | nil => exact h.symm
  | cons k ks ih =>
    rw [List.foldl_cons]
    rcases h with ⟨hp, h⟩ | ⟨r, hr, hh, hc, ha, he, h⟩
    · rw [tryHeld_pass again hp]; exact ih h
    · rw [tryHeld_admits again hr hh hc ha he]; exact ih h

theorem reevaluate_readmits {b c : Blocks} (h : Readmits b.au.held b c) : reevaluate b = c :=
  foldl_tryHeld_readmits _ h

/-! ## Revocations (R124, R127) -/

/-- A revocation before D and V1. -/
theorem revoke_eq {b : Blocks} (hb : b.NumbersDistinct) {r : VehicleRecord}
    (hr : b.record r.number = some r) (hd : r.dReached b.now = false)
    (hv : r.v1Reached b.now = false) : revoke r b = b.revoked r := by
  let f (w : VehicleRecord) : VehicleRecord := { w with
    state := .diverted, verdict := some (.divert .revoked), reserved := false, delivery := none }
  let d : Blocks := dropReservation (.vehicle r.number) b
  have hc : (divertRecord .revoked r.number d).onRecord r.number
      (fun w => { w with reserved := false, delivery := none }) = d.onRecord r.number f :=
    onRecord_onRecord _ _ _ _ fun _ => rfl
  have hrec : (d.onRecord r.number f).record r.number = some (f r) := by
    rw [record_onRecord d r.number f fun _ => rfl, show d.record r.number = some r from hr]
    rfl
  have hx : examineDiverted r.number (d.onRecord r.number f) = d.onRecord r.number f := by
    unfold examineDiverted
    rw [hrec]
    have hd' : (f r).dReached (d.onRecord r.number f).now = false := hd
    have hv' : (f r).v1Reached (d.onRecord r.number f).now = false := hv
    have hst : (f r).state = .diverted := rfl
    simp [hd', hv', hst]
  unfold revoke
  change queueVehicle _ _ _ (examineDiverted r.number ((divertRecord .revoked r.number d).onRecord _ _)) = _
  have hn : (d.onRecord r.number f).NumbersDistinct := numbersDistinct_recordNow hb _ fun _ => rfl
  rw [hc, hx, queueVehicle_told (by decide) (reportFinds_of_distinct hn _)]
  exact told_au (b.recordNow r.number f) d.au r.approach _

/-- Walking a list that holds an element which beats every other, and which no other beats, finds it. -/
theorem foldl_best {α : Type} (beats : α → α → Bool) (x : α) :
    ∀ (l : List α) (best : α), (∀ y ∈ best :: l, y ≠ x → beats x y = true ∧ beats y x = false) →
      best = x ∨ x ∈ l → l.foldl (fun best y => if beats y best then y else best) best = x
  | [], best, _, h => by simpa using h
  | y :: l, best, hall, h => by
    rw [List.foldl_cons]
    refine foldl_best beats x l _ (fun z hz => ?_) ?_
    · rcases List.mem_cons.mp hz with rfl | hz
      · split
        · exact hall _ (by simp)
        · exact hall _ (by simp)
      · exact hall z (by simp [hz])
    · rcases h with rfl | h
      · left
        split
        · rename_i hb
          by_contra hne
          exact absurd hb (by simp [(hall y (by simp) hne).2])
        · rfl
      · rcases List.mem_cons.mp h with rfl | h
        · left
          by_cases hne : best = x
          · subst hne; simp
          · simp [(hall best (by simp) hne).1]
        · exact .inr h

theorem bestOf_eq {α : Type} (beats : α → α → Bool) {x : α} {l : List α} (hx : x ∈ l)
    (hall : ∀ y ∈ l, y ≠ x → beats x y = true ∧ beats y x = false) : bestOf beats l = some x := by
  cases l with
  | nil => cases hx
  | cons y l =>
    refine congrArg some (foldl_best beats x l y hall ?_)
    rcases List.mem_cons.mp hx with h | h
    · exact .inl h.symm
    · exact .inr h

/-- A change that makes no element satisfy a test, and makes one that satisfied it fail it. -/
theorem countP_map_lt {α : Type} {p : α → Bool} {g : α → α} (hle : ∀ w, p (g w) = true → p w = true)
    {r : α} (h1 : p r = true) (h2 : p (g r) = false) {l : List α} (hr : r ∈ l) :
    (l.map g).countP p < l.countP p := by
  have le (l : List α) : (l.map g).countP p ≤ l.countP p := by
    rw [List.countP_map]
    exact List.countP_mono_left fun w _ h => hle w h
  obtain ⟨as, bs, rfl⟩ := List.append_of_mem hr
  have ha := le as
  have hb := le bs
  simp only [List.map_append, List.map_cons, List.countP_append, List.countP_cons, h1, h2, if_true,
    Bool.false_eq_true, if_false]
  omega

/-- How many records are ADMITTED. -/
def Blocks.admittedCount (b : Blocks) : Nat :=
  b.vt.table.countP fun r => decide (r.state = .admitted)

theorem admittedCount_revoked {b : Blocks} {r : VehicleRecord} (hr : r ∈ b.vt.table)
    (hs : r.state = .admitted) : (b.revoked r).admittedCount < b.admittedCount := by
  obtain ⟨g, hg, ht⟩ := told_table (b.recordNow r.number fun w => { w with
    state := .diverted, verdict := some (.divert .revoked), reserved := false
    delivery := none }) r.approach (directiveFor .divert .revoked r)
  unfold Blocks.admittedCount
  rw [show (b.revoked r).vt.table = _ from ht]
  unfold Blocks.recordNow
  rw [List.map_map]
  refine countP_map_lt (fun w h => ?_) (by simp [hs]) ?_ hr
  · simp only [Function.comp, (hg _).2] at h
    split at h
    · simp at h
    · exact h
  · simp [(hg _).2]

theorem numbersDistinct_revoked {b : Blocks} (hb : b.NumbersDistinct) (r : VehicleRecord) :
    (b.revoked r).NumbersDistinct :=
  numbersDistinct_told (numbersDistinct_recordNow (f := fun w => { w with
    state := .diverted, verdict := some (.divert .revoked), reserved := false
    delivery := none }) hb r.number fun _ => rfl) r.approach (directiveFor .divert .revoked r)

theorem numbersDistinct_foldl {b : Blocks} (hb : b.NumbersDistinct) (rs : List VehicleRecord) :
    (rs.foldl Blocks.revoked b).NumbersDistinct := by
  induction rs generalizing b with
  | nil => exact hb
  | cons r rs ih => exact ih (numbersDistinct_revoked hb r)

/-- The revocations that `RevokesInOrder` describes are those that the AU makes. -/
theorem revokeWhile_inOrder {goOn : Blocks → Bool} {among : VehicleRecord → Bool}
    {rs : List VehicleRecord} {b : Blocks} (hb : b.NumbersDistinct)
    (h : RevokesInOrder goOn among rs b) {n : Nat} (hn : b.admittedCount ≤ n) (any : Bool) :
    revokeWhile goOn among n (b, any) = (rs.foldl Blocks.revoked b, any || decide (rs ≠ [])) := by
  induction rs generalizing b n any with
  | nil =>
    cases n with
    | zero => simp [revokeWhile]
    | succ n =>
      unfold revokeWhile
      by_cases hg : goOn b = true
      · have ha : ∀ y ∈ b.vt.table, y.state = .admitted → among y = false := by
          rcases h with h | h
          · simp [h] at hg
          · exact h
        have : latestAdmitted among b = none := by
          unfold latestAdmitted
          rw [List.filter_eq_nil_iff.mpr fun y hy => by
            by_cases hs : y.state = .admitted <;> simp [hs, ha y hy]]
          rfl
        simp [hg, this]
      · simp [hg]
  | cons r rs ih =>
    obtain ⟨hg, hr, hs, ha, hbest, hd, hv, h⟩ := h
    have hlt := admittedCount_revoked hr hs
    cases n with
    | zero => omega
    | succ n =>
      have hl : latestAdmitted among b = some r := by
        refine bestOf_eq _ (List.mem_filter.mpr ⟨hr, by simp [hs, ha]⟩) fun y hy hne => ?_
        obtain ⟨hy, hp⟩ := List.mem_filter.mp hy
        simp only [Bool.and_eq_true, decide_eq_true_eq] at hp
        exact hbest y hy hp.1 hp.2 hne
      unfold revokeWhile
      simp only [hg, if_true, hl]
      rw [revoke_eq hb (record_of_mem hb hr) hd hv,
        ih (numbersDistinct_revoked hb r) h (by omega)]
      simp

/-! ## Alarm evaluations and the end of a sweep (R124, R125) -/

theorem noticeAlarm_evaluated (on : Bool) (b : Blocks) :
    Evaluated allLanes { b with du := { b.du with inputs := { b.du.inputs with alarm := on } } }
      (noticeAlarm on b) :=
  notice_evaluated allLanes allLanes_nodup (fun i => { i with alarm := on }) b

/-- An alarm evaluation that finds the alarm as the condition has it changes nothing; one that finds it
otherwise sets or clears it. -/
theorem evalAlarm_agrees {b : Blocks} (h : b.au.alarm = overloaded b) (maySet : Bool) :
    evalAlarm maySet b = b := by
  unfold evalAlarm
  cases ho : overloaded b <;> simp [h, ho]

theorem evalAlarm_evaluated {b : Blocks} (h : b.au.alarm ≠ overloaded b) :
    Evaluated allLanes { b with
      au := { b.au with alarm := overloaded b }
      du := { b.du with inputs := { b.du.inputs with alarm := overloaded b } }
      csu := { b.csu with
        flags := if overloaded b then b.csu.flags ||| Flag.overload.bit else b.csu.flags } }
      (evalAlarm true b) := by
  unfold evalAlarm
  cases ho : overloaded b
  · have ha : b.au.alarm = true := by rw [ho] at h; simpa using h
    simp only [Bool.false_eq_true, if_false, ha, if_true]
    exact noticeAlarm_evaluated false (b.onAu fun a => { a with alarm := false })
  · have ha : b.au.alarm = false := by rw [ho] at h; simpa using h
    simp only [if_true, ha, Bool.not_false, Bool.and_self]
    exact noticeAlarm_evaluated true
      ((b.onAu fun a => { a with alarm := true }).request .overload)

theorem evalAlarm_alarm (b : Blocks) : (evalAlarm true b).au.alarm = overloaded b := by
  by_cases h : b.au.alarm = overloaded b
  · rw [evalAlarm_agrees h, h]
  · rw [congrArg Blocks.au (evalAlarm_evaluated h).frame]

/-- The alarm evaluation and the re-evaluation after a loosening, a reopening or a release. -/
theorem reevaluates_evalAlarm (b : Blocks) : Reevaluates b (reevaluate (evalAlarm false b)) := by
  refine ⟨evalAlarm false b, fun h => ?_, fun h1 h2 => ?_, fun e' h => reevaluate_readmits h⟩
  · unfold evalAlarm
    rcases h with h | h
    · simp [h]
    · simp [h]
  · unfold evalAlarm
    simp only [h2, Bool.false_eq_true, if_false, h1, if_true]
    exact noticeAlarm_evaluated false (b.onAu fun a => { a with alarm := false })

/-- A sweep from the state that the revocations `rs` have left. -/
theorem sweepAfter_ends {b : Blocks} (hb : b.NumbersDistinct) (rs : List VehicleRecord)
    {rs' : List VehicleRecord}
    (h : RevokesInOrder overloaded (fun _ => true) rs' (rs.foldl Blocks.revoked b)) :
    SweepEnds (rs ++ rs') b (sweepAfter (rs.foldl Blocks.revoked b, decide (rs ≠ []))) := by
  have hw := revokeWhile_inOrder (numbersDistinct_foldl hb rs) h
    (n := (rs.foldl Blocks.revoked b).vt.table.length) List.countP_le_length (decide (rs ≠ []))
  have hany : (decide (rs ≠ []) || decide (rs' ≠ [])) = decide (rs ++ rs' ≠ []) := by
    cases rs <;> simp
  unfold sweepAfter
  simp only
  rw [hw, hany]
  unfold SweepEnds
  rw [List.foldl_append]
  generalize rs'.foldl Blocks.revoked (rs.foldl Blocks.revoked b) = c
  generalize rs ++ rs' = all
  refine ⟨evalAlarm true c, fun h => evalAlarm_agrees h true, fun h => evalAlarm_evaluated h,
    fun hne ho e' hr => ?_, fun h => ?_⟩
  · simp only [evalAlarm_alarm, ho, Bool.not_false, Bool.and_true, decide_eq_true_eq]
    rw [if_pos hne]
    exact reevaluate_readmits hr
  · rw [if_neg]
    rcases h with h | h <;> simp [evalAlarm_alarm, h]

/-- The shortfall sweep (R124). -/
theorem shortfallSweep_ends {b : Blocks} (hb : b.NumbersDistinct) {rs : List VehicleRecord}
    (h : RevokesInOrder overloaded (fun _ => true) rs b) : SweepEnds rs b (shortfallSweep b) :=
  sweepAfter_ends hb [] h

/-- The closure of an approach (R127). -/
theorem closeApproach_ends {b : Blocks} (hb : b.NumbersDistinct) (x : Approach)
    {rs rs' : List VehicleRecord}
    (h : RevokesInOrder (fun _ => true) (fun r => decide (r.approach = x)) rs b)
    (h' : RevokesInOrder overloaded (fun _ => true) rs' (rs.foldl Blocks.revoked b)) :
    SweepEnds (rs ++ rs') b (closeApproach x b) := by
  have := sweepAfter_ends hb rs h'
  unfold closeApproach
  rw [revokeWhile_inOrder hb h List.countP_le_length]
  simpa using this

end Sys2Proof.Machine
end

