-- ==== Sys2Proof/Laws/Retirement.lean ====
section
/-! SUPPORT. Count reports, releases and retirements in the words of Safety.lean: what the statements
say of them is what the VT's and the AU's operations compute. -/

namespace Sys2Proof.Machine

/-- A count report (R93, R128). -/
theorem reportCounts_reported (b : Blocks) : CountsReported b (reportCounts reevaluate b) := by
  let c : Blocks := b.onAu fun a => { a with
    occupants := ⟨b.vt.occupants.a.length, b.vt.occupants.b.length⟩, unreserved := b.unreservedCount }
  have clears : (b.au.lock && decide (b.vt.occupants.a.length < occupantCapacity)
        && decide (b.vt.occupants.b.length < occupantCapacity)
        && decide (b.unreservedCount = 0)) = true
      ↔ b.au.lock = true ∧ b.vt.occupants.a.length < 24 ∧ b.vt.occupants.b.length < 24
        ∧ b.unreservedCount = 0 := by
    simp only [Bool.and_eq_true, decide_eq_true_eq, and_assoc]
    rfl
  refine ⟨fun h => ?_, fun h => ?_⟩
  · exact if_neg fun e => h (clears.mp e)
  · exact ⟨_, notice_evaluated allLanes allLanes_nodup (fun i => { i with lock := false })
        (c.onAu fun a => { a with lock := false }),
      fun e' he => (if_pos (clears.mpr h)).trans (reevaluate_readmits he)⟩

/-- A release (R120, R106). -/
theorem release_releases (o : Owner) (b : Blocks) : Releases o b (release reevaluate o b) := by
  unfold release Blocks.holds
  refine ⟨fun ⟨w, hw, he⟩ => ?_, fun h => ?_⟩
  · rw [if_pos (List.any_eq_true.mpr ⟨w, hw, by simpa using he⟩)]
    exact reevaluates_evalAlarm (dropReservation o b)
  · rw [if_neg (by simpa using h)]

/-- The releases of the phantoms of an approach (R103). -/
theorem foldl_release_releases (ks : List Phantom) (b : Blocks) :
    ReleasesInOrder (ks.map Owner.phantom) b
      (ks.foldl (fun b k => release reevaluate (.phantom k) b) b) := by
  induction ks generalizing b with
  | nil => rfl
  | cons k ks ih => exact ⟨_, release_releases (.phantom k) b, ih _⟩

/-- The end of a retirement: the number off the Held List, the journal record offered, the record out
of the table. -/
theorem retired_eq {outcome : JournalOutcome} {n : VehicleNumber} {e : Blocks} {v : VehicleRecord} :
    (offerJournal (recordWords outcome v e.now) (e.onAu fun a => { a with held := a.held.erase n })).onVt
        (fun t => { t with table := t.table.filter fun w => w.number ≠ n })
      = { e with
        vt := { e.vt with table := e.vt.table.filter fun w => w.number ≠ n }
        au := { e.au with held := e.au.held.erase n }
        csu := if e.csu.journal.length < 8 then { e.csu with
            journal := e.csu.journal ++ [{ words := recordWords outcome v e.now, next := 0 }] }
          else { e.csu with flags := e.csu.flags ||| Flag.journalLost.bit } } := by
  unfold offerJournal
  have same : ((e.onAu fun a => { a with held := a.held.erase n }).csu.journal.length
      < journalCapacity) = (e.csu.journal.length < 8) := rfl
  by_cases h : e.csu.journal.length < 8
  · rw [if_pos (same ▸ h), if_pos h]; rfl
  · rw [if_neg (same ▸ h), if_neg h]; rfl

/-- A retirement (R101). -/
theorem retire_retires (outcome : JournalOutcome) (n : VehicleNumber) (b : Blocks) :
    Retires outcome n b (retire reevaluate outcome n b) := by
  unfold retire
  refine ⟨if b.queued n then reportCounts reevaluate (dropOccupants (Occupant.isVehicle n) b) else b,
    ?_⟩
  generalize hc : (if b.queued n then reportCounts reevaluate
    (dropOccupants (Occupant.isVehicle n) b) else b) = c
  refine ⟨if (c.record n).any (·.reserved) then release reevaluate (.vehicle n) c else c,
    fun h => ?_, fun h => ?_, fun v hv => ⟨fun h => ?_, fun h => ?_⟩, fun v hv => ?_⟩
  · rw [← hc, if_pos h]
    exact reportCounts_reported (dropOccupants (Occupant.isVehicle n) b)
  · rw [← hc, if_neg (by simp [h])]
  · rw [if_pos (by simpa [hv] using h)]
    exact release_releases (.vehicle n) c
  · rw [if_neg (by simpa [hv] using h)]
  · dsimp only
    revert hv
    generalize (if (c.record n).any (·.reserved) then release reevaluate (.vehicle n) c else c) = e
    intro hv
    have hr : (e.onAu fun a => { a with held := a.held.erase n }).record n = some v := hv
    rw [hr]
    exact retired_eq

end Sys2Proof.Machine
end

