-- ==== Sys2Proof/Tests/Slice0.lean ====
section
/-! SUPPORT. Small checks of the model, and for every claim with premises a concrete state and operands
that meet them. -/

namespace Sys2Proof.Tests

open Sys2Proof.Machine

/-! ## Sample states -/

/-- A page from its leading words, the rest 0, with its check word. -/
def page (ws : List Nat) : Page :=
  let l : List Word := ws.map (BitVec.ofNat 32) ++ List.replicate (15 - ws.length) 0
  let l := l ++ [checkWord l]
  Vector.ofFn fun i : Fin 16 => l.getD i.val 0

/-- A lane's word: in use, its approach, its owner, the restart mark, and the numbers 10 and 2000. -/
def laneSample (b owner restarts : Nat) : Nat :=
  2 ^ 31 + b * 2 ^ 30 + owner * 2 ^ 24 + restarts * 2 ^ 23 + 10 * 2 ^ 14 + 2000

/-- A sample profile: lanes 0 to 2 on approach A and 3 to 5 on B, the loop lanes 1 and 4, lane 2 with
the RESTART action, and masters 2 and 7 DIRECT. -/
def sample : Pages := #v[
  page [4400, 9000, 9000, 9000, 9000, 12000, 3, 800],
  page [25000, 60000, 45000, 300, 25000, 60000, 45000, 300, 30000, 400 + 100 * 65536, 10, 2000, 5000,
    3000],
  page [laneSample 0 0 0, laneSample 0 1 0, laneSample 0 2 1, laneSample 1 3 0, laneSample 1 4 0,
    laneSample 1 5 0, 1 + 4 * 256],
  page [1500 + 200 * 65536, 1200 + 40 * 65536 + 50 * 2 ^ 24, 4000, 500 + 1000 * 65536, 4000,
    100 + 2 * 65536, 120000, 1800, 10000],
  page [4096, 0x100 + 64 * 65536, 0x010, 0x014, 2 ^ 31, 0x018, 0x010, 0x020, 0x021, 2 ^ 31 + 0x022]]

/-- The part in a mode after start-up, its lanes LIVE, at time 100,000. -/
def running (mode : Mode) : State := { State.reset with
  blocks := { Blocks.reset with
    lanes := Vector.replicate 6 { LaneUnit.reset with state := .live }
    du := { DirectiveUnit.reset with
      lanes := Vector.replicate 6 { state := .off, reason := none, resend := false }
      inputs := { DirectiveUnit.reset.inputs with mode, lanes := Vector.replicate 6 .live } }
    su := { Supervisor.reset with
      mode, startUp := .over, clock := 100000, store := sample, validity := pagesValidity sample
      active := if mode = .bypass then none else some sample } } }

/-- The part in ACTIVE, SERVICE and BYPASS. -/
def active : State := running .active
def service : State := running .service
def bypass : State := running .bypass

/-- A state with a lane, a record, an open vehicle or another piece put in it. -/
def withLane (l : Lane) (u : LaneUnit) (s : State) : State := s.onBlocks fun b => b.setLane l u
def withState (l : Lane) (st : LaneState) (s : State) : State :=
  s.onBlocks fun b => b.setLane l { b.lane l with state := st }
def withOpen (l : Lane) (v : OpenVehicle) (s : State) : State :=
  s.onBlocks fun b => b.onVa fun a => { a with opened := a.opened.set l (some v) }
def withHalf (l : Lane) (h : HeldAxle) (s : State) : State :=
  s.onBlocks fun b => b.onVa fun a => { a with straddle := a.straddle.set l (some h) }
def withRecord (v : VehicleRecord) (s : State) : State :=
  s.onBlocks fun b => b.onVt fun t => { t with table := t.table ++ [v] }
def withOccupant (x : Approach) (o : Occupant) (s : State) : State :=
  s.onBlocks fun b => b.onVt fun t => { t with occupants := t.occupants.put x (t.occupants.at x ++ [o]) }
def withCycle (c : Cycle) (s : State) : State := s.onMp fun p => { p with cycle := .busy c }
def withSlot (m : Master) (x : Slot) (s : State) : State := s.setSlot m x
def withWord (a : Addr) (w : Word) (s : State) : State := { s with mem := writeWord s.mem a w }
def withEngine (e : Engine) (s : State) : State := s.onPtu fun p => { p with engine := e }
def withSu (f : Supervisor → Supervisor) (s : State) : State := s.onBlocks fun b => b.onSu f
def withCsu (f : CommandStatus → CommandStatus) (s : State) : State := s.onBlocks fun b => b.onCsu f
def withDu (f : DirectiveUnit → DirectiveUnit) (s : State) : State := s.onBlocks fun b => b.onDu f
def withAu (f : Admission → Admission) (s : State) : State := s.onBlocks fun b => b.onAu f
def withRu (stack : List Restriction) (s : State) : State := s.onBlocks fun b => b.onRu fun _ => { stack }
def withSweep (f : Sweep → Sweep) (s : State) : State := s.onPtu fun p => { p with sweep := f p.sweep }

/-- No mark of a vehicle set. -/
def noMarks : VehicleFlags :=
  { isPartial := false, overlong := false, suspect := false, incomplete := false, straddled := false,
    unreliable := false, late := false, unwarned := false, unreserved := false }

/-- A record whose seven times are D, E0, E1, V0, V1, S and T. -/
def record (n : VehicleNumber) (st : VehicleState) (d e0 e1 v0 v1 s t : Time) : VehicleRecord :=
  { number := n, approach := .A, lane := 1, state := st, axles := [⟨2300, 0⟩, ⟨2300, 135⟩]
    axleCount := 2, groups := [], gross := 4600, speed := 800, length := 1000, flags := noMarks
    weighTime := 95000, times := ⟨d, e0, e1, v0, v1, s, t⟩, past := ⟨false, false, false, false⟩
    verdict := some .admitted
    reserved := true, delivery := none, entryTime := none, stamp := some 5 }

/-- A record at time 100,000: all of its times still to come, and all of them reached. -/
def ahead (n : VehicleNumber) (st : VehicleState) : VehicleRecord :=
  record n st 101000 102000 103000 102000 103000 102000 110000
def behind (n : VehicleNumber) (st : VehicleState) : VehicleRecord :=
  record n st 96000 97000 98000 97000 98000 97000 100000

/-- An open vehicle of lane 1 with a gross load and an axle count, closing at time 100,000. -/
def opened (gross axleCount : Nat) : OpenVehicle :=
  { approach := .A, axles := [⟨gross / 2, 0⟩, ⟨gross / 2, 500⟩], speeds := [800, 800], axleCount, gross
    spacingSum := 500, isPartial := false, overlong := false, suspect := false, straddled := false
    degradedAxle := false, lastEvent := 98800, closeTime := 100000 }

/-- An axle record. -/
def axleOf (spacing : BitVec 16) (straddle : Straddle) : AxleRecord :=
  { sequence := 0, age := 4, left := 300, right := 310, spacing, speed := 800, straddle, quality := 0 }

/-- A held half of a lane, with its straddle mark, held since 99,990. -/
def half (l : Lane) (straddle : Straddle) (expiry : Time) : HeldAxle :=
  { axle := { lane := l, left := 300, right := 0, speed := 800, spacing := 0, straddle, quality := 0
              eventTime := 99990, aged := false, laneState := .live }
    suspect := false, expiry }

/-- A queued directive for vehicle 7. -/
def directive (kind : DirectiveKind) : Directive :=
  { kind, lane := 1, stale := false, reason := .none, vehicle := 7, gross := 460
    deadline := (101000 : Time).extractLsb' 0 16, fullDeadline := some 101000, tracked := true }

/-- A program buffer of page 3 from word 6, with the words read so far. -/
def buffer (count : Nat) (words : List Word) : ProgramBuffer :=
  { page := 3, startWord := 6, count, source := 0x3F0018, words }

/-- A walk of master 4 with the sample's parameters. -/
def walk : Walk :=
  { master := 4, base := 0x010, memoryPages := 4096, areaSwept := false, profileApplied := false }

/-- A journal entry of zero words. -/
def journalEntry (next : Fin 8) : JournalEntry := { words := Vector.replicate 8 0, next }

/-- A READ and a WRITE of master 4 in its region 3, page 0x25. -/
def reading : Transaction := { address := 0x1A5010, access := .read }
def writing : Transaction := { address := 0x1A5010, access := .write 0x10000000 }

/-- ACTIVE with the reservations that are given. -/
def withReservations (l : List Reservation) (s : State) : State :=
  withAu (fun a => { a with reservations := l }) s

/-- 40 reservations of phantoms. -/
def fullList : List Reservation := List.replicate 40 ⟨.phantom 3, .phantom, .B, 10, 99000, some 120000⟩

/-- Vehicle 8 ADMITTED over its interval with a load reserved. -/
def admitted8 (load : Nat) (s : State) : State :=
  withRecord (ahead 8 .admitted)
    (withReservations [⟨.vehicle 8, .normal, .A, load, 99000, some 110000⟩] s)

/-! ## Well-formedness: an ill-formed term of each check is refused -/

theorem test_axle_slot_unaligned_refused :
    (Instr.axle 0 0x018 (axleOf 0 .none)).wellFormed = false := by decide
theorem test_passage_slot_unaligned_refused :
    (Instr.passage 0 0x001 ⟨0, 0, .spanExit, 0, 0⟩).wellFormed = false := by decide
theorem test_heartbeat_slot_unaligned_refused :
    (Instr.heartbeat 0 0xFFF ⟨0, 0, .healthy⟩).wellFormed = false := by decide
theorem test_laneFault_slot_unaligned_refused :
    (Instr.laneFault 0 0x004 ⟨0, 0, 1⟩).wellFormed = false := by decide
theorem test_axle_slot_aligned_accepted :
    (Instr.axle 0 0xFF0 (axleOf 0 .none)).wellFormed = true := by decide

/-! ## The spec's own numbers -/

/-- 11.3: the check word of the LANE_RECOVER of lane 3 with tag 0x2A. -/
theorem test_check_word : checkWord [0x00000E2A, 0x00000003, 0x00000000] = 0xFFFFF1D6 := by
  decide

/-- 2.7: the logical address 0x1A5010 has region 3, page 0x25, set 5 and tag 26. -/
theorem test_address_fields :
    addrRegion 0x1A5010 = 3 ∧ addrPage 0x1A5010 = 37 ∧ addrSet 0x1A5010 = 5
      ∧ addrTag 0x1A5010 = 26 ∧ physical 672 0x010 = 0x2A0010 := by decide

/-- 10.7: programming 60,000 over 120,000 leaves 49,216, and the page fails. -/
theorem test_programming_ands :
    let s := withSu (fun u => { u with storeState := .programming (buffer 1 [60000]) }) active
    (finishProgram s.blocks).su.store.word 3 6 = 49216
      ∧ (finishProgram s.blocks).su.validity[3] = false := by decide

/-- The sample profile is valid, and an erased page is failed (R173). -/
theorem test_validity :
    pagesValidity sample = Vector.replicate 5 true
      ∧ pagesValidity State.reset.blocks.su.store = Vector.replicate 5 false := by decide

/-! ## The queue, the clock and the invariants -/

theorem test_reference_clock_premises :
    State.reset.pending = [] ∧ State.reset.blocks.su.startUp = .causeHolds
      ∧ active.pending = [] ∧ active.blocks.su.startUp ≠ .causeHolds
      ∧ (withSu (fun u => { u with count := 9998 }) active).blocks.su.count + 1 < 10000
      ∧ active.blocks.su.divisor = 10000
      ∧ 10000 ≤ (withSu (fun u => { u with count := 9999 }) active).blocks.su.count + 1
      ∧ (behind 7 .held).dReached 100000 = true ∧ (behind 7 .held).e1Reached 100000 = true
      ∧ (behind 7 .held).v1Reached 100000 = true ∧ (behind 7 .held).tReached 100000 = true := by
  decide

theorem test_memory_premises :
    (withWord 0xFFFFFC 0x00FF0001 active).MemoryOk
      ∧ ∃ t, step ((withWord 0xFFFFFC 0x00FF0001 active).withFront .powerOn) = .next t :=
  ⟨by decide, _, rfl⟩

theorem test_translation_buffer_premises :
    (active.ptu.onSet 4 5 (BufferSet.fill 26 ⟨true, true, .capture, 4, 0x2A0⟩)).Sound
      ∧ ∃ t, step (active.withFront .sweepStep) = .next t :=
  ⟨by unfold Ptu.Sound BufferSet.Sound; decide, _, rfl⟩

/-- Vehicle 7 on the Held List and a vehicle of nine axles open in lane 1. -/
def holding : State :=
  withOpen 1 { opened 4600 9 with axles := List.replicate 9 ⟨500, 130⟩ }
    (withAu (fun a => { a with held := [7] }) (withRecord (ahead 7 .held) active))

theorem test_collections_premises :
    holding.blocks.QueuesFit ∧ holding.blocks.ListsFit
      ∧ ∃ t, step (holding.withFront .journalWordDone) = .next t :=
  have axles : ∀ l : Lane, (holding.blocks.openVehicle l).all (fun v => decide (v.axles.length ≤ 9))
      = true := by decide
  ⟨by unfold Blocks.QueuesFit; decide,
    { table := by decide, occupants := fun x => by cases x <;> decide, reservations := by decide
      normal := by decide, held := by decide, heldOnce := by decide, heldRecords := fun _ h => h
      axles := fun l v h => by
        have hl := axles l
        rw [h, Option.all_some, decide_eq_true_eq] at hl
        exact hl }, _, rfl⟩

theorem test_waiting_queue_premises :
    let s := withSlot 3 (.translating reading .queued) (withSlot 4 (.translating writing .walking)
      (withEngine (.region walk) (active.onPtu fun p => { p with queue := [3] })))
    s.QueueSound ∧ ∃ t, step (s.withFront .regionReadDone) = .next t :=
  ⟨⟨by decide, by decide, by decide, fun w h => by
    obtain rfl : walk = w := Option.some.inj h
    decide⟩, _, rfl⟩

theorem test_numbers_premises :
    (withRecord (ahead 8 .held) (withRecord (ahead 7 .admitted) active)).blocks.NumbersDistinct
      ∧ ∃ t, step (active.withFront (.closeTime 1)) = .next t :=
  ⟨by unfold Blocks.NumbersDistinct; decide, _, rfl⟩

theorem test_settled_premises :
    (withSlot 4 (.translating reading .sweepWait) active).Settled
      ∧ ∃ t, step ((withSlot 4 (.translating reading .sweepWait) active).withFront (.enterBypass 6 1))
          = .next t :=
  ⟨by unfold State.Settled; decide, _, rfl⟩

theorem test_active_mode : active.blocks.ModeSound :=
  ⟨by decide, by decide, by decide, by decide, fun h => absurd (by decide) h,
    fun h => absurd (by decide) h⟩

theorem test_service_mode : service.blocks.ModeSound ∧ service.blocks.AtRest :=
  have r : service.blocks.AtRest :=
    ⟨by decide, by decide, by decide, by decide, by decide, by decide, by decide⟩
  ⟨⟨by decide, by decide, by decide, by decide, fun _ => r, fun h => absurd (by decide) h⟩, r⟩

theorem test_mode_premises : ∃ t, step (active.withFront (.stop 6 1)) = .next t := ⟨_, rfl⟩

/-- A restriction at the statutory limits of the sample. -/
def atTheLimits : Restriction :=
  { origin := 1, spanLoad := some 12000, heavy := some 3, gross := some 4400, closed := some ⟨true, false⟩ }

theorem test_restriction_stack_premises :
    (withRu [atTheLimits] active).blocks.StackSound
      ∧ ∃ t, step (active.withFront (.applyProfile 6 1)) = .next t :=
  ⟨⟨fun p h e he => by
      have hp : p = sample := by
        have h' : some sample = some p := h
        exact (Option.some.inj h').symm
      have he' : e = atTheLimits := List.mem_singleton.mp he
      subst hp he'; decide, by decide +kernel⟩, _, rfl⟩

/-! ## The System Port -/

theorem test_misaligned_premises :
    active.Settled ∧ active.slot 0 = .free ∧ (0xFFFFFF : Addr).toNat % 4 ≠ 0
      ∧ State.reset.Settled ∧ State.reset.slot 7 = .free ∧ (0x000001 : Addr).toNat % 4 ≠ 0 := by
  unfold State.Settled; decide

theorem test_waiting_premises :
    State.reset.Settled ∧ State.reset.slot 0 = .free ∧ (0xFFFFFC : Addr).toNat % 4 = 0
      ∧ State.reset.blocks.su.mode = .startUp
      ∧ (withSlot 0 (.held reading) State.reset).Settled
      ∧ (withSlot 0 (.held reading) State.reset).slot 0 ≠ .free := by
  unfold State.Settled; decide

theorem test_forwarded_premises :
    bypass.Settled ∧ bypass.slot 7 = .free ∧ bypass.blocks.su.mode = .bypass
      ∧ ¬ ((7 : Master) = 7 ∧ (0x200 : Addr).toNat < 0x200)
      ∧ ¬ ((6 : Master) = 7 ∧ (0x000 : Addr).toNat < 0x200)
      ∧ service.Settled ∧ service.slot 2 = .free ∧ service.blocks.su.mode = .service
      ∧ isDirect service.blocks.profile 2 = true ∧ bypass.mp.cycle = .idle
      ∧ (withCycle (.forward 0) bypass).mp.cycle ≠ .idle := by
  unfold State.Settled; decide

theorem test_forwarded_nothing_waits : bypass.NothingWaits ∧ service.NothingWaits := by
  unfold State.NothingWaits; decide

theorem test_fallback_premises :
    bypass.Settled ∧ bypass.slot 7 = .free ∧ bypass.blocks.su.mode = .bypass
      ∧ (statusWord bypass.ptu.sweep bypass.blocks 0).isSome = true
      ∧ (statusWord bypass.ptu.sweep bypass.blocks 80).isSome = true
      ∧ 0x100 + 84 ≤ (0x154 : Addr).toNat ∧ (0x1FC : Addr).toNat < 0x200
      ∧ 0x100 ≤ (0x100 : Addr).toNat ∧ (0x0FC : Addr).toNat < 0x100 := by
  unfold State.Settled; decide

/-- ACTIVE with one entry in the buffer of master 4, for the page of `reading`. -/
def filledWith (e : WalkedEntry) : State :=
  active.onPtu fun p => p.onSet 4 5 (BufferSet.fill 26 e)

theorem test_hit_premises :
    let s := filledWith ⟨true, true, .plain, 0, 0xFFF⟩
    let e := (s.ptu.set 4 (addrSet 0x1A5010)).wayA
    s.Settled ∧ s.slot 4 = .free ∧ s.blocks.su.mode = .active ∧ isDirect s.blocks.profile 4 = false
      ∧ s.ptu.sweep.coversNow 4 = false ∧ s.ptu.Sound ∧ e.valid = true
      ∧ e.tag = addrTag 0x1A5010 ∧ e.kind = .plain ∧ e.readPermit = true ∧ e.writePermit = true := by
  unfold State.Settled Ptu.Sound BufferSet.Sound; decide

/-- A hit of each kind of page other than PLAIN, with both permits: the kind, the tag at the first and
the last offset, and the status words that the CSU answers. -/
theorem test_window_premises :
    (∀ k ∈ [WindowKind.capture, .command, .status, .directive],
      let s := filledWith ⟨true, true, k, 1, 0x2A0⟩
      let e := (s.ptu.set 4 (addrSet 0x1A5000)).wayA
      s.Settled ∧ s.ptu.Sound ∧ e.valid = true ∧ e.kind = k ∧ e.tag = addrTag 0x1A5000
        ∧ e.readPermit = true ∧ e.writePermit = true)
      ∧ addrTag 0x1A5FFC = addrTag 0x1A5000 ∧ addrSet 0x1A5FFC = addrSet 0x1A5000
      ∧ (statusWord active.ptu.sweep active.blocks 0).isSome = true
      ∧ (statusWord active.ptu.sweep active.blocks 80).isSome = true
      ∧ (0x1A5044 : Addr).toNat % 4096 = 68 ∧ 84 ≤ (0x1A5054 : Addr).toNat % 4096
      ∧ (0x1A5000 : Addr).toNat % 4096 = 0 ∧ (0x1A5004 : Addr).toNat % 4096 = 4
      ∧ (0x1A5008 : Addr).toNat % 4096 = 8 ∧ 8 < (0x1A500C : Addr).toNat % 4096
      ∧ (active.blocks.directives .B).length ≤ 16 ∧ laneOwner active.blocks.profile 1 ≠ 4 := by
  unfold State.Settled Ptu.Sound BufferSet.Sound; decide +kernel

theorem test_permission_premises :
    let s := filledWith ⟨false, false, .status, 0, 0xFFF⟩
    let e := (s.ptu.set 4 (addrSet 0x1A5010)).wayA
    s.Settled ∧ s.slot 4 = .free ∧ s.blocks.su.mode = .active ∧ isDirect s.blocks.profile 4 = false
      ∧ s.ptu.sweep.coversNow 4 = false ∧ s.ptu.Sound ∧ e.valid = true
      ∧ e.tag = addrTag 0x1A5010 ∧ e.readPermit = false ∧ e.writePermit = false := by
  unfold State.Settled Ptu.Sound BufferSet.Sound; decide

theorem test_miss_premises :
    let mine (y : Entry) : Prop := y.valid = true ∧ y.tag = addrTag 0xFFFFFC
    active.Settled ∧ active.slot 4 = .free ∧ active.blocks.su.mode = .active
      ∧ isDirect active.blocks.profile 4 = false ∧ active.ptu.sweep.coversNow 4 = false
      ∧ ¬ mine (active.ptu.set 4 (addrSet 0xFFFFFC)).wayA
      ∧ ¬ mine (active.ptu.set 4 (addrSet 0xFFFFFC)).wayB
      ∧ active.ptu.engine = .idle ∧ active.ptu.queue = [] ∧ active.mp.cycle = .idle
      ∧ (withEngine (.region walk) active).ptu.engine ≠ .idle
      ∧ (withCycle (.forward 0) active).mp.cycle ≠ .idle := by
  unfold State.Settled; decide

/-- The buffer's set of master 4 with its entry upset in way A, or in way B. -/
theorem test_entry_check_premises :
    let upset (e : Entry) : Entry := { e with page := e.page ^^^ 1 }
    let one := BufferSet.cleared.fill 26 ⟨true, true, .plain, 0, 1⟩
    let two := (BufferSet.cleared.fill 27 ⟨true, true, .plain, 0, 2⟩).fill 26 ⟨true, true, .plain, 0, 1⟩
    let a := { one with wayA := upset one.wayA }
    let b := { two with wayB := upset two.wayB }
    (a.wayA.valid = true ∧ a.wayA.tag = addrTag 0x1A5010 ∧ a.wayA.checks = false
        ∧ a.wayB.valid = false)
      ∧ (b.wayB.valid = true ∧ b.wayB.tag = addrTag 0x1A5010 ∧ b.wayB.checks = false
        ∧ b.wayA.tag ≠ addrTag 0x1A5010) := by
  decide

theorem test_sweep_wait_premises :
    let s := withSweep (fun w => { w with running := true, target := some .all, position := some ⟨0, 0⟩ })
      active
    s.Settled ∧ s.ptu.sweep.coversNow 4 = true := by
  unfold State.Settled; decide

/-! ## The Memory Port -/

/-- ACTIVE with a journal record waiting, and the journal wait count. -/
def journalling (next : Fin 8) (count : Nat) : State :=
  (withCsu (fun c => { c with journal := [journalEntry next] }) active).onMp fun p =>
    { p with waitCount := count }

/-- ACTIVE with a source word to be read. -/
def sourcing : State := withSu (fun u => { u with storeState := .reading (buffer 2 []) }) active

theorem test_grant_premises :
    (withSlot 4 (.translating reading .walking) (withEngine (.region walk) active)).walkRequest
        = some (.walkRegion 0x01000C false)
      ∧ (journalling 0 4).walkRequest = none ∧ (journalling 0 4).journalRequest.isSome = true
      ∧ (journalling 0 4).mp.waitCount = 4
      ∧ (withSlot 7 (.memory reading 0 .plain) (journalling 0 3)).forwardWaits (7 + 1 + 7) = true
      ∧ (∀ j < (7 : Fin 8),
          (withSlot 7 (.memory reading 0 .plain) (journalling 0 3)).forwardWaits (7 + 1 + j) = false)
      ∧ ¬ ((journalling 0 3).journalRequest.isSome = true ∧ (journalling 0 3).mp.waitCount = 4)
      ∧ (∀ m, (journalling 0 3).forwardWaits m = false)
      ∧ sourcing.walkRequest = none ∧ sourcing.journalRequest = none
      ∧ (∀ m, sourcing.forwardWaits m = false)
      ∧ sourcing.sourceRequest = some (.source 0x3F0018) := by
  decide

/-- ACTIVE with master 4's access in its cycle. -/
def forwarding (t : Transaction) (a : Addr) : State :=
  withCycle (.forward 4) (withSlot 4 (.memory t a .plain) (withWord a 0x12345678 active))

theorem test_forwarded_write_premises :
    let s := forwarding writing 0xFFFFFC
    s.Settled ∧ s.MemoryOk ∧ s.mp.cycle = .busy (.forward 4)
      ∧ s.slot 4 = .memory writing 0xFFFFFC .plain ∧ writing.access = .write 0x10000000
      ∧ s.bus[(4 : Master)] = [] := by
  unfold State.Settled; decide

theorem test_forwarded_read_premises :
    let s := forwarding reading 0x000000
    s.Settled ∧ s.mp.cycle = .busy (.forward 4) ∧ s.slot 4 = .memory reading 0 .plain
      ∧ reading.access = .read ∧ s.bus[(4 : Master)] = [] := by
  unfold State.Settled; decide

/-! ## The Walk Engine and the sweep -/

/-- ACTIVE while master 4's walk reads its region entry, or its page entry, a given word. -/
def regionRead (w : Word) : State :=
  withCycle (.walkRegion 0x01000C false) (withEngine (.region walk)
    (withSlot 4 (.translating writing .walking) (withWord 0x01000C w active)))
def pageRead (w : Word) : State :=
  withCycle (.walkPage 0x011094 false) (withEngine (.page walk 0x011)
    (withSlot 4 (.translating writing .walking) (withWord 0x011094 w active)))

theorem test_walk_premises :
    let s := regionRead 0x80000FFF
    let w := readWord s.mem 0x01000C
    s.mp.cycle = .busy (.walkRegion 0x01000C false) ∧ s.ptu.engine = .region walk
      ∧ s.slot walk.master = .translating writing .walking
      ∧ w.getLsbD 31 = true ∧ (w.extractLsb' 0 12).toNat < walk.memoryPages := by
  decide

theorem test_failed_walk_premises :
    (regionRead 0).Settled ∧ (regionRead 0).bus[walk.master] = [] ∧ (regionRead 0).ptu.queue = []
      ∧ (readWord (regionRead 0).mem 0x01000C).getLsbD 31 = false
      ∧ (let s := withEngine (.region { walk with memoryPages := 0x100 }) (regionRead 0x80000100)
         s.Settled ∧ (readWord s.mem 0x01000C).getLsbD 31 = true
          ∧ 0x100 ≤ ((readWord s.mem 0x01000C).extractLsb' 0 12).toNat)
      ∧ (pageRead 0).Settled ∧ (readWord (pageRead 0).mem 0x011094).getLsbD 31 = false
      ∧ (pageRead 0).mp.cycle = .busy (.walkPage 0x011094 false)
      ∧ (pageRead 0).ptu.engine = .page walk 0x011
      ∧ (let w := readWord (pageRead 0x8005C2A0).mem 0x011094
         w.getLsbD 31 = true ∧ 4 < (w.extractLsb' 16 3).toNat)
      ∧ (let w := readWord (pageRead 0x8001C2A0).mem 0x011094
         (w.extractLsb' 16 3).toNat = 1 ∧ 5 < (w.extractLsb' 13 3).toNat)
      ∧ (let w := readWord (pageRead 0x800442A0).mem 0x011094
         (w.extractLsb' 16 3).toNat = 4 ∧ 1 < (w.extractLsb' 13 3).toNat) := by
  unfold State.Settled; decide

theorem test_successful_walk_premises :
    let s := pageRead 0xE0000FFF
    let w := readWord s.mem 0x011094
    s.Settled ∧ s.mp.cycle = .busy (.walkPage 0x011094 false) ∧ s.ptu.engine = .page walk 0x011
      ∧ s.slot walk.master = .translating writing .walking ∧ s.ptu.queue = []
      ∧ w.getLsbD 31 = true ∧ (w.extractLsb' 0 12).toNat < walk.memoryPages ∧ w.extractLsb' 16 3 = 0
      ∧ w.getLsbD 30 = true ∧ w.getLsbD 29 = true := by
  unfold State.Settled; decide

/-- A set with the tags 26 and 27, its toggle at way A, and one with way A alone. -/
def twoWays : BufferSet :=
  (BufferSet.cleared.fill 26 ⟨true, true, .plain, 0, 1⟩).fill 27 ⟨true, true, .plain, 0, 2⟩
def oneWay : BufferSet := BufferSet.cleared.fill 26 ⟨true, true, .plain, 0, 1⟩

theorem test_fill_premises :
    (twoWays.wayA.valid = true ∧ twoWays.wayA.tag = 26)
      ∧ (¬ (twoWays.wayA.valid = true ∧ twoWays.wayA.tag = 27)
          ∧ (twoWays.wayB.valid = true ∧ twoWays.wayB.tag = 27))
      ∧ BufferSet.cleared.wayA.valid = false ∧ oneWay.wayA.valid = true ∧ oneWay.wayB.valid = false
      ∧ twoWays.wayA.tag ≠ 28 ∧ twoWays.wayB.tag ≠ 28 ∧ twoWays.Sound := by
  unfold BufferSet.Sound; decide

/-- ACTIVE with a sweep at a position. -/
def sweeping (g : SweepTarget) (area : Master) (i : Fin 16) : State :=
  withSweep (fun w => { w with running := true, target := some g, position := some ⟨area, i⟩ }) active

theorem test_sweep_premises :
    active.ptu.sweep.running = false ∧ (sweeping .all 0 0).ptu.sweep.running = true
      ∧ (sweeping .all 6 15).ptu.sweep.position = some ⟨6, 15⟩
      ∧ (sweeping .all 7 15).ptu.sweep.target = some .all
      ∧ (sweeping (.area 3) 3 15).Settled
      ∧ ∀ m : Master, ((sweeping (.area 3) 3 15).slot m).isAt .sweepWait = false := by
  unfold State.Settled; decide

/-! ## The Journal Writer and the store -/

theorem test_journal_premises :
    (withCycle (.journal 0x100000 5 true) active).mp.cycle = .busy (.journal 0x100000 5 true)
      ∧ (journalling 0 4).blocks.csu.journal = [journalEntry 0] ∧ (journalEntry 0).next ≠ 7
      ∧ (withCycle (.journal 0x10001C 5 false) (journalling 7 0)).blocks.csu.journal
          = journalEntry 7 :: []
      ∧ (journalEntry 7).next = 7 ∧ (journalling 7 0).MemoryOk ∧ (journalling 7 0).mp.cycle = .idle := by
  decide

theorem test_source_premises :
    sourcing.blocks.su.storeState = .reading (buffer 2 []) ∧ sourcing.mp.cycle = .idle
      ∧ (withCycle (.source 0x3F0018) sourcing).mp.cycle = .busy (.source 0x3F0018) := by
  decide

theorem test_store_completion_premises :
    (withSu (fun u => { u with storeState := .programming (buffer 16 (List.replicate 16 1)) })
        active).blocks.su.storeState = .programming (buffer 16 (List.replicate 16 1))
      ∧ (buffer 16 (List.replicate 16 1)).words.length ≤ 16
      ∧ (withSu (fun u => { u with storeState := .erasing 4 }) active).blocks.su.storeState
          = .erasing 4 := by
  decide

/-! ## Capture records and lanes -/

/-- BYPASS with a command framing of master 7, and ACTIVE with the entry of master 4's CAPTURE page in
the buffer and a framing of its lane. -/
def framed7 (f : Framing) : State :=
  withCsu (fun c => { c with framing := c.framing.set (7 : Master) f }) bypass
def framed4 (f : Framing) : State :=
  (filledWith ⟨false, true, .capture, 4, 0x2A0⟩).onBlocks fun b =>
    b.setLane 4 { b.lane 4 with framing := f }

theorem test_framing_premises :
    (framed7 .empty).Settled ∧ (framed7 .empty).slot 7 = .free
      ∧ (framed7 .empty).blocks.su.mode = .bypass
      ∧ (framed7 (.three 0xF0 0x10AA 1 0)).blocks.csu.framing[(7 : Master)] = .three 0xF0 0x10AA 1 0
      ∧ (0xFC : Addr).toNat % 16 / 4 = 3 ∧ BitVec.ofNat 12 ((0xFC : Addr).toNat % 4096 / 16 * 16) = 0xF0
      ∧ (5 : Word) ≠ ~~~(0x10AA ^^^ 1 ^^^ 0) ∧ (0x10AA : Word).extractLsb' 8 8 = 0x10
      ∧ (framed4 .empty).Settled ∧ (framed4 .empty).slot 4 = .free
      ∧ isDirect (framed4 .empty).blocks.profile 4 = false
      ∧ (framed4 .empty).ptu.sweep.coversNow 4 = false ∧ (framed4 .empty).ptu.Sound
      ∧ ((framed4 .empty).ptu.set 4 (addrSet 0x1A501C)).wayA.valid = true
      ∧ ((framed4 .empty).ptu.set 4 (addrSet 0x1A501C)).wayA.tag = addrTag 0x1A501C
      ∧ ((framed4 .empty).ptu.set 4 (addrSet 0x1A501C)).wayA.kind = .capture
      ∧ ((framed4 .empty).ptu.set 4 (addrSet 0x1A501C)).wayA.writePermit = true
      ∧ ((framed4 .empty).ptu.set 4 (addrSet 0x1A501C)).wayA.channel.toNat = (4 : Lane).val
      ∧ laneInUse (framed4 .empty).blocks.profile 4 = true
      ∧ laneOwner (framed4 .empty).blocks.profile 4 = 4
      ∧ accepting ((framed4 .empty).blocks.lane 4).state = true
      ∧ accepting ((withState 4 .disabled (framed4 .empty)).blocks.lane 4).state = false
      ∧ ((framed4 (.three 0x10 0x30050000 1 0)).blocks.lane 4).framing = .three 0x10 0x30050000 1 0
      ∧ captureFields 0x30050000 1 0 = some (.heartbeat ⟨5, 0, .healthy⟩)
      ∧ (let s := filledWith ⟨false, true, .command, 0, 0x2A1⟩
         s.ptu.Sound ∧ (s.ptu.set 4 (addrSet 0x1A501C)).wayA.kind = .command) := by
  unfold State.Settled Ptu.Sound BufferSet.Sound; decide

theorem test_framing_words :
    Framing.Takes (.one 0x20 6) 0 0x20 5 (.one 0x20 5) (some 0x20)
      ∧ Framing.Takes (.one 0x20 6) 1 0x20 5 (.two 0x20 6 5) none
      ∧ Framing.Takes (.two 0x20 6 7) 2 0x20 5 (.three 0x20 6 7 5) none
      ∧ Framing.Takes (.two 0x20 6 7) 2 0x30 5 .empty (some 0x20)
      ∧ Framing.Takes .empty 3 0x30 5 .empty (some 0x30) :=
  ⟨.inl (by decide), .inr (.inl ⟨6, by decide⟩), .inr (.inr (.inl ⟨6, 7, by decide⟩)),
    .inr (.inr (.inr (by decide))), .inr (.inr (.inr (by decide)))⟩

theorem test_heartbeat_premises :
    let u := (withLane 0 { LaneUnit.reset with state := .live, prevSeq := some 255 } active).blocks.lane 0
    accepting u.state = true ∧ InOrder u 0 ∧ ¬ InOrder u 1 ∧ u.state = .live
      ∧ accepting (active.blocks.lane 5).state = true ∧ InOrder (active.blocks.lane 5) 77
      ∧ (active.blocks.lane 5).state ≠ .degraded
      ∧ (State.reset.blocks.lane 0).state = .unused
      ∧ ((withState 0 .disabled active).blocks.lane 0).state = .disabled
      ∧ ((withState 0 .restarting active).blocks.lane 0).state = .restarting := by
  unfold InOrder; decide

theorem test_lane_fault_premises :
    let s := withState 0 .faulted active
    accepting (s.blocks.lane 0).state = true ∧ InOrder (s.blocks.lane 0) 1
      ∧ (s.blocks.lane 0).state = .faulted ∧ accepting (active.blocks.lane 0).state = true
      ∧ (active.blocks.lane 0).state ≠ .faulted ∧ active.blocks.su.mode = .active
      ∧ reporting (active.blocks.lane 0).state = true
      ∧ active.blocks.openVehicle 0 = none ∧ active.blocks.straddleSlot 0 = none := by
  unfold InOrder; decide

theorem test_axle_premises :
    let b := active.blocks
    let b' := (withOpen 1 (opened 4600 9) active).blocks
    InOrder (b.lane 1) 0 ∧ (b.lane 1).state = .live ∧ b.su.mode = .active
      ∧ (axleOf 1500 .none).straddle = .none ∧ b.straddleSlot 1 = none
      ∧ reached b.now (timeAdd (b.now - BitVec.ofNat 32 (axleOf 1500 .none).age.toNat)
          (assemblyGap b.profile)) = false
      ∧ b.openVehicle 1 = none ∧ b'.openVehicle 1 = some (opened 4600 9)
      ∧ 1 ≤ (axleOf 1500 .none).spacing.toNat
      ∧ (axleOf 1500 .none).spacing.toNat ≤ maxAxleSpacing b'.profile
      ∧ service.blocks.su.mode ≠ .active ∧ (service.blocks.lane 1).state = .live
      ∧ ((withState 1 .faulted active).blocks.lane 1).state = .faulted := by
  unfold InOrder; decide

theorem test_straddle_premises :
    let b := active.blocks
    let b' := (withHalf 0 (half 0 .right 100030) active).blocks
    let event := b.now - BitVec.ofNat 32 (axleOf 0 .left).age.toNat
    InOrder (b.lane 1) 0 ∧ (b.lane 1).state = .live ∧ b.su.mode = .active ∧ b.straddleSlot 1 = none
      ∧ (0 : Lane).val + 1 = (1 : Lane).val ∧ laneInUse b.profile 0 = true
      ∧ laneApproach b.profile 0 = laneApproach b.profile 1 ∧ (b.lane 0).state = .live
      ∧ b.straddleSlot 0 = none
      ∧ reached b.now (timeAdd event (straddleWindow b.profile)) = false
      ∧ b'.straddleSlot 0 = some (half 0 .right 100030) ∧ (half 0 .right 100030).axle.lane = 0
      ∧ timeGap (half 0 .right 100030).axle.eventTime event ≤ straddleWindow b'.profile
      ∧ b'.openVehicle 0 = none
      ∧ reached b'.now (timeAdd (earlierTime 99990 event) (assemblyGap b'.profile)) = false
      ∧ (∀ q : Lane, ¬ (q.val + 1 = (0 : Lane).val)) ∧ b.openVehicle 0 = none
      ∧ reached b.now (timeAdd event (assemblyGap b.profile)) = false := by
  unfold InOrder; decide

theorem test_silence_premises :
    let u : LaneUnit := { LaneUnit.reset with state := .live, silence := some 100000 }
    let b := (withLane 1 u active).blocks
    let b' := (withLane 2 { u with restartCount := 1 } active).blocks
    let r : LaneUnit := { LaneUnit.reset with state := .restarting, pulseEnd := some 100000 }
    let b'' := (withLane 2 r active).blocks
    listening (b.lane 1).state = true ∧ (b.lane 1).silence = some 100000
      ∧ reached b.now 100000 = true ∧ b.openVehicle 1 = none ∧ b.straddleSlot 1 = none
      ∧ silenceRestarts b.profile 1 = false
      ∧ silenceRestarts b'.profile 2 = true ∧ (b'.lane 2).restartCount < restartLimit b'.profile
      ∧ (active.blocks.lane 0).silence.any (reached active.blocks.now) = false
      ∧ listening (State.reset.blocks.lane 0).state = false
      ∧ (b''.lane 2).state = .restarting ∧ (b''.lane 2).pulseEnd = some 100000
      ∧ (active.blocks.lane 2).state ≠ .restarting := by
  decide

/-- Vehicle 7 with its entry window at now, in a state. -/
def entering (st : VehicleState) : VehicleRecord :=
  { ahead 7 st with times := { (ahead 7 st).times with e0 := 100000, e1 := 100000 } }

theorem test_span_entry_premises :
    let b := (withRecord (entering .committed) active).blocks
    let time := b.now - BitVec.ofNat 32 0
    let v := entering .committed
    (b.lane 1).state = .live ∧ InOrder (b.lane 1) 0 ∧ b.su.mode = .active
      ∧ (1 : Lane).val = loopLane b.profile (laneApproach b.profile 1)
      ∧ heavyLenMin b.profile 1 ≤ (10 : BitVec 8).toNat ∧ b.NumbersDistinct
      ∧ v ∈ b.vt.table ∧ v.approach = laneApproach b.profile 1 ∧ v.state = .committed
      ∧ (time - v.times.e0).toNat ≤ (v.times.e1 - v.times.e0).toNat
      ∧ (∀ w ∈ b.vt.table, w = v)
      ∧ v.tReached b.now = false ∧ (b.vt.occupants.at .A).length < 24
      ∧ b.au.lock = false := by
  unfold InOrder Blocks.NumbersDistinct; decide

/-- A defied diversion, beside vehicle 8 ADMITTED, which the sweep revokes; and on a full list. -/
theorem test_defied_premises :
    let b := (withRecord (entering .diverted) (admitted8 9000 active)).blocks
    let finish := timeAdd b.now (crossingTime b.profile 800 1000 + exitMargin b.profile)
    let placed : Blocks := { b with au := { b.au with reservations :=
      ⟨.vehicle 7, .forced, .A, 4600, 100000, some finish⟩ :: b.au.reservations } }
    b.NumbersDistinct ∧ entering .diverted ∈ b.vt.table
      ∧ (∀ w ∈ b.vt.table, w.state = .admitted → ¬ ((b.now - w.times.e0).toNat
          ≤ (w.times.e1 - w.times.e0).toNat))
      ∧ reached b.now finish = false ∧ b.au.reservations.length < 40
      ∧ RevokesInOrder overloaded (fun _ => true) [ahead 8 .admitted] placed
      ∧ 40 ≤ (withReservations fullList (withRecord (entering .diverted) active)).blocks.au.reservations.length
      := by
  simp only [RevokesInOrder, Blocks.NumbersDistinct]; decide +kernel

/-- A vehicle at the head of the queue, its count report clearing span lock; a phantom there; and a
diverted vehicle whose divert window is open. -/
theorem test_span_exit_premises :
    let v := { ahead 7 .onSpan with entryTime := some 99000 }
    let b := (withAu (fun a => { a with lock := true })
      (withOccupant .A (.vehicle 7 99000 true) (withRecord v active))).blocks
    let after := b.withoutOccupants (Occupant.isVehicle 7)
    let c := (withOccupant .A (.phantom 3 99000 true 101000 false) active).blocks
    let w := { ahead 7 .diverted with times := { (ahead 7 .diverted).times with v0 := 99000 } }
    let d := (withRecord w active).blocks
    (b.lane 1).state = .live ∧ InOrder (b.lane 1) 0 ∧ b.su.mode = .active
      ∧ (1 : Lane).val = loopLane b.profile (laneApproach b.profile 1)
      ∧ heavyLenMin b.profile 1 ≤ (10 : BitVec 8).toNat
      ∧ b.vt.occupants.at .A = .vehicle 7 99000 true :: [] ∧ b.record 7 = some v ∧ v.reserved = true
      ∧ b.au.lock = true ∧ after.vt.occupants = ⟨[], []⟩ ∧ after.unreservedCount = 0
      ∧ c.vt.occupants.at .A = .phantom 3 99000 true 101000 false :: []
      ∧ d.NumbersDistinct ∧ d.vt.table = [w] ∧ w.approach = laneApproach d.profile 1
      ∧ (d.now - BitVec.ofNat 32 0 - w.times.v0).toNat ≤ (w.times.v1 - w.times.v0).toNat := by
  unfold InOrder Blocks.NumbersDistinct; decide

theorem test_unmatched_premises :
    let b := active.blocks
    (b.lane 0).state = .live ∧ InOrder (b.lane 0) 0
      ∧ (0 : Lane).val ≠ loopLane b.profile (laneApproach b.profile 0)
      ∧ (1 : Lane).val = loopLane b.profile (laneApproach b.profile 1)
      ∧ (9 : BitVec 8).toNat < heavyLenMin b.profile 1 ∧ service.blocks.su.mode ≠ .active
      ∧ heavyLenMin b.profile 1 ≤ (10 : BitVec 8).toNat ∧ b.su.mode = .active
      ∧ b.vt.occupants.at .A = [] ∧ b.vt.table = [] := by
  unfold InOrder; decide

/-- A phantom: queued with room and the sweep, on a full list, and with a full queue. -/
theorem test_phantom_premises :
    let b := active.blocks
    let full := (withReservations fullList active).blocks
    let queue := { active.blocks with vt := { active.blocks.vt with
      occupants := ⟨List.replicate 24 (.vehicle 1 99000 true), []⟩ } }
    b.au.lock = false ∧ b.phantom 0 = none ∧ (∀ j < (0 : Phantom), b.phantom j ≠ none)
      ∧ (b.vt.occupants.at .A).length < 24
      ∧ reached b.now (timeAdd b.now (travelUp (spanLen b.profile + defaultLength b.profile)
          (minSpeed b.profile) + exitMargin b.profile)) = false
      ∧ b.au.reservations.length < 40 ∧ RevokesInOrder overloaded (fun _ => true) [] b
      ∧ 40 ≤ full.au.reservations.length ∧ full.phantom 0 = none ∧ full.vt.table = []
      ∧ 24 ≤ (queue.vt.occupants.at .A).length := by
  simp only [RevokesInOrder]; decide +kernel

/-! ## Vehicles -/

theorem test_close_time_premises :
    let b := (withOpen 1 (opened 798 2) active).blocks
    b.openVehicle 1 = some (opened 798 2) ∧ reached b.now (opened 798 2).closeTime = true
      ∧ (opened 798 2).gross < lightThreshold b.profile ∧ (opened 798 2).axleCount ≤ 2
      ∧ (∀ v, active.blocks.openVehicle 1 = some v → reached active.blocks.now v.closeTime = false) :=
  ⟨by decide, by decide, by decide, by decide, fun v h => by
    have h' : (none : Option OpenVehicle) = some v := h
    cases h'⟩

/-- The premises that both verdicts of a closing vehicle share. -/
theorem test_verdict_premises :
    let v := opened 4300 3
    let b := (withOpen 1 v active).blocks
    let e := enteredRecord b.profile b.numberToAssign (closedVehicle b.profile 1 (b.lane 1).state false v)
    b.openVehicle 1 = some v ∧ reached b.now v.closeTime = true ∧ b.NumbersDistinct
      ∧ lightThreshold b.profile ≤ v.gross ∧ b.vt.table.length < 48
      ∧ reached b.now e.times.d = false
      ∧ reached b.now e.times.v1 = false ∧ reached b.now e.times.e1 = false
      ∧ spanCheck b e = true ∧ b.normalCount < 32
      ∧ b.au.reservations.length < 40 ∧ b.au.alarm = false ∧ b.au.lock = false
      ∧ (withAu (fun a => { a with lock := true }) active).blocks.au.lock ≠ false ∧ b.au.held = []
      ∧ 48 ≤ { active.blocks with
          vt := { active.blocks.vt with table := List.replicate 48 (ahead 7 .diverted) } }.vt.table.length := by
  unfold Blocks.NumbersDistinct; decide

/-- A vehicle that closes past its D, but not past its E1 and V1: with room, with the lock set, and on a
full list. -/
theorem test_late_premises :
    let v := { opened 4300 3 with lastEvent := 90000 }
    let b := (withOpen 1 v active).blocks
    let e := enteredRecord b.profile b.numberToAssign (closedVehicle b.profile 1 (b.lane 1).state false v)
    b.openVehicle 1 = some v ∧ reached b.now v.closeTime = true ∧ reached b.now e.times.d = true
      ∧ reached b.now e.times.e1 = false ∧ reached b.now e.times.v1 = false
      ∧ spanCheck b e = true ∧ b.au.reservations.length < 40 ∧ e.number ∉ b.au.held
      ∧ (withAu (fun a => { a with lock := true }) active).blocks.au.lock = true
      ∧ 40 ≤ (withReservations fullList active).blocks.au.reservations.length
      ∧ b.NumbersDistinct ∧ RevokesInOrder overloaded (fun _ => true) [] b := by
  simp only [RevokesInOrder, Blocks.NumbersDistinct]; decide +kernel

/-- The first diversion reason that applies: none, and each of the six. -/
theorem test_verdict_reasons :
    let b := (withOpen 1 (opened 4300 3) active).blocks
    b.su.settleExpiry = none ∧ b.effClosed.at .A = false ∧ (b.lane 1).state = .live
      ∧ b.effGross = 4400
      ∧ (closedVehicle b.profile 1 .live false (opened 4300 3)).groups.all
          (fun g => !decide (groupLimit b.profile g.kind < g.load)) = true
      ∧ (withRu [atTheLimits] active).blocks.effClosed.at .A = true
      ∧ (withSu (fun u => { u with settleExpiry := some 100001 }) active).blocks.su.settleExpiry.isSome
          = true
      ∧ ((withState 1 .degraded active).blocks.lane 1).state ≠ .live
      ∧ b.effGross < (opened 4401 3).gross
      ∧ (closedVehicle b.profile 1 .live false (opened 20000 3)).groups.any
          (fun g => decide (groupLimit b.profile g.kind < g.load)) = true := by
  decide

theorem test_hold_expiry_premises :
    let h := half 0 .right 100000
    let b := (withHalf 0 h active).blocks
    b.straddleSlot 0 = some h ∧ reached b.now h.expiry = true ∧ b.openVehicle 0 = none
      ∧ reached b.now (timeAdd h.axle.eventTime (assemblyGap b.profile)) = false
      ∧ active.blocks.straddleSlot 0 = none ∧ reached b.now (half 0 .right 100001).expiry = false := by
  decide

theorem test_deadline_premises :
    let at' (st : VehicleState) : Blocks :=
      (withRecord { ahead 7 st with times := { (ahead 7 st).times with d := 100000 } } active).blocks
    (((at' .admitted).record 7).map fun v => (v.state, v.dReached active.blocks.now,
        v.e1Reached active.blocks.now)) = some (.admitted, true, false)
      ∧ (((at' .held).record 7).map fun v => (v.state, v.delivery, v.flags.unwarned,
          v.v1Reached active.blocks.now)) = some (.held, none, false, false)
      ∧ (((at' .diverted).record 7).map (·.state) = some .diverted)
      ∧ (((at' .onSpan).record 7).map (·.state) = some .onSpan)
      ∧ (((withRecord (ahead 7 .admitted) active).blocks.record 7).map fun v =>
          v.dReached active.blocks.now) = some false := by
  decide

/-- Vehicle 7 with its D, E1 and V1, and what is reached of it. -/
def windowed (st : VehicleState) (d e1 v1 : Time) : Blocks := (withRecord { ahead 7 st with
  times := { (ahead 7 st).times with d, e1, v1 } } active).blocks
def reachedOf7 (b : Blocks) : Option (Bool × Bool × Bool × Bool) := (b.record 7).map fun v =>
  (v.dReached b.now, v.e1Reached b.now, v.v1Reached b.now, v.tReached b.now)

theorem test_window_end_premises :
    [windowed .admitted 101000 100000 103000, windowed .diverted 101000 103000 100000,
        windowed .diverted 99000 103000 100000, windowed .held 99000 100000 100000,
        windowed .held 101000 100000 100000, windowed .admitted 99000 103000 100000].map reachedOf7
      = [some (false, true, false, false), some (false, false, true, false),
        some (true, false, true, false), some (true, true, true, false),
        some (false, true, true, false), some (true, false, true, false)]
      ∧ (ahead 7 .diverted).delivery = none ∧ (ahead 7 .diverted).flags.unwarned = false
      ∧ active.blocks.record 7 = none := by
  decide

theorem test_occupancy_end_premises :
    let b := (withRecord (behind 7 .onSpan) active).blocks
    let b' := (withRecord (behind 7 .missing) active).blocks
    ((b.record 7).map fun v => (v.state, v.tReached b.now)) = some (.onSpan, true)
      ∧ b.au.alarm = false ∧ b.au.reservations = []
      ∧ overloaded { b with vt := { b.vt with table := b.vt.table.map fun w =>
          if w.number = 7 then { w with state := .overdue } else w } } = false
      ∧ ((b'.record 7).map fun v => (v.state, v.tReached b'.now)) = some (.missing, true)
      ∧ active.blocks.record 7 = none
      ∧ (let v := behind 7 .committed; v.e1Reached 100000 = true ∧ v.tReached 100000 = true)
      ∧ (let v := { behind 7 .diverted with delivery := some 99000 }
         v.v1Reached 100000 = true ∧ v.dReached 100000 = true ∧ v.delivery.isSome = true) := by
  decide

theorem test_overload_premises :
    let b := (withRecord (behind 7 .onSpan) (admitted8 5500 active)).blocks
    let own : Reservation := ⟨.vehicle 7, .normal, .A, 7000, 97000, none⟩
    let opened := { b with
      vt := { b.vt with table := b.vt.table.map fun w =>
        if w.number = 7 then { w with state := .overdue } else w }
      au := { b.au with reservations := own :: b.au.reservations } }
    (behind 7 .onSpan).reserved = true ∧ b.record 7 = some (behind 7 .onSpan) ∧ b.NumbersDistinct
      ∧ overloaded opened = true
      ∧ RevokesInOrder overloaded (fun _ => true) [ahead 8 .admitted] opened := by
  simp only [RevokesInOrder, Blocks.NumbersDistinct]; decide +kernel

/-- Vehicle 9 HELD, and the blocks that hold it beside vehicle 7, MISSING with its reservation. -/
def held9 : VehicleRecord := { ahead 9 .held with reserved := false, verdict := none, stamp := none }
def releasing : Blocks :=
  (withAu (fun a => { a with held := [9] }) (withReservations
    [⟨.vehicle 7, .normal, .A, 9000, 97000, some 110000⟩]
    (withRecord held9 (withRecord (behind 7 .missing) active)))).blocks

/-- A release after which the vehicle on the Held List is admitted; one of a closed approach is passed
over. -/
theorem test_readmission_premises :
    let freed := { releasing with au := { releasing.au with
      reservations := releasing.au.reservations.filter fun w => w.owner ≠ .vehicle 7 } }
    let closed := { releasing with ru := { stack := [atTheLimits] } }
    releasing.record 7 = some (behind 7 .missing) ∧ releasing.queued 7 = false
      ∧ releasing.au.alarm = false ∧ (∃ w ∈ releasing.au.reservations, w.owner = .vehicle 7)
      ∧ 7 ∉ releasing.au.held ∧ Readmits releasing.au.held freed (freed.readmitted held9)
      ∧ Readmits releasing.au.held closed closed :=
  ⟨by decide, by decide, by decide, by decide, by decide,
    .inr ⟨held9, by decide, by decide, by decide, by decide +kernel, .inl (by decide), rfl⟩,
    .inl ⟨fun r h => .inl (by obtain rfl : held9 = r := Option.some.inj h; decide), rfl⟩⟩

theorem test_phantom_end_premises :
    let o (late : Bool) (e : Time) : Occupant := .phantom 3 90000 true e late
    let b (late : Bool) (e : Time) : Blocks := (withOccupant .B (o late e) active).blocks
    (b false 100000).phantom 3 = some (o false 100000) ∧ reached active.blocks.now 100000 = true
      ∧ (b false 100000).au.alarm = false ∧ overloaded (b true 100000) = false
      ∧ active.blocks.phantom 3 = none ∧ (b true 100000).phantom 3 = some (o true 100000)
      ∧ (b false 100001).phantom 3 = some (o false 100001)
      ∧ reached active.blocks.now 100001 = false := by
  decide

/-- A phantom whose reservation becomes OPEN, beside vehicle 8 ADMITTED, which the sweep revokes. -/
theorem test_phantom_sweep_premises :
    let b := (withOccupant .B (.phantom 3 90000 true 100000 false) (admitted8 5500 active)).blocks
    let own (finish : Option Time) : Reservation := ⟨.phantom 3, .phantom, .B, 7000, 90000, finish⟩
    let holds (finish : Option Time) : Blocks := { b with
      au := { b.au with reservations := own finish :: b.au.reservations } }
    (∃ w ∈ (holds (some 100000)).au.reservations, w.owner = .phantom 3)
      ∧ (holds (some 100000)).NumbersDistinct ∧ overloaded (holds none) = true
      ∧ RevokesInOrder overloaded (fun _ => true) [ahead 8 .admitted] (holds none) := by
  simp only [RevokesInOrder, Blocks.NumbersDistinct]; decide +kernel

/-! ## Directives, faults and commands -/

/-- 8.7.1: the queue P1, D2, D3, P4, D5 to D16, what joins it, and what is dropped. -/
theorem test_full_queue :
    let of (kind : DirectiveKind) (n : Nat) : Directive :=
      { directive kind with lane := 4, vehicle := BitVec.ofNat 16 n }
    let on := standingDirective .standingOn 4 .laneDown
    let q := (List.range 16).map fun i => of (if i = 0 ∨ i = 3 then .proceed else .divert) (i + 1)
    let left := (q.eraseIdx 3).eraseIdx 0 ++ [of .divert 17, of .divert 18]
    joinsAll q [of .divert 17, of .divert 18]
        = { queue := left, marks := [], dropped := false }
      ∧ joins left (of .divert 19) = { queue := left, marks := [], dropped := true }
      ∧ joins left on = { queue := left, marks := [4], dropped := true }
      ∧ joins left (of .proceed 20) = { queue := left, marks := [], dropped := true } := by
  decide +kernel

/-- The drop of vehicle 19's DIVERT: the overflow condition with its flag and beacon, and UNWARNED. -/
theorem test_drop :
    let b := (withDu (fun u => { u with
      queues := ⟨[], List.replicate 16 (directive .divert)⟩, beacon := ⟨.dark, .dark⟩ })
      (withRecord { ahead 19 .diverted with verdict := some (.divert .closed) } active)).blocks
    let c := b.told .B { directive .divert with vehicle := 19 }
    c.du.overflow = ⟨false, true⟩ ∧ c.du.beacon.b = .steady ∧ c.du.queues = b.du.queues
      ∧ c.flagSet .directiveOverflow = true ∧ c.flagSet .unwarned = true
      ∧ (c.record 19).map (·.flags.unwarned) = some true := by
  decide +kernel

theorem test_directive_pop_premises :
    let s := withDu (fun u => { u with
      queues := ⟨[directive .proceed], []⟩
      lanes := u.lanes.set (1 : Lane) { state := .on, reason := some .supply, resend := true } }) active
    State.reset.blocks.su.mode ≠ .service ∧ State.reset.blocks.su.mode ≠ .active
      ∧ service.blocks.su.mode = .service ∧ service.blocks.du.queues.at .B = []
      ∧ s.blocks.du.queues.at .A = directive .proceed :: [] ∧ s.blocks.NumbersDistinct
      ∧ resentTo s.blocks .A = [standingDirective .standingOn 1 .supply]
      ∧ (directive .proceed).tracked = true
      ∧ { directive .proceed with tracked := false }.tracked = false := by
  unfold Blocks.NumbersDistinct; decide

theorem test_hold_and_settle_premises :
    let b := (withDu (fun u => { u with hold := ⟨some ⟨96000, 100000⟩, some ⟨96000, 100001⟩⟩ })
      active).blocks
    let c := (withSu (fun u => { u with settleExpiry := some 100000 }) active).blocks
    b.du.hold.at .A = some ⟨96000, 100000⟩ ∧ reached b.now 100000 = true
      ∧ b.du.hold.at .B = some ⟨96000, 100001⟩ ∧ reached b.now 100001 = false
      ∧ c.su.mode = .active ∧ c.su.settleExpiry = some 100000
      ∧ service.blocks.su.mode ≠ .active := by
  decide

/-- A fault record of master 4. -/
def misalignedFault : FaultRecord :=
  { kind := .misaligned, subject := .master 4, clock16 := 7, location := 1 }

theorem test_fault_pop_premises :
    active.blocks.su.mode ≠ .startUp ∧ active.blocks.csu.faultLog = []
      ∧ (withCsu (fun c => { c with faultLog := List.replicate 8 misalignedFault })
          active).blocks.csu.faultLog = misalignedFault :: List.replicate 7 misalignedFault
      ∧ State.reset.blocks.su.mode = .startUp := by
  decide

theorem test_mode_table_premises :
    bypass.blocks.su.mode = .bypass ∧ service.blocks.su.mode = .service
      ∧ active.blocks.su.mode = .active ∧ bypass.Settled ∧ active.Settled
      ∧ (withCsu (fun c => { c with flags := 0x200, enables := 0x200 }) active).blocks.attn = true := by
  unfold State.Settled; decide

theorem test_start_stop_premises :
    service.blocks.su.mode = .service ∧ active.blocks.su.mode = .active
      ∧ (∀ x : Approach, (active.blocks.directives x).length + 6 ≤ 16)
      ∧ (withCsu (fun c => { c with journal := List.replicate 8 (journalEntry 0) })
          active).blocks.csu.journal.length ≤ 8 :=
  ⟨by decide, by decide, fun x => by cases x <;> decide, by decide⟩

theorem test_enter_bypass_premises :
    service.blocks.su.mode = .service ∧ service.Settled
      ∧ ∀ (k : Master) (t : Transaction) (st : PtuPlace), service.slot k ≠ .translating t st :=
  ⟨by decide, by unfold State.Settled; decide, fun k t st h => by
    have hk : ∀ k : Master, service.slot k = .free := by decide
    rw [hk k] at h; cases h⟩

/-- SERVICE with one restriction, and with stored page 0 tightened below it. -/
def restricted : State := withRu [{ atTheLimits with closed := none }] service
def tightened : State :=
  withSu (fun u => { u with store := u.store.set 0 (page [4399, 9000, 9000, 9000, 9000, 12000, 3, 800]) })
    restricted

theorem test_apply_profile_premises :
    (withSu (fun u => { u with storeState := .erasing 0 }) bypass).blocks.su.storeState ≠ .idle
      ∧ service.blocks.su.storeState = .idle ∧ ¬ (∀ i : Fin 5, State.reset.blocks.su.validity[i] = true)
      ∧ (∀ i : Fin 5, service.blocks.su.validity[i] = true)
      ∧ (∃ e ∈ tightened.blocks.ru.stack, looserThan tightened.blocks.su.store e = true)
      ∧ (∀ e ∈ restricted.blocks.ru.stack, looserThan restricted.blocks.su.store e = false)
      ∧ restricted.ptu.queue = [] ∧ ∀ k : Master, (restricted.slot k).isAt .sweepWait = false := by
  decide

theorem test_store_command_premises :
    (4 < (5 : BitVec 8).toNat) ∧ (15 < (16 : BitVec 8).toNat) ∧ (16 < (17 : BitVec 8).toNat)
      ∧ (0x3F001A : Addr).toNat % 4 ≠ 0 ∧ 2 ^ 24 < (0xFFFFFC : Addr).toNat + 4 * (2 : BitVec 8).toNat
      ∧ ¬ (2 ^ 24 < (0xFFFFFC : Addr).toNat + 4 * (1 : BitVec 8).toNat)
      ∧ bypass.blocks.su.mode ≠ .startUp ∧ bypass.blocks.su.storeState = .idle
      ∧ sourcing.blocks.su.storeState ≠ .idle
      ∧ (withSu (fun u => { u with limlock := true }) active).blocks.su.limlock = true
      ∧ bypass.blocks.su.limlock = false ∧ (4 : BitVec 8).toNat ≤ 4 := by
  decide

theorem test_invalidate_premises :
    service.blocks.su.mode = .service ∧ 7 < (8 : BitVec 8).toNat ∧ (8 : BitVec 8) ≠ 0xFF
      ∧ (sweeping .all 0 0).ptu.sweep.running = true
      ∧ (7 : BitVec 8).toNat = (7 : Master).val ∧ service.ptu.sweep.running = false := by
  decide

/-- The operands of a push at the statutory limits, and of one that closes both approaches. -/
def pushed : PushOperands :=
  { origin := 0xFF, spanLoadPresent := true, heavyPresent := true, grossPresent := true
    closedPresent := true, spanLoad := 12000, heavy := 3, closed := 3, gross := 4400 }

theorem test_restriction_command_premises :
    service.blocks.su.mode = .service
      ∧ (pushed.grossPresent = true ∧ { pushed with gross := 0 }.gross = 0)
      ∧ (pushed.spanLoadPresent = true ∧ { pushed with spanLoad := 0 }.spanLoad = 0)
      ∧ (pushed.heavyPresent = true ∧ 8 < { pushed with heavy := 9 }.heavy.toNat)
      ∧ (pushed.closedPresent = true ∧ 3 < { pushed with closed := 4 }.closed.toNat)
      ∧ pushed.spanLoad ≠ 0 ∧ pushed.gross ≠ 0 ∧ pushed.heavy ≠ 0 ∧ pushed.heavy.toNat ≤ 8
      ∧ pushed.closed.toNat ≤ 3
      ∧ grossLimit service.blocks.profile < { pushed with gross := 4401 }.gross.toNat
      ∧ ¬ (grossLimit service.blocks.profile < pushed.gross.toNat)
      ∧ ¬ (spanHeavyLimit service.blocks.profile < pushed.heavy.toNat)
      ∧ ¬ (spanLoadLimit service.blocks.profile < pushed.spanLoad.toNat)
      ∧ 8 ≤ (withRu (List.replicate 8 atTheLimits) service).blocks.ru.stack.length
      ∧ service.blocks.ru.stack.length < 8 ∧ service.blocks.ru.stack = []
      ∧ 0x100 < (0x101 : BitVec 9).toNat ∧ (0x100 : BitVec 9).toNat ≤ 0x100
      ∧ (0x0FF : BitVec 9).toNat ≠ atTheLimits.origin.toNat
      ∧ (0x001 : BitVec 9).toNat = atTheLimits.origin.toNat
      ∧ (withRu [atTheLimits] service).blocks.ru.stack = atTheLimits :: []
      ∧ Blocks.effClosed { service.blocks with ru := { stack := [{ atTheLimits with closed := none }] } }
          = service.blocks.effClosed := by
  decide

/-- A restriction that closes approach A, where the vehicle ADMITTED is revoked and no sweep follows. -/
theorem test_closure_premises :
    let b := (admitted8 5500 active).blocks
    let after := { b with ru := { stack := [{ atTheLimits with spanLoad := none }] } }
    after.effClosed.at .A = true ∧ b.effClosed.at .A = false ∧ after.effClosed.at .B = false
      ∧ b.NumbersDistinct
      ∧ RevokesInOrder (fun _ => true) (fun r => decide (r.approach = .A)) [ahead 8 .admitted] after
      ∧ RevokesInOrder overloaded (fun _ => true) [] (after.revoked (ahead 8 .admitted)) := by
  simp only [RevokesInOrder, Blocks.NumbersDistinct]
  exact ⟨by decide, by decide, by decide, by decide, by decide +kernel, by decide +kernel⟩

/-- One that tightens the span load below what is reserved, and its lifting, which loosens it. -/
theorem test_tightening_premises :
    let b := (admitted8 5500 active).blocks
    let after := { b with
      ru := { stack := [{ atTheLimits with spanLoad := some 5000, closed := none }] } }
    after.effSpanLoad < b.effSpanLoad ∧ after.effClosed = b.effClosed
      ∧ RevokesInOrder overloaded (fun _ => true) [ahead 8 .admitted] after := by
  simp only [RevokesInOrder]
  exact ⟨by decide, by decide, by decide +kernel⟩

/-- A record of no queue, one behind the head of its queue, and the phantoms of an approach, with span
lock set and a vehicle on the Held List. -/
theorem test_clear_premises :
    let b := (withAu (fun a => { a with lock := true, held := [9] })
      (withOccupant .A (.phantom 3 90000 true 101000 false)
      (withOccupant .A (.vehicle 7 99000 true)
      (withOccupant .A (.vehicle 6 98000 true)
      (withRecord (ahead 7 .onSpan) (withRecord held9 active)))))).blocks
    active.blocks.su.mode = .active ∧ active.blocks.record 7 = none
      ∧ b.record 9 = some held9 ∧ b.queued 9 = false
      ∧ b.record 7 = some (ahead 7 .onSpan) ∧ b.queued 7 = true ∧ b.au.lock = true
      ∧ (b.vt.occupants.at .A).any Occupant.phantomKind = true
      ∧ reservedPhantoms (b.vt.occupants.at .A) = [3]
      ∧ (b.vt.occupants.at .B).any Occupant.phantomKind = false ∧ 1 < (2 : BitVec 8).toNat := by
  decide

theorem test_lane_command_premises :
    service.blocks.su.mode = .service ∧ 5 < (6 : BitVec 8).toNat
      ∧ (5 : BitVec 8).toNat = (5 : Lane).val
      ∧ ((withState 5 .unused service).blocks.lane 5).state = .unused
      ∧ ((withState 5 .restarting service).blocks.lane 5).state = .restarting
      ∧ ((withState 5 .disabled service).blocks.lane 5).state = .disabled
      ∧ ((withState 5 .silent service).blocks.lane 5).state = .silent
      ∧ accepting (active.blocks.lane 5).state = true ∧ active.blocks.openVehicle 5 = none
      ∧ active.blocks.straddleSlot 5 = none ∧ (service.blocks.lane 5).state ≠ .disabled := by
  decide

/-! ## Reset, start-up and supply -/

theorem test_reset_premises :
    ∀ m : Master, (withSlot 3 (.held reading) active).bus[m] = [] := by
  decide

/-- After step 4 of start-up, with a mode chosen. -/
def starting (mode : Mode) : State := { State.reset with
  blocks := { Blocks.reset with su := { Supervisor.reset with
    startUp := .chosen mode, store := sample, supply := .warning } } }

theorem test_start_up_premises :
    State.reset.blocks.su.startUp = .causeHolds ∧ active.blocks.su.startUp ≠ .causeHolds
      ∧ (starting .active).blocks.su.startUp = .chosen .active
      ∧ (starting .bypass).blocks.su.startUp = .chosen .bypass
      ∧ (starting .active).blocks.du = DirectiveUnit.reset
      ∧ (starting .active).blocks.su.active = none ∧ (starting .active).blocks.ru.stack = []
      ∧ (∀ m : Master, (starting .active).slot m = .free)
      ∧ (∀ m : Master, (starting .active).bus[m] = [])
      ∧ ∀ l : Lane, (starting .active).blocks.lane l = LaneUnit.reset := by
  decide

/-- After step 4, with transactions HELD: of the translating masters 3 and 4 and the DIRECT master 2,
of master 4 alone, and of master 7 alone for its fallback page. -/
theorem test_held_start_up_premises :
    let many := withSlot 2 (.held writing) (withSlot 3 (.held reading)
      (withSlot 4 (.held reading) (starting .active)))
    let one := withSlot 4 (.held reading) (starting .active)
    let fallback : Transaction := { address := 0x104, access := .read }
    let page := withSlot 7 (.held fallback) (starting .bypass)
    many.ptu = Ptu.reset ∧ many.mp.cycle = .idle ∧ many.NothingWaits ∧ many.blocks.du = DirectiveUnit.reset
      ∧ (∀ m : Master, many.slot m = .free ∨ many.slot m = .held reading ∨ many.slot m = .held writing)
      ∧ (∀ m : Master, many.bus[m] = []) ∧ isDirect sample 2 = true ∧ isDirect sample 3 = false
      ∧ (∀ j : Master, j ≠ 4 → one.slot j = .free) ∧ reading.address.toNat % 4 = 0
      ∧ (∀ j : Master, j ≠ 7 → page.slot j = .free) ∧ fallback.address.toNat % 4 = 0
      ∧ fallback.address.toNat < 0x200 := by
  unfold State.NothingWaits; decide

theorem test_supply_premises :
    active.blocks.su.supply = .normal ∧ active.blocks.su.startUp = .over
      ∧ (starting .service).blocks.su.supply = .warning
      ∧ (starting .service).blocks.su.startUp = .chosen .service
      ∧ active.blocks.su.supply ≠ .warning ∧ State.reset.blocks.su.startUp = .causeHolds := by
  decide

end Sys2Proof.Tests
end

namespace Sys2Proof.Machine

/-! ## A misaligned transaction (R2, R4, R166) -/

/-- A fault record joins the Fault Log while it has room, the overrun marks one that finds none, and
the FAULT flag is asked for either way (R166). -/
theorem sendFault_eq (f : FaultRecord) (b : Blocks) :
    sendFault f b = { b with csu := { b.csu with
      faultLog := if b.csu.faultLog.length < 8 then b.csu.faultLog ++ [f] else b.csu.faultLog
      overrun := if b.csu.faultLog.length < 8 then b.csu.overrun else true
      flags := b.csu.flags ||| Flag.fault.bit } } := by
  by_cases room : b.csu.faultLog.length < 8 <;>
    simp [sendFault, faultLogCapacity, Blocks.onCsu, Blocks.request, room]

/-- A refusal of a master whose slot is FREE adds its answer and its fault record, and leaves the ports
as they are. -/
theorem refuse_free {s : State} {m : Master} (hf : s.slot m = .free) (kind : FaultKind) (a : Addr) :
    refuse m kind a s = { s with
      answers := s.answers ++ [{ master := m, okay := false, data := allOnes }]
      blocks := masterFault kind m a s.blocks } := by
  have hslot : (s.onBlocks (masterFault kind m a)).slot m = .free := hf
  rw [refuse, answer, setSlot_free hslot]
  rfl

/-- Settles O12: the SP refuses the access as it takes it, whatever the mode, and is left with nothing
more to do. -/
theorem misalignedTransactionIsRefused : Obligations.MisalignedTransactionIsRefused := by
  intro s m a x hs hf ha c fault
  refine exec_transaction hs m hf a x _ ?_ hs
  have taken : takeTransaction m ⟨a, x⟩ s.fresh = refuse m .misaligned a s.fresh :=
    if_pos ((misaligned_iff a).mpr ha)
  rw [taken, refuse_free (s := s.fresh) hf, masterFault, sendFault_eq]
  rfl

/-! ## The order of the grant (R11) -/

/-- The search order is the masters from the one after the pointer, round to the pointer itself. -/
theorem searchOrder_eq (p : Master) :
    searchOrder p = (List.finRange 8).map fun k => p + 1 + k := by
  revert p; decide

/-- The search finds the first master after the pointer with a forwarded request waiting. -/
theorem nextForward_eq_some {s : State} {k : Fin 8} (hk : s.forwardWaits (s.mp.pointer + 1 + k) = true)
    (before : ∀ j < k, s.forwardWaits (s.mp.pointer + 1 + j) = false) :
    s.nextForward = some (s.mp.pointer + 1 + k) := by
  rw [State.nextForward, searchOrder_eq, List.find?_map, Option.map_eq_some_iff]
  refine ⟨k, ?_, rfl⟩
  rw [List.find?_eq_some_iff_getElem]
  refine ⟨hk, k.val, by simp, by simp, fun j hj => ?_⟩
  simpa using before ⟨j, hj.trans k.isLt⟩ hj

/-- With no forwarded request waiting the search finds no master. -/
theorem nextForward_eq_none {s : State} (h : ∀ m, s.forwardWaits m = false) :
    s.nextForward = none := by
  simp [State.nextForward, h]

/-- R11, step 1: the walk is granted before all others. -/
theorem grant_walk {s : State} {c : Cycle} (hw : s.walkRequest = some c) :
    grant s = grantOther c s := by
  simp [grant, hw]

/-- R11, step 2: at a wait count of 4 the journal word is granted before any forwarded request. -/
theorem grant_journal_full {s : State} {c : Cycle} (hw : s.walkRequest = none)
    (hj : s.journalRequest = some c) (full : s.mp.waitCount = 4) : grant s = grantJournal c s := by
  cases hn : s.nextForward <;> simp [grant, grantBelowWalk, hw, hj, hn, full]

/-- R11, step 3: with no journal word that has waited 4 grants, the first forwarded request of the
search is granted. -/
theorem grant_forward {s : State} {m : Master} (hw : s.walkRequest = none)
    (hj : ¬ (s.journalRequest.isSome = true ∧ s.mp.waitCount = 4)) (hn : s.nextForward = some m) :
    grant s = grantForward m s := by
  cases hr : s.journalRequest with
  | none => simp [grant, grantBelowWalk, hw, hr, hn]
  | some c =>
    have notFull : s.mp.waitCount ≠ 4 := fun full => hj ⟨by simp [hr], full⟩
    simp [grant, grantBelowWalk, hw, hr, hn, notFull]

/-- R11, step 4: with no forwarded request waiting, the journal word is granted. -/
theorem grant_journal {s : State} {c : Cycle} (hw : s.walkRequest = none)
    (hj : s.journalRequest = some c) (hn : s.nextForward = none) : grant s = grantJournal c s := by
  simp [grant, grantBelowWalk, hw, hj, hn]

/-- R11, last step: the profile source word is granted where nothing else waits. -/
theorem grant_source {s : State} {c : Cycle} (hw : s.walkRequest = none)
    (hj : s.journalRequest = none) (hn : s.nextForward = none) (hc : s.sourceRequest = some c) :
    grant s = grantOther c s := by
  simp [grant, grantBelowWalk, hw, hj, hn, hc]

/-- Where nothing waits, nothing is granted. -/
theorem grant_nothing {s : State} (h : s.NothingWaits) : grant s = s := by
  obtain ⟨hw, hj, hc, hf⟩ := h
  simp [grant, grantBelowWalk, hw, hj, hc, nextForward_eq_none hf]

/-- Settles O19: one lemma for each step of R11; what a step moves is what its grant writes. -/
theorem grantFollowsTheOrder : Obligations.GrantFollowsTheOrder := by
  intro s
  refine ⟨grant_onMp s, ?walk, ?journalFull, ?forward, ?journal, ?source, grant_nothing, rfl⟩
  case walk => intro c hw; rw [grant_walk hw]; rfl
  case journalFull => intro c hw hj full; rw [grant_journal_full hw hj full]; rfl
  case forward =>
    intro k hw hj hk before
    rw [grant_forward hw hj (nextForward_eq_some hk before)]; rfl
  case journal => intro c hw hj hf; rw [grant_journal hw hj (nextForward_eq_none hf)]; rfl
  case source => intro c hw hj hf hc; rw [grant_source hw hj (nextForward_eq_none hf) hc]; rfl

end Sys2Proof.Machine

namespace Sys2Proof.Machine

/-! ## A fill of the Translation Buffer (R28)

The lemmas follow the order in which R28 chooses the way: one equation for each case, then what each
written way does to the soundness of the set, then the set that a fill goes to. -/

section

variable {tag : BitVec 8} {e : WalkedEntry} {b : BufferSet}

/-- A way matches a tag when it is valid and holds that tag. -/
@[simp] theorem matchesTag_iff {y : Entry} : y.matchesTag tag = true ↔ y.valid = true ∧ y.tag = tag := by
  simp [Entry.matchesTag]

@[simp] theorem filledEntry_valid : (filledEntry tag e).valid = true := rfl
@[simp] theorem filledEntry_tag : (filledEntry tag e).tag = tag := rfl
@[simp] theorem filledEntry_walked : (filledEntry tag e).walked = e := rfl

/-- The check value that a fill writes is the one of the fields it writes (R17). -/
@[simp] theorem filledEntry_checks : (filledEntry tag e).checks = true := by
  rw [Entry.checks, filledEntry_walked, filledEntry_tag]
  exact decide_eq_true rfl

/-! ### The way that is chosen -/

/-- R28, case 1, for way A. -/
theorem fill_of_wayA_matches (hA : b.wayA.valid = true ∧ b.wayA.tag = tag) :
    b.fill tag e = { b with wayA := filledEntry tag e } := by
  simp [BufferSet.fill, hA]

/-- R28, case 1, for way B. -/
theorem fill_of_wayB_matches (hA : ¬ (b.wayA.valid = true ∧ b.wayA.tag = tag))
    (hB : b.wayB.valid = true ∧ b.wayB.tag = tag) :
    b.fill tag e = { b with wayB := filledEntry tag e } := by
  simp only [BufferSet.fill, matchesTag_iff, if_neg hA, if_pos hB]

/-- R28, cases 2 and 3: an invalid way A is written whether or not way B is invalid too. -/
theorem fill_of_wayA_invalid (hB : ¬ (b.wayB.valid = true ∧ b.wayB.tag = tag))
    (freeA : b.wayA.valid = false) : b.fill tag e = { b with wayA := filledEntry tag e } := by
  simp [BufferSet.fill, freeA, if_neg hB]

/-- R28, case 2: way B is the one invalid way. -/
theorem fill_of_wayB_invalid (hA : ¬ (b.wayA.valid = true ∧ b.wayA.tag = tag))
    (usedA : b.wayA.valid = true) (freeB : b.wayB.valid = false) :
    b.fill tag e = { b with wayB := filledEntry tag e } := by
  simp only [BufferSet.fill, matchesTag_iff, if_neg hA]
  simp [usedA, freeB]

/-- R28, case 4, a full set whose toggle names way A. -/
theorem fill_of_toggleA (hA : ¬ (b.wayA.valid = true ∧ b.wayA.tag = tag))
    (hB : ¬ (b.wayB.valid = true ∧ b.wayB.tag = tag))
    (usedA : b.wayA.valid = true) (usedB : b.wayB.valid = true)
    (named : b.toggle = .A) :
    b.fill tag e = { b with wayA := filledEntry tag e, toggle := .B } := by
  simp only [BufferSet.fill, matchesTag_iff, if_neg hA, if_neg hB]
  simp [usedA, usedB, named]

/-- R28, case 4, a full set whose toggle names way B. -/
theorem fill_of_toggleB (hA : ¬ (b.wayA.valid = true ∧ b.wayA.tag = tag))
    (hB : ¬ (b.wayB.valid = true ∧ b.wayB.tag = tag))
    (usedA : b.wayA.valid = true) (usedB : b.wayB.valid = true)
    (named : b.toggle = .B) :
    b.fill tag e = { b with wayB := filledEntry tag e, toggle := .A } := by
  simp only [BufferSet.fill, matchesTag_iff, if_neg hA, if_neg hB]
  simp [usedA, usedB, named]

/-! ### No two valid ways share a tag -/

/-- Writing way A keeps a set sound where way B is not a valid way of the tag. -/
theorem sound_writeA (hb : b.Sound) (hB : ¬ (b.wayB.valid = true ∧ b.wayB.tag = tag)) (t : Way) :
    BufferSet.Sound { wayA := filledEntry tag e, wayB := b.wayB, toggle := t } := by
  obtain ⟨-, -, checksB⟩ := hb
  exact ⟨fun ⟨_, usedB, same⟩ => hB ⟨usedB, same.symm⟩, fun _ => filledEntry_checks, checksB⟩

/-- Writing way B keeps a set sound where way A is not a valid way of the tag. -/
theorem sound_writeB (hb : b.Sound) (hA : ¬ (b.wayA.valid = true ∧ b.wayA.tag = tag)) (t : Way) :
    BufferSet.Sound { wayA := b.wayA, wayB := filledEntry tag e, toggle := t } := by
  obtain ⟨-, checksA, -⟩ := hb
  exact ⟨fun ⟨usedA, _, same⟩ => hA ⟨usedA, same⟩, checksA, fun _ => filledEntry_checks⟩

/-- A fill keeps a set sound: in each case of R28 the way left as it was is not a valid way of the tag. -/
theorem sound_fill (hb : b.Sound) : (b.fill tag e).Sound := by
  by_cases hA : b.wayA.valid = true ∧ b.wayA.tag = tag
  · have hB : ¬ (b.wayB.valid = true ∧ b.wayB.tag = tag) := by
      obtain ⟨noPair, -, -⟩ := hb
      rintro ⟨usedB, tagB⟩
      exact noPair ⟨hA.1, usedB, hA.2.trans tagB.symm⟩
    rw [fill_of_wayA_matches hA]
    exact sound_writeA hb hB _
  by_cases hB : b.wayB.valid = true ∧ b.wayB.tag = tag
  · rw [fill_of_wayB_matches hA hB]
    exact sound_writeB hb hA _
  cases usedA : b.wayA.valid with
  | false =>
    rw [fill_of_wayA_invalid hB usedA]
    exact sound_writeA hb hB _
  | true =>
    cases usedB : b.wayB.valid with
    | false =>
      rw [fill_of_wayB_invalid hA usedA usedB]
      exact sound_writeB hb hA _
    | true =>
      cases named : b.toggle with
      | A =>
        rw [fill_of_toggleA hA hB usedA usedB named]
        exact sound_writeA hb hB _
      | B =>
        rw [fill_of_toggleB hA hB usedA usedB named]
        exact sound_writeB hb hA _

/-! ### The set that is filled -/

/-- A set of the buffer after a change of that set. -/
@[simp] theorem set_onSet_same (p : Ptu) (m : Master) (i : Fin 16) (f : BufferSet → BufferSet) :
    (p.onSet m i f).set m i = f (p.set m i) := by
  simp [Ptu.set, Ptu.onSet]

/-- A change of one set leaves every other set as it was, in its own area and in the others. -/
theorem set_onSet_other (p : Ptu) {m n : Master} {i j : Fin 16} (f : BufferSet → BufferSet)
    (h : n ≠ m ∨ j ≠ i) : (p.onSet m i f).set n j = p.set n j := by
  by_cases area : n = m
  · subst area
    have index : i.val ≠ j.val := fun same => h.resolve_left (· rfl) (Fin.ext same.symm)
    simp [Ptu.set, Ptu.onSet, Vector.getElem_set_ne, index]
  · have index : m.val ≠ n.val := fun same => area (Fin.ext same.symm)
    simp [Ptu.set, Ptu.onSet, Vector.getElem_set_ne, index]

/-- A walk with both marks clear fills the set of its address in its master's area (R28, R29). -/
theorem fillBuffer_of_unmarked {k : Walk} (swept : k.areaSwept = false)
    (applied : k.profileApplied = false) (a : Addr) (p : Ptu) :
    fillBuffer k a e p = p.onSet k.master (addrSet a) (BufferSet.fill (addrTag a) e) := by
  simp [fillBuffer, swept, applied]

end

/-- The set index of an address is its page number modulo 16. -/
theorem addrSet_val (a : Addr) : (addrSet a).val = a.toNat / 4096 % 16 := by
  simp [addrSet, Nat.shiftRight_eq_div_pow]

/-- Settles O24: one equation for each case of R28, the soundness of the set through the same cases,
and the set of the walked address as the one set that changes. -/
theorem fillFollowsItsOrder : Obligations.FillFollowsItsOrder := by
  intro tag e b new mine
  refine ⟨⟨filledEntry_valid, filledEntry_tag, filledEntry_walked, filledEntry_checks⟩,
    fill_of_wayA_matches, fill_of_wayB_matches, fun _ => fill_of_wayA_invalid, fill_of_wayB_invalid,
    ?full, sound_fill, ?filledSet⟩
  case full =>
    intro hA hB usedA usedB
    cases named : b.toggle with
    | A => exact fill_of_toggleA hA hB usedA usedB named
    | B => exact fill_of_toggleB hA hB usedA usedB named
  case filledSet =>
    intro k a p swept applied
    rw [fillBuffer_of_unmarked swept applied]
    exact ⟨set_onSet_same .., addrSet_val a, fun _ _ other => set_onSet_other p _ other⟩

end Sys2Proof.Machine

namespace Sys2Proof.Machine

/-! ## Starting a program or an erase of the Profile Store (R174, R176)

The two commands share their tests. The lemmas follow the order of R174: what the operands name, the
refusals of a busy store and of a guarded page, the start, and the command that records the result. -/

section

variable {page first count : BitVec 8} {source : Addr}

/-! ### The operands -/

theorem pageOf_eq_none_iff : pageOf page = none ↔ 4 < page.toNat := by
  rw [Nat.lt_iff_add_one_le]
  simp [pageOf]

/-- An operand of at most 4 names the page of that number. -/
theorem exists_pageOf (h : page.toNat ≤ 4) :
    ∃ p : Fin 5, p.val = page.toNat ∧ pageOf page = some p :=
  ⟨⟨page.toNat, Nat.lt_succ_of_le h⟩, rfl, dif_pos _⟩

theorem startWordOf_eq_none_iff : startWordOf first = none ↔ 15 < first.toNat := by
  rw [Nat.lt_iff_add_one_le]
  simp [startWordOf]

/-- An operand of at most 15 names the start word of that number. -/
theorem exists_startWordOf (h : first.toNat ≤ 15) :
    ∃ w : Fin 16, w.val = first.toNat ∧ startWordOf first = some w :=
  ⟨⟨first.toNat, Nat.lt_succ_of_le h⟩, rfl, dif_pos _⟩

/-- Only the operand 0 names page 0. -/
theorem page_eq_zero_iff {p : Fin 5} (hp : p.val = page.toNat) : p = 0 ↔ page = 0 := by
  rw [Fin.ext_iff, hp, ← BitVec.toNat_inj]; rfl

/-- The operands of a program that R174 answers with BAD_OPERAND. -/
def BadProgram (page first count : BitVec 8) (source : Addr) : Prop :=
  4 < page.toNat ∨ 15 < first.toNat ∨ count = 0 ∨ 16 < count.toNat
    ∨ source.toNat % 4 ≠ 0 ∨ 2 ^ 24 < source.toNat + 4 * count.toNat

/-- The test of the count, the alignment and the end of the source. -/
theorem sourceFits_iff :
    (inRange count.toNat 1 16 && !misaligned source
        && decide (source.toNat + 4 * count.toNat ≤ 2 ^ 24)) = true
      ↔ count ≠ 0 ∧ count.toNat ≤ 16 ∧ source.toNat % 4 = 0
        ∧ source.toNat + 4 * count.toNat ≤ 2 ^ 24 := by
  have positive : 1 ≤ count.toNat ↔ count ≠ 0 := by
    rw [ne_eq, ← BitVec.toNat_inj, Nat.one_le_iff_ne_zero]; rfl
  have alignment : misaligned source = false ↔ source.toNat % 4 = 0 := by
    rw [← Bool.not_eq_true, misaligned_iff, not_not]
  simp only [inRange, Bool.and_eq_true, Bool.not_eq_true', decide_eq_true_eq, positive, alignment,
    and_assoc]

/-- Operands that fail a test of R174 give no program buffer. -/
theorem programOf_bad (bad : BadProgram page first count source) :
    programOf page first count source = none := by
  unfold programOf
  split
  next p w hp hw =>
    have pageNamed : ¬ 4 < page.toNat := by simp [← pageOf_eq_none_iff, hp]
    have wordNamed : ¬ 15 < first.toNat := by simp [← startWordOf_eq_none_iff, hw]
    refine if_neg fun fits => ?_
    obtain ⟨nonzero, atMost16, alignment, inMemory⟩ := sourceFits_iff.mp fits
    rcases bad with h | h | h | h | h | h
    · exact pageNamed h
    · exact wordNamed h
    · exact nonzero h
    · omega
    · exact h alignment
    · omega
  next => rfl

/-- Operands that pass the tests of R174 give a buffer that holds no word. -/
theorem programOf_good (good : ¬ BadProgram page first count source) :
    ∃ (p : Fin 5) (w : Fin 16), p.val = page.toNat ∧ w.val = first.toNat
      ∧ programOf page first count source
        = some { page := p, startWord := w, count := count.toNat, source, words := [] } := by
  simp only [BadProgram, not_or, not_lt, not_not] at good
  obtain ⟨pageAtMost4, wordAtMost15, fits⟩ := good
  obtain ⟨p, hp, pageNamed⟩ := exists_pageOf pageAtMost4
  obtain ⟨w, hw, wordNamed⟩ := exists_startWordOf wordAtMost15
  refine ⟨p, w, hp, hw, ?_⟩
  rw [programOf, pageNamed, wordNamed]
  exact if_pos (sourceFits_iff.mpr fits)

/-! ### The refusals -/

variable {u : Supervisor} {p : Fin 5}

theorem busy_iff (st : StoreState) : st.busy = true ↔ st ≠ .idle := by
  cases st <;> simp [StoreState.busy]

theorem storeRefusal_busy (busy : u.storeState ≠ .idle) : storeRefusal u p = some .busy :=
  if_pos ((busy_iff _).mpr busy)

theorem storeRefusal_protected (hp : p.val = page.toNat) (idle : u.storeState = .idle)
    (guarded : page = 0 ∧ u.limlock = true) : storeRefusal u p = some .isProtected := by
  rw [← page_eq_zero_iff hp] at guarded
  simp [storeRefusal, idle, StoreState.busy, guarded]

theorem storeRefusal_none (hp : p.val = page.toNat) (idle : u.storeState = .idle)
    (free : ¬ (page = 0 ∧ u.limlock = true)) : storeRefusal u p = none := by
  rw [← page_eq_zero_iff hp] at free
  simpa [storeRefusal, idle, StoreState.busy] using free

/-! ### The SU's part -/

variable {b : Blocks} {r : Result}

theorem beginProgram_bad (h : programOf page first count source = none) :
    beginProgram page first count source b = (.badOperand, b) := by
  simp [beginProgram, h]

theorem beginProgram_refused {buffer : ProgramBuffer}
    (h : programOf page first count source = some buffer)
    (hr : storeRefusal b.su buffer.page = some r) :
    beginProgram page first count source b = (r, b) := by
  simp [beginProgram, h, hr]

theorem beginProgram_started {buffer : ProgramBuffer}
    (h : programOf page first count source = some buffer)
    (hr : storeRefusal b.su buffer.page = none) :
    beginProgram page first count source b
      = (.started, { b with su := { b.su with storeState := .reading buffer } }) := by
  simp [beginProgram, h, hr, Blocks.onSu]

theorem beginErase_bad (h : pageOf page = none) : beginErase page b = (.badOperand, b) := by
  simp [beginErase, h]

theorem beginErase_refused (h : pageOf page = some p) (hr : storeRefusal b.su p = some r) :
    beginErase page b = (r, b) := by
  simp [beginErase, h, hr]

theorem beginErase_started (h : pageOf page = some p) (hr : storeRefusal b.su p = none) :
    beginErase page b = (.started, { b with su := { b.su with storeState := .erasing p } }) := by
  simp [beginErase, h, hr, Blocks.onSu]

end

/-! ### The command -/

section

variable {s : State} {m : Master} {tag : BitVec 8} {r : Result} {b : Blocks}

theorem inEvery_of_ne_startUp {mode : Mode} (h : mode ≠ .startUp) : inEvery mode = true := by
  cases mode
  case startUp => exact absurd rfl h
  all_goals rfl

/-- A command that every mode but START-UP takes, of an owner that acts in the blocks alone: its event
leaves what the owner leaves, with the last result recorded (R161). -/
theorem commandEvent_inEvery (running : s.blocks.su.mode ≠ .startUp) {code : BitVec 8}
    {f : Blocks → Result × Blocks} (owner : f s.blocks = (r, b)) :
    commandEvent (takeCommand m tag code inEvery (ownerOf f)) s
      = .next (s.became (recordResult m tag code r b)) := by
  have taken : inEvery s.fresh.mode = true := inEvery_of_ne_startUp running
  have acts : ownerOf f s.fresh = (r, { s.fresh with blocks := b }) := by
    simp [ownerOf, owner]
  simp only [commandEvent, takeCommand, taken, acts, if_true]
  rfl

theorem exec_profileProgram (running : s.blocks.su.mode ≠ .startUp)
    {page first count : BitVec 8} {source : Addr}
    (owner : beginProgram page first count source s.blocks = (r, b)) :
    exec (.profileProgram m tag page first count source) s
      = .next (s.became (recordResult m tag 0x05 r b)) :=
  commandEvent_inEvery running owner

theorem exec_profileErase (running : s.blocks.su.mode ≠ .startUp) {page : BitVec 8}
    (owner : beginErase page s.blocks = (r, b)) :
    exec (.profileErase m tag page) s = .next (s.became (recordResult m tag 0x06 r b)) :=
  commandEvent_inEvery running owner

end

/-- Settles O52: each clause is one test of R174, in its order, for the operands and the page that
they name. -/
theorem storeCommandsStart : Obligations.StoreCommandsStart := by
  intro s m tag page first count source b after bad guarded running
  refine ⟨?programBad, ?programBusy, ?programProtected, ?programStarted,
    ?eraseBad, ?eraseBusy, ?eraseProtected, ?eraseStarted⟩
  case programBad =>
    intro hb
    exact exec_profileProgram running (beginProgram_bad (programOf_bad hb))
  case programBusy =>
    intro good busy
    obtain ⟨_, _, -, -, h⟩ := programOf_good good
    exact exec_profileProgram running (beginProgram_refused h (storeRefusal_busy busy))
  case programProtected =>
    intro good idle hg
    obtain ⟨_, _, hp, -, h⟩ := programOf_good good
    rw [← idle]
    exact exec_profileProgram running (beginProgram_refused h (storeRefusal_protected hp idle hg))
  case programStarted =>
    intro good idle hg
    obtain ⟨p, w, hp, hw, h⟩ := programOf_good good
    exact ⟨p, w, hp, hw,
      exec_profileProgram running (beginProgram_started h (storeRefusal_none hp idle hg))⟩
  case eraseBad =>
    intro hb
    exact exec_profileErase running (beginErase_bad (pageOf_eq_none_iff.mpr hb))
  case eraseBusy =>
    intro hp busy
    obtain ⟨_, -, h⟩ := exists_pageOf hp
    exact exec_profileErase running (beginErase_refused h (storeRefusal_busy busy))
  case eraseProtected =>
    intro idle hg
    have zero : page.toNat = 0 := congrArg BitVec.toNat hg.1
    obtain ⟨_, hp, h⟩ := exists_pageOf (zero.trans_le (Nat.zero_le 4))
    rw [← idle]
    exact exec_profileErase running (beginErase_refused h (storeRefusal_protected hp idle hg))
  case eraseStarted =>
    intro hp idle hg
    obtain ⟨p, hp, h⟩ := exists_pageOf hp
    exact ⟨p, hp, exec_profileErase running (beginErase_started h (storeRefusal_none hp idle hg))⟩

end Sys2Proof.Machine

namespace Sys2Proof.Machine

/-! ## The queue and the outcome of a step (logs 12, 28) -/

/-- Settles O1: a step looks at the front of the queue alone. -/
theorem stepRunsTheFrontCommand : Obligations.StepRunsTheFrontCommand :=
  fun _ _ => rfl

/-- Every command's meaning is an `Outcome.next`. -/
theorem exec_next (i : Instr) (s : State) : ∃ t, exec i s = .next t := by
  cases i <;> exact ⟨_, rfl⟩

/-- The queue is none of the things that the moves change. -/
theorem keptByMemory_pending (l : List Instr) : KeptByMemory fun s => s.pending = l where
  mp _ _ h := h
  slots _ _ h := h
  bus _ _ h := h
  answers _ _ h := h
  blocks _ _ _ h := h
  ptu _ _ _ h := h
  mem _ _ _ h := h

/-- Settles O3: every meaning is a next state, and the queue is carried through every move. -/
theorem everyCommandAnswersNext : Obligations.EveryCommandAnswersNext := by
  intro i s
  obtain ⟨t, ht⟩ := exec_next i s
  exact ⟨t, ht, (keptByMemory_pending s.pending).exec i rfl ht⟩

/-! ## Record memory stays canonical (log 1) -/

/-- Only word writes touch record memory, and they keep its canonical form. -/
theorem keptByMemory_memoryOk : KeptByMemory State.MemoryOk where
  mp _ _ h := h
  slots _ _ h := h
  bus _ _ h := h
  answers _ _ h := h
  blocks _ _ _ h := h
  ptu _ _ _ h := h
  mem s a w h := Memory.wf_writeWord s.mem a w h

/-- Settles O5. -/
theorem memoryStaysCanonical : Obligations.MemoryStaysCanonical :=
  fun _ _ h e => keptByMemory_memoryOk.step (fun _ _ h => h) h e

/-! ## The Translation Buffer stays sound (R17, R18, R28) -/

/-- A look-up only clears valid marks, and leaves a valid way as it was. -/
theorem afterLookup_of_valid {tag : BitVec 8} {e : Entry} (h : (e.afterLookup tag).valid = true) :
    e.afterLookup tag = e := by
  unfold Entry.afterLookup at h ⊢
  split
  next fails => simp [fails] at h
  next => rfl

theorem sound_afterLookup {tag : BitVec 8} {b : BufferSet} (hb : b.Sound) :
    (b.afterLookup tag).Sound := by
  obtain ⟨noPair, checksA, checksB⟩ := hb
  have keepA (h : (b.afterLookup tag).wayA.valid = true) : (b.afterLookup tag).wayA = b.wayA :=
    afterLookup_of_valid h
  have keepB (h : (b.afterLookup tag).wayB.valid = true) : (b.afterLookup tag).wayB = b.wayB :=
    afterLookup_of_valid h
  refine ⟨fun ⟨hA, hB, same⟩ => ?_, fun hA => ?_, fun hB => ?_⟩
  · exact noPair ⟨keepA hA ▸ hA, keepB hB ▸ hB, by rwa [keepA hA, keepB hB] at same⟩
  · rw [keepA hA]
    exact checksA (keepA hA ▸ hA)
  · rw [keepB hB]
    exact checksB (keepB hB ▸ hB)

theorem sound_cleared : BufferSet.Sound .cleared :=
  ⟨fun h => Bool.false_ne_true h.1, fun h => (Bool.false_ne_true h).elim,
    fun h => (Bool.false_ne_true h).elim⟩

/-- A change of one set keeps the buffer sound where it keeps that set sound. -/
theorem ptuSound_onSet {p : Ptu} (hp : p.Sound) (m : Master) (i : Fin 16) {f : BufferSet → BufferSet}
    (hf : (p.set m i).Sound → (f (p.set m i)).Sound) : (p.onSet m i f).Sound := by
  intro n j
  by_cases other : n ≠ m ∨ j ≠ i
  · rw [set_onSet_other p f other]
    exact hp n j
  · obtain ⟨rfl, rfl⟩ : n = m ∧ j = i := by simpa [not_or] using other
    rw [set_onSet_same]
    exact hf (hp n j)

theorem ptuSound_of_buffer {p q : Ptu} (h : q.buffer = p.buffer) (hp : p.Sound) : q.Sound := by
  intro m i
  have same : q.set m i = p.set m i := by unfold Ptu.set; rw [h]
  rw [same]
  exact hp m i

theorem ptuSound_reset : Ptu.reset.Sound := by
  intro m i
  have : Ptu.reset.set m i = .cleared := by simp [Ptu.set, Ptu.reset]
  rw [this]
  exact sound_cleared

theorem PtuMove.sound {p q : Ptu} (move : PtuMove p q) (hp : p.Sound) : q.Sound := by
  cases move with
  | besides _ _ h => exact ptuSound_of_buffer h hp
  | looked m i tag => exact ptuSound_onSet hp m i sound_afterLookup
  | filled m i tag e => exact ptuSound_onSet hp m i sound_fill
  | swept m i => exact ptuSound_onSet hp m i fun _ => sound_cleared
  | cleared _ _ h => exact ptuSound_of_buffer h ptuSound_reset

theorem keptByMemory_ptuSound : KeptByMemory fun s => s.ptu.Sound where
  mp _ _ h := h
  slots _ _ h := h
  bus _ _ h := h
  answers _ _ h := h
  blocks _ _ _ h := h
  ptu _ _ move h := move.sound h
  mem _ _ _ h := h

/-- Settles O7: the soundness of every set through the four changes of the buffer. -/
theorem translationBufferStaysSound : Obligations.TranslationBufferStaysSound :=
  fun _ _ h e => keptByMemory_ptuSound.step (fun _ _ h => h) h e

end Sys2Proof.Machine

namespace Sys2Proof.Machine

/-! ## What every event in the blocks keeps

The moves of the blocks (Laws/Moves.lean) reach past the vehicles and the lanes to the CSU, the RU and
the SU. A property that bounded changes of those keep as well is kept by every move. -/

/-- A property that any change of the SU keeps, and of the CSU and the RU those that grow no list past
its capacity. -/
structure EventKept (P : Blocks → Prop) : Prop extends LaneKept P where
  su : ∀ b u, P b → P { b with su := u }
  csu : ∀ (b : Blocks) c, c.faultLog.length ≤ b.csu.faultLog.length →
    c.journal.length ≤ b.csu.journal.length → P b → P { b with csu := c }
  ru : ∀ (b : Blocks) r, r.stack.length ≤ max stackCapacity b.ru.stack.length → P b → P { b with ru := r }
  reset : ∀ u, P { Blocks.reset with su := u }

section

variable {P : Blocks → Prop} {b : Blocks}

theorem EventKept.popFault (k : EventKept P) (h : P b) : P (popFault b) := by
  refine k.csu _ _ ?_ ?_ h <;> cases log : b.csu.faultLog <;> simp [log]

theorem EventKept.commandWord (k : EventKept P) (m : Master) (o : BitVec 12) (w : Word) (h : P b) :
    P (frameCommand m o w b) := by
  have framed (g : Framing) : P (b.onCsu fun c => { c with framing := c.framing.set m g }) :=
    k.csu _ _ le_rfl le_rfl h
  unfold frameCommand
  dsimp only
  split
  · exact framed _
  · exact k.masterFault _ _ _ (framed _)

theorem EventKept.statusEffect (k : EventKept P) (o : BitVec 12) (h : P b) : P (statusEffect o b) := by
  unfold Machine.statusEffect
  split
  · exact k.popFault h
  · exact h

theorem EventKept.startActive (k : EventKept P) (h : P b) : P (startActive b) := by
  unfold Machine.startActive startNotice
  exact k.notice _ _ (k.su _ _ h)

theorem EventKept.stopActive (k : EventKept P) (h : P b) : P (stopActive b) :=
  k.stopVehicles (k.va _ _ (fun l x hx => by simp [Assembler.reset] at hx) (k.stopNotice (k.su _ _ h)))

theorem EventKept.dropJournal (k : EventKept P) (h : P b) : P (dropJournal b) := by
  unfold Machine.dropJournal
  split
  · exact h
  · exact k.request _ _ (k.csu _ _ le_rfl (Nat.zero_le _) h)

theorem EventKept.bypassBlocks (k : EventKept P) (h : P b) : P (bypassBlocks b) :=
  k.dropJournal (k.resetLanes (k.bypassNotice (k.su _ _ h)))

theorem length_restartOldest (l : List JournalEntry) : (restartOldest l).length = l.length := by
  cases l <;> rfl

theorem EventKept.applyJournal (k : EventKept P) (h : P b) : P (applyJournal b) :=
  k.csu _ _ le_rfl (length_restartOldest _).le h

theorem EventKept.applyBlocks (k : EventKept P) (h : P b) : P (applyBlocks b) := by
  unfold Machine.applyBlocks
  exact k.applyJournal (k.resetLanes (k.applyNotice (k.su _ _ h)))

theorem EventKept.beginProgram (k : EventKept P) (p w c : BitVec 8) (a : Addr) (h : P b) :
    P (beginProgram p w c a b).2 := by
  unfold Machine.beginProgram
  split
  · exact h
  · split
    · exact h
    · exact k.su _ _ h

theorem EventKept.beginErase (k : EventKept P) (p : BitVec 8) (h : P b) : P (beginErase p b).2 := by
  unfold Machine.beginErase
  split
  · exact h
  · split
    · exact h
    · exact k.su _ _ h

theorem EventKept.changeStack (k : EventKept P) {f : List Restriction → List Restriction}
    (hf : (f b.ru.stack).length ≤ max stackCapacity b.ru.stack.length) (h : P b) :
    P (changeStack f b) :=
  k.actOnReport _ (k.noticeClosure _ _ (k.ru _ _ hf h))

theorem EventKept.pushEntry (k : EventKept P) (o : PushOperands) (h : P b) : P (pushEntry o b).2 := by
  unfold Machine.pushEntry
  split
  · exact h
  · split
    · exact h
    · split
      · exact h
      · next room =>
        exact k.changeStack (le_max_of_le_left (by simpa using Nat.lt_of_not_le room)) h

theorem EventKept.popEntry (k : EventKept P) (e : BitVec 9) (h : P b) : P (popEntry e b).2 := by
  unfold Machine.popEntry
  split
  · exact h
  · split
    · exact h
    · split
      · exact h
      · exact k.changeStack (le_max_of_le_right (by simp)) h

theorem EventKept.journalWordWritten (k : EventKept P) (h : P b) : P (journalWordWritten b) := by
  have advance {c : Blocks} (h : P c) : P (advanceIndex c) := by
    refine k.csu _ _ ?_ ?_ h <;> dsimp only <;> split <;> exact le_rfl
  unfold Machine.journalWordWritten
  split
  · exact h
  · next e rest hj =>
    split
    · exact advance (k.csu _ _ le_rfl (by simp [hj]) h)
    · exact k.csu _ _ le_rfl (by simp [hj]) h

theorem EventKept.storeDone (k : EventKept P) (p : Fin 5) (f : Page → Page) (o : StoreOutcome) (h : P b) :
    P (storeDone p f o b) := k.request _ _ (k.su _ _ h)

theorem EventKept.finishProgram (k : EventKept P) (h : P b) : P (finishProgram b) := by
  unfold Machine.finishProgram
  split
  · exact k.storeDone _ _ _ h
  all_goals exact h

theorem EventKept.finishErase (k : EventKept P) (h : P b) : P (finishErase b) := by
  unfold Machine.finishErase
  split
  · exact k.storeDone _ _ _ h
  all_goals exact h

theorem EventKept.reachSettle (k : EventKept P) (h : P b) : P (reachSettle b) := by
  unfold Machine.reachSettle
  split
  · exact k.notice _ _ (k.su _ _ h)
  · exact h

theorem EventKept.tickClock (k : EventKept P) (h : P b) : P (tickClock b) :=
  k.su _ _ (k.vt _ _ (by rw [List.map_map]; rfl) le_rfl le_rfl h)

theorem EventKept.clockRises (k : EventKept P) (h : P b) : P (clockRises b) := by
  unfold Machine.clockRises
  split
  · exact k.tickClock h
  · exact h

theorem EventKept.clockPeriod (k : EventKept P) (h : P b) : P (clockPeriod b) := by
  unfold Machine.clockPeriod
  split
  · exact h
  · split
    · exact k.su _ _ h
    · exact k.tickClock h

theorem EventKept.causesEnd (k : EventKept P) (below strap : Bool) (h : P b) :
    P (causesEnd below strap b) := by
  unfold Machine.causesEnd
  split
  · exact k.su _ _ h
  all_goals exact h

theorem EventKept.startUpNotice (k : EventKept P) (h : P b) : P (startUpNotice b) := by
  unfold Machine.startUpNotice
  dsimp only
  split
  · split
    · exact k.notice _ _ (k.bypassNotice h)
    · exact k.bypassNotice h
  · exact k.startUpEnds _ _ _ h

theorem EventKept.endBlocks (k : EventKept P) (m : Mode) (h : P b) : P (endBlocks m b) := by
  unfold Machine.endBlocks
  dsimp only
  refine k.resetLanes (k.startUpNotice ?_)
  split
  · exact k.request _ _ (k.su _ _ h)
  · exact k.su _ _ h

theorem EventKept.crossSupply (k : EventKept P) (x y : Supply) (h : P b) : P (crossSupply x y b) := by
  have moved : P (b.onSu fun u => { u with supply := y }) := k.su _ _ h
  unfold Machine.crossSupply
  dsimp only
  split
  · exact h
  · split
    · exact h
    · exact moved
    · split
      · exact k.notice _ _ (k.request _ _ moved)
      · exact k.notice _ _ moved

/-- Every event in the blocks keeps what its parts keep. -/
theorem EventKept.move (k : EventKept P) {c : Blocks} (move : BlockMove b c) (h : P b) : P c := by
  cases move with
  | fault => exact k.masterFault _ _ _ h
  | captureWord => exact k.takeCaptureWord _ _ _ h
  | captureRecord => exact k.takeRecord _ _ _ h
  | commandWord => exact k.commandWord _ _ _ h
  | statusRead => exact k.statusEffect _ h
  | directivePop => exact k.popDirective _ h
  | faultPop => exact k.popFault h
  | longOp => exact k.request _ _ h
  | result => exact k.csu _ _ le_rfl le_rfl h
  | start => exact k.startActive h
  | stop => exact k.stopActive h
  | bypass => exact k.bypassBlocks h
  | apply => exact k.applyBlocks h
  | program => exact k.beginProgram _ _ _ _ h
  | erase => exact k.beginErase _ h
  | push => exact k.pushEntry _ h
  | pop => exact k.popEntry _ h
  | clearVehicle => exact k.clearRecord _ h
  | clearPhantoms => exact k.clearPhantomsOf _ h
  | laneDisable => exact k.laneCommand k.disableLane _ h
  | laneEnable => exact k.laneCommand k.enableLane _ h
  | laneRecover => exact k.laneCommand k.recoverLane _ h
  | clearEvents => exact k.csu _ _ le_rfl le_rfl h
  | setEnables => exact k.csu _ _ le_rfl le_rfl h
  | clearFaults => exact k.csu _ _ (Nat.zero_le _) le_rfl h
  | journalWord => exact k.journalWordWritten h
  | sourceWord => exact k.su _ _ h
  | programmed => exact k.finishProgram h
  | erased => exact k.finishErase h
  | silence => exact k.reachSilence _ h
  | pulse => exact k.reachPulseEnd _ h
  | closeTime => exact k.closeIfReached _ h
  | holdExpiry => exact k.reachHoldExpiry _ h
  | d => exact k.reachD _ h
  | e1 => exact k.reachE1 _ h
  | v1 => exact k.reachV1 _ h
  | t => exact k.reachT _ h
  | phantomEnd => exact k.reachPhantomEnd _ h
  | holdEnd => exact k.reachHoldEnd _ h
  | settle => exact k.reachSettle h
  | clock => exact k.clockRises h
  | period => exact k.clockPeriod h
  | reset => exact k.reset _
  | causesEnd => exact k.causesEnd _ _ h
  | startUpEnd => exact k.endBlocks _ h
  | supply => exact k.crossSupply _ _ h

/-- A property of the blocks that every event keeps is kept by every step. -/
theorem keptByMemory_blocks {Q : Blocks → Prop} (hQ : ∀ {b c}, BlockMove b c → Q b → Q c) :
    KeptByMemory fun s => Q s.blocks where
  mp _ _ h := h
  slots _ _ h := h
  bus _ _ h := h
  answers _ _ h := h
  blocks _ _ move h := hQ move h
  ptu _ _ _ h := h
  mem _ _ _ h := h

end

/-! ## Vehicle numbers stay distinct (R81, R82) -/

theorem numbersDistinct_record {b : Blocks} (n : VehicleNumber) {f : VehicleRecord → VehicleRecord}
    (hf : ∀ r, (f r).number = r.number) (hb : b.NumbersDistinct) : (b.onRecord n f).NumbersDistinct :=
  numbersDistinct_recordNow hb n hf

/-- An entry takes a number that no record holds. -/
theorem numbersDistinct_entered {b : Blocks} (v : ClosedVehicle)
    (room : b.vt.table.length < tableCapacity) (hb : b.NumbersDistinct) :
    (enterVehicle b.numberToAssign v b).NumbersDistinct := by
  obtain ⟨bound, distinct⟩ := hb
  have fresh := numberToAssign_free b bound
  refine ⟨by simpa [enterVehicle, tableCapacity, Nat.succ_le_iff] using room, ?_⟩
  simp only [enterVehicle, Blocks.onVt_vt, List.map_append, List.map_cons, List.map_nil, enteredRecord]
  exact distinct.append (List.nodup_singleton _) (by simpa using fresh)

theorem numbersDistinct_sublist {b c : Blocks} (h : c.vt.table.Sublist b.vt.table)
    (hb : b.NumbersDistinct) : c.NumbersDistinct :=
  ⟨h.length_le.trans hb.1, (h.map _).nodup hb.2⟩

theorem numbersDistinct_offerJournal {b : Blocks} (w : Vector Word 8) (hb : b.NumbersDistinct) :
    (offerJournal w b).NumbersDistinct := by
  unfold offerJournal
  split <;> exact hb

theorem eventKept_numbersDistinct : EventKept Blocks.NumbersDistinct where
  du _ _ _ h := h
  overflow _ h := h
  record _ n _ hf h := numbersDistinct_record n hf h
  request _ _ h := h
  fault _ _ h := h
  va _ _ _ h := h
  vt _ _ same _ _ h := numbersDistinct_of_numbers h same
  entered _ v room h := numbersDistinct_entered v room h
  held _ v room h := numbersDistinct_entered v room h
  without _ _ h := numbersDistinct_sublist List.filter_sublist h
  stopped _ h := numbersDistinct_sublist (List.nil_sublist _) h
  joined _ _ _ _ h := h
  au _ _ _ _ _ h := h
  placed _ _ _ _ h := h
  offer _ w h := numbersDistinct_offerJournal w h
  lanes _ _ h := h
  su _ _ h := h
  csu _ _ _ _ h := h
  ru _ _ _ h := h
  reset _ := ⟨Nat.zero_le _, List.nodup_nil⟩

/-- Settles O9. -/
theorem vehicleNumbersStayDistinct : Obligations.VehicleNumbersStayDistinct :=
  fun _ _ h e =>
    (keptByMemory_blocks eventKept_numbersDistinct.move).step (fun _ _ h => h) h e

end Sys2Proof.Machine

namespace Sys2Proof.Machine

/-! ## Capacities (Table 0-3) -/

section

theorem placeAfter_perm {α : Type} (before : α → Bool) (x : α) (l : List α) :
    (placeAfter before x l).Perm (x :: l) := by
  induction l with
  | nil => exact .refl _
  | cons y l ih =>
    unfold placeAfter
    split
    · exact (ih.cons y).trans (.swap x y l)
    · exact .refl _

/-- The collections of the blocks are within their capacities. -/
def Blocks.Fits (b : Blocks) : Prop := b.QueuesFit ∧ b.ListsFit

variable {b : Blocks}

theorem queuesFit_at {b : Blocks} : b.QueuesFit ↔ b.csu.faultLog.length ≤ 8
    ∧ b.csu.journal.length ≤ 8 ∧ b.ru.stack.length ≤ 8
    ∧ ∀ x, (b.du.queues.at x).length ≤ directiveCapacity := by
  refine and_congr_right fun _ => and_congr_right fun _ => and_congr_right fun _ => ?_
  exact ⟨fun ⟨ha, hb⟩ x => by cases x <;> assumption, fun h => ⟨h .A, h .B⟩⟩

/-! ### The queues of the CSU, the RU and the DU -/

theorem queuesFit_du {d : DirectiveUnit}
    (hd : ∀ x, (d.queues.at x).length ≤ max directiveCapacity (b.du.queues.at x).length)
    (h : b.QueuesFit) : Blocks.QueuesFit { b with du := d } := by
  obtain ⟨log, journal, stack, queues⟩ := queuesFit_at.mp h
  exact queuesFit_at.mpr ⟨log, journal, stack, fun x => (hd x).trans (max_le le_rfl (queues x))⟩

theorem queuesFit_sendFault (f : FaultRecord) (h : b.QueuesFit) : (sendFault f b).QueuesFit := by
  obtain ⟨log, rest⟩ := h
  rw [sendFault_eq]
  refine ⟨?_, rest⟩
  dsimp only
  split
  next room => simpa using Nat.succ_le_of_lt room
  next => exact log

theorem queuesFit_offerJournal (w : Vector Word 8) (h : b.QueuesFit) :
    (offerJournal w b).QueuesFit := by
  obtain ⟨log, journal, rest⟩ := h
  unfold offerJournal
  split
  next room => exact ⟨log, by simpa [journalCapacity] using Nat.succ_le_of_lt room, rest⟩
  next => exact ⟨log, journal, rest⟩

theorem queuesFit_csu {c : CommandStatus} (hl : c.faultLog.length ≤ b.csu.faultLog.length)
    (hj : c.journal.length ≤ b.csu.journal.length) (h : b.QueuesFit) :
    Blocks.QueuesFit { b with csu := c } := by
  obtain ⟨log, journal, rest⟩ := h
  exact ⟨hl.trans log, hj.trans journal, rest⟩

theorem queuesFit_ru {r : Restrictions}
    (hr : r.stack.length ≤ max stackCapacity b.ru.stack.length) (h : b.QueuesFit) :
    Blocks.QueuesFit { b with ru := r } := by
  obtain ⟨log, journal, stack, queues⟩ := h
  exact ⟨log, journal, hr.trans (max_le le_rfl stack), queues⟩

/-! ### The lists of the VA, the VT and the AU -/

theorem listsFit_va {v : Assembler} (hv : AxlesKept b.va v) (h : b.ListsFit) :
    Blocks.ListsFit { b with va := v } :=
  { h with
    axles := fun l x hx => by
      obtain bound | ⟨y, hy, shorter⟩ := hv l x hx
      · exact bound
      · exact shorter.trans (h.axles l y hy) }

theorem listsFit_vt {v : Tracker} (same : v.table.map (·.number) = b.vt.table.map (·.number))
    (ha : v.occupants.a.length ≤ b.vt.occupants.a.length)
    (hb : v.occupants.b.length ≤ b.vt.occupants.b.length) (h : b.ListsFit) :
    Blocks.ListsFit { b with vt := v } :=
  { h with
    table := by
      have := congrArg List.length same
      simp only [List.length_map] at this
      exact this ▸ h.table
    occupants := fun x => by
      cases x
      · exact ha.trans (h.occupants .A)
      · exact hb.trans (h.occupants .B)
    heldRecords := fun n hn => same ▸ h.heldRecords n hn }

theorem listsFit_record (n : VehicleNumber) {f : VehicleRecord → VehicleRecord}
    (hf : ∀ r, (f r).number = r.number) (h : b.ListsFit) : (b.onRecord n f).ListsFit := by
  refine listsFit_vt (v := (b.onRecord n f).vt) ?_ le_rfl le_rfl h
  simp only [Blocks.onRecord, Blocks.onVt_vt, List.map_map]
  refine List.map_congr_left fun r _ => ?_
  simp only [Function.comp]
  split
  · exact hf r
  · rfl

theorem table_entered (v : ClosedVehicle) (n : VehicleNumber) :
    (enterVehicle n v b).vt.table.map (·.number) = b.vt.table.map (·.number) ++ [n] := by
  simp [enterVehicle, enteredRecord]

theorem listsFit_entered (v : ClosedVehicle) (room : b.vt.table.length < tableCapacity)
    (h : b.ListsFit) : (enterVehicle b.numberToAssign v b).ListsFit :=
  { h with
    table := by simpa [enterVehicle, tableCapacity] using Nat.succ_le_of_lt room
    heldRecords := fun n hn => by
      rw [table_entered]
      exact List.mem_append_left _ (h.heldRecords n hn) }

/-- A vehicle that becomes HELD joins the Held List under a number that was not there. -/
theorem listsFit_held (v : ClosedVehicle) (room : b.vt.table.length < tableCapacity)
    (h : b.ListsFit) :
    (holdVehicle (enteredRecord b.profile b.numberToAssign v)
      (enterVehicle b.numberToAssign v b)).ListsFit := by
  have entered := listsFit_entered v room h
  have fresh : b.numberToAssign ∉ b.au.held := fun held =>
    numberToAssign_free b h.table (h.heldRecords _ held)
  have perm : (holdVehicle (enteredRecord b.profile b.numberToAssign v)
      (enterVehicle b.numberToAssign v b)).au.held.Perm (b.numberToAssign :: b.au.held) :=
    placeAfter_perm ..
  have names : ∀ n ∈ b.numberToAssign :: b.au.held,
      n ∈ (enterVehicle b.numberToAssign v b).vt.table.map (·.number) := by
    rw [table_entered]
    intro n hn
    rcases List.mem_cons.mp hn with rfl | held
    · simp
    · exact List.mem_append_left _ (h.heldRecords n held)
  have once : (b.numberToAssign :: b.au.held).Nodup := List.nodup_cons.mpr ⟨fresh, h.heldOnce⟩
  exact
    { entered with
      held := by
        have atMost := (List.subperm_of_subset once names).length_le
        rw [List.length_map] at atMost
        exact perm.length_eq.trans_le (atMost.trans entered.table)
      heldOnce := perm.nodup_iff.mpr once
      heldRecords := fun n hn => names n (perm.subset hn) }

theorem listsFit_without (n : VehicleNumber) (h : b.ListsFit) : (b.without n).ListsFit :=
  { h with
    table := (List.length_filter_le _ _).trans h.table
    held := List.erase_sublist.length_le.trans h.held
    heldOnce := h.heldOnce.erase n
    heldRecords := fun k hk => by
      obtain ⟨other, held⟩ := h.heldOnce.mem_erase_iff.mp hk
      obtain ⟨r, hr, rfl⟩ := List.mem_map.mp (h.heldRecords k held)
      exact List.mem_map_of_mem (List.mem_filter.mpr ⟨hr, by simpa using other⟩) }

theorem listsFit_stopped (h : b.ListsFit) : b.stopped.ListsFit where
  table := Nat.zero_le _
  occupants x := by cases x <;> exact Nat.zero_le _
  reservations := Nat.zero_le _
  normal := Nat.zero_le _
  held := Nat.zero_le _
  heldOnce := List.nodup_nil
  heldRecords _ hn := absurd hn List.not_mem_nil
  axles := h.axles

theorem listsFit_joined (x : Approach) (o : Occupant)
    (room : (b.vt.occupants.at x).length < occupantCapacity) (h : b.ListsFit) :
    (b.onVt fun v => { v with
      occupants := v.occupants.put x (b.vt.occupants.at x ++ [o]) }).ListsFit :=
  { h with
    occupants := fun y => by
      by_cases same : x = y
      · subst same
        simpa [occupantCapacity] using Nat.succ_le_of_lt room
      · simpa only [Blocks.onVt_vt, PerApproach.at_put_other _ _ same] using h.occupants y }

theorem listsFit_au {a : Admission} (hr : a.reservations.length ≤ b.au.reservations.length)
    (hn : (a.reservations.filter fun r => r.kind = .normal).length
      ≤ (b.au.reservations.filter fun r => r.kind = .normal).length)
    (hh : a.held.Sublist b.au.held) (h : b.ListsFit) : Blocks.ListsFit { b with au := a } :=
  { h with
    reservations := hr.trans h.reservations
    normal := hn.trans h.normal
    held := hh.length_le.trans h.held
    heldOnce := hh.nodup h.heldOnce
    heldRecords := fun n hm => h.heldRecords n (hh.subset hm) }

theorem listsFit_placed {r : Reservation} (room : b.au.reservations.length < reservationCapacity)
    (normalRoom : r.kind = .normal → b.normalCount < normalCapacity) (h : b.ListsFit) :
    (placeReservation r b).ListsFit := by
  have perm : (placeReservation r b).au.reservations.Perm (r :: b.au.reservations) :=
    placeAfter_perm ..
  exact
    { h with
      reservations := by rw [perm.length_eq]; exact room
      normal := by
        rw [Blocks.normalCount, (perm.filter _).length_eq]
        by_cases normal : r.kind = .normal
        · rw [List.filter_cons_of_pos (by simpa using normal)]
          exact normalRoom normal
        · rw [List.filter_cons_of_neg (by simpa using normal)]
          exact h.normal }

theorem listsFit_offerJournal (w : Vector Word 8) (h : b.ListsFit) : (offerJournal w b).ListsFit := by
  unfold offerJournal
  split <;> exact { h with }

theorem listsFit_reset (u : Supervisor) : Blocks.ListsFit { Blocks.reset with su := u } where
  table := Nat.zero_le _
  occupants x := by cases x <;> exact Nat.zero_le _
  reservations := Nat.zero_le _
  normal := Nat.zero_le _
  held := Nat.zero_le _
  heldOnce := List.nodup_nil
  heldRecords _ hn := absurd hn List.not_mem_nil
  axles l v hv := by simp [Blocks.openVehicle, Blocks.reset, Assembler.reset] at hv

theorem eventKept_fits : EventKept Blocks.Fits where
  du _ _ hd h := ⟨queuesFit_du hd h.1, { h.2 with }⟩
  overflow _ h := ⟨h.1, { h.2 with }⟩
  record _ n _ hf h := ⟨h.1, listsFit_record n hf h.2⟩
  request _ _ h := ⟨h.1, { h.2 with }⟩
  fault _ f h := ⟨queuesFit_sendFault f h.1, { h.2 with }⟩
  va _ _ hv h := ⟨h.1, listsFit_va hv h.2⟩
  vt _ _ same ha hb h := ⟨h.1, listsFit_vt same ha hb h.2⟩
  entered _ v room h := ⟨h.1, listsFit_entered v room h.2⟩
  held _ v room h := ⟨h.1, listsFit_held v room h.2⟩
  without _ n h := ⟨h.1, listsFit_without n h.2⟩
  stopped _ h := ⟨h.1, listsFit_stopped h.2⟩
  joined _ x o room h := ⟨h.1, listsFit_joined x o room h.2⟩
  au _ _ hr hn hh h := ⟨h.1, listsFit_au hr hn hh h.2⟩
  placed _ _ room normalRoom h := ⟨h.1, listsFit_placed room normalRoom h.2⟩
  offer _ w h := ⟨queuesFit_offerJournal w h.1, listsFit_offerJournal w h.2⟩
  lanes _ _ h := ⟨h.1, { h.2 with }⟩
  su _ _ h := ⟨h.1, { h.2 with }⟩
  csu _ _ hl hj h := ⟨queuesFit_csu hl hj h.1, { h.2 with }⟩
  ru _ _ hr h := ⟨queuesFit_ru hr h.1, { h.2 with }⟩
  reset u := ⟨⟨Nat.zero_le _, Nat.zero_le _, Nat.zero_le _, Nat.zero_le _, Nat.zero_le _⟩,
    listsFit_reset u⟩

end

/-! ## The Walk Engine's waiting queue (R23) -/

section

variable {s t : State}

theorem samePlaces_fresh (s : State) : SamePlaces s s.fresh := ⟨rfl, rfl, rfl⟩

theorem samePlaces_complete {hand : State → State} (hh : ∀ u, SamePlaces u (hand u)) (s : State) :
    SamePlaces s (complete hand s) :=
  (samePlaces_onMp s _).trans ((hh _).trans ((samePlaces_onMp _ _).trans (samePlaces_grant _)))

theorem samePlaces_journalDone (s : State) : SamePlaces s (journalDone s) := by
  unfold journalDone
  split
  · refine samePlaces_complete (fun u => ?_) s
    dsimp only
    split
    · exact ⟨rfl, rfl, rfl⟩
    · refine SamePlaces.trans ?_ (samePlaces_journalEmptied _)
      exact ⟨rfl, rfl, rfl⟩
  all_goals exact .refl s

theorem samePlaces_sourceDone (s : State) : SamePlaces s (sourceDone s) := by
  unfold sourceDone
  split
  · exact samePlaces_complete (fun u => samePlaces_onBlocks u _) s
  all_goals exact .refl s

/-- What every command but those that hand transactions on does to the queue. -/
theorem queueBut_command {f : State → State} (hf : ∀ s, CommandPlaces s (f s))
    (h : QueueBut none s) (e : commandEvent f s = .next t) : QueueBut none t := by
  have fresh := (samePlaces_fresh s).keep h
  obtain rfl := Host.Outcome.next.inj e
  split
  · exact ((hf s.fresh).keep fresh).1
  · exact fresh

/-- A command whose owner acts in the blocks alone. -/
theorem queueBut_blockCommand {f : Blocks → Result × Blocks} {m : Master} {tag code : BitVec 8}
    {taken : Mode → Bool} (h : QueueBut none s)
    (e : commandEvent (takeCommand m tag code taken (ownerOf f)) s = .next t) : QueueBut none t :=
  queueBut_command (fun s => CommandPlaces.takeCommand (.owner s f)) h e

/-- Every command keeps the queue sound. -/
theorem queueBut_exec {i : Instr} (h : QueueBut none s) (e : exec i s = .next t) :
    QueueBut none t := by
  have fresh : QueueBut none s.fresh := (samePlaces_fresh s).keep h
  have acts {f : Blocks → Blocks} (e : Host.Outcome.next (s.fresh.act f) = exec i s) :
      exec i s = .next t → QueueBut none t := fun e' => by
    obtain rfl := Host.Outcome.next.inj (e.trans e')
    exact (samePlaces_act _ f).keep fresh
  have inside {f : Blocks → Blocks} (e : Host.Outcome.next (s.fresh.onBlocks f) = exec i s) :
      exec i s = .next t → QueueBut none t := fun e' => by
    obtain rfl := Host.Outcome.next.inj (e.trans e')
    exact (samePlaces_onBlocks _ f).keep fresh
  cases i with
  | transaction m a x =>
    obtain rfl := Host.Outcome.next.inj e
    refine QueueBut.drain (SamePlaces.keep (s := s.fresh) ?_ fresh)
    exact ⟨rfl, rfl, rfl⟩
  | forwardedCycleDone => obtain rfl := Host.Outcome.next.inj e; exact fresh.forwardDone
  | regionReadDone => obtain rfl := Host.Outcome.next.inj e; exact fresh.regionDone
  | pageReadDone => obtain rfl := Host.Outcome.next.inj e; exact fresh.pageDone
  | journalWordDone => obtain rfl := Host.Outcome.next.inj e; exact (samePlaces_journalDone _).keep fresh
  | sourceWordDone => obtain rfl := Host.Outcome.next.inj e; exact (samePlaces_sourceDone _).keep fresh
  | sweepStep => obtain rfl := Host.Outcome.next.inj e; exact fresh.sweepStep
  | directivePop m x =>
    obtain rfl := Host.Outcome.next.inj e
    split
    · refine SamePlaces.keep (s := s.fresh) ?_ fresh
      exact ⟨rfl, rfl, rfl⟩
    · exact fresh
  | faultPop m =>
    obtain rfl := Host.Outcome.next.inj e
    split
    · refine SamePlaces.keep (s := s.fresh) ?_ fresh
      exact ⟨rfl, rfl, rfl⟩
    · exact fresh
  | enterBypass m tag =>
    obtain rfl := Host.Outcome.next.inj e
    split
    · exact ((CommandPlaces.takeCommand (.enterBypass s.fresh)).keep fresh).1.drain
    · exact fresh
  | applyProfile => exact queueBut_command (fun s => CommandPlaces.takeCommand (.applyProfile s)) h e
  | invalidateArea m tag a =>
    exact queueBut_command (fun s => CommandPlaces.takeCommand (.invalidate a s)) h e
  | start | stop | profileProgram | profileErase | pushRestriction | popRestriction | clearVehicle
  | clearPhantoms | laneDisable | laneEnable | laneRecover | clearEvents | setEventEnables
  | clearFaults => exact queueBut_blockCommand h e
  | powerOn | resetPin | supplyLow =>
    obtain rfl := Host.Outcome.next.inj e
    exact queueBut_resetEvent _ _
  | endOfStartUp => obtain rfl := Host.Outcome.next.inj e; exact fresh.endStartUp
  | axle | passage | heartbeat | laneFault | closeTime | holdExpiry | decisionDeadline | e1Reached
  | v1Reached | tReached | phantomEndTime | silenceExpiry | pulseEnd => exact acts rfl e
  | programmingDone | erasingDone | beaconHoldExpiry | settleExpiry | roadClockTick | resetCauseEnds
  | supplyWarning | supplyWarningEnd => exact inside rfl e

theorem queueBut_step (h : QueueBut none s) (e : step s = .next t) : QueueBut none t := by
  unfold step at e
  split at e
  · refine queueBut_exec (SamePlaces.keep (s := s) ?_ h) e
    exact ⟨rfl, rfl, rfl⟩
  · obtain rfl := Host.Outcome.next.inj e
    refine SamePlaces.keep (s := s) ?_ h
    exact ⟨rfl, rfl, rfl⟩

end

/-- Settles O8: the blocks' capacities through the moves of the blocks, and the queue through each
command. -/
theorem collectionsStayWithinCapacity : Obligations.CollectionsStayWithinCapacity := by
  intro s t e
  refine ⟨fun queues lists => ?_, fun h => ?_⟩
  · exact (keptByMemory_blocks eventKept_fits.move).step (fun _ _ h => h) ⟨queues, lists⟩ e
  · exact (queueSound_iff t).mpr (queueBut_step ((queueSound_iff s).mp h) e)

end Sys2Proof.Machine

namespace Sys2Proof.Machine

/-! ## The System Port settles before an event ends (R1, logs 17, 36) -/

section

variable {s t u : State} {m : Master}

/-- A slot goes on with the PTU or leaves it for the MP, and is neither emptied nor handed back. -/
def Slot.Onward (y z : Slot) : Prop :=
  z = y ∨ (∃ x p, y = .translating x p) ∧ z ≠ .free ∧ z.isAt .toHand = false

/-- A slot goes on, or is handed back by an ENTER_BYPASS. -/
def Slot.Loosed (y z : Slot) : Prop := z = y ∨ (∃ x p, y = .translating x p) ∧ z ≠ .free

/-- Every slot goes on, and no bus request is taken. -/
structure State.Onward (s t : State) : Prop where
  bus : t.bus = s.bus
  slot : ∀ k, (s.slot k).Onward (t.slot k)

/-- Every slot goes on or is handed back, and no bus request is taken. -/
structure State.Loosed (s t : State) : Prop where
  bus : t.bus = s.bus
  slot : ∀ k, (s.slot k).Loosed (t.slot k)

theorem Slot.Onward.trans {x y z : Slot} (h : x.Onward y) (k : y.Onward z) : x.Onward z := by
  obtain rfl | ⟨inPtu, _, _⟩ := h
  · exact k
  · obtain rfl | ⟨_, held, hand⟩ := k
    · exact .inr ⟨inPtu, by assumption, by assumption⟩
    · exact .inr ⟨inPtu, held, hand⟩

theorem onward_same (slots : t.slots = s.slots) (bus : t.bus = s.bus) : s.Onward t :=
  ⟨bus, fun k => .inl (by unfold State.slot; rw [slots])⟩

theorem State.Onward.refl (s : State) : s.Onward s := onward_same rfl rfl

theorem State.Onward.trans (h : s.Onward t) (k : t.Onward u) : s.Onward u :=
  ⟨k.bus.trans h.bus, fun j => (h.slot j).trans (k.slot j)⟩

theorem State.Onward.loosed (h : s.Onward t) : s.Loosed t :=
  ⟨h.bus, fun k => (h.slot k).imp id fun ⟨inPtu, held, _⟩ => ⟨inPtu, held⟩⟩

theorem Slot.Loosed.trans {x y z : Slot} (h : x.Loosed y) (k : y.Loosed z) : x.Loosed z := by
  obtain rfl | ⟨inPtu, held⟩ := h
  · exact k
  · obtain rfl | ⟨_, held⟩ := k
    · exact .inr ⟨inPtu, held⟩
    · exact .inr ⟨inPtu, held⟩

theorem State.Loosed.trans (h : s.Loosed t) (k : t.Loosed u) : s.Loosed u :=
  ⟨k.bus.trans h.bus, fun j => (h.slot j).trans (k.slot j)⟩

theorem onward_onBlocks (s : State) (f : Blocks → Blocks) : s.Onward (s.onBlocks f) :=
  onward_same rfl rfl
theorem onward_onPtu (s : State) (f : Ptu → Ptu) : s.Onward (s.onPtu f) := onward_same rfl rfl
theorem onward_onMp (s : State) (f : MemoryPort → MemoryPort) : s.Onward (s.onMp f) :=
  onward_same rfl rfl

/-- What goes on leaves a settled port settled. -/
theorem State.Onward.settled (h : s.Onward t) (hs : s.Settled) : t.Settled := by
  intro k
  obtain ⟨noHand, taken⟩ := hs k
  obtain same | ⟨_, held, hand⟩ := h.slot k
  · rw [same, h.bus]
    exact ⟨noHand, taken⟩
  · exact ⟨hand, fun free => absurd free held⟩

theorem settled_same (slots : t.slots = s.slots) (bus : t.bus = s.bus) (h : s.Settled) : t.Settled :=
  (onward_same slots bus).settled h

/-! ### What the PTU does at its own operations -/

theorem onward_poke (s : State) : s.Onward (poke s) := by
  rw [poke_onMp]
  exact onward_same rfl rfl

theorem onward_grant (s : State) : s.Onward (grant s) := by
  rw [grant_onMp]
  exact onward_same rfl rfl

theorem onward_act (s : State) (f : Blocks → Blocks) : s.Onward (s.act f) :=
  (onward_onBlocks s f).trans (onward_poke _)

theorem onward_setSlot {x : Transaction} {p : PtuPlace} (h : s.slot m = .translating x p) {y : Slot}
    (held : y ≠ .free) (hand : y.isAt .toHand = false) : s.Onward (s.setSlot m y) :=
  ⟨rfl, fun k => by
    rw [State.setSlot, slot_set]
    by_cases same : m = k
    · subst same
      rw [if_pos rfl]
      exact .inr ⟨⟨x, p, h⟩, held, hand⟩
    · exact .inl (if_neg same)⟩

theorem onward_moveTo (s : State) (m : Master) {p : PtuPlace} (hp : p ≠ .toHand) :
    s.Onward (s.moveTo m p) := by
  unfold State.moveTo
  split
  next x q h => exact onward_setSlot h (by simp) (by simpa [Slot.isAt] using hp)
  all_goals exact .refl s

theorem onward_walkNext (s : State) : s.Onward (walkNext s) := by
  unfold walkNext
  split
  next m rest _ _ =>
    refine (onward_moveTo s m (p := .walking) (by decide)).trans (.trans ?_ (onward_poke _))
    exact onward_same rfl rfl
  all_goals exact .refl s

theorem onward_joinQueue (m : Master) (s : State) : s.Onward (joinQueue m s) := by
  refine (onward_moveTo s m (p := .queued) (by decide)).trans (.trans ?_ (onward_walkNext _))
  exact onward_same rfl rfl

theorem onward_toMemory {x : Transaction} {p : PtuPlace} (h : s.slot m = .translating x p)
    (t : Transaction) (a : Addr) (k : WindowKind) : s.Onward (toMemory m t a k s) :=
  (onward_setSlot h (by simp) rfl).trans (onward_poke _)

theorem onward_handAgain (s : State) (m : Master) : s.Onward (handAgain s m) := by
  unfold handAgain
  split
  next x p h =>
    split
    · exact onward_toMemory h ..
    · exact onward_joinQueue m s
  all_goals exact .refl s

theorem onward_supersede (s : State) : s.Onward (supersede s) := by
  unfold supersede
  split <;> exact onward_same rfl rfl

theorem onward_handAgainAll (ms : List Master) (s : State) : s.Onward (ms.foldl handAgain s) := by
  induction ms generalizing s with
  | nil => exact .refl s
  | cons m ms ih => exact (onward_handAgain s m).trans (ih _)

theorem onward_applyPtu (s : State) : s.Onward (applyPtu s) := by
  have cleared : s.Onward (supersede (s.onPtu Ptu.clear)) :=
    (onward_onPtu s _).trans (onward_supersede _)
  exact cleared.trans ((onward_onPtu _ _).trans (onward_handAgainAll _ _))

theorem loosed_leavePtu (y : Slot) : y.Loosed (leavePtu y) := by
  unfold leavePtu
  split
  case h_5 => exact .inl rfl
  case h_6 => exact .inl rfl
  case h_7 => exact .inl rfl
  case h_8 => exact .inl rfl
  all_goals exact .inr ⟨⟨_, _, rfl⟩, by simp⟩

theorem loosed_bypassPtu (s : State) : s.Loosed (bypassPtu s) := by
  have left (u : State) : u.Loosed { u with slots := u.slots.map leavePtu } := ⟨rfl, fun k => by
    have : State.slot { u with slots := u.slots.map leavePtu } k = leavePtu (u.slot k) := by
      simp [State.slot]
    exact this ▸ loosed_leavePtu _⟩
  have ended : s.Onward (supersede (s.onPtu Ptu.clear)) :=
    (onward_onPtu s _).trans (onward_supersede _)
  exact (ended.trans ((onward_onPtu _ _).trans (onward_onMp _ _))).loosed.trans (left _)

/-! ### Commands -/

theorem loosed_takeCommand {tag code : BitVec 8} {taken : Mode → Bool}
    {owner : State → Result × State} (h : s.Loosed (owner s).2) :
    s.Loosed (takeCommand m tag code taken owner s) := by
  unfold takeCommand
  cases taken s.mode
  · exact (onward_act s _).loosed
  · exact h.trans (onward_act _ _).loosed

theorem onward_takeCommand {tag code : BitVec 8} {taken : Mode → Bool}
    {owner : State → Result × State} (h : s.Onward (owner s).2) :
    s.Onward (takeCommand m tag code taken owner s) := by
  unfold takeCommand
  cases taken s.mode
  · exact onward_act s _
  · exact h.trans (onward_act _ _)

theorem onward_owner (s : State) (f : Blocks → Result × Blocks) : s.Onward (ownerOf f s).2 :=
  onward_same rfl rfl

theorem onward_applyProfile (s : State) : s.Onward (applyProfile s).2 := by
  unfold applyProfile
  split
  · exact .refl s
  · exact (onward_onBlocks s _).trans ((onward_onMp _ _).trans (onward_applyPtu _))

theorem onward_invalidate (a : BitVec 8) (s : State) : s.Onward (invalidate a s).2 := by
  unfold invalidate
  split
  · exact .refl s
  · split <;> exact onward_same rfl rfl

theorem onward_journalEmptied (s : State) : s.Onward (journalEmptied s) := by
  unfold journalEmptied
  split
  · exact onward_onMp s _
  · exact .refl s

theorem loosed_enterBypass (s : State) : s.Loosed (enterBypassMode s).2 := by
  unfold enterBypassMode
  exact ((onward_onBlocks s _).trans
    ((onward_journalEmptied _).trans (onward_onMp _ _))).loosed.trans (loosed_bypassPtu _)

theorem loosed_runCommand (m : Master) (w0 w1 w2 : Word) (s : State) :
    s.Loosed (runCommand m w0 w1 w2 s) := by
  unfold runCommand
  dsimp only
  split
  case h_3 => exact loosed_takeCommand (loosed_enterBypass s)
  case h_4 => exact loosed_takeCommand (onward_applyProfile s).loosed
  case h_7 => exact loosed_takeCommand (onward_invalidate _ s).loosed
  case h_18 => exact (onward_act s _).loosed
  all_goals exact loosed_takeCommand (onward_owner s _).loosed

theorem loosed_commandWord (m : Master) (o : BitVec 12) (w : Word) (s : State) :
    s.Loosed (takeCommandWord m o w s) := by
  unfold takeCommandWord
  dsimp only
  have framed : s.Loosed (s.onBlocks (frameCommand m o w)) := (onward_onBlocks s _).loosed
  split
  · exact framed
  · unfold completeCommand
    split
    · exact framed.trans (loosed_runCommand m _ _ _ _)
    · exact framed.trans (onward_onBlocks _ _).loosed

/-! ### The turns that are left

A transaction with the PTU may hand eight others back, when it completes an ENTER_BYPASS as it leaves for
the MP; so it counts eight turns, one more while it waits to be handed over itself, and a bus request
counts one more than the transaction that it becomes. -/

/-- The turns that a slot may still cost. -/
def Slot.cost : Slot → Nat
  | .translating _ .toHand => 9
  | .translating _ .looking | .translating _ .queued | .translating _ .walking
  | .translating _ .sweepWait => 8
  | .free | .held _ | .memory _ _ _ => 0

/-- The turns that the slots and the bus requests may still cost. -/
def State.cost (s : State) : Nat := 9 * s.busCount + ∑ k : Master, (s.slot k).cost

theorem cost_le (y : Slot) : y.cost ≤ 9 := by unfold Slot.cost; split <;> omega

theorem cost_le_of_not_toHand {y : Slot} (h : y.isAt .toHand = false) : y.cost ≤ 8 := by
  unfold Slot.cost
  split
  · simp [Slot.isAt] at h
  all_goals omega

theorem cost_translating (x : Transaction) (p : PtuPlace) : 8 ≤ (Slot.translating x p).cost := by
  cases p <;> simp [Slot.cost]

theorem Slot.Onward.cost {y z : Slot} (h : y.Onward z) : z.cost ≤ y.cost := by
  obtain rfl | ⟨⟨x, p, rfl⟩, _, hand⟩ := h
  · exact le_rfl
  · exact (cost_le_of_not_toHand hand).trans (cost_translating x p)

theorem Slot.Loosed.cost {y z : Slot} (h : y.Loosed z) : z.cost ≤ y.cost + 1 := by
  obtain rfl | ⟨⟨x, p, rfl⟩, _⟩ := h
  · omega
  · have := cost_translating x p
    have := cost_le z
    omega

theorem busCount_of_bus (h : t.bus = s.bus) : t.busCount = s.busCount := by
  unfold State.busCount
  rw [h]

theorem State.Onward.cost (h : s.Onward t) : t.cost ≤ s.cost := by
  unfold State.cost
  rw [busCount_of_bus h.bus]
  exact Nat.add_le_add_left (Finset.sum_le_sum fun k _ => (h.slot k).cost) _

/-- The slots' cost is that of one slot and of the others. -/
theorem cost_split (s : State) (m : Master) :
    s.cost = 9 * s.busCount + ((s.slot m).cost + ∑ k ∈ Finset.univ.erase m, (s.slot k).cost) := by
  rw [State.cost, Finset.add_sum_erase _ (fun k => (s.slot k).cost) (Finset.mem_univ m)]

theorem cost_others_setSlot (s : State) (m : Master) (y : Slot) :
    ∑ k ∈ Finset.univ.erase m, ((s.setSlot m y).slot k).cost
      = ∑ k ∈ Finset.univ.erase m, (s.slot k).cost :=
  Finset.sum_congr rfl fun k hk => by
    rw [State.setSlot, slot_set, if_neg (Finset.ne_of_mem_erase hk).symm]

theorem cost_setSlot (s : State) (m : Master) (y : Slot) :
    (s.setSlot m y).cost + (s.slot m).cost = s.cost + y.cost := by
  have same : (s.setSlot m y).slot m = y := by rw [State.setSlot, slot_set, if_pos rfl]
  have bus : (s.setSlot m y).busCount = s.busCount := rfl
  rw [cost_split (s.setSlot m y) m, cost_split s m, cost_others_setSlot, same, bus]
  omega

/-- A transaction that leaves for the MP, or is answered, pays for the others that it hands back. -/
theorem cost_afterCommand {x : Transaction} {p : PtuPlace} (hs : s.slot m = .translating x p)
    (h : s.Loosed t) {y : Slot} (hy : y.cost = 0) : (t.setSlot m y).cost ≤ s.cost := by
  have same : (t.setSlot m y).slot m = y := by rw [State.setSlot, slot_set, if_pos rfl]
  have bus : (t.setSlot m y).busCount = s.busCount := busCount_of_bus h.bus
  have back : ∑ k ∈ Finset.univ.erase m, (t.slot k).cost
      ≤ ∑ k ∈ Finset.univ.erase m, ((s.slot k).cost + 1) :=
    Finset.sum_le_sum fun k _ => (h.slot k).cost
  rw [Finset.sum_add_distrib, Finset.sum_const, Finset.card_erase_of_mem (Finset.mem_univ m),
    Finset.card_univ, Fintype.card_fin, smul_eq_mul] at back
  have mine : 8 ≤ (s.slot m).cost := hs ▸ cost_translating x p
  rw [cost_split (t.setSlot m y) m, cost_split s m, cost_others_setSlot, same, bus, hy]
  omega

theorem cost_answer (h : s.Onward t) (m : Master) (ok : Bool) (w : Word) :
    (answer m ok w t).cost ≤ s.cost := by
  have freed : (answer m ok w t).cost + (t.slot m).cost = t.cost := cost_setSlot t m .free
  have := h.cost
  omega

theorem cost_refuse (m : Master) (f : FaultKind) (a : Addr) (s : State) :
    (refuse m f a s).cost ≤ s.cost :=
  cost_answer (onward_same rfl rfl) m false allOnes

/-! ### A transaction in the SP's hands costs no more than it pays for -/

section

variable {x : Transaction} {p : PtuPlace}

theorem cost_writeCommand (hs : s.slot m = .translating x p) (t : Transaction) (w : Word) (a : Addr) :
    (writeCommand m t w a s).cost ≤ s.cost :=
  (onward_poke _).cost.trans
    (cost_afterCommand hs (loosed_commandWord m (addrOffset a) w s) rfl)

theorem cost_toMemory (hs : s.slot m = .translating x p) (t : Transaction) (a : Addr)
    (k : WindowKind) : (toMemory m t a k s).cost ≤ s.cost := (onward_toMemory hs t a k).cost

theorem cost_readStatus (m : Master) (t : Transaction) (o : BitVec 12) (s : State) :
    (readStatus m t o s).cost ≤ s.cost := by
  unfold readStatus
  split
  · exact cost_answer (onward_same rfl rfl) ..
  · exact cost_refuse ..

theorem cost_readDirective (m : Master) (t : Transaction) (y : Approach) (o : BitVec 12) (s : State) :
    (readDirective m t y o s).cost ≤ s.cost := by
  unfold readDirective
  split
  case h_4 => exact cost_refuse ..
  all_goals exact cost_answer (onward_same rfl rfl) ..

theorem cost_writeCapture (hs : s.slot m = .translating x p) (t : Transaction) (w : Word)
    (c : BitVec 3) (a : Addr) : (writeCapture m t w c a s).cost ≤ s.cost := by
  unfold writeCapture
  dsimp only
  split
  next l _ =>
    have acted := onward_act s (takeCaptureWord l (addrOffset a) w)
    have slot : (s.act (takeCaptureWord l (addrOffset a) w)).slot m = .translating x p := by
      rw [State.act, poke_onMp]
      exact hs
    exact (cost_toMemory slot t a .capture).trans acted.cost
  · exact cost_toMemory hs t a .capture

theorem cost_route (hs : s.slot m = .translating x p) (t : Transaction) (k : WindowKind)
    (c : BitVec 3) (a : Addr) : (route m t k c a s).cost ≤ s.cost := by
  unfold route
  split
  case h_4 => exact cost_writeCapture hs ..
  case h_6 => exact cost_writeCommand hs ..
  case h_7 => exact cost_readStatus ..
  case h_8 => exact cost_readDirective ..
  case h_9 => exact cost_refuse ..
  case h_10 => exact cost_refuse ..
  all_goals exact cost_toMemory hs ..

theorem cost_useEntry (hs : s.slot m = .translating x p) (t : Transaction) (e : WalkedEntry) :
    (useEntry m t e s).cost ≤ s.cost := by
  unfold useEntry
  split
  · exact cost_refuse ..
  · exact cost_route hs ..

theorem cost_lookup (hs : s.slot m = .translating x p) (t : Transaction) :
    (lookup m t s).cost ≤ s.cost := by
  unfold lookup
  dsimp only
  generalize hv : (if (s.ptu.set m (addrSet t.address)).checkFails (addrTag t.address) = true then
    (s.onPtu fun p => p.onSet m (addrSet t.address)
      (BufferSet.afterLookup (addrTag t.address))).onBlocks (masterFault .entryCheck m t.address)
    else s.onPtu fun p => p.onSet m (addrSet t.address)
      (BufferSet.afterLookup (addrTag t.address))) = v
  have same : v.slots = s.slots ∧ v.bus = s.bus := by
    rw [← hv]
    split <;> exact ⟨rfl, rfl⟩
  have looked : s.Onward v := onward_same same.1 same.2
  have slot : v.slot m = .translating x p := by
    rw [← hs]
    unfold State.slot
    rw [same.1]
  split
  · exact (cost_useEntry slot _ _).trans looked.cost
  · exact (onward_joinQueue m v).cost.trans looked.cost

theorem cost_handToPtu (hs : s.slot m = .translating x p) (t : Transaction) :
    (handToPtu m t s).cost ≤ s.cost := by
  unfold handToPtu
  split
  · exact cost_toMemory hs ..
  · split
    · exact (onward_moveTo s m (by decide)).cost
    · exact cost_lookup hs t

theorem cost_fallback {s : State} (hs : s.slot 7 = .translating x p) (t : Transaction) :
    (fallback t s).cost ≤ s.cost := by
  unfold fallback
  dsimp only
  split
  · split
    · exact cost_toMemory hs ..
    · exact cost_writeCommand hs ..
  · split
    · exact cost_readStatus ..
    · exact cost_refuse ..

theorem cost_classify (hs : s.slot m = .translating x p) (t : Transaction) :
    (classify m t s).cost ≤ s.cost := by
  unfold classify
  split
  next h =>
    obtain ⟨rfl, _⟩ : m = 7 ∧ t.address.toNat < 0x200 := by simpa using h
    exact cost_fallback hs t
  · exact cost_toMemory hs ..

end

/-- A hand-over costs no more than the transaction does while it is classified. -/
theorem cost_handOver (s : State) (m : Master) (t : Transaction) :
    (handOver m t s).cost + (s.slot m).cost ≤ s.cost + 8 := by
  have slot : (s.setSlot m (.translating t .looking)).slot m = .translating t .looking := by
    rw [State.setSlot, slot_set, if_pos rfl]
  have inHand : (s.setSlot m (.translating t .looking)).cost + (s.slot m).cost = s.cost + 8 :=
    cost_setSlot s m _
  have handed : (handOver m t s).cost ≤ (s.setSlot m (.translating t .looking)).cost := by
    unfold handOver
    dsimp only
    split
    · exact cost_classify slot t
    · exact cost_handToPtu slot t
    · exact cost_handToPtu slot t
    · exact (onward_setSlot slot (by simp) rfl).cost
  omega

theorem busCount_take {x : Transaction} {rest : List Transaction} (h : s.bus[m] = x :: rest) :
    State.busCount { s with bus := s.bus.set m rest } + 1 = s.busCount := by
  have total (v : Vector (List Transaction) 8) :
      (v.toList.map List.length).sum = ∑ k : Master, v[k].length := by
    obtain ⟨⟨l⟩, hl⟩ := v
    match l, hl with
    | [_, _, _, _, _, _, _, _], _ => simp [Fin.sum_univ_eight]; omega
  have other : ∑ k ∈ Finset.univ.erase m, (s.bus.set m rest)[k].length
      = ∑ k ∈ Finset.univ.erase m, s.bus[k].length :=
    Finset.sum_congr rfl fun k hk => by
      have ne : m.val ≠ k.val := fun e => Finset.ne_of_mem_erase hk (Fin.ext e.symm)
      simp [ne]
  have mine : (s.bus.set m rest)[m] = rest := by simp
  unfold State.busCount
  dsimp only
  rw [total, total, ← Finset.add_sum_erase _ _ (Finset.mem_univ m),
    ← Finset.add_sum_erase (a := m) _ (fun k : Master => s.bus[k].length) (Finset.mem_univ m), other,
    mine, h]
  simp only [List.length_cons]
  omega

/-- A bus request is worth one more than what it becomes. -/
theorem cost_takeFromBus {x : Transaction} {rest : List Transaction} (hf : s.slot m = .free)
    (h : s.bus[m] = x :: rest) : (takeFromBus m s).cost < s.cost := by
  have taken : State.cost { s with bus := s.bus.set m rest } + 9 = s.cost := by
    have := busCount_take h
    have slots : ∑ k : Master, (State.slot { s with bus := s.bus.set m rest } k).cost
      = ∑ k : Master, (s.slot k).cost := rfl
    unfold State.cost
    omega
  have slot : (State.slot { s with bus := s.bus.set m rest } m).cost = 0 := by
    change (s.slot m).cost = 0
    rw [hf]
    rfl
  unfold takeFromBus
  rw [h]
  dsimp only
  unfold takeTransaction
  split
  · have := cost_refuse m .misaligned x.address { s with bus := s.bus.set m rest }
    omega
  · have := cost_handOver { s with bus := s.bus.set m rest } m x
    omega

theorem settled_of_nothingToDo (hand : s.toHand = none) (take : s.toTake = none) : s.Settled := by
  intro m
  have all : m ∈ allMasters := (show ∀ m : Master, m ∈ allMasters by decide) m
  refine ⟨by simpa using List.find?_eq_none.mp hand m all, fun free => ?_⟩
  have := List.find?_eq_none.mp take m all
  simpa [State.canTake, free] using this

theorem settled_of_cost_zero (h : s.cost = 0) : s.Settled := by
  obtain ⟨bus, slots⟩ : s.busCount = 0 ∧ ∑ k : Master, (s.slot k).cost = 0 := by
    unfold State.cost at h
    omega
  refine settled_of_nothingToDo (toHand_none fun m => ?_) (toTake_none fun m _ => ?_)
  · have zero := Finset.sum_eq_zero_iff.mp slots m (Finset.mem_univ m)
    cases hand : (s.slot m).isAt .toHand with
    | false => rfl
    | true =>
      obtain ⟨x, hx⟩ := isAt_translating hand
      rw [hx] at zero
      cases zero
  · have zero : ∀ n ∈ s.bus.toList.map List.length, n = 0 := List.sum_eq_zero_iff.mp bus
    have mem : s.bus[m] ∈ s.bus.toList := by simp
    exact List.eq_nil_of_length_eq_zero (zero _ (List.mem_map_of_mem mem))

/-- Each turn pays for itself, so the SP settles within the turns that are left. -/
theorem settled_drainLevel : ∀ (n : Nat) (s : State), s.cost ≤ n → (drainLevel n s).Settled
  | 0, s, h => settled_of_cost_zero (Nat.le_zero.mp h)
  | n + 1, s, h => by
    unfold drainLevel
    split
    next m hm =>
      have hand : (s.slot m).isAt .toHand = true := by simpa using List.find?_some hm
      obtain ⟨x, hx⟩ := isAt_translating hand
      have cost := cost_handOver s m x
      rw [hx] at cost ⊢
      exact settled_drainLevel n _ (by simp only [Slot.cost] at cost; omega)
    next hand =>
      split
      next m hm =>
        obtain ⟨free, some⟩ : s.slot m = .free ∧ ¬ s.bus[m] = [] := by
          simpa [State.canTake] using List.find?_some hm
        obtain ⟨x, rest, bus⟩ := List.exists_cons_of_ne_nil some
        exact settled_drainLevel n _ (by have := cost_takeFromBus free bus; omega)
      next take => exact settled_of_nothingToDo hand take

theorem settled_drain (s : State) : (drain s).Settled := by
  refine settled_drainLevel _ s ?_
  have slots : ∑ k : Master, (s.slot k).cost ≤ ∑ _k : Master, 9 :=
    Finset.sum_le_sum fun k _ => cost_le _
  simp only [Finset.sum_const, Finset.card_univ, Fintype.card_fin, smul_eq_mul] at slots
  unfold State.cost State.turns
  omega

/-! ### Every event leaves the port settled -/

theorem settled_complete {hand : State → State} (hh : ∀ s, s.Settled → (hand s).Settled)
    (h : s.Settled) : (complete hand s).Settled := by
  have handed := hh (s.onMp fun p => { p with cycle := .handing }) (settled_same rfl rfl h)
  exact (onward_grant _).settled (settled_same rfl rfl handed)

theorem settled_regionDone (h : s.Settled) : (regionDone s).Settled := by
  unfold regionDone
  split
  · refine settled_complete (fun s h => ?_) h
    split
    · exact h
    · unfold regionWord
      split
      · split
        · exact settled_drain _
        · split
          · exact settled_same rfl rfl h
          · exact settled_drain _
      all_goals exact h
  all_goals exact h

theorem settled_pageDone (h : s.Settled) : (pageDone s).Settled := by
  unfold pageDone
  split
  · refine settled_complete (fun s h => ?_) h
    split
    · exact h
    · unfold pageWord
      split
      · split
        · exact settled_drain _
        · split
          · unfold finishWalk
            split <;> exact settled_drain _
          · exact settled_drain _
      all_goals exact h
  all_goals exact h

theorem settled_forwardDone (h : s.Settled) : (forwardDone s).Settled := by
  unfold forwardDone
  split
  · exact settled_complete (fun s _ => settled_drain _) h
  all_goals exact h

theorem settled_journalDone (h : s.Settled) : (journalDone s).Settled := by
  unfold journalDone
  split
  · refine settled_complete (fun s h => ?_) h
    dsimp only
    split
    · exact settled_same rfl rfl h
    · refine (onward_journalEmptied _).settled ?_
      exact settled_same rfl rfl h
  all_goals exact h

theorem settled_sourceDone (h : s.Settled) : (sourceDone s).Settled := by
  unfold sourceDone
  split
  · exact settled_complete (fun s h => settled_same rfl rfl h) h
  all_goals exact h

theorem settled_sweepStep (h : s.Settled) : (sweepStep s).Settled := by
  unfold sweepStep
  split
  · exact h
  · split
    · dsimp only
      split
      · exact settled_same rfl rfl h
      · exact settled_drain _
    · exact h

theorem settled_endStartUp (h : s.Settled) : (endStartUp s).Settled := by
  unfold endStartUp
  split
  · exact settled_drain _
  all_goals exact h

theorem settled_fresh (h : s.Settled) : s.fresh.Settled := settled_same rfl rfl h

/-- What every command but ENTER_BYPASS does at the port. -/
theorem settled_command {f : State → State} (hf : ∀ s : State, s.Onward (f s)) (h : s.Settled)
    (e : commandEvent f s = .next t) : t.Settled := by
  obtain rfl := Host.Outcome.next.inj e
  split
  · exact (hf _).settled (settled_fresh h)
  · exact settled_fresh h

/-- A command whose owner acts in the blocks alone. -/
theorem settled_blockCommand {f : Blocks → Result × Blocks} {tag code : BitVec 8}
    {taken : Mode → Bool} (h : s.Settled)
    (e : commandEvent (takeCommand m tag code taken (ownerOf f)) s = .next t) : t.Settled :=
  settled_command (fun s : State => onward_takeCommand (onward_owner s f)) h e

/-- Every command leaves the port settled. -/
theorem settled_exec {i : Instr} (h : s.Settled) (e : exec i s = .next t) : t.Settled := by
  have fresh : s.fresh.Settled := settled_fresh h
  have acts {f : Blocks → Blocks} (e : Host.Outcome.next (s.fresh.act f) = exec i s) :
      exec i s = .next t → t.Settled := fun e' => by
    obtain rfl := Host.Outcome.next.inj (e.trans e')
    exact (onward_act _ f).settled fresh
  have inside {f : Blocks → Blocks} (e : Host.Outcome.next (s.fresh.onBlocks f) = exec i s) :
      exec i s = .next t → t.Settled := fun e' => by
    obtain rfl := Host.Outcome.next.inj (e.trans e')
    exact settled_same rfl rfl fresh
  cases i with
  | transaction m a x => obtain rfl := Host.Outcome.next.inj e; exact settled_drain _
  | forwardedCycleDone => obtain rfl := Host.Outcome.next.inj e; exact settled_forwardDone fresh
  | regionReadDone => obtain rfl := Host.Outcome.next.inj e; exact settled_regionDone fresh
  | pageReadDone => obtain rfl := Host.Outcome.next.inj e; exact settled_pageDone fresh
  | journalWordDone => obtain rfl := Host.Outcome.next.inj e; exact settled_journalDone fresh
  | sourceWordDone => obtain rfl := Host.Outcome.next.inj e; exact settled_sourceDone fresh
  | sweepStep => obtain rfl := Host.Outcome.next.inj e; exact settled_sweepStep fresh
  | directivePop | faultPop =>
    obtain rfl := Host.Outcome.next.inj e
    split
    · exact settled_same rfl rfl fresh
    · exact fresh
  | enterBypass m tag =>
    obtain rfl := Host.Outcome.next.inj e
    split
    · exact settled_drain _
    · exact fresh
  | applyProfile => exact settled_command (fun s : State => onward_takeCommand (onward_applyProfile s)) h e
  | invalidateArea m tag a =>
    exact settled_command (fun s : State => onward_takeCommand (onward_invalidate a s)) h e
  | start | stop | profileProgram | profileErase | pushRestriction | popRestriction | clearVehicle
  | clearPhantoms | laneDisable | laneEnable | laneRecover | clearEvents | setEventEnables
  | clearFaults => exact settled_blockCommand h e
  | powerOn | resetPin | supplyLow =>
    obtain rfl := Host.Outcome.next.inj e
    exact settled_drain _
  | endOfStartUp => obtain rfl := Host.Outcome.next.inj e; exact settled_endStartUp fresh
  | axle | passage | heartbeat | laneFault | closeTime | holdExpiry | decisionDeadline | e1Reached
  | v1Reached | tReached | phantomEndTime | silenceExpiry | pulseEnd => exact acts rfl e
  | programmingDone | erasingDone | beaconHoldExpiry | settleExpiry | roadClockTick | resetCauseEnds
  | supplyWarning | supplyWarningEnd => exact inside rfl e

end

/-- Settles O6: whatever empties a slot or hands a transaction back ends in a drain, and a drain has
turns enough for everything that it can find. -/
theorem portStaysSettled : Obligations.PortStaysSettled := by
  intro s t h e
  unfold step at e
  split at e
  · refine settled_exec (settled_same (s := s) ?_ ?_ h) e <;> rfl
  · obtain rfl := Host.Outcome.next.inj e
    exact settled_same rfl rfl h

/-! ## The invariants at reset (logs 1, 3, 7, 8) -/

theorem slot_reset (m : Master) : State.reset.slot m = .free := by
  simp [State.slot, State.reset]

theorem modeSound_reset : Blocks.reset.ModeSound where
  startUp := by decide
  chosen := by decide
  profile := by decide
  settle := by decide
  rest _ := ⟨rfl, rfl, rfl, rfl, rfl, rfl, rfl⟩
  fresh _ := ⟨rfl, fun l => by simp [Blocks.lane, Blocks.reset]⟩

/-- Settles O4. -/
theorem invariantsHoldAtReset : Obligations.InvariantsHoldAtReset := by
  refine ⟨rfl, fun m => ?_, ptuSound_reset, (eventKept_fits.reset .reset).1, listsFit_reset .reset,
    (queueSound_iff _).mpr (queueBut_empty rfl rfl), ⟨Nat.zero_le _, List.nodup_nil⟩, modeSound_reset,
    fun p hp => ?_, fun _ => rfl⟩
  · rw [slot_reset]
    exact ⟨rfl, fun _ => by simp [State.reset]⟩
  · cases hp

end Sys2Proof.Machine

namespace Sys2Proof.Machine

/-! ## The VA, the VT and the AU rest outside ACTIVE (R62, R80, R105, R130) -/

section

variable {b c : Blocks}

/-- The SU is left as it was by everything in the blocks but the SU's own events. -/
theorem laneKept_su (u : Supervisor) : LaneKept fun b => b.su = u where
  du _ _ _ h := h
  overflow _ h := h
  record _ _ _ _ h := h
  request _ _ h := h
  fault b f h := by rw [sendFault_eq]; exact h
  va _ _ _ h := h
  vt _ _ _ _ _ h := h
  entered _ _ _ h := h
  held _ _ _ h := h
  without _ _ h := h
  stopped _ h := h
  joined _ _ _ _ h := h
  au _ _ _ _ _ h := h
  placed _ _ _ _ h := h
  offer _ _ h := by unfold offerJournal; split <;> exact h
  lanes _ _ h := h

/-- Outside ACTIVE, with nothing of a vehicle anywhere. -/
structure Quiet (b : Blocks) : Prop where
  mode : b.su.mode ≠ .active
  rest : b.AtRest

theorem Blocks.AtRest.same (h : b.AtRest) (va : c.va = b.va) (vt : c.vt = b.vt) (au : c.au = b.au) :
    c.AtRest := by
  obtain ⟨hva, table, occupants, reservations, held, alarm, lock⟩ := h
  exact ⟨va ▸ hva, vt ▸ table, vt ▸ occupants, au ▸ reservations, au ▸ held, au ▸ alarm, au ▸ lock⟩

theorem Quiet.same (h : Quiet b) (su : c.su.mode = b.su.mode) (va : c.va = b.va) (vt : c.vt = b.vt)
    (au : c.au = b.au) : Quiet c := ⟨su ▸ h.mode, h.rest.same va vt au⟩

theorem Quiet.record (h : Quiet b) (n : VehicleNumber) : b.record n = none := by
  unfold Blocks.record
  rw [h.rest.table]
  rfl

theorem Quiet.openVehicle (h : Quiet b) (l : Lane) : b.openVehicle l = none := by
  unfold Blocks.openVehicle
  simp [h.rest.va, Assembler.reset]

theorem Quiet.straddleSlot (h : Quiet b) (l : Lane) : b.straddleSlot l = none := by
  unfold Blocks.straddleSlot
  simp [h.rest.va, Assembler.reset]

theorem Quiet.onRecord (h : Quiet b) (n : VehicleNumber) (f : VehicleRecord → VehicleRecord) :
    Quiet (b.onRecord n f) :=
  h.same rfl rfl (by
    have : (b.onRecord n f).vt = { b.vt with table := b.vt.table } := by
      simp [Blocks.onRecord, h.rest.table]
    exact this) rfl

theorem baseKept_quiet : BaseKept Quiet where
  du _ _ _ h := h.same rfl rfl rfl rfl
  overflow _ h := h.same rfl rfl rfl rfl
  record _ n f _ h := h.onRecord n f
  request _ _ h := h.same rfl rfl rfl rfl
  fault b f h := by rw [sendFault_eq]; exact h.same rfl rfl rfl rfl

/-! ### What a quiet part leaves alone -/

theorem Quiet.setLane (h : Quiet b) (l : Lane) (u : LaneUnit) : Quiet (b.setLane l u) :=
  h.same rfl rfl rfl rfl

theorem Quiet.suspectNotice (h : Quiet b) (l : Lane) : suspectNotice l b = b := if_pos h.mode

theorem Quiet.laneChanged (h : Quiet b) (l : Lane) (x y : LaneState) : laneChanged l x y b = b := by
  simp [Machine.laneChanged, h.mode]

theorem Quiet.takeAxle (h : Quiet b) (a : Axle) : takeAxle a b = b := if_pos h.mode

theorem Quiet.takePassage (h : Quiet b) (x : Approach) (l : Loop) (p : Time) : takePassage x l p b = b :=
  if_pos h.mode

theorem Quiet.closeIfReached (h : Quiet b) (l : Lane) : closeIfReached l b = b := by
  simp [Machine.closeIfReached, h.openVehicle]

theorem Quiet.reachHoldExpiry (h : Quiet b) (l : Lane) : reachHoldExpiry l b = b := by
  simp [Machine.reachHoldExpiry, h.straddleSlot]

theorem Quiet.reachD (h : Quiet b) (n : VehicleNumber) : reachD n b = b := by
  simp [Machine.reachD, serveD, h.record]

theorem Quiet.reachE1 (h : Quiet b) (n : VehicleNumber) : reachE1 n b = b := by
  simp [Machine.reachE1, h.record]

theorem Quiet.reachV1 (h : Quiet b) (n : VehicleNumber) : reachV1 n b = b := by
  simp [Machine.reachV1, h.record]

theorem Quiet.reachT (h : Quiet b) (n : VehicleNumber) : reachT n b = b := by
  simp [Machine.reachT, h.record]

theorem Quiet.reachPhantomEnd (h : Quiet b) (k : Phantom) : reachPhantomEnd k b = b := by
  simp [Machine.reachPhantomEnd, Blocks.phantom, h.rest.occupants]

/-! ### A quiet part and its lanes -/

theorem Quiet.enterLane (h : Quiet b) (l : Lane) (st : LaneState) : Quiet (enterLane l st b) := by
  unfold Machine.enterLane announceLane
  dsimp only
  have entered := h.setLane l ((b.lane l).enter b.now (silenceMs b.profile l) st)
  rw [entered.laneChanged]
  split
  · exact entered
  · split
    · exact baseKept_quiet.request _ _ (baseKept_quiet.notice _ _ entered)
    · exact baseKept_quiet.notice _ _ entered

theorem Quiet.checkSequence (h : Quiet b) (l : Lane) (s : BitVec 12) (n : BitVec 8) :
    Quiet (checkSequence l s n b) := by
  unfold Machine.checkSequence
  dsimp only
  have faulted : Quiet (laneFaultRecord .sequenceGap l s b) := baseKept_quiet.laneFault _ _ _ h
  split
  · exact h.setLane _ _
  · rw [faulted.suspectNotice]
    exact faulted.setLane _ _

theorem Quiet.deliver (h : Quiet b) (l : Lane) (s : BitVec 12) (r : CaptureRecord) :
    Quiet (deliver l s r b) := by
  unfold Machine.deliver
  split
  · unfold deliverAxle
    rw [h.takeAxle, ite_self]
    exact h
  · unfold deliverPassage
    dsimp only
    rw [h.takePassage, ite_self]
    split
    · exact baseKept_quiet.laneFault _ _ _ h
    · exact h
  · exact h.setLane _ _
  · exact h

theorem Quiet.acceptRecord (h : Quiet b) (l : Lane) (s : BitVec 12) (r : CaptureRecord) :
    Quiet (acceptRecord l s r b) :=
  Quiet.deliver (Quiet.setLane (Quiet.enterLane (h.checkSequence l s r.sequence) _ _) _ _) l s r

theorem Quiet.takeRecord (h : Quiet b) (l : Lane) (s : BitVec 12) (r : CaptureRecord) :
    Quiet (takeRecord l s r b) := by
  unfold Machine.takeRecord
  split
  · exact h.acceptRecord l s r
  · exact h

theorem Quiet.completeCapture (h : Quiet b) (l : Lane) (r : CompleteRecord) :
    Quiet (completeCapture l r b) := by
  unfold Machine.completeCapture
  split
  · exact baseKept_quiet.laneFault _ _ _ h
  · exact h.acceptRecord ..

theorem Quiet.takeCaptureWord (h : Quiet b) (l : Lane) (o : BitVec 12) (w : Word) :
    Quiet (takeCaptureWord l o w b) := by
  unfold Machine.takeCaptureWord
  dsimp only
  have framed := h.setLane l { b.lane l with framing := (frameWord (b.lane l).framing o w).framing }
  have faulted (s : BitVec 12) := baseKept_quiet.laneFault .framing l s framed
  split
  · exact h
  · split <;> split
    · exact framed
    · exact faulted _
    · exact framed.completeCapture _ _
    · exact (faulted _).completeCapture _ _

theorem Quiet.reachSilence (h : Quiet b) (l : Lane) : Quiet (reachSilence l b) := by
  unfold Machine.reachSilence silenceAction
  dsimp only
  split
  · split
    · exact Quiet.enterLane (h.setLane _ _) _ _
    · exact h.enterLane _ _
  · exact h

theorem Quiet.reachPulseEnd (h : Quiet b) (l : Lane) : Quiet (reachPulseEnd l b) := by
  unfold Machine.reachPulseEnd
  dsimp only
  split
  · exact Quiet.enterLane (h.setLane _ _) _ _
  · exact h

theorem Quiet.disableLane (h : Quiet b) (l : Lane) : Quiet (disableLane l b).2 := by
  unfold Machine.disableLane
  split
  · exact h
  · exact h.setLane _ _
  · exact h
  all_goals exact h.enterLane _ _

theorem Quiet.enableLane (h : Quiet b) (l : Lane) : Quiet (enableLane l b).2 := by
  unfold Machine.enableLane
  split
  · exact h.enterLane _ _
  all_goals exact h

theorem Quiet.recoverLane (h : Quiet b) (l : Lane) : Quiet (recoverLane l b).2 := by
  unfold Machine.recoverLane
  dsimp only
  split
  · exact h
  · exact Quiet.enterLane (h.setLane _ _) _ _
  all_goals exact h.setLane _ _

theorem Quiet.laneCommand {act : Lane → Blocks → Result × Blocks}
    (ha : ∀ l, Quiet b → Quiet (act l b).2) (n : BitVec 8) (h : Quiet b) :
    Quiet (laneCommand act n b).2 := by
  unfold Machine.laneCommand
  split
  · exact h
  · exact ha _ h

theorem Quiet.dropJournal (h : Quiet b) : Quiet (dropJournal b) := by
  unfold Machine.dropJournal
  split
  · exact h
  · exact h.same rfl rfl rfl rfl

theorem Quiet.applyJournal (h : Quiet b) : Quiet (applyJournal b) := h.same rfl rfl rfl rfl

theorem Quiet.resetLanes (h : Quiet b) : Quiet (resetLanes b) :=
  DuKept.fold (P := Quiet) (fun _ _ h => Quiet.enterLane (Quiet.setLane h _ _) _ _) allLanes b h

/-! ### A quiet part and its restrictions -/

theorem overloaded_of_empty (h : b.au.reservations = []) : overloaded b = false := by
  simp [overloaded, fitsAt, Blocks.reservedLoad, Blocks.heavyCount, Blocks.claims, h]

theorem Quiet.evalAlarm (h : Quiet b) (m : Bool) : evalAlarm m b = b := by
  simp [Machine.evalAlarm, overloaded_of_empty h.rest.reservations, h.rest.alarm]

theorem Quiet.reevaluate (h : Quiet b) : reevaluate b = b := by
  simp [Machine.reevaluate, reevaluateLevel, h.rest.held]

theorem Quiet.revokeWhile (h : Quiet b) (g : Blocks → Bool) (among : VehicleRecord → Bool) :
    revokeWhile g among b.vt.table.length (b, false) = (b, false) := by
  rw [h.rest.table]
  rfl

theorem Quiet.shortfallSweep (h : Quiet b) : shortfallSweep b = b := by
  unfold Machine.shortfallSweep sweepAfter
  rw [h.revokeWhile]
  simp [h.evalAlarm]

theorem Quiet.closeApproach (h : Quiet b) (x : Approach) : closeApproach x b = b := by
  unfold Machine.closeApproach
  rw [h.revokeWhile]
  exact h.shortfallSweep

theorem Quiet.actOnReport (h : Quiet b) (p : RestrictionReport) : actOnReport p b = b := by
  unfold Machine.actOnReport
  dsimp only
  simp only [h.closeApproach, h.shortfallSweep, h.evalAlarm, h.reevaluate, ite_self]

theorem Quiet.changeStack (h : Quiet b) (f : List Restriction → List Restriction) :
    Quiet (changeStack f b) := by
  have after : Quiet (b.onRu fun r => { r with stack := f r.stack }) := h.same rfl rfl rfl rfl
  unfold Machine.changeStack
  dsimp only
  have told : Quiet (noticeClosure b.effClosed
      (b.onRu fun r => { r with stack := f r.stack }).effClosed
      (b.onRu fun r => { r with stack := f r.stack })) := baseKept_quiet.noticeClosure _ _ after
  rw [told.actOnReport]
  exact told

theorem Quiet.pushEntry (h : Quiet b) (o : PushOperands) : Quiet (pushEntry o b).2 := by
  unfold Machine.pushEntry
  split
  · exact h
  · split
    · exact h
    · split
      · exact h
      · exact h.changeStack _

theorem Quiet.popEntry (h : Quiet b) (e : BitVec 9) : Quiet (popEntry e b).2 := by
  unfold Machine.popEntry
  split
  · exact h
  · split
    · exact h
    · split
      · exact h
      · exact h.changeStack _

end

/-! ## The lanes and the DU rest until start-up ends (R38, R144, R182) -/

section

variable {b : Blocks}

/-- The lanes and the DU are as reset left them. -/
structure Unstarted (b : Blocks) : Prop where
  du : b.du = DirectiveUnit.reset
  lanes : ∀ l : Lane, b.lane l = LaneUnit.reset

theorem Unstarted.takeCaptureWord (h : Unstarted b) (l : Lane) (o : BitVec 12) (w : Word) :
    takeCaptureWord l o w b = b := by
  simp [Machine.takeCaptureWord, h.lanes l, LaneUnit.reset, accepting]

theorem Unstarted.takeRecord (h : Unstarted b) (l : Lane) (o : BitVec 12) (r : CaptureRecord) :
    takeRecord l o r b = b := by
  simp [Machine.takeRecord, h.lanes l, LaneUnit.reset, accepting]

theorem Unstarted.reachSilence (h : Unstarted b) (l : Lane) : reachSilence l b = b := by
  simp [Machine.reachSilence, h.lanes l, LaneUnit.reset, listening]

theorem Unstarted.reachPulseEnd (h : Unstarted b) (l : Lane) : reachPulseEnd l b = b := by
  simp [Machine.reachPulseEnd, h.lanes l, LaneUnit.reset]

theorem Unstarted.laneCommand {act : Lane → Blocks → Result × Blocks}
    (ha : ∀ l, (b.lane l).state = .unused → (act l b).2 = b) (h : Unstarted b) (n : BitVec 8) :
    (laneCommand act n b).2 = b := by
  unfold Machine.laneCommand
  split
  · rfl
  · exact ha _ (by rw [h.lanes]; rfl)

theorem disableLane_unused {l : Lane} (h : (b.lane l).state = .unused) : (disableLane l b).2 = b := by
  simp [disableLane, h]

theorem enableLane_unused {l : Lane} (h : (b.lane l).state = .unused) : (enableLane l b).2 = b := by
  simp [enableLane, h]

theorem recoverLane_unused {l : Lane} (h : (b.lane l).state = .unused) : (recoverLane l b).2 = b := by
  simp [recoverLane, h]

theorem Unstarted.popDirective (h : Unstarted b) (x : Approach) : popDirective x b = b := by
  have empty : b.directives x = [] := by
    cases x <;> simp [Blocks.directives, h.du, DirectiveUnit.reset, PerApproach.at]
  have none : b.du.lastPopped.put x none = b.du.lastPopped := by
    cases x <;> simp [h.du, DirectiveUnit.reset, PerApproach.put]
  unfold Machine.popDirective
  rw [empty]
  simp only [Blocks.onDu, none]

theorem Unstarted.reachHoldEnd (h : Unstarted b) (x : Approach) : reachHoldEnd x b = b := by
  cases x <;> simp [Machine.reachHoldEnd, h.du, DirectiveUnit.reset, PerApproach.at]

end

/-! ## The mode (Tables 10-1, 10-3) -/

section

variable {b c : Blocks}

/-- The part mode agrees with the rest of the SU. -/
structure Supervisor.ModeSound (u : Supervisor) : Prop where
  startUp : u.mode = .startUp ↔ u.startUp ≠ .over
  chosen : u.startUp ≠ .chosen .startUp
  profile : u.active.isSome = true ↔ u.mode = .service ∨ u.mode = .active
  settle : u.settleExpiry.isSome = true → u.mode = .active

/-- What the part mode agrees with is the same. -/
structure Supervisor.SameMode (u v : Supervisor) : Prop where
  mode : v.mode = u.mode
  startUp : v.startUp = u.startUp
  active : v.active = u.active
  settle : v.settleExpiry = u.settleExpiry

theorem Supervisor.SameMode.sound {u v : Supervisor} (h : u.SameMode v) (hu : u.ModeSound) :
    v.ModeSound := by
  obtain ⟨mode, startUp, active, settle⟩ := h
  obtain ⟨h1, h2, h3, h4⟩ := hu
  constructor
  · rw [mode, startUp]; exact h1
  · rw [startUp]; exact h2
  · rw [active, mode]; exact h3
  · rw [settle, mode]; exact h4

theorem Blocks.ModeSound.su (h : b.ModeSound) : b.su.ModeSound :=
  ⟨h.startUp, h.chosen, h.profile, h.settle⟩

theorem modeSound_of_su (su : b.su.ModeSound) (rest : b.su.mode ≠ .active → b.AtRest)
    (fresh : b.su.startUp ≠ .over → Unstarted b) : b.ModeSound :=
  ⟨su.startUp, su.chosen, su.profile, su.settle, rest, fun h => ⟨(fresh h).du, (fresh h).lanes⟩⟩

theorem Blocks.ModeSound.unstarted (h : b.ModeSound) (s : b.su.startUp ≠ .over) : Unstarted b :=
  ⟨(h.fresh s).1, (h.fresh s).2⟩

/-- A move that leaves the mode keeps it sound where it keeps a quiet part quiet, and before the end of
start-up leaves the lanes and the DU. -/
theorem modeSound_moved (h : b.ModeSound) (su : b.su.SameMode c.su) (quiet : Quiet b → c.AtRest)
    (fresh : Unstarted b → Unstarted c) : c.ModeSound :=
  modeSound_of_su (su.sound h.su)
    (fun mode => quiet ⟨su.mode ▸ mode, h.rest (su.mode ▸ mode)⟩)
    (fun s => fresh (h.unstarted (su.startUp ▸ s)))

theorem Unstarted.same (h : Unstarted b) (du : c.du = b.du) (lanes : c.lanes = b.lanes) :
    Unstarted c := ⟨du ▸ h.du, fun l => by
      have : c.lane l = b.lane l := by unfold Blocks.lane; rw [lanes]
      exact this ▸ h.lanes l⟩

/-- A change of the CSU, or of the SU besides its mode, keeps the mode sound. -/
theorem modeSound_same (h : b.ModeSound) (su : b.su.SameMode c.su) (va : c.va = b.va)
    (vt : c.vt = b.vt) (au : c.au = b.au) (du : c.du = b.du) (lanes : c.lanes = b.lanes) :
    c.ModeSound :=
  modeSound_moved h su (fun q => q.rest.same va vt au) (fun u => u.same du lanes)

theorem sameMode_of_eq (h : c.su = b.su) : b.su.SameMode c.su := by
  rw [h]; exact ⟨rfl, rfl, rfl, rfl⟩

theorem modeSound_csu (h : b.ModeSound) (x : CommandStatus) :
    Blocks.ModeSound { b with csu := x } :=
  modeSound_same h ⟨rfl, rfl, rfl, rfl⟩ rfl rfl rfl rfl rfl

/-- An event that leaves the SU, keeps a quiet part quiet and does nothing before the end of
start-up. -/
theorem modeSound_event (h : b.ModeSound) (su : c.su = b.su) (quiet : Quiet b → Quiet c)
    (fresh : Unstarted b → c = b) : c.ModeSound :=
  modeSound_moved h (sameMode_of_eq su) (fun q => (quiet q).rest) (fun u => fresh u ▸ u)

/-- An event for a vehicle, which a quiet part has none of. -/
theorem modeSound_vehicleEvent (h : b.ModeSound) (su : c.su = b.su) (quiet : Quiet b → c = b) :
    c.ModeSound := by
  by_cases active : b.su.mode = .active
  · have ended : b.su.startUp = .over := by
      by_contra s
      have := h.startUp.mpr s
      rw [active] at this
      cases this
    refine modeSound_of_su ((sameMode_of_eq su).sound h.su) (fun m => absurd (su ▸ active) m)
      (fun s => absurd (su ▸ ended) s)
  · rw [quiet ⟨active, h.rest active⟩]
    exact h

theorem mode_not_startUp (h : b.ModeSound) (m : b.su.mode ≠ .startUp) : b.su.startUp = .over := by
  by_contra s
  exact m (h.startUp.mpr s)

/-- An event after the end of start-up that leaves the SU and keeps a quiet part quiet. -/
theorem modeSound_operation (h : b.ModeSound) (m : b.su.mode ≠ .startUp) (su : c.su = b.su)
    (quiet : Quiet b → Quiet c) : c.ModeSound :=
  modeSound_of_su ((sameMode_of_eq su).sound h.su)
    (fun q => (quiet ⟨su ▸ q, h.rest (su ▸ q)⟩).rest)
    (fun s => absurd (su ▸ mode_not_startUp h m) s)

theorem not_startUp_of_inOperation {m : Mode} (h : inOperation m = true) : m ≠ .startUp := by
  rintro rfl; cases h

/-! ### The stack, the Journal Writer and the store -/

theorem changeStack_su (f : List Restriction → List Restriction) (b : Blocks) :
    (changeStack f b).su = b.su :=
  (laneKept_su b.su).actOnReport _ ((laneKept_su b.su).noticeClosure _ _ rfl)

theorem pushEntry_su (o : PushOperands) (b : Blocks) : (pushEntry o b).2.su = b.su := by
  unfold pushEntry
  split
  · rfl
  · split
    · rfl
    · split
      · rfl
      · exact changeStack_su _ b

theorem popEntry_su (e : BitVec 9) (b : Blocks) : (popEntry e b).2.su = b.su := by
  unfold popEntry
  split
  · rfl
  · split
    · rfl
    · split
      · rfl
      · exact changeStack_su _ b

theorem journalWordWritten_csu (b : Blocks) :
    journalWordWritten b = { b with csu := (journalWordWritten b).csu } := by
  unfold journalWordWritten
  split
  · rfl
  · split <;> rfl

theorem sameMode_takeSourceWord (w : Word) (b : Blocks) : b.su.SameMode (takeSourceWord w b).su := by
  unfold takeSourceWord
  dsimp only [Blocks.onSu]
  split <;> exact ⟨rfl, rfl, rfl, rfl⟩

/-! ### The mode commands -/

theorem modeSound_startActive (h : b.ModeSound) (m : b.su.mode = .service) :
    (startActive b).ModeSound := by
  have ended := mode_not_startUp h (by rw [m]; decide)
  have su : (startActive b).su
      = { b.su with mode := .active, settleExpiry := settleFrom b.now b.profile } :=
    (laneKept_su _).notice _ _ rfl
  refine modeSound_of_su ?_ (fun q => absurd (by rw [su]) q) (fun s => absurd (by rw [su, ended]) s)
  rw [su]
  refine ⟨⟨fun c => (by cases c), fun s => absurd ended s⟩, h.chosen, ?_, fun _ => rfl⟩
  exact ⟨fun _ => .inr rfl, fun _ => h.profile.mpr (.inl m)⟩

/-- After a STOP nothing of a vehicle is left. -/
theorem atRest_stopped (b : Blocks) :
    (stopAdmission (abandonAll (discardVehicles b))).AtRest := by
  have du : DuKept Blocks.AtRest :=
    ⟨fun _ _ _ h => h.same rfl rfl rfl, fun _ h => h.same rfl rfl rfl⟩
  have va : (abandonAll (discardVehicles b)).va = Assembler.reset :=
    DuKept.fold (P := fun b => b.va = Assembler.reset)
      (fun b r h => by unfold offerJournal; split <;> exact h) _ _ rfl
  have emptied : Blocks.AtRest ((abandonAll (discardVehicles b)).onAu fun a =>
      { a with reservations := [], held := [], alarm := false, lock := false,
               occupants := ⟨0, 0⟩, unreserved := 0 }) :=
    ⟨va, rfl, rfl, rfl, rfl, rfl, rfl⟩
  unfold stopAdmission noticeAlarm noticeLock
  dsimp only
  split
  · split
    · exact du.notice _ _ (du.notice _ _ emptied)
    · exact du.notice _ _ emptied
  · split
    · exact du.notice _ _ emptied
    · exact emptied

theorem modeSound_stopActive (h : b.ModeSound) (m : b.su.mode = .active) :
    (stopActive b).ModeSound := by
  have ended := mode_not_startUp h (by rw [m]; decide)
  have k := laneKept_su { b.su with mode := .service, settleExpiry := none }
  have su : (stopActive b).su = { b.su with mode := .service, settleExpiry := none } :=
    k.stopVehicles (k.va _ _ (fun l x hx => by simp [Assembler.reset] at hx) (k.stopNotice rfl))
  refine modeSound_of_su ?_ (fun _ => atRest_stopped _) (fun s => absurd (by rw [su, ended]) s)
  rw [su]
  refine ⟨⟨fun c => (by cases c), fun s => absurd ended s⟩, h.chosen, ?_, fun c => (by cases c)⟩
  exact ⟨fun _ => .inl rfl, fun _ => h.profile.mpr (.inr m)⟩

theorem dropJournal_su (b : Blocks) : (dropJournal b).su = b.su := by
  unfold dropJournal
  split <;> rfl

theorem bypassBlocks_su (b : Blocks) :
    (bypassBlocks b).su = { b.su with mode := .bypass, active := none } := by
  have k := laneKept_su { b.su with mode := .bypass, active := none }
  unfold bypassBlocks
  exact (dropJournal_su _).trans (k.resetLanes (k.bypassNotice rfl))

theorem modeSound_bypassBlocks (h : b.ModeSound) (m : b.su.mode = .service) :
    (bypassBlocks b).ModeSound := by
  have ended := mode_not_startUp h (by rw [m]; decide)
  have notActive : b.su.mode ≠ .active := by rw [m]; decide
  have unsettled : b.su.settleExpiry = none := by
    rw [← Option.not_isSome_iff_eq_none]
    exact fun s => notActive (h.settle s)
  have su := bypassBlocks_su b
  have start : Quiet (b.onSu fun u => { u with mode := .bypass, active := none }) :=
    ⟨fun c => (by cases c), (h.rest notActive).same rfl rfl rfl⟩
  have quiet : Quiet (bypassBlocks b) :=
    (Quiet.resetLanes (baseKept_quiet.bypassNotice start)).dropJournal
  refine modeSound_of_su ?_ (fun _ => quiet.rest) (fun s => absurd (by rw [su, ended]) s)
  rw [su]
  refine ⟨⟨fun c => (by cases c), fun s => absurd ended s⟩, h.chosen, ?_, fun s => ?_⟩
  · exact ⟨fun c => (by cases c), fun c => (by rcases c with c | c <;> cases c)⟩
  · rw [unsettled] at s
    cases s

theorem applyJournal_su (b : Blocks) : (applyJournal b).su = b.su := rfl

theorem applyBlocks_su (b : Blocks) : (applyBlocks b).su = b.su.apply := by
  have k := laneKept_su b.su.apply
  have told : (applyNotice (b.onSu Supervisor.apply)).su = b.su.apply := k.applyNotice rfl
  unfold applyBlocks
  rw [applyJournal_su]
  exact k.resetLanes told

theorem Quiet.applyBlocks (rest : b.AtRest) : Quiet (applyBlocks b) := by
  have start : Quiet (b.onSu Supervisor.apply) := ⟨fun c => (by cases c), rest.same rfl rfl rfl⟩
  have told := baseKept_quiet.applyNotice start
  exact told.resetLanes.applyJournal

theorem modeSound_applyBlocks (h : b.ModeSound) (m : b.su.mode = .bypass ∨ b.su.mode = .service) :
    (applyBlocks b).ModeSound := by
  have ended : b.su.startUp = .over := mode_not_startUp h (by rcases m with m | m <;> rw [m] <;> decide)
  have notActive : b.su.mode ≠ .active := by rcases m with m | m <;> rw [m] <;> decide
  refine modeSound_of_su ?_ (fun _ => (Quiet.applyBlocks (h.rest notActive)).rest)
    (fun s => absurd (by rw [applyBlocks_su]; exact ended) s)
  rw [applyBlocks_su]
  refine ⟨⟨fun c => (by cases c), fun s => absurd ended s⟩, h.chosen, ?_, fun c => (by cases c)⟩
  exact ⟨fun _ => .inl rfl, fun _ => rfl⟩

/-! ### Start-up and the supply -/

theorem modeSound_resetBlocks (c : ResetCause) (b : Blocks) : (resetBlocks c b).ModeSound := by
  refine modeSound_same (b := Blocks.reset) modeSound_reset ?_ rfl rfl rfl rfl rfl
  exact ⟨rfl, rfl, rfl, rfl⟩

theorem chosenMode_ne_startUp (v : Vector Bool 5) (p : Pages) (strap : Bool) :
    chosenMode v p strap ≠ .startUp := by
  unfold chosenMode
  split
  · decide
  · split <;> decide

theorem modeSound_causesEnd (h : b.ModeSound) (below strap : Bool) : (causesEnd below strap b).ModeSound := by
  unfold causesEnd
  split
  next holds =>
    have waiting : b.su.startUp ≠ .over := by rw [holds]; decide
    have mode := h.startUp.mpr waiting
    refine modeSound_of_su ⟨⟨fun _ => by simp [Supervisor.startUpSteps], fun _ => mode⟩, ?_, h.profile,
      h.settle⟩ (fun m => (h.rest m).same rfl rfl rfl) (fun _ => (h.unstarted waiting).same rfl rfl)
    simpa [Supervisor.startUpSteps] using chosenMode_ne_startUp _ _ _
  all_goals exact h

theorem LaneKept.startUpNotice {P : Blocks → Prop} (k : LaneKept P) (h : P b) :
    P (startUpNotice b) := by
  unfold Machine.startUpNotice
  dsimp only
  split
  · split
    · exact k.notice _ _ (k.bypassNotice h)
    · exact k.bypassNotice h
  · exact k.startUpEnds _ _ _ h

theorem startUpNotice_su (b : Blocks) : (startUpNotice b).su = b.su :=
  (laneKept_su b.su).startUpNotice rfl

theorem Quiet.startUpNotice (h : Quiet b) : Quiet (startUpNotice b) := by
  unfold Machine.startUpNotice
  dsimp only
  split
  · split
    · exact baseKept_quiet.notice _ _ (baseKept_quiet.bypassNotice h)
    · exact baseKept_quiet.bypassNotice h
  · exact baseKept_quiet.startUpEnds _ _ _ h

theorem endBlocks_su (m : Mode) (b : Blocks) : (endBlocks m b).su = b.su.endStartUp m := by
  unfold endBlocks
  dsimp only
  refine (laneKept_su _).resetLanes ((startUpNotice_su _).trans ?_)
  split <;> rfl

theorem Quiet.endBlocks {m : Mode} (hm : m ≠ .active) (h : b.AtRest) : Quiet (endBlocks m b) := by
  have ended : Quiet (b.onSu (Supervisor.endStartUp m)) := ⟨hm, h.same rfl rfl rfl⟩
  unfold Machine.endBlocks
  dsimp only
  refine Quiet.resetLanes (Quiet.startUpNotice ?_)
  split
  · exact baseKept_quiet.request _ _ ended
  · exact ended

theorem modeSound_endBlocks {m : Mode} (h : b.ModeSound) (hm : b.su.startUp = .chosen m) :
    (endBlocks m b).ModeSound := by
  have waiting : b.su.startUp ≠ .over := by rw [hm]; simp
  have mode := h.startUp.mpr waiting
  have rest : b.AtRest := h.rest (by rw [mode]; decide)
  have other : m ≠ .startUp := fun c => h.chosen (by rw [hm, c])
  have su := endBlocks_su m b
  refine modeSound_of_su ?_ (fun q => (Quiet.endBlocks (fun c => q (by rw [su]; exact c)) rest).rest)
    (fun s => absurd (by rw [su]; rfl) s)
  rw [su]
  refine ⟨⟨fun c => absurd c other, fun s => absurd rfl s⟩, fun c => (by cases c), ?_, ?_⟩
  · cases m with
    | startUp => exact absurd rfl other
    | bypass => simp [Supervisor.endStartUp]
    | service => simp [Supervisor.endStartUp]
    | active => simp [Supervisor.endStartUp]
  · intro s
    by_contra notActive
    have notActive : m ≠ .active := notActive
    simp [Supervisor.endStartUp, notActive] at s

theorem modeSound_crossSupply (h : b.ModeSound) (x y : Supply) : (crossSupply x y b).ModeSound := by
  have moved : Blocks.ModeSound (b.onSu fun u => { u with supply := y }) :=
    modeSound_same h ⟨rfl, rfl, rfl, rfl⟩ rfl rfl rfl rfl rfl
  unfold crossSupply
  dsimp only
  split
  · exact h
  · split
    · exact h
    · exact moved
    next ended =>
      have told {c : Blocks} (hc : c.ModeSound) (same : c.su.startUp = .over) (on : Bool) :
          (noticeSupply on c).ModeSound := by
        refine modeSound_operation hc ?_ ((laneKept_su c.su).notice _ _ rfl) (baseKept_quiet.notice _ _)
        exact fun m => hc.startUp.mp m same
      split
      · exact told (modeSound_csu moved _) ended true
      · exact told moved ended false

theorem modeSound_tickClock (h : b.ModeSound) : (tickClock b).ModeSound := by
  refine modeSound_moved h ⟨rfl, rfl, rfl, rfl⟩ (fun q => ?_) (fun u => u.same rfl rfl)
  obtain ⟨va, table, rest⟩ := q.rest
  exact ⟨va, by simp [tickClock, table], by assumption, by assumption, by assumption, by assumption,
    by assumption⟩

theorem modeSound_popFault (h : b.ModeSound) : (popFault b).ModeSound := modeSound_csu h _

theorem modeSound_storeDone (h : b.ModeSound) (p : Fin 5) (f : Page → Page) (o : StoreOutcome) :
    (storeDone p f o b).ModeSound :=
  modeSound_same h ⟨rfl, rfl, rfl, rfl⟩ rfl rfl rfl rfl rfl

theorem modeSound_reachSettle (h : b.ModeSound) : (reachSettle b).ModeSound := by
  unfold reachSettle
  split
  next due =>
    have active : b.su.mode = .active := by
      simp only [Bool.and_eq_true, decide_eq_true_eq] at due
      exact due.1
    have ended := mode_not_startUp h (by rw [active]; decide)
    have su : (noticeSettled (b.onSu fun u => { u with settleExpiry := none })).su
        = { b.su with settleExpiry := none } := (laneKept_su _).notice _ _ rfl
    refine modeSound_of_su ?_ (fun q => absurd (by rw [su]; exact active) q)
      (fun s => absurd (by rw [su]; exact ended) s)
    rw [su]
    exact ⟨h.startUp, h.chosen, h.profile, fun s => by cases s⟩
  next => exact h

/-! ### Every move -/

/-- Every event in the blocks keeps the mode sound. -/
theorem modeSound_move (h : b.ModeSound) (move : BlockMove b c) : c.ModeSound := by
  have k := laneKept_su b.su
  cases move with
  | fault k m a => unfold masterFault; rw [sendFault_eq]; exact modeSound_csu h _
  | captureWord l o w =>
    exact modeSound_event h (k.takeCaptureWord _ _ _ rfl) (·.takeCaptureWord _ _ _)
      (·.takeCaptureWord _ _ _)
  | captureRecord l o r =>
    exact modeSound_event h (k.takeRecord _ _ _ rfl) (·.takeRecord _ _ _) (·.takeRecord _ _ _)
  | commandWord m o w =>
    unfold frameCommand
    dsimp only
    split
    · exact modeSound_csu h _
    · unfold masterFault
      rw [sendFault_eq]
      exact modeSound_csu (modeSound_csu h _) _
  | statusRead o =>
    unfold statusEffect
    split
    · exact modeSound_popFault h
    · exact h
  | directivePop x =>
    exact modeSound_event h (k.popDirective _ rfl) (baseKept_quiet.popDirective _) (·.popDirective x)
  | faultPop => exact modeSound_popFault h
  | longOp => exact modeSound_csu h _
  | result => exact modeSound_csu h _
  | start _ m => exact modeSound_startActive h m
  | stop _ m => exact modeSound_stopActive h m
  | bypass _ m => exact modeSound_bypassBlocks h m
  | apply _ m => exact modeSound_applyBlocks h m
  | program p w c a =>
    unfold beginProgram
    split
    · exact h
    · split
      · exact h
      · exact modeSound_same h ⟨rfl, rfl, rfl, rfl⟩ rfl rfl rfl rfl rfl
  | erase p =>
    unfold beginErase
    split
    · exact h
    · split
      · exact h
      · exact modeSound_same h ⟨rfl, rfl, rfl, rfl⟩ rfl rfl rfl rfl rfl
  | push o _ m =>
    exact modeSound_operation h (not_startUp_of_inOperation m) (pushEntry_su o b) (·.pushEntry o)
  | pop e _ m =>
    exact modeSound_operation h (not_startUp_of_inOperation m) (popEntry_su e b) (·.popEntry e)
  | clearVehicle n _ m =>
    exact modeSound_vehicleEvent h (k.clearRecord _ rfl) (fun q => absurd m q.mode)
  | clearPhantoms a _ m =>
    exact modeSound_vehicleEvent h (k.clearPhantomsOf _ rfl) (fun q => absurd m q.mode)
  | laneDisable n =>
    exact modeSound_event h (k.laneCommand k.disableLane _ rfl)
      (Quiet.laneCommand (fun l q => q.disableLane l) n) (Unstarted.laneCommand (fun _ => disableLane_unused) · n)
  | laneEnable n =>
    exact modeSound_event h (k.laneCommand k.enableLane _ rfl)
      (Quiet.laneCommand (fun l q => q.enableLane l) n) (Unstarted.laneCommand (fun _ => enableLane_unused) · n)
  | laneRecover n =>
    exact modeSound_event h (k.laneCommand k.recoverLane _ rfl)
      (Quiet.laneCommand (fun l q => q.recoverLane l) n) (Unstarted.laneCommand (fun _ => recoverLane_unused) · n)
  | clearEvents => exact modeSound_csu h _
  | setEnables => exact modeSound_csu h _
  | clearFaults => exact modeSound_csu h _
  | journalWord => rw [journalWordWritten_csu]; exact modeSound_csu h _
  | sourceWord w =>
    exact modeSound_same h (sameMode_takeSourceWord w b) rfl rfl rfl rfl rfl
  | programmed =>
    unfold finishProgram
    split
    · exact modeSound_storeDone h _ _ _
    all_goals exact h
  | erased =>
    unfold finishErase
    split
    · exact modeSound_storeDone h _ _ _
    all_goals exact h
  | silence l => exact modeSound_event h (k.reachSilence _ rfl) (·.reachSilence l) (·.reachSilence l)
  | pulse l => exact modeSound_event h (k.reachPulseEnd _ rfl) (·.reachPulseEnd l) (·.reachPulseEnd l)
  | closeTime l => exact modeSound_vehicleEvent h (k.closeIfReached _ rfl) (·.closeIfReached l)
  | holdExpiry l => exact modeSound_vehicleEvent h (k.reachHoldExpiry _ rfl) (·.reachHoldExpiry l)
  | d n => exact modeSound_vehicleEvent h (k.reachD _ rfl) (·.reachD n)
  | e1 n => exact modeSound_vehicleEvent h (k.reachE1 _ rfl) (·.reachE1 n)
  | v1 n => exact modeSound_vehicleEvent h (k.reachV1 _ rfl) (·.reachV1 n)
  | t n => exact modeSound_vehicleEvent h (k.reachT _ rfl) (·.reachT n)
  | phantomEnd p => exact modeSound_vehicleEvent h (k.reachPhantomEnd _ rfl) (·.reachPhantomEnd p)
  | holdEnd x =>
    exact modeSound_event h (k.reachHoldEnd _ rfl) (baseKept_quiet.reachHoldEnd _) (·.reachHoldEnd x)
  | settle => exact modeSound_reachSettle h
  | clock =>
    unfold clockRises
    split
    · exact modeSound_tickClock h
    · exact h
  | period =>
    unfold clockPeriod
    split
    · exact h
    · split
      · exact modeSound_same h ⟨rfl, rfl, rfl, rfl⟩ rfl rfl rfl rfl rfl
      · exact modeSound_tickClock h
  | reset c => exact modeSound_resetBlocks c b
  | causesEnd below strap => exact modeSound_causesEnd h below strap
  | startUpEnd m _ hm => exact modeSound_endBlocks h hm
  | supply x y => exact modeSound_crossSupply h x y

end

/-- Settles O10. -/
theorem modeStaysSound : Obligations.ModeStaysSound :=
  fun _ _ h e => (keptByMemory_blocks fun m h => modeSound_move h m).step (fun _ _ h => h) h e

end Sys2Proof.Machine

namespace Sys2Proof.Machine

/-! ## Restrictions stay within the statutory limits (R131, R135, R142) -/

section

variable {b c : Blocks}

/-- The RU is left as it was by everything in the blocks but its own commands and the reset. -/
theorem laneKept_ru (r : Restrictions) : LaneKept fun b => b.ru = r where
  du _ _ _ h := h
  overflow _ h := h
  record _ _ _ _ h := h
  request _ _ h := h
  fault b f h := by rw [sendFault_eq]; exact h
  va _ _ _ h := h
  vt _ _ _ _ _ h := h
  entered _ _ _ h := h
  held _ _ _ h := h
  without _ _ h := h
  stopped _ h := h
  joined _ _ _ _ h := h
  au _ _ _ _ _ h := h
  placed _ _ _ _ h := h
  offer _ _ h := by unfold offerJournal; split <;> exact h
  lanes _ _ h := h

/-- The stack, the active profile and the progress of start-up are the same. -/
structure SameLimits (b c : Blocks) : Prop where
  ru : c.ru = b.ru
  active : c.su.active = b.su.active
  startUp : c.su.startUp = b.su.startUp

theorem SameLimits.sound (same : SameLimits b c) (h : b.StackSound) : c.StackSound := by
  obtain ⟨ru, active, startUp⟩ := same
  unfold Blocks.StackSound
  rw [ru, active, startUp]
  exact h

theorem sameLimits_of_eq (su : c.su = b.su) (ru : c.ru = b.ru) : SameLimits b c :=
  ⟨ru, by rw [su], by rw [su]⟩

theorem SameLimits.trans {d : Blocks} (h : SameLimits b c) (k : SameLimits c d) : SameLimits b d :=
  ⟨k.ru.trans h.ru, k.active.trans h.active, k.startUp.trans h.startUp⟩

/-- An event that lane keeping covers, in the SU and in the RU alike. -/
theorem sameLimits_event (h : ∀ {P : Blocks → Prop}, LaneKept P → P b → P c) : SameLimits b c :=
  sameLimits_of_eq (h (laneKept_su b.su) rfl) (h (laneKept_ru b.ru) rfl)

/-! ### The commands that change the stack or the profile -/

theorem actOnReport_ru (p : RestrictionReport) (b : Blocks) : (actOnReport p b).ru = b.ru :=
  (laneKept_ru b.ru).actOnReport _ rfl

theorem changeStack_stack (f : List Restriction → List Restriction) (b : Blocks) :
    (changeStack f b).ru.stack = f b.ru.stack := by
  unfold changeStack
  rw [actOnReport_ru, (laneKept_ru _).noticeClosure _ _ rfl]
  rfl

/-- After start-up, a stack is sound whose entries are no looser than the active profile. -/
theorem stackSound_changeStack {f : List Restriction → List Restriction}
    (ended : b.su.startUp = .over)
    (hf : ∀ p, b.su.active = some p → ∀ e ∈ f b.ru.stack, looserThan p e = false) :
    (changeStack f b).StackSound := by
  refine ⟨fun p hp e he => ?_, fun s => absurd (by rw [changeStack_su]; exact ended) s⟩
  rw [changeStack_su] at hp
  rw [changeStack_stack] at he
  exact hf p hp e he

theorem profile_of_active {p : Pages} (h : b.su.active = some p) : b.profile = p := by
  simp [Blocks.profile, h]

theorem stackSound_pushEntry (o : PushOperands) (ended : b.su.startUp = .over) (h : b.StackSound) :
    (pushEntry o b).2.StackSound := by
  unfold pushEntry
  split
  · exact h
  next e _ =>
    split
    · exact h
    next notLooser =>
      split
      · exact h
      · refine stackSound_changeStack ended fun p hp e' he' => ?_
        obtain rfl | old := List.mem_cons.mp he'
        · simpa [profile_of_active hp] using notLooser
        · exact h.1 p hp e' old

theorem stackSound_popEntry (x : BitVec 9) (ended : b.su.startUp = .over) (h : b.StackSound) :
    (popEntry x b).2.StackSound := by
  unfold popEntry
  split
  · exact h
  · split
    · exact h
    · split
      · exact h
      · exact stackSound_changeStack ended fun p hp e he => h.1 p hp e (List.mem_of_mem_tail he)

theorem applyJournal_ru (b : Blocks) : (applyJournal b).ru = b.ru := rfl

theorem applyBlocks_ru (b : Blocks) : (applyBlocks b).ru = b.ru := by
  have k := laneKept_ru b.ru
  have told : (applyNotice (b.onSu Supervisor.apply)).ru = b.ru := k.applyNotice rfl
  unfold applyBlocks
  rw [applyJournal_ru]
  exact k.resetLanes told

theorem stackSound_applyBlocks (accepted : applyRefusal b = none) (h : b.StackSound) :
    (applyBlocks b).StackSound := by
  have ru := applyBlocks_ru b
  have stored : looserThanStored b.su.store b = false := by
    unfold applyRefusal at accepted
    split at accepted
    · cases accepted
    · split at accepted
      · cases accepted
      · simpa using accepted
  have within : ∀ e ∈ b.ru.stack, looserThan b.su.store e = false := by
    simpa [looserThanStored] using stored
  unfold Blocks.StackSound
  rw [ru, applyBlocks_su]
  refine ⟨fun p hp e he => ?_, h.2⟩
  obtain rfl := Option.some.inj hp
  exact within e he

theorem dropJournal_ru (b : Blocks) : (dropJournal b).ru = b.ru := by
  unfold dropJournal
  split <;> rfl

theorem bypassBlocks_ru (b : Blocks) : (bypassBlocks b).ru = b.ru := by
  have k := laneKept_ru b.ru
  unfold bypassBlocks
  exact (dropJournal_ru _).trans (k.resetLanes (k.bypassNotice rfl))

theorem stackSound_bypassBlocks (h : b.StackSound) : (bypassBlocks b).StackSound := by
  unfold Blocks.StackSound
  rw [bypassBlocks_ru, bypassBlocks_su]
  exact ⟨fun p hp => (by cases hp), h.2⟩

theorem sameLimits_startActive (b : Blocks) : SameLimits b (startActive b) := by
  have su : (startActive b).su
      = { b.su with mode := .active, settleExpiry := settleFrom b.now b.profile } :=
    (laneKept_su _).notice _ _ rfl
  exact ⟨(laneKept_ru b.ru).notice _ _ rfl, by rw [su], by rw [su]⟩

theorem sameLimits_stopActive (b : Blocks) : SameLimits b (stopActive b) := by
  have stopped {P : Blocks → Prop} (k : LaneKept P)
      (h : P (b.onSu fun u => { u with mode := .service, settleExpiry := none })) : P (stopActive b) :=
    k.stopVehicles (k.va _ _ (fun l x hx => by simp [Assembler.reset] at hx) (k.stopNotice h))
  have su : (stopActive b).su = { b.su with mode := .service, settleExpiry := none } :=
    stopped (laneKept_su _) rfl
  exact ⟨stopped (laneKept_ru b.ru) rfl, by rw [su], by rw [su]⟩

/-! ### Start-up -/

theorem stackSound_of_empty (h : b.ru.stack = []) : b.StackSound := by
  unfold Blocks.StackSound
  rw [h]
  exact ⟨fun _ _ e he => absurd he List.not_mem_nil, fun _ => rfl⟩

theorem stackSound_causesEnd (below strap : Bool) (h : b.StackSound) :
    (causesEnd below strap b).StackSound := by
  unfold causesEnd
  split
  next holds => exact stackSound_of_empty (h.2 (by rw [holds]; decide))
  all_goals exact h

theorem endBlocks_ru (m : Mode) (b : Blocks) : (endBlocks m b).ru = b.ru := by
  have k := laneKept_ru b.ru
  unfold endBlocks
  dsimp only
  refine k.resetLanes (k.startUpNotice ?_)
  split <;> rfl

theorem sameLimits_crossSupply (x y : Supply) (b : Blocks) : SameLimits b (crossSupply x y b) := by
  have moved : SameLimits b (b.onSu fun u => { u with supply := y }) := ⟨rfl, rfl, rfl⟩
  have told (on : Bool) (c : Blocks) : SameLimits c (noticeSupply on c) :=
    sameLimits_event fun k h => k.notice _ _ h
  unfold crossSupply
  dsimp only
  split
  · exact ⟨rfl, rfl, rfl⟩
  · split
    · exact ⟨rfl, rfl, rfl⟩
    · exact moved
    · split
      · exact SameLimits.trans (c := (b.onSu fun u => { u with supply := .warning }).request .supplyWarn)
          ⟨rfl, rfl, rfl⟩ (told true _)
      · exact moved.trans (told false _)

theorem sameLimits_tickClock (b : Blocks) : SameLimits b (tickClock b) := ⟨rfl, rfl, rfl⟩

theorem sameLimits_takeSourceWord (w : Word) (b : Blocks) : SameLimits b (takeSourceWord w b) := by
  have su := sameMode_takeSourceWord w b
  exact ⟨rfl, su.active, su.startUp⟩

theorem sameLimits_reachSettle (b : Blocks) : SameLimits b (reachSettle b) := by
  unfold reachSettle
  split
  · exact SameLimits.trans (c := b.onSu fun u => { u with settleExpiry := none })
      ⟨rfl, rfl, rfl⟩ (sameLimits_event fun k h => k.notice _ _ h)
  · exact ⟨rfl, rfl, rfl⟩

/-- Every event in the blocks keeps the stack sound while the mode is. -/
theorem stackSound_move (mode : b.ModeSound) (h : b.StackSound) (move : BlockMove b c) :
    c.StackSound := by
  have event (hc : ∀ {P : Blocks → Prop}, LaneKept P → P b → P c) : c.StackSound :=
    (sameLimits_event hc).sound h
  cases move with
  | fault => exact event fun k h => k.masterFault _ _ _ h
  | captureWord => exact event fun k h => k.takeCaptureWord _ _ _ h
  | captureRecord => exact event fun k h => k.takeRecord _ _ _ h
  | commandWord m o w =>
    unfold frameCommand
    dsimp only
    split
    · exact SameLimits.sound ⟨rfl, rfl, rfl⟩ h
    · unfold masterFault
      rw [sendFault_eq]
      exact SameLimits.sound ⟨rfl, rfl, rfl⟩ h
  | statusRead =>
    unfold statusEffect
    split
    · exact SameLimits.sound ⟨rfl, rfl, rfl⟩ h
    · exact h
  | directivePop => exact event fun k h => k.popDirective _ h
  | start => exact (sameLimits_startActive b).sound h
  | stop => exact (sameLimits_stopActive b).sound h
  | bypass => exact stackSound_bypassBlocks h
  | apply _ _ accepted => exact stackSound_applyBlocks accepted h
  | program =>
    unfold beginProgram
    split
    · exact h
    · split
      · exact h
      · exact SameLimits.sound ⟨rfl, rfl, rfl⟩ h
  | erase =>
    unfold beginErase
    split
    · exact h
    · split
      · exact h
      · exact SameLimits.sound ⟨rfl, rfl, rfl⟩ h
  | push o _ m =>
    exact stackSound_pushEntry o (mode_not_startUp mode (not_startUp_of_inOperation m)) h
  | pop x _ m =>
    exact stackSound_popEntry x (mode_not_startUp mode (not_startUp_of_inOperation m)) h
  | clearVehicle => exact event fun k h => k.clearRecord _ h
  | clearPhantoms => exact event fun k h => k.clearPhantomsOf _ h
  | laneDisable => exact event fun k h => k.laneCommand k.disableLane _ h
  | laneEnable => exact event fun k h => k.laneCommand k.enableLane _ h
  | laneRecover => exact event fun k h => k.laneCommand k.recoverLane _ h
  | faultPop | longOp | result | clearEvents | setEnables | clearFaults =>
    exact SameLimits.sound ⟨rfl, rfl, rfl⟩ h
  | journalWord => rw [journalWordWritten_csu]; exact SameLimits.sound ⟨rfl, rfl, rfl⟩ h
  | sourceWord w => exact (sameLimits_takeSourceWord w b).sound h
  | programmed =>
    unfold finishProgram
    split
    · exact SameLimits.sound ⟨rfl, rfl, rfl⟩ h
    all_goals exact h
  | erased =>
    unfold finishErase
    split
    · exact SameLimits.sound ⟨rfl, rfl, rfl⟩ h
    all_goals exact h
  | silence => exact event fun k h => k.reachSilence _ h
  | pulse => exact event fun k h => k.reachPulseEnd _ h
  | closeTime => exact event fun k h => k.closeIfReached _ h
  | holdExpiry => exact event fun k h => k.reachHoldExpiry _ h
  | d => exact event fun k h => k.reachD _ h
  | e1 => exact event fun k h => k.reachE1 _ h
  | v1 => exact event fun k h => k.reachV1 _ h
  | t => exact event fun k h => k.reachT _ h
  | phantomEnd => exact event fun k h => k.reachPhantomEnd _ h
  | holdEnd => exact event fun k h => k.reachHoldEnd _ h
  | settle => exact (sameLimits_reachSettle b).sound h
  | clock =>
    unfold clockRises
    split
    · exact (sameLimits_tickClock b).sound h
    · exact h
  | period =>
    unfold clockPeriod
    split
    · exact h
    · split
      · exact SameLimits.sound ⟨rfl, rfl, rfl⟩ h
      · exact (sameLimits_tickClock b).sound h
  | reset => exact stackSound_of_empty rfl
  | causesEnd below strap => exact stackSound_causesEnd below strap h
  | startUpEnd m _ hm =>
    exact stackSound_of_empty (by rw [endBlocks_ru]; exact h.2 (by rw [hm]; simp))
  | supply x y => exact (sameLimits_crossSupply x y b).sound h

end

/-- Settles O11: the mode's soundness and the stack's, kept side by side. -/
theorem restrictionsStayWithinStatutory : Obligations.RestrictionsStayWithinStatutory := by
  intro s t mode stack e
  have kept := keptByMemory_blocks (Q := fun b => b.ModeSound ∧ b.StackSound) fun m h =>
    ⟨modeSound_move h.1 m, stackSound_move h.1 h.2 m⟩
  exact (kept.step (fun _ _ h => h) ⟨mode, stack⟩ e).2

end Sys2Proof.Machine

namespace Sys2Proof.Machine

/-! ## Taking a transaction (R1, R2, R13, R19) -/

section

variable {s t : State} {m : Master} {a : Addr} {x : Access}

theorem setSlot_setSlot (s : State) (m : Master) (y z : Slot) :
    (s.setSlot m y).setSlot m z = s.setSlot m z := by
  simp [State.setSlot]

theorem poke_of_not_idle (h : s.mp.cycle ≠ .idle) : poke s = s := if_neg h

theorem poke_of_idle (h : s.mp.cycle = .idle) : poke s = grant s := if_pos h

/-- The transaction is in the SP's hands, being classified. -/
def State.inHand (s : State) (m : Master) (a : Addr) (x : Access) : State :=
  s.fresh.setSlot m (.translating ⟨a, x⟩ .looking)

/-- An event begins, at a settled port, with a FREE slot and an aligned address. -/
structure Taken (s : State) (m : Master) (a : Addr) : Prop where
  settled : s.Settled
  free : s.slot m = .free
  aligned : a.toNat % 4 = 0

/-- A TRANSACTION is what its hand-over leaves, where that leaves the SP with nothing to do. -/
theorem Taken.exec (h : Taken s m a) (e : handOver m ⟨a, x⟩ s.fresh = t) (ht : t.Settled) :
    exec (.transaction m a x) s = .next t := by
  refine exec_transaction h.settled m h.free a x t ?_ ht
  rw [← e, takeTransaction, Machine.aligned h.aligned]
  rfl

theorem handOver_startUp (mode : s.blocks.su.mode = .startUp) (t : Transaction) :
    handOver m t s = s.setSlot m (.held t) := by
  have : (s.setSlot m (.translating t .looking)).mode = .startUp := mode
  simp only [handOver, this, setSlot_setSlot]

theorem handOver_bypass (mode : s.blocks.su.mode = .bypass) (a : Addr) (x : Access) :
    handOver m ⟨a, x⟩ s.fresh = classify m ⟨a, x⟩ (s.inHand m a x) := by
  have : (s.fresh.setSlot m (.translating ⟨a, x⟩ .looking)).mode = .bypass := mode
  simp only [handOver, this]
  rfl

theorem handOver_operation (mode : s.blocks.su.mode = .service ∨ s.blocks.su.mode = .active)
    (a : Addr) (x : Access) :
    handOver m ⟨a, x⟩ s.fresh = handToPtu m ⟨a, x⟩ (s.inHand m a x) := by
  have : (s.fresh.setSlot m (.translating ⟨a, x⟩ .looking)).mode = s.blocks.su.mode := rfl
  rcases mode with mode | mode <;> simp only [handOver, this, mode] <;> rfl

end

/-- Settles O13. -/
theorem transactionsWaitTheirTurn : Obligations.TransactionsWaitTheirTurn := by
  intro s m a x hs
  refine ⟨fun free align mode => ?_, fun busy => ?_⟩
  · have h : Taken s m a := ⟨hs, free, align⟩
    exact h.exec (handOver_startUp (s := s.fresh) mode _) (Settled.set (s := s.fresh) hs m rfl (by simp))
  · have e : exec (.transaction m a x) s
        = .next (drain { s with bus := s.bus.set m (s.bus[m] ++ [⟨a, x⟩]), answers := [] }) := rfl
    have waiting : State.Settled { s with
        bus := s.bus.set m (s.bus[m] ++ [⟨a, x⟩]), answers := [] } := ?_
    · rw [e, drain_settled waiting]
    refine fun k => ⟨(hs k).1, fun free => ?_⟩
    have other : m.val ≠ k.val := fun same => busy (Fin.ext same ▸ free)
    simpa [other] using (hs k).2 free

/-! ## What becomes of a transaction in the SP's hands (R4, R5) -/

section

variable {s t : State} {m : Master} {a : Addr} {x : Access}

/-- The transaction enters MEMORY with a physical address and a kind, and presents its request. -/
def State.passed (s : State) (m : Master) (a : Addr) (x : Access) (p : Addr) (k : WindowKind) : State :=
  toMemory m ⟨a, x⟩ p k s.fresh

/-- The transaction is answered with a word. -/
def State.answered (s : State) (m : Master) (ok : Bool) (w : Word) (b : Blocks) : State :=
  { s with answers := [{ master := m, okay := ok, data := w }], blocks := b }

/-- The transaction is refused with a fault record, and nothing else changes (R4). -/
def State.refused (s : State) (m : Master) (a : Addr) (f : FaultKind) : State :=
  s.answered m false 0xFFFFFFFF (masterFault f m a s.blocks)

theorem toMemory_inHand (p : Addr) (k : WindowKind) :
    toMemory m ⟨a, x⟩ p k (s.inHand m a x) = s.passed m a x p k := by
  unfold toMemory State.passed State.inHand
  rw [setSlot_setSlot]
  rfl

theorem answer_inHand (h : Taken s m a) (ok : Bool) (w : Word) (f : Blocks → Blocks) :
    answer m ok w ((s.inHand m a x).onBlocks f) = s.answered m ok w (f s.blocks) := by
  have free : (s.fresh.onBlocks f).slot m = .free := h.free
  have slot : ((s.inHand m a x).onBlocks f).setSlot m .free = s.fresh.onBlocks f := by
    have : ((s.inHand m a x).onBlocks f).setSlot m .free = (s.fresh.onBlocks f).setSlot m .free :=
      setSlot_setSlot (s.fresh.onBlocks f) m _ _
    rw [this, setSlot_free free]
  unfold answer
  rw [slot]
  rfl

theorem refuse_inHand (h : Taken s m a) (f : FaultKind) :
    refuse m f a (s.inHand m a x) = s.refused m a f := answer_inHand h false allOnes _

theorem settled_answered (h : s.Settled) (ok : Bool) (w : Word) (b : Blocks) :
    (s.answered m ok w b).Settled := settled_same rfl rfl h

theorem settled_passed (h : s.Settled) (p : Addr) (k : WindowKind) : (s.passed m a x p k).Settled :=
  (onward_poke _).settled (Settled.set (s := s.fresh) h m rfl (by simp))

/-- What a passed access leaves at the ports: all but its own slot and the grant. -/
theorem atThePorts_passed (s : State) (m : Master) (a : Addr) (x : Access) (p : Addr)
    (k : WindowKind) :
    AtThePorts s (s.passed m a x p k)
      ∧ (s.passed m a x p k).slots = s.slots.set m (.memory ⟨a, x⟩ p k)
      ∧ (s.passed m a x p k).bus = s.bus ∧ (s.passed m a x p k).ptu = s.ptu
      ∧ (s.passed m a x p k).answers = []
      ∧ (s.mp.cycle ≠ .idle → (s.passed m a x p k).mp = s.mp) := by
  have poked : s.passed m a x p k = { s.fresh.setSlot m (.memory ⟨a, x⟩ p k) with
      mp := (s.passed m a x p k).mp } := poke_onMp _
  refine ⟨⟨?_, fun b => ?_, ?_⟩, ?_, ?_, ?_, ?_, fun busy => ?_⟩
  case refine_8 =>
    have busy : (s.fresh.setSlot m (.memory ⟨a, x⟩ p k)).mp.cycle ≠ .idle := busy
    unfold State.passed toMemory
    rw [poke_of_not_idle busy]
    rfl
  all_goals rw [poked]; rfl

/-- An IDLE MP with nothing else waiting grants the passed access's request (R9, R11). -/
theorem mp_passed (idle : s.mp.cycle = .idle) (nothing : s.NothingWaits) (p : Addr) (k : WindowKind) :
    (s.passed m a x p k).mp = { s.mp with cycle := .busy (.forward m), pointer := m } := by
  obtain ⟨walk, journal, source, forward⟩ := nothing
  have slot : ∀ j, (s.fresh.setSlot m (.memory ⟨a, x⟩ p k)).slot j
      = if m = j then .memory ⟨a, x⟩ p k else s.slot j := fun j => slot_set s.fresh m j _
  have noWalk : (s.fresh.setSlot m (.memory ⟨a, x⟩ p k)).walkRequest = none := by
    have engine : s.ptu.engine = .idle := by
      simp only [State.walkRequest, idle, CycleState.walkRead] at walk
      cases e : s.ptu.engine <;> simp [e] at walk ⊢
    simp [State.walkRequest, engine]
  have waits : ∀ j, (s.fresh.setSlot m (.memory ⟨a, x⟩ p k)).forwardWaits j = decide (j = m) := by
    intro j
    unfold State.forwardWaits
    rw [slot]
    by_cases same : m = j
    · simp [same, idle]
    · have other := forward j
      rw [if_neg same, decide_eq_false (Ne.symm same)]
      exact other
  have next : (s.fresh.setSlot m (.memory ⟨a, x⟩ p k)).nextForward = some m := by
    unfold State.nextForward
    rw [funext waits]
    exact (show ∀ q j : Master, (searchOrder q).find? (fun k => decide (k = j)) = some j by decide) _ m
  have noJournal : (s.fresh.setSlot m (.memory ⟨a, x⟩ p k)).journalRequest = none := journal
  have granted : s.passed m a x p k = grantForward m (s.fresh.setSlot m (.memory ⟨a, x⟩ p k)) :=
    (poke_of_idle (s := s.fresh.setSlot m _) idle).trans
      (grant_forward noWalk (by simp [noJournal]) next)
  rw [granted, grantForward]
  simp [noJournal]

/-! ## Transactions that are not translated (R13, R14, R19) -/

theorem classify_forwarded (other : ¬ (m = 7 ∧ a.toNat < 0x200)) :
    classify m ⟨a, x⟩ (s.inHand m a x) = s.passed m a x a .plain := by
  have : (m = 7 && decide (a.toNat < 0x200)) = false := by simpa using other
  rw [classify, if_neg (by simpa using this), toMemory_inHand]

theorem handToPtu_direct (direct : isDirect s.blocks.profile m = true) :
    handToPtu m ⟨a, x⟩ (s.inHand m a x) = s.passed m a x a .plain := by
  have : isDirect (s.inHand m a x).blocks.profile m = true := direct
  rw [handToPtu, if_pos this, toMemory_inHand]

end

/-- Settles O14. -/
theorem untranslatedTransactionIsForwarded : Obligations.UntranslatedTransactionIsForwarded := by
  intro s m a x hs free align how
  have h : Taken s m a := ⟨hs, free, align⟩
  have handed : handOver m ⟨a, x⟩ s.fresh = s.passed m a x a .plain := by
    obtain ⟨mode, other⟩ | ⟨mode, direct⟩ := how
    · rw [handOver_bypass mode, classify_forwarded other]
    · rw [handOver_operation mode, handToPtu_direct direct]
  obtain ⟨ports, slots, bus, ptu, answers, busy⟩ := atThePorts_passed s m a x a .plain
  exact ⟨_, h.exec handed (settled_passed hs _ _), ports, slots, bus, ptu, answers, busy,
    fun idle nothing => mp_passed idle nothing a .plain⟩

/-! ## The fallback page of master 7 (R14) -/

section

variable {s : State} {a : Addr} {x : Access} {m : Master}

theorem toNat_addrOffset (a : Addr) : (addrOffset a).toNat = a.toNat % 4096 := by
  simp [addrOffset, BitVec.extractLsb'_toNat]

theorem statusEffect_same {o : BitVec 12} (h : o.toNat ≠ 68) (b : Blocks) : statusEffect o b = b :=
  if_neg h

theorem statusEffect_pop {o : BitVec 12} (h : o.toNat = 68) (b : Blocks) :
    statusEffect o b = popFault b := if_pos h

/-- The CSU answers no offset above 80 (Table 11-6). -/
theorem statusWord_beyond {o : BitVec 12} (h : 84 ≤ o.toNat) (w : Sweep) (b : Blocks) :
    statusWord w b o = none := by
  unfold statusWord
  split
  case h_22 => rfl
  all_goals omega

/-- A status read that the CSU answers. -/
theorem readStatus_answered (h : Taken s m a) {o : BitVec 12} {w : Word}
    (word : statusWord s.ptu.sweep s.blocks o = some w) :
    readStatus m ⟨a, x⟩ o (s.inHand m a x) = s.answered m true w (statusEffect o s.blocks) := by
  have word : statusWord (s.inHand m a x).ptu.sweep (s.inHand m a x).blocks o = some w := word
  simp only [readStatus, word]
  exact answer_inHand h true w _

/-- A status read at an offset that the CSU does not answer. -/
theorem readStatus_refused (h : Taken s m a) {o : BitVec 12}
    (word : statusWord s.ptu.sweep s.blocks o = none) :
    readStatus m ⟨a, x⟩ o (s.inHand m a x) = s.refused m a .windowOffset := by
  have word : statusWord (s.inHand m a x).ptu.sweep (s.inHand m a x).blocks o = none := word
  simp only [readStatus, word]
  exact refuse_inHand h _

theorem classify_fallback (low : a.toNat < 0x200) (t : State) :
    classify 7 ⟨a, x⟩ t = fallback ⟨a, x⟩ t := by
  simp [classify, low]

theorem addrOffset_low (low : a.toNat < 0x200) : (addrOffset a).toNat = a.toNat := by
  rw [toNat_addrOffset]
  omega

/-- The status half begins at 0x100. -/
theorem statusHalf_offset (high : 0x100 ≤ a.toNat) (low : a.toNat < 0x200) :
    addrOffset a - 0x100 = BitVec.ofNat 12 (a.toNat - 0x100) := by
  have := addrOffset_low low
  apply BitVec.eq_of_toNat_eq
  rw [BitVec.toNat_sub, BitVec.toNat_ofNat, this]
  simp
  omega

theorem fallback_status_read (high : 0x100 ≤ a.toNat) (low : a.toNat < 0x200) (t : State) :
    fallback ⟨a, .read⟩ t = readStatus 7 ⟨a, .read⟩ (BitVec.ofNat 12 (a.toNat - 0x100)) t := by
  have : ¬ (addrOffset a).toNat < 0x100 := by rw [addrOffset_low low]; omega
  simp only [fallback, if_neg this, statusHalf_offset high low]

theorem fallback_status_write (high : 0x100 ≤ a.toNat) (low : a.toNat < 0x200) (w : Word) (t : State) :
    fallback ⟨a, .write w⟩ t = refuse 7 .windowWrite a t := by
  have : ¬ (addrOffset a).toNat < 0x100 := by rw [addrOffset_low low]; omega
  simp only [fallback, if_neg this]

theorem fallback_command_read (low : a.toNat < 0x100) (t : State) :
    fallback ⟨a, .read⟩ t = toMemory 7 ⟨a, .read⟩ a .command t := by
  have : (addrOffset a).toNat < 0x100 := by rw [addrOffset_low (by omega)]; omega
  simp only [fallback, if_pos this]

end

/-- Settles O15. -/
theorem fallbackPageOfMasterSeven : Obligations.FallbackPageOfMasterSeven := by
  intro s a x hs free align mode
  have h : Taken s 7 a := ⟨hs, free, align⟩
  have handed (low : a.toNat < 0x200) :
      handOver 7 ⟨a, x⟩ s.fresh = fallback ⟨a, x⟩ (s.inHand 7 a x) := by
    rw [handOver_bypass mode, classify_fallback low]
  have offset (high : 0x100 ≤ a.toNat) (low : a.toNat < 0x200) :
      (BitVec.ofNat 12 (a.toNat - 0x100)).toNat = a.toNat - 0x100 := by
    rw [BitVec.toNat_ofNat]
    omega
  refine ⟨?answered, ?beyond, ?written, ?command⟩
  case answered =>
    rintro w rfl high low notPop word
    have kept := statusEffect_same (o := BitVec.ofNat 12 (a.toNat - 0x100))
      (by rw [offset high low]; omega) s.blocks
    refine h.exec ?_ (settled_answered hs true w s.blocks)
    rw [handed low, fallback_status_read high low, readStatus_answered h word, kept]
    rfl
  case beyond =>
    rintro rfl beyond low
    have high : 0x100 ≤ a.toNat := by omega
    have none := statusWord_beyond (o := BitVec.ofNat 12 (a.toNat - 0x100))
      (by rw [offset high low]; omega) s.ptu.sweep s.blocks
    refine h.exec ?_ (settled_answered hs false _ _)
    rw [handed low, fallback_status_read high low, readStatus_refused h none]
    rfl
  case written =>
    rintro w rfl high low
    refine h.exec ?_ (settled_answered hs false _ _)
    rw [handed low, fallback_status_write high low, refuse_inHand h]
    rfl
  case command =>
    rintro rfl low
    obtain ⟨ports, slots, bus, ptu, answers, _⟩ := atThePorts_passed s 7 a .read a .command
    refine ⟨_, h.exec ?_ (settled_passed hs _ _), ports, slots, bus, ptu, answers⟩
    rw [handed (by omega), fallback_command_read low, toMemory_inHand]

/-! ## Look-up (R20) -/

section

variable {s : State} {m : Master} {a : Addr} {x : Access} {e : Entry} {w : BufferSet} {tag : BitVec 8}

theorem onSet_same (p : Ptu) (m : Master) (i : Fin 16) {f : BufferSet → BufferSet}
    (h : f (p.set m i) = p.set m i) : p.onSet m i f = p := by
  unfold Ptu.onSet
  rw [h]
  have inner : (p.buffer[m]).set i (p.set m i) = p.buffer[m] := vector_set_same _ _ _ rfl
  rw [inner, vector_set_same _ _ _ rfl]

theorem afterLookup_checked (h : e.checks = true) (tag : BitVec 8) : e.afterLookup tag = e := by
  simp [Entry.afterLookup, h]

theorem afterLookup_unmatched (h : ¬ (e.valid = true ∧ e.tag = tag)) : e.afterLookup tag = e := by
  rw [← matchesTag_iff, Bool.not_eq_true] at h
  simp [Entry.afterLookup, h]

theorem afterLookup_failed (mine : e.valid = true ∧ e.tag = tag) (fails : e.checks = false) :
    e.afterLookup tag = { e with valid := false } := by
  rw [← matchesTag_iff] at mine
  simp [Entry.afterLookup, mine, fails]

/-- A sound set is left as it is by a look-up, and none of its ways fails its check. -/
theorem afterLookup_of_sound (h : w.Sound) (tag : BitVec 8) :
    w.afterLookup tag = w ∧ w.checkFails tag = false := by
  have same {e : Entry} (checks : e.valid = true → e.checks = true) :
      e.afterLookup tag = e ∧ (e.matchesTag tag && !e.checks) = false := by
    cases valid : e.valid
    · exact ⟨afterLookup_unmatched (by simp [valid]), by simp [Entry.matchesTag, valid]⟩
    · exact ⟨afterLookup_checked (checks valid) tag, by simp [checks valid]⟩
  obtain ⟨_, checksA, checksB⟩ := h
  obtain ⟨sameA, passA⟩ := same checksA
  obtain ⟨sameB, passB⟩ := same checksB
  exact ⟨by rw [BufferSet.afterLookup, sameA, sameB], by rw [BufferSet.checkFails, passA, passB]; rfl⟩

/-- A valid way of a sound set is found by its tag. -/
theorem find_of_sound (h : w.Sound) (way : e = w.wayA ∨ e = w.wayB) (valid : e.valid = true)
    (tagged : e.tag = tag) : w.find tag = some e := by
  obtain ⟨noPair, checksA, checksB⟩ := h
  obtain rfl | rfl := way
  · simp [BufferSet.find, Entry.matchesTag, valid, tagged, checksA valid]
  · have notA : w.wayA.matchesTag tag = false := by
      rw [← Bool.not_eq_true, matchesTag_iff]
      rintro ⟨validA, tagA⟩
      exact noPair ⟨validA, valid, tagA.trans tagged.symm⟩
    have isB : w.wayB.matchesTag tag = true := matchesTag_iff.mpr ⟨valid, tagged⟩
    simp only [BufferSet.find, notA, isB, checksB valid, Bool.false_and, Bool.and_self, if_true,
      Bool.false_eq_true, if_false]

/-- A translating master whose area no sweep covers is looked up (R19, R32). -/
theorem handToPtu_lookup (translating : isDirect s.blocks.profile m = false)
    (unswept : s.ptu.sweep.coversNow m = false) :
    handToPtu m ⟨a, x⟩ (s.inHand m a x) = lookup m ⟨a, x⟩ (s.inHand m a x) := by
  have d : isDirect (s.inHand m a x).blocks.profile m = false := translating
  have c : (s.inHand m a x).ptu.sweep.coversNow m = false := unswept
  simp [handToPtu, d, c]

/-- A transaction of a translating master that hits an entry. -/
structure Hit (s : State) (m : Master) (a : Addr) (e : Entry) : Prop extends Taken s m a where
  mode : s.blocks.su.mode = .service ∨ s.blocks.su.mode = .active
  translating : isDirect s.blocks.profile m = false
  unswept : s.ptu.sweep.coversNow m = false
  sound : s.ptu.Sound
  way : e = (s.ptu.set m (addrSet a)).wayA ∨ e = (s.ptu.set m (addrSet a)).wayB
  valid : e.valid = true
  tagged : e.tag = addrTag a

/-- A hit uses the entry and leaves the buffer as it is. -/
theorem Hit.handOver_useEntry (h : Hit s m a e) (x : Access) :
    handOver m ⟨a, x⟩ s.fresh = useEntry m ⟨a, x⟩ e.walked (s.inHand m a x) := by
  obtain ⟨same, passes⟩ := afterLookup_of_sound (h.sound m (addrSet a)) (addrTag a)
  have found := find_of_sound (h.sound m (addrSet a)) h.way h.valid h.tagged
  have looked : (s.inHand m a x).onPtu
      (fun p => p.onSet m (addrSet a) (BufferSet.afterLookup (addrTag a))) = s.inHand m a x := by
    have : s.ptu.onSet m (addrSet a) (BufferSet.afterLookup (addrTag a)) = s.ptu :=
      onSet_same _ _ _ same
    have ptu : (s.inHand m a x).ptu = s.ptu := rfl
    unfold State.onPtu
    simp only [ptu, this]
    rfl
  have sets : (s.inHand m a x).ptu.set m (addrSet a) = s.ptu.set m (addrSet a) := rfl
  rw [handOver_operation h.mode, handToPtu_lookup h.translating h.unswept]
  simp only [lookup, sets, looked, passes, found, Bool.false_eq_true, if_false]

/-! ### The checks (R21) -/

/-- The entry's permit allows the access. -/
def Entry.allows (e : Entry) (x : Access) : Prop :=
  match x with
  | .read => e.readPermit = true
  | .write _ => e.writePermit = true

theorem permitted_iff (e : Entry) (x : Access) : permitted e.walked x = true ↔ e.allows x := by
  cases x <;> exact Iff.rfl

theorem entryRefusal_permission (p : Pages) (h : ¬ e.allows x) :
    entryRefusal p m e.walked x = some .permission := by
  rw [← permitted_iff, Bool.not_eq_true] at h
  simp [entryRefusal, h]

theorem entryRefusal_read (p : Pages) (h : e.allows .read) : entryRefusal p m e.walked .read = none := by
  rw [← permitted_iff] at h
  simp [entryRefusal, h]

/-- A PLAIN page refuses no access that its permit allows. -/
theorem entryRefusal_plainPage (p : Pages) {e : WalkedEntry} (h : permitted e x = true)
    (kind : e.kind = .plain) : entryRefusal p m e x = none := by
  cases x <;> simp [entryRefusal, h, kind]

theorem entryRefusal_plain (p : Pages) (h : e.allows x) (kind : e.kind = .plain) :
    entryRefusal p m e.walked x = none :=
  entryRefusal_plainPage p ((permitted_iff e x).mpr h) kind

theorem entryRefusal_windowWrite {w : Word} (p : Pages) (h : e.allows (.write w))
    (kind : e.kind = .status ∨ e.kind = .directive) :
    entryRefusal p m e.walked (.write w) = some .windowWrite := by
  rw [← permitted_iff] at h
  have kind : e.walked.kind = .status ∨ e.walked.kind = .directive := kind
  rcases kind with kind | kind <;> simp [entryRefusal, h, kind]

theorem entryRefusal_crossLane {w : Word} {p : Pages} (h : e.allows (.write w))
    (kind : e.kind = .capture) (foreign : ownsLane p m e.channel = false) :
    entryRefusal p m e.walked (.write w) = some .crossLane := by
  rw [← permitted_iff] at h
  have kind : e.walked.kind = .capture := kind
  have foreign : ownsLane p m e.walked.channel = false := foreign
  simp [entryRefusal, h, kind, foreign]

/-- A refused entry refuses the access. -/
theorem Hit.refused {f : FaultKind} (h : Hit s m a e)
    (refusal : entryRefusal s.blocks.profile m e.walked x = some f) :
    exec (.transaction m a x) s = .next (s.refused m a f) := by
  refine h.toTaken.exec ?_ (settled_answered h.settled _ _ _)
  have refusal : entryRefusal (s.inHand m a x).blocks.profile m e.walked x = some f := refusal
  rw [h.handOver_useEntry, useEntry, refusal]
  exact refuse_inHand h.toTaken f

/-- An entry that passes its checks routes the access by its kind (R22). -/
theorem Hit.routed (h : Hit s m a e) (pass : entryRefusal s.blocks.profile m e.walked x = none) :
    handOver m ⟨a, x⟩ s.fresh
      = route m ⟨a, x⟩ e.kind e.channel (physical e.page (addrOffset a)) (s.inHand m a x) := by
  have pass : entryRefusal (s.inHand m a x).blocks.profile m e.walked x = none := pass
  rw [h.handOver_useEntry, useEntry, pass]
  rfl

theorem toNat_physical (p o : BitVec 12) : (physical p o).toNat = p.toNat * 4096 + o.toNat := by
  have := o.isLt
  rw [physical, BitVec.toNat_append, Nat.shiftLeft_eq, Nat.mul_comm, ← Nat.two_pow_add_eq_or_of_lt this,
    Nat.mul_comm]

theorem addrOffset_eq (a : Addr) : addrOffset a = BitVec.ofNat 12 (a.toNat % 4096) := by
  apply BitVec.eq_of_toNat_eq
  rw [toNat_addrOffset, BitVec.toNat_ofNat]
  omega

end

/-- The offset of a physical address is the offset that it was made with. -/
theorem addrOffset_physical (p o : BitVec 12) : addrOffset (physical p o) = o := by
  apply BitVec.eq_of_toNat_eq
  rw [toNat_addrOffset, toNat_physical]
  have := o.isLt
  omega

/-! ## Hits (R21, R22) -/

section

variable {s : State} {m : Master} {a : Addr} {x : Access} {e : Entry}

/-- A read of a STATUS or DIRECTIVE page stays with its unit. -/
theorem Hit.status_read (h : Hit s m a e) (allowed : e.allows .read) (kind : e.kind = .status) :
    handOver m ⟨a, .read⟩ s.fresh = readStatus m ⟨a, .read⟩ (addrOffset a) (s.inHand m a .read) := by
  rw [h.routed (entryRefusal_read _ allowed), kind]
  exact congrArg (readStatus m ⟨a, .read⟩ · _) (addrOffset_physical _ _)

theorem Hit.directive_read (h : Hit s m a e) (allowed : e.allows .read) (kind : e.kind = .directive) :
    handOver m ⟨a, .read⟩ s.fresh = readDirective m ⟨a, .read⟩ (if e.channel = 0 then .A else .B)
      (addrOffset a) (s.inHand m a .read) := by
  rw [h.routed (entryRefusal_read _ allowed), kind]
  exact congrArg (readDirective m ⟨a, .read⟩ _ · _) (addrOffset_physical _ _)

theorem Hit.passed_plain (h : Hit s m a e) (allowed : e.allows x) (kind : e.kind = .plain) :
    handOver m ⟨a, x⟩ s.fresh = s.passed m a x (physical e.page (addrOffset a)) e.kind := by
  rw [h.routed (entryRefusal_plain _ allowed kind), kind]
  cases x <;> exact toMemory_inHand _ _

theorem Hit.passed_read (h : Hit s m a e) (allowed : e.allows .read)
    (kind : e.kind = .capture ∨ e.kind = .command) :
    handOver m ⟨a, .read⟩ s.fresh = s.passed m a .read (physical e.page (addrOffset a)) e.kind := by
  rw [h.routed (entryRefusal_read _ allowed)]
  rcases kind with kind | kind <;> rw [kind] <;> exact toMemory_inHand _ _

/-- FAULT_POP and DIRECTIVE_POP are the reads of their windows (log 33). -/
theorem exec_faultPop (run : inEvery s.blocks.su.mode = true) :
    exec (.faultPop m) s
      = .next (s.answered m true (faultPopWord s.blocks) (popFault s.blocks)) := by
  have run : inEvery s.fresh.mode = true := run
  simp only [exec, execFaultPop, run, if_true]
  rfl

theorem exec_directivePop (run : inOperation s.blocks.su.mode = true) (y : Approach) :
    exec (.directivePop m y) s
      = .next (s.answered m true (popWord y s.blocks) (popDirective y s.blocks)) := by
  have run : inOperation s.fresh.mode = true := run
  simp only [exec, execDirectivePop, run, if_true]
  rfl

theorem readDirective_inHand (h : Taken s m a) (y : Approach) (o : BitVec 12) :
    (o.toNat = 0 → readDirective m ⟨a, x⟩ y o (s.inHand m a x)
      = s.answered m true (popWord y s.blocks) (popDirective y s.blocks))
    ∧ (o.toNat = 4 → readDirective m ⟨a, x⟩ y o (s.inHand m a x)
      = s.answered m true (lastPoppedWord y s.blocks) s.blocks)
    ∧ (o.toNat = 8 → readDirective m ⟨a, x⟩ y o (s.inHand m a x)
      = s.answered m true (place (s.blocks.directives y).length 0 5) s.blocks)
    ∧ (8 < o.toNat → readDirective m ⟨a, x⟩ y o (s.inHand m a x) = s.refused m a .windowOffset) := by
  unfold readDirective
  refine ⟨fun e => ?_, fun e => ?_, fun e => ?_, fun e => ?_⟩
  · rw [e]
    exact answer_inHand h true _ _
  · rw [e]
    exact answer_inHand h true _ id
  · rw [e]
    exact answer_inHand h true _ id
  · split
    case h_4 => exact refuse_inHand h _
    all_goals omega

theorem lastPoppedWord_eq (y : Approach) (b : Blocks) :
    lastPoppedWord y b = ((b.du.lastPopped.at y).map Directive.word1).getD 0 := by
  unfold lastPoppedWord
  split <;> rename_i e <;> rw [e] <;> rfl

theorem place_of_lt {n len : Nat} (h : n < 2 ^ len) : place n 0 len = BitVec.ofNat 32 n := by
  rw [place, Nat.mod_eq_of_lt h, pow_zero, mul_one]

end

/-- Settles O16. -/
theorem hitPassesToTheEntrysPage : Obligations.HitPassesToTheEntrysPage := by
  intro s m a x e offset approach answered hs free align mode translating unswept sound way valid tagged
    allowed
  have h : Hit s m a e :=
    ⟨⟨hs, free, align⟩, mode, translating, unswept, sound, way, valid, tagged⟩
  have allowed : e.allows x := allowed
  have operating : inOperation s.blocks.su.mode = true := by
    rcases mode with mode | mode <;> rw [mode] <;> rfl
  have running : inEvery s.blocks.su.mode = true := by
    rcases mode with mode | mode <;> rw [mode] <;> rfl
  refine ⟨?passed, ?status, ?directive⟩
  case passed =>
    intro kind
    have handed : handOver m ⟨a, x⟩ s.fresh
        = s.passed m a x (physical e.page (addrOffset a)) e.kind := by
      obtain plain | ⟨window, rfl⟩ := kind
      · exact h.passed_plain allowed plain
      · exact h.passed_read allowed window
    obtain ⟨ports, slots, bus, ptu, answers, busy⟩ :=
      atThePorts_passed s m a x (physical e.page (addrOffset a)) e.kind
    refine ⟨_, _, h.toTaken.exec handed (settled_passed hs _ _), ports, ?_, slots, bus, ptu, answers,
      busy⟩
    rw [toNat_physical, toNat_addrOffset]
  case status =>
    rintro kind rfl
    have offsetIs : (addrOffset a).toNat = offset := toNat_addrOffset a
    refine ⟨fun w notPop word => ?_, fun pop => ?_⟩
    · rw [← addrOffset_eq] at word
      refine h.toTaken.exec ?_ (settled_answered hs true w s.blocks)
      rw [h.status_read allowed kind, readStatus_answered h.toTaken word,
        statusEffect_same (offsetIs ▸ notPop)]
      rfl
    · have pop : (addrOffset a).toNat = 68 := offsetIs.trans pop
      have word : statusWord s.ptu.sweep s.blocks (addrOffset a) = some (faultPopWord s.blocks) := by
        rw [statusWord, pop]
        rfl
      rw [exec_faultPop running]
      refine h.toTaken.exec ?_ (settled_answered hs true _ _)
      rw [h.status_read allowed kind, readStatus_answered h.toTaken word, statusEffect_pop pop]
  case directive =>
    rintro kind rfl
    have offsetIs : (addrOffset a).toNat = offset := toNat_addrOffset a
    obtain ⟨first, second, third, _⟩ := readDirective_inHand (x := .read) h.toTaken approach (addrOffset a)
    refine ⟨fun zero => ?_, fun four => ?_, fun eight room => ?_⟩
    · rw [exec_directivePop operating]
      refine h.toTaken.exec ?_ (settled_answered hs true _ _)
      rw [h.directive_read allowed kind]
      exact first (offsetIs.trans zero)
    · refine h.toTaken.exec ?_ (settled_answered hs true _ s.blocks)
      rw [h.directive_read allowed kind, ← lastPoppedWord_eq]
      exact second (offsetIs.trans four)
    · refine h.toTaken.exec ?_ (settled_answered hs true _ s.blocks)
      rw [h.directive_read allowed kind, ← place_of_lt (len := 5) (by omega)]
      exact third (offsetIs.trans eight)

/-- Settles O17. -/
theorem permissionFailureIsRefused : Obligations.PermissionFailureIsRefused := by
  intro s m a x e refused allowed hs free align mode translating unswept sound way valid tagged
  have h : Hit s m a e :=
    ⟨⟨hs, free, align⟩, mode, translating, unswept, sound, way, valid, tagged⟩
  refine ⟨fun forbidden => h.refused (entryRefusal_permission _ forbidden), ?written, ?beyond⟩
  case written =>
    rintro permit w rfl
    have permit : e.allows (.write w) := permit
    refine ⟨fun kind => h.refused (entryRefusal_windowWrite _ permit kind), fun kind foreign => ?_⟩
    · have other : ownsLane s.blocks.profile m e.channel = false := by
        rw [ownsLane, Option.any_eq_false]
        intro l named
        have channel : e.channel.toNat = l.val := by
          unfold channelLane at named
          split at named
          · obtain rfl := Option.some.inj named
            rfl
          · cases named
        simpa using foreign l channel
      exact h.refused (entryRefusal_crossLane permit kind other)
  case beyond =>
    rintro permit rfl beyond
    have permit : e.allows .read := permit
    refine h.toTaken.exec ?_ (settled_answered hs false _ _)
    rw [← toNat_addrOffset] at beyond
    obtain ⟨kind, beyond⟩ | ⟨kind, beyond⟩ := beyond
    · rw [h.status_read permit kind]
      exact readStatus_refused h.toTaken (statusWord_beyond beyond _ _)
    · rw [h.directive_read permit kind]
      obtain ⟨_, _, _, refusal⟩ := readDirective_inHand (x := .read) h.toTaken
        (if e.channel = 0 then .A else .B) (addrOffset a)
      exact refusal beyond

end Sys2Proof.Machine

namespace Sys2Proof.Machine

/-! ## A look-up that misses (R20, R23, R24, R32) -/

section

variable {s v : State} {m : Master} {a : Addr} {x : Access}

theorem moveTo_setSlot (v : State) (m : Master) (t : Transaction) (p q : PtuPlace) :
    (v.setSlot m (.translating t p)).moveTo m q = v.setSlot m (.translating t q) := by
  rw [moveTo_translating (State.slot_setSlot_same v m _), setSlot_setSlot]

/-- A miss with the engine at work joins the queue's tail (R23). -/
theorem joinQueue_busy (busy : v.ptu.engine ≠ .idle) (t : Transaction) (p : PtuPlace) :
    joinQueue m (v.setSlot m (.translating t p)) = { v with
      slots := v.slots.set m (.translating t .queued)
      ptu := { v.ptu with queue := v.ptu.queue ++ [m] } } := by
  unfold joinQueue
  rw [moveTo_setSlot]
  unfold walkNext
  split
  next idle _ => exact absurd idle busy
  all_goals rfl

/-- The walk of a master that is the only one to miss. -/
def State.begun (v : State) (m : Master) (t : Transaction) : State := { v with
  slots := v.slots.set m (.translating t .walking)
  ptu := { v.ptu with
    engine := .region
      ⟨m, regionTableBase v.blocks.profile m, memoryPages v.blocks.profile, false, false⟩
    queue := [] } }

/-- A miss with the engine IDLE and nobody queued begins its walk (R24). -/
theorem joinQueue_idle (idle : v.ptu.engine = .idle) (alone : v.ptu.queue = []) (t : Transaction)
    (p : PtuPlace) :
    joinQueue m (v.setSlot m (.translating t p)) = poke (v.begun m t) := by
  unfold joinQueue
  rw [moveTo_setSlot]
  unfold walkNext
  have head : ((v.setSlot m (.translating t .queued)).onPtu fun p =>
      { p with queue := p.queue ++ [m] }).ptu.queue = [m] := by simp [alone]
  have engine : ((v.setSlot m (.translating t .queued)).onPtu fun p =>
      { p with queue := p.queue ++ [m] }).ptu.engine = .idle := idle
  rw [engine, head]
  dsimp only
  have moved : ((v.setSlot m (.translating t .queued)).onPtu fun p =>
      { p with queue := p.queue ++ [m] }).moveTo m .walking
        = (v.setSlot m (.translating t .walking)).onPtu fun p => { p with queue := p.queue ++ [m] } :=
    moveTo_setSlot (v.onPtu fun p => { p with queue := p.queue ++ [m] }) m t _ _
  rw [moved]
  rfl

theorem slotAddress_of_slot {t : Transaction} (h : (v.slot m).transaction = some t) :
    v.slotAddress m = t.address := by
  simp [State.slotAddress, h]

theorem toNat_regionEntryAddress (base : BitVec 12) (a : Addr) :
    (regionEntryAddress base a).toNat = base.toNat * 4096 + (a.toNat / 2 ^ 19) * 4 := by
  rw [regionEntryAddress, toNat_physical, BitVec.toNat_shiftLeft, BitVec.toNat_setWidth, addrRegion,
    BitVec.extractLsb'_toNat, Nat.shiftRight_eq_div_pow, Nat.shiftLeft_eq]
  have := a.isLt
  omega

theorem toNat_pageEntryAddress (page : BitVec 12) (a : Addr) :
    (pageEntryAddress page a).toNat = page.toNat * 4096 + (a.toNat / 4096 % 128) * 4 := by
  rw [pageEntryAddress, toNat_physical, BitVec.toNat_shiftLeft, BitVec.toNat_setWidth, addrPage,
    BitVec.extractLsb'_toNat, Nat.shiftRight_eq_div_pow, Nat.shiftLeft_eq]
  omega

/-- The region read that a walk begins with. -/
def regionRead (s : State) (m : Master) (a : Addr) : Addr :=
  regionEntryAddress (regionTableBase s.blocks.profile m) a

/-- An IDLE MP grants the region read of a walk that begins. -/
theorem mp_begun (idle : v.mp.cycle = .idle) (t : Transaction) :
    (poke (v.begun m t)).mp = { v.mp with cycle := .busy (.walkRegion (regionRead v m t.address) false) } := by
  have cycle : (v.begun m t).mp.cycle = .idle := idle
  have slot : (v.begun m t).slot m = .translating t .walking := by
    simp [State.begun, State.slot]
  have address : (v.begun m t).slotAddress m = t.address :=
    slotAddress_of_slot (by rw [slot]; rfl)
  have request : (v.begun m t).walkRequest
      = some (.walkRegion (regionRead v m t.address) false) := by
    unfold State.walkRequest
    rw [cycle]
    exact congrArg (fun a => some (Cycle.walkRegion (regionEntryAddress _ a) false)) address
  rw [poke_of_idle cycle, grant_walk request]
  rfl

theorem settled_begun (h : v.Settled) (t : Transaction) : (v.begun m t).Settled := by
  refine settled_same (s := { v with slots := v.slots.set m (.translating t .walking) }) rfl rfl ?_
  exact Settled.set h m rfl (by simp)

/-- A transaction of a translating master whose area no sweep covers. -/
structure Looked (s : State) (m : Master) (a : Addr) : Prop extends Taken s m a where
  mode : s.blocks.su.mode = .service ∨ s.blocks.su.mode = .active
  translating : isDirect s.blocks.profile m = false
  unswept : s.ptu.sweep.coversNow m = false

/-- What a look-up of the set `w` that finds nothing leaves: the set, and whether a way failed its
check. -/
structure Misses (w : BufferSet) (tag : BitVec 8) (left : BufferSet) (fails : Bool) : Prop where
  find : w.find tag = none
  left : w.afterLookup tag = left
  fails : w.checkFails tag = fails

/-- The state in which a miss joins the queue. -/
def State.missed (s : State) (m : Master) (a : Addr) (left : BufferSet) (fails : Bool) : State :=
  { s.fresh with
    ptu := s.ptu.onSet m (addrSet a) fun _ => left
    blocks := if fails then masterFault .entryCheck m a s.blocks else s.blocks }

theorem Looked.handOver_misses (h : Looked s m a) {left : BufferSet} {fails : Bool}
    (miss : Misses (s.ptu.set m (addrSet a)) (addrTag a) left fails) (x : Access) :
    handOver m ⟨a, x⟩ s.fresh
      = joinQueue m ((s.missed m a left fails).setSlot m (.translating ⟨a, x⟩ .looking)) := by
  obtain ⟨find, rfl, rfl⟩ := miss
  have sets : (s.inHand m a x).ptu.set m (addrSet a) = s.ptu.set m (addrSet a) := rfl
  rw [handOver_operation h.mode, handToPtu_lookup h.translating h.unswept]
  simp only [lookup, sets, find]
  cases (s.ptu.set m (addrSet a)).checkFails (addrTag a) <;> rfl

theorem profile_masterFault (f : FaultKind) (m : Master) (a : Addr) (b : Blocks) :
    (masterFault f m a b).profile = b.profile := by
  rw [masterFault, sendFault_eq]
  rfl

theorem profile_missed (s : State) (m : Master) (a : Addr) (left : BufferSet) (fails : Bool) :
    (s.missed m a left fails).blocks.profile = s.blocks.profile := by
  cases fails
  · rfl
  · exact profile_masterFault ..

theorem settled_missed (h : s.Settled) (left : BufferSet) (fails : Bool) :
    (s.missed m a left fails).Settled := settled_same rfl rfl h

/-- Neither way is valid with the tag: a plain miss. -/
theorem misses_plain {w : BufferSet} {tag : BitVec 8} (hA : ¬ (w.wayA.valid = true ∧ w.wayA.tag = tag))
    (hB : ¬ (w.wayB.valid = true ∧ w.wayB.tag = tag)) : Misses w tag w false := by
  have noA : w.wayA.matchesTag tag = false := by rwa [← Bool.not_eq_true, matchesTag_iff]
  have noB : w.wayB.matchesTag tag = false := by rwa [← Bool.not_eq_true, matchesTag_iff]
  refine ⟨?_, ?_, ?_⟩
  · simp only [BufferSet.find, noA, noB, Bool.false_and, Bool.false_eq_true, if_false]
  · rw [BufferSet.afterLookup, afterLookup_unmatched hA, afterLookup_unmatched hB]
  · simp only [BufferSet.checkFails, noA, noB, Bool.false_and, Bool.or_self]

/-- Way A is valid with the tag and fails its check. -/
theorem misses_wayA {w : BufferSet} {tag : BitVec 8} (hA : w.wayA.valid = true ∧ w.wayA.tag = tag)
    (fails : w.wayA.checks = false) (hB : ¬ (w.wayB.valid = true ∧ w.wayB.tag = tag)) :
    Misses w tag { w with wayA := { w.wayA with valid := false } } true := by
  have isA : w.wayA.matchesTag tag = true := matchesTag_iff.mpr hA
  have noB : w.wayB.matchesTag tag = false := by rwa [← Bool.not_eq_true, matchesTag_iff]
  refine ⟨?_, ?_, ?_⟩
  · simp only [BufferSet.find, isA, fails, noB, Bool.and_false, Bool.false_and, Bool.false_eq_true,
      if_false]
  · rw [BufferSet.afterLookup, afterLookup_failed hA fails, afterLookup_unmatched hB]
  · simp only [BufferSet.checkFails, isA, fails, Bool.not_false, Bool.and_self, Bool.true_or]

/-- Way B is valid with the tag and fails its check. -/
theorem misses_wayB {w : BufferSet} {tag : BitVec 8} (hB : w.wayB.valid = true ∧ w.wayB.tag = tag)
    (fails : w.wayB.checks = false) (hA : ¬ (w.wayA.valid = true ∧ w.wayA.tag = tag)) :
    Misses w tag { w with wayB := { w.wayB with valid := false } } true := by
  have noA : w.wayA.matchesTag tag = false := by rwa [← Bool.not_eq_true, matchesTag_iff]
  have isB : w.wayB.matchesTag tag = true := matchesTag_iff.mpr hB
  refine ⟨?_, ?_, ?_⟩
  · simp only [BufferSet.find, noA, isB, fails, Bool.and_false, Bool.false_and, Bool.false_eq_true,
      if_false]
  · rw [BufferSet.afterLookup, afterLookup_unmatched hA, afterLookup_failed hB fails]
  · simp only [BufferSet.checkFails, isB, fails, Bool.not_false, Bool.and_self, Bool.or_true]

/-- A miss with the engine at work. -/
theorem Looked.exec_queued (h : Looked s m a) {left : BufferSet} {fails : Bool}
    (miss : Misses (s.ptu.set m (addrSet a)) (addrTag a) left fails) (busy : s.ptu.engine ≠ .idle) :
    exec (.transaction m a x) s = .next { s.missed m a left fails with
      slots := s.slots.set m (.translating ⟨a, x⟩ .queued)
      ptu := { s.ptu.onSet m (addrSet a) fun _ => left with queue := s.ptu.queue ++ [m] } } := by
  refine h.toTaken.exec ?_ (settled_same (s := { s.missed m a left fails with
    slots := s.slots.set m (.translating ⟨a, x⟩ .queued) }) rfl rfl
      (Settled.set (settled_missed h.settled left fails) m rfl (by simp)))
  rw [h.handOver_misses miss, joinQueue_busy (v := s.missed m a left fails) busy]
  rfl

/-- A miss that begins its walk. -/
theorem Looked.exec_walks (h : Looked s m a) {left : BufferSet} {fails : Bool}
    (miss : Misses (s.ptu.set m (addrSet a)) (addrTag a) left fails) (idle : s.ptu.engine = .idle)
    (alone : s.ptu.queue = []) :
    exec (.transaction m a x) s = .next (poke ((s.missed m a left fails).begun m ⟨a, x⟩)) := by
  refine h.toTaken.exec ?_ ((onward_poke _).settled (settled_begun (settled_missed h.settled _ _) _))
  rw [h.handOver_misses miss, joinQueue_idle (v := s.missed m a left fails) idle alone]

end

/-- Settles O18: a sweep makes the transaction wait, and the three misses differ in what the look-up
leaves of the set and in its fault. -/
theorem missBeginsTheWalk : Obligations.MissBeginsTheWalk := by
  intro s m a x i held mine gone misses hs free align mode translating
  have taken : Taken s m a := ⟨hs, free, align⟩
  refine ⟨fun swept => ?_, fun unswept => ?_⟩
  · have swept : (s.inHand m a x).ptu.sweep.coversNow m = true := swept
    have translating : isDirect (s.inHand m a x).blocks.profile m = false := translating
    refine taken.exec ?_ (Settled.set (s := s.fresh) hs m rfl (by simp))
    rw [handOver_operation mode, handToPtu, translating, if_neg (by simp), if_pos swept]
    exact moveTo_setSlot s.fresh m _ _ _
  have h : Looked s m a := ⟨taken, mode, translating, unswept⟩
  have any {left : BufferSet} {fails : Bool} {b : Blocks} {ptu : Ptu}
      (miss : Misses (s.ptu.set m i) (addrTag a) left fails)
      (hb : (if fails then masterFault .entryCheck m a s.blocks else s.blocks) = b)
      (hp : (s.ptu.onSet m i fun _ => left) = ptu) : misses b ptu := by
    subst hb hp
    refine ⟨fun idle alone => ?_, fun busy => h.exec_queued miss busy⟩
    have profile := profile_missed s m a left fails
    have poked := poke_onMp ((s.missed m a left fails).begun m ⟨a, x⟩)
    refine ⟨_, regionRead s m a, h.exec_walks miss idle alone, ⟨?blocks, fun b => ?mem, ?pending⟩,
      ?slots, ?ptu, ?bus, ?answers, toNat_regionEntryAddress _ _, fun busy => ?busy,
      fun ready => ?granted⟩
    case ptu =>
      rw [poked]
      simp only [State.begun, profile]
      rw [← alone]
      rfl
    case busy =>
      rw [poke_of_not_idle (s := (s.missed m a left fails).begun m ⟨a, x⟩) busy]
      rfl
    case granted =>
      rw [mp_begun (v := s.missed m a left fails) ready, regionRead, profile]
      rfl
    all_goals rw [poked]; rfl
  refine ⟨fun hA hB => any (misses_plain hA hB) rfl (onSet_same _ _ _ rfl),
    fun hA fails hB => any (misses_wayA hA fails hB) rfl rfl,
    fun hB fails hA => any (misses_wayB hB fails hA) rfl rfl⟩

/-! ## Completions of the MP's cycles (R5, R9, R25 to R27) -/

section

variable {s : State} {m : Master} {a : Addr} {t : Transaction}

/-- A completed cycle hands its result over and grants the next. -/
theorem complete_eq {hand : State → State} {u : State}
    (handed : hand (s.onMp fun p => { p with cycle := .handing }) = u) :
    complete hand s = grant { u with mp := { u.mp with cycle := .idle } } := by
  rw [complete, handed]
  rfl

theorem forwardDone_eq (cycle : s.mp.cycle = .busy (.forward m)) :
    forwardDone s = complete (fun s => drain (forwardResult m s)) s := by
  simp only [forwardDone, cycle]

theorem regionDone_eq (cycle : s.mp.cycle = .busy (.walkRegion a false)) :
    regionDone s = complete (fun s => regionWord (readWord s.mem a) s) s := by
  simp only [regionDone, cycle, Bool.false_eq_true, if_false]

theorem pageDone_eq (cycle : s.mp.cycle = .busy (.walkPage a false)) :
    pageDone s = complete (fun s => pageWord (readWord s.mem a) s) s := by
  simp only [pageDone, cycle, Bool.false_eq_true, if_false]

theorem sourceDone_eq (cycle : s.mp.cycle = .busy (.source a)) :
    sourceDone s = complete (fun s => s.onBlocks (takeSourceWord (readWord s.mem a))) s := by
  simp only [sourceDone, cycle]

/-- An answer to a master with no bus request leaves a settled port settled. -/
theorem settled_answer (h : s.Settled) (empty : s.bus[m] = []) (ok : Bool) (w : Word) :
    (answer m ok w s).Settled :=
  settled_same (s := s.setSlot m .free) rfl rfl (Settled.free h m empty)

/-- The reads of record memory outside the four bytes of a word are untouched by a write of it. -/
theorem readByte_writeWord_outside (l : List Host.Cell) (a : Addr) (w : Word) (b : Nat)
    (h : ∀ i < 4, b ≠ byteAddress a i) : readByte b (writeWord l a w) = readByte b l :=
  readByte_writeWord_other l a w b fun i hi => (h i hi).symm

end

/-- Settles O20. -/
theorem forwardedCycleTakesEffect : Obligations.ForwardedCycleTakesEffect := by
  intro s m x a k done hs cycle slot empty
  have completed {u : State} (result : forwardResult m (s.fresh.onMp fun p => { p with cycle := .handing })
      = u) (settled : u.Settled) :
      exec .forwardedCycleDone s = .next (grant { u with mp := { u.mp with cycle := .idle } }) := by
    refine congrArg Host.Outcome.next ((forwardDone_eq (s := s.fresh) cycle).trans (complete_eq ?_))
    rw [result, drain_settled settled]
  have slot : (s.fresh.onMp fun p => { p with cycle := .handing }).slot m = .memory x a k := slot
  have settled (l : List Host.Cell) : State.Settled
      { s.fresh.onMp fun p => { p with cycle := .handing } with mem := l } := settled_same rfl rfl hs
  refine ⟨fun w write ok => ⟨?_, readWord_writeWord_same _ _ _ ok,
    readByte_writeWord_outside _ _ _⟩, fun read => ?_⟩
  · exact completed (by rw [forwardResult, slot]; simp only [write]; rfl)
      (settled_answer (settled (writeWord s.mem a w)) empty true allOnes)
  · exact completed (by rw [forwardResult, slot]; simp only [read]; rfl)
      (settled_answer (settled s.mem) empty true _)

/-- Settles O21. -/
theorem walkReadsThePageEntry : Obligations.WalkReadsThePageEntry := by
  intro s a k x st w cycle engine slot valid inRange
  refine ⟨pageEntryAddress (entryPage w) x.address, toNat_pageEntryAddress _ _, ?_⟩
  have handed : regionWord w (s.fresh.onMp fun p => { p with cycle := .handing })
      = (s.fresh.onMp fun p => { p with cycle := .handing }).onPtu fun p =>
          { p with engine := .page k (entryPage w) } := by
    have engine : (s.fresh.onMp fun p => { p with cycle := .handing }).ptu.engine = .region k := engine
    have valid : entryValid w = true := valid
    have inRange : (entryPage w).toNat < k.memoryPages := inRange
    simp only [regionWord, engine, valid, inRange, Bool.not_true, Bool.false_eq_true, if_false, if_true]
  refine congrArg Host.Outcome.next ((regionDone_eq (s := s.fresh) cycle).trans
    ((complete_eq handed).trans (grant_walk ?_)))
  have address : s.slotAddress k.master = x.address := slotAddress_of_slot (by rw [slot]; rfl)
  rw [← address]
  rfl

/-! ### The end of a walk -/

section

variable {s : State} {k : Walk} {x : Transaction} {st : PtuPlace}

theorem walkNext_of_empty (empty : s.ptu.queue = []) : walkNext s = s := by
  unfold walkNext
  rw [empty]
  split
  next h => cases h
  all_goals rfl

theorem endWalk_of_empty (empty : s.ptu.queue = []) :
    endWalk s = s.onPtu fun p => { p with engine := .idle } := walkNext_of_empty empty

/-- A walk that fails while nobody else is queued. -/
theorem failWalk_eq (hs : s.Settled) {m : Master} (slot : (s.slot m).transaction = some x)
    (bus : s.bus[m] = []) (empty : s.ptu.queue = []) (f : FaultKind) :
    failWalk m f s = (refuse m f x.address s).onPtu fun p => { p with engine := .idle } := by
  have ended : endWalk (refuse m f x.address s)
      = (refuse m f x.address s).onPtu fun p => { p with engine := .idle } := endWalk_of_empty empty
  have settled : (refuse m f x.address s).Settled :=
    settled_answer (s := s.onBlocks (masterFault f m x.address)) (settled_same rfl rfl hs) bus _ _
  have ends : ((refuse m f x.address s).onPtu fun p => { p with engine := .idle }).Settled :=
    settled_same rfl rfl settled
  rw [failWalk, slotAddress_of_slot slot, ended, drain_settled ends]

theorem walkedEntry_eq_none {n : Nat} {w : Word}
    (h : n ≤ (w.extractLsb' 0 12).toNat ∨ 4 < (w.extractLsb' 16 3).toNat
      ∨ ((w.extractLsb' 16 3).toNat = 1 ∧ 5 < (w.extractLsb' 13 3).toNat)
      ∨ ((w.extractLsb' 16 3).toNat = 4 ∧ 1 < (w.extractLsb' 13 3).toNat)) :
    walkedEntry n w = none := by
  unfold walkedEntry
  dsimp only
  split
  · rfl
  next kind named =>
    refine if_neg fun allowed => ?_
    obtain ⟨within, channel⟩ := Bool.and_eq_true_iff.mp allowed
    have within : (w.extractLsb' 0 12).toNat < n := of_decide_eq_true within
    have named : windowKindOf (w.extractLsb' 16 3).toNat = some kind := named
    rcases h with beyond | unnamed | ⟨capture, far⟩ | ⟨directive, far⟩
    · omega
    · unfold windowKindOf at named
      split at named
      case h_6 => cases named
      all_goals omega
    · rw [capture] at named
      obtain rfl := Option.some.inj named
      have := of_decide_eq_true channel
      omega
    · rw [directive] at named
      obtain rfl := Option.some.inj named
      have := of_decide_eq_true channel
      omega

/-- A valid word of a PLAIN page within the memory. -/
theorem walkedEntry_plain {n : Nat} {w : Word} (within : (w.extractLsb' 0 12).toNat < n)
    (kind : w.extractLsb' 16 3 = 0) :
    walkedEntry n w = some { readPermit := w.getLsbD 30, writePermit := w.getLsbD 29, kind := .plain,
                             channel := w.extractLsb' 13 3, page := w.extractLsb' 0 12 } := by
  have code : field w 16 3 = 0 := by rw [field, kind]; rfl
  have within : (entryPage w).toNat < n := within
  simp only [walkedEntry, code, windowKindOf, channelAllowed, within, decide_true, Bool.and_self,
    if_true]
  rfl

end

/-- Settles O22. -/
theorem failedWalkIsRefused : Obligations.FailedWalkIsRefused := by
  intro s a k x st w refused hs slot bus empty
  have failed (f : FaultKind) : failWalk k.master f (s.fresh.onMp fun p => { p with cycle := .handing })
      = (refuse k.master f x.address (s.fresh.onMp fun p => { p with cycle := .handing })).onPtu
          fun p => { p with engine := .idle } :=
    failWalk_eq (s := s.fresh.onMp fun p => { p with cycle := .handing }) (settled_same rfl rfl hs)
      (congrArg Slot.transaction slot) bus empty f
  refine ⟨fun cycle engine => ?region, fun tablePage cycle engine => ?page⟩
  case region =>
    have engine : (s.fresh.onMp fun p => { p with cycle := .handing }).ptu.engine = .region k := engine
    have done {f : FaultKind} (fails : regionWord w (s.fresh.onMp fun p => { p with cycle := .handing })
        = failWalk k.master f (s.fresh.onMp fun p => { p with cycle := .handing })) :
        exec .regionReadDone s = .next (refused f) :=
      congrArg Host.Outcome.next ((regionDone_eq (s := s.fresh) cycle).trans
        (complete_eq (fails.trans (failed f))))
    refine ⟨fun invalid => done ?_, fun valid beyond => done ?_⟩
    · have invalid : entryValid w = false := invalid
      simp only [regionWord, engine, invalid, Bool.not_false, if_true]
    · have valid : entryValid w = true := valid
      have beyond : ¬ (entryPage w).toNat < k.memoryPages := Nat.not_lt.mpr beyond
      simp only [regionWord, engine, valid, beyond, Bool.not_true, Bool.false_eq_true, if_false]
  case page =>
    have engine : (s.fresh.onMp fun p => { p with cycle := .handing }).ptu.engine = .page k tablePage :=
      engine
    have done {f : FaultKind} (fails : pageWord w (s.fresh.onMp fun p => { p with cycle := .handing })
        = failWalk k.master f (s.fresh.onMp fun p => { p with cycle := .handing })) :
        exec .pageReadDone s = .next (refused f) :=
      congrArg Host.Outcome.next ((pageDone_eq (s := s.fresh) cycle).trans
        (complete_eq (fails.trans (failed f))))
    refine ⟨fun invalid => done ?_, fun valid beyond => done ?_⟩
    · have invalid : entryValid w = false := invalid
      simp only [pageWord, engine, invalid, Bool.not_false, if_true]
    · have valid : entryValid w = true := valid
      simp only [pageWord, engine, valid, walkedEntry_eq_none beyond, Bool.not_true,
        Bool.false_eq_true, if_false]

/-- Settles O23. -/
theorem successfulWalkFillsAndPasses : Obligations.SuccessfulWalkFillsAndPasses := by
  intro s a k tablePage x st w e filled hs cycle engine slot empty valid within kind permit
  refine ⟨physical e.page (addrOffset x.address), by rw [toNat_physical, toNat_addrOffset], ?_⟩
  let v : State := (s.fresh.onMp fun p => { p with cycle := .handing }).onPtu (fillBuffer k x.address e)
  have engine : (s.fresh.onMp fun p => { p with cycle := .handing }).ptu.engine = .page k tablePage :=
    engine
  have valid : entryValid w = true := valid
  have entry : walkedEntry k.memoryPages w = some e := walkedEntry_plain within kind
  have passed : useEntry k.master x e (v.moveTo k.master .looking)
      = v.setSlot k.master (.memory x (physical e.page (addrOffset x.address)) .plain) := by
    have slot : v.slot k.master = .translating x st := slot
    have allowed : entryRefusal (v.moveTo k.master .looking).blocks.profile k.master e x.access = none := by
      refine entryRefusal_plainPage _ ?_ rfl
      cases access : x.access <;> rw [access] at permit <;> exact permit
    have routed : route k.master x .plain e.channel (physical e.page (addrOffset x.address))
        (v.moveTo k.master .looking)
        = toMemory k.master x (physical e.page (addrOffset x.address)) .plain
            (v.moveTo k.master .looking) := by
      unfold route
      cases x.access <;> rfl
    rw [useEntry, allowed]
    refine routed.trans ?_
    rw [moveTo_translating slot, toMemory, setSlot_setSlot]
    exact poke_of_not_idle (by simp [v])
  have queue : (v.setSlot k.master
      (.memory x (physical e.page (addrOffset x.address)) .plain)).ptu.queue = [] := by
    simp only [v, State.setSlot_ptu, State.onPtu_ptu, fillBuffer]
    split <;> exact empty
  have finished : pageWord w (s.fresh.onMp fun p => { p with cycle := .handing })
      = (v.setSlot k.master (.memory x (physical e.page (addrOffset x.address)) .plain)).onPtu
          fun p => { p with engine := .idle } := by
    have slot : ((s.fresh.onMp fun p => { p with cycle := .handing }).slot k.master).transaction = some x :=
      congrArg Slot.transaction slot
    simp only [pageWord, engine, valid, entry, Bool.not_true, Bool.false_eq_true, if_false, finishWalk,
      slot]
    rw [passed, endWalk_of_empty queue]
    refine drain_settled (settled_same (s := v.setSlot k.master _) rfl rfl ?_)
    exact Settled.set (settled_same (t := v) rfl rfl hs) _ rfl (by simp)
  refine congrArg Host.Outcome.next ((pageDone_eq (s := s.fresh) cycle).trans
    ((complete_eq finished).trans ?_))
  have buffer : v.ptu = if k.areaSwept || k.profileApplied then s.ptu else filled := rfl
  rw [← buffer]
  rfl

end Sys2Proof.Machine

namespace Sys2Proof.Machine

/-! ## The reference clock (R86, R172) -/

section

variable {b : Blocks}

theorem counting_iff (u : Supervisor) : u.counting = true ↔ u.startUp ≠ .causeHolds := by
  simp [Supervisor.counting]

theorem clockRises_counting (h : b.su.startUp ≠ .causeHolds) : clockRises b = tickClock b :=
  if_pos ((counting_iff _).mpr h)

theorem clockRises_held (h : b.su.startUp = .causeHolds) : clockRises b = b :=
  if_neg (mt (counting_iff _).mp (not_not.mpr h))

theorem clockPeriod_held (h : b.su.startUp = .causeHolds) : clockPeriod b = b := by
  simp [clockPeriod, Supervisor.counting, h]

theorem clockPeriod_counts (h : b.su.startUp ≠ .causeHolds) (below : b.su.count + 1 < b.su.divisor) :
    clockPeriod b = b.onSu fun u => { u with count := u.count + 1 } := by
  simp [clockPeriod, Supervisor.counting, h, below]

theorem clockPeriod_rises (h : b.su.startUp ≠ .causeHolds) (last : b.su.divisor ≤ b.su.count + 1) :
    clockPeriod b = tickClock b := by
  simp [clockPeriod, Supervisor.counting, h, last]

/-- With an empty queue a step is one period. -/
theorem step_idle {s : State} (h : s.pending = []) :
    step s = .next { s with answers := [], blocks := clockPeriod s.blocks } := by
  have idle : step s = .next (s.fresh.onBlocks clockPeriod) := by simp only [step, h]
  exact idle

end

/-- Settles O2, by the branches of a period: held before start-up's step 2, counting, and rising. -/
theorem referenceClockCounts : Obligations.ReferenceClockCounts := by
  intro s
  refine ⟨?_, fun none => ⟨fun held => ?_, fun counts below => ?_, fun counts last => ?_⟩,
    fun r later => ?_⟩
  · change Host.Outcome.next ({ s with answers := [], blocks := clockRises s.blocks } : State) = _
    by_cases held : s.blocks.su.startUp = .causeHolds
    · rw [clockRises_held held, if_pos held]
    · rw [clockRises_counting held, if_neg held]
      rfl
  · rw [step_idle none, clockPeriod_held held]
  · rw [step_idle none, clockPeriod_counts counts below]
    rfl
  · rw [step_idle none, clockPeriod_rises counts last]
    rfl
  · refine ⟨fun h => ?_, fun h => ?_, fun h => ?_, fun h => ?_, rfl⟩
    · exact Bool.or_eq_true_iff.mpr (.inl h)
    · exact Bool.or_eq_true_iff.mpr (.inl h)
    · exact Bool.or_eq_true_iff.mpr (.inl h)
    · exact Bool.or_eq_true_iff.mpr (.inl h)

/-! ## The sweep (R31, R33) -/

section

variable {s : State} {q : SweepPosition} {g : SweepTarget}

/-- The state after the set at the sweep position is invalidated. -/
def State.setCleared (s : State) (q : SweepPosition) : State :=
  s.onPtu fun p => p.onSet q.area q.index fun _ => .cleared

theorem sweepStep_stopped (h : s.ptu.sweep.running = false) : sweepStep s = s := by
  simp [sweepStep, h]

theorem sweepStep_moves {n : SweepPosition} (running : s.ptu.sweep.running = true)
    (position : s.ptu.sweep.position = some q) (target : s.ptu.sweep.target = some g)
    (next : g.nextPosition q = some n) :
    sweepStep s = (s.setCleared q).onPtu fun p =>
      { p with sweep := { p.sweep with position := some n } } := by
  simp [sweepStep, running, position, target, next, State.setCleared]

theorem sweepStep_ends (running : s.ptu.sweep.running = true)
    (position : s.ptu.sweep.position = some q) (target : s.ptu.sweep.target = some g)
    (last : g.nextPosition q = none) : sweepStep s = endSweep (s.setCleared q) := by
  simp [sweepStep, running, position, target, last, State.setCleared]

theorem nextPosition_inArea (h : q.index ≠ 15) : g.nextPosition q = some ⟨q.area, q.index + 1⟩ := by
  cases g with
  | area m => exact if_neg h
  | all => exact if_neg h

theorem nextPosition_nextArea (h : q.index = 15) (inner : q.area ≠ 7) :
    SweepTarget.all.nextPosition q = some ⟨q.area + 1, 0⟩ := by
  simp [SweepTarget.nextPosition, h, inner]

theorem nextPosition_last (h : q.index = 15) (last : g ≠ .all ∨ q.area = 7) :
    g.nextPosition q = none := by
  cases g with
  | area m => exact if_pos h
  | all => simp [SweepTarget.nextPosition, h, last.resolve_left (· rfl)]

theorem mastersAt_of_none {p : PtuPlace} (h : ∀ m, (s.slot m).isAt p = false) : s.mastersAt p = [] :=
  List.filter_eq_nil_iff.mpr fun m _ => by simp [h m]

/-- With no transaction waiting for it, the sweep's end hands nothing over. -/
theorem endSweep_alone (hs : s.Settled) (alone : ∀ m, (s.slot m).isAt .sweepWait = false) :
    endSweep s = (s.onPtu fun p => { p with
      sweep := { p.sweep with running := false, position := none, outcome := .done } }).onBlocks
        fun b => b.request .longOpDone := by
  simp only [endSweep, mastersAt_of_none alone, List.foldl_nil]
  exact drain_settled (settled_same (s := s) rfl rfl hs)

end

/-- Settles O25, by where the position stands in its target. -/
theorem sweepStepClearsASet : Obligations.SweepStepClearsASet := by
  intro s q g
  refine ⟨fun stopped => ?_, fun running position target => ⟨fun inner => ?_, fun edge all inner => ?_,
    fun edge last hs alone => ?_⟩, set_onSet_same _ _ _ _, fun m i => set_onSet_other _ _⟩
  · exact congrArg Host.Outcome.next (sweepStep_stopped (s := s.fresh) stopped)
  · exact congrArg Host.Outcome.next
      (sweepStep_moves (s := s.fresh) running position target (nextPosition_inArea inner))
  · subst all
    exact congrArg Host.Outcome.next
      (sweepStep_moves (s := s.fresh) running position target (nextPosition_nextArea edge inner))
  · refine congrArg Host.Outcome.next
      ((sweepStep_ends (s := s.fresh) running position target (nextPosition_last edge last)).trans ?_)
    exact endSweep_alone (settled_same (s := s) rfl rfl hs) alone

/-! ## The Journal Writer and the source reader (R10, R170, R171, R175) -/

section

variable {s : State} {a : Addr} {d : Word} {e : JournalEntry} {rest : List JournalEntry}

theorem journalDone_eq {x : Bool} (cycle : s.mp.cycle = .busy (.journal a d x)) :
    journalDone s = complete (fun s =>
      let s := { s with mem := writeWord s.mem a d }
      if x then s else journalEmptied (s.onBlocks journalWordWritten)) s := by
  simp only [journalDone, cycle]

/-- A journal cycle marked discarded stores its word and advances nothing (R171). -/
theorem journalDone_discarded (cycle : s.mp.cycle = .busy (.journal a d true)) :
    journalDone s = grant { s with
      mem := writeWord s.mem a d, mp := { s.mp with cycle := .idle } } := by
  rw [journalDone_eq cycle]
  exact complete_eq rfl

theorem journalDone_written (cycle : s.mp.cycle = .busy (.journal a d false)) {b : Blocks}
    (written : journalWordWritten s.blocks = b) :
    journalDone s = grant { s with
      mem := writeWord s.mem a d
      blocks := b
      mp := { s.mp with
        cycle := .idle, waitCount := if b.csu.journal = [] then 0 else s.mp.waitCount } } := by
  rw [journalDone_eq cycle]
  refine (complete_eq (u := journalEmptied { s with
    mem := writeWord s.mem a d, blocks := b, mp := { s.mp with cycle := .handing } }) ?_).trans ?_
  · subst written
    rfl
  · cases left : b.csu.journal with
    | nil => simp [journalEmptied, left, State.onMp]
    | cons => simp [journalEmptied, left]

theorem journalWordWritten_inRecord {b : Blocks} (journal : b.csu.journal = e :: rest)
    (inner : e.next ≠ 7) :
    journalWordWritten b = b.onCsu fun c => { c with
      journal := { e with next := e.next + 1 } :: rest } := by
  simp only [journalWordWritten, journal, inner, if_false]

theorem journalWordWritten_last {b : Blocks} (journal : b.csu.journal = e :: rest)
    (last : e.next = 7) :
    journalWordWritten b = advanceIndex (b.onCsu fun c => { c with journal := rest }) := by
  simp only [journalWordWritten, journal, last, if_true]

theorem advanceIndex_eq (b : Blocks) :
    let within := b.csu.writeIndex.toNat + 1 < journalCount b.profile
    advanceIndex b = b.onCsu fun c => { c with
      writeIndex := if within then c.writeIndex + 1 else 0
      wrapCount := if within then c.wrapCount else c.wrapCount + 1 } := by
  intro within
  by_cases h : within
  · simp only [advanceIndex, Blocks.onCsu, h]
    rw [if_pos h]
    rfl
  · simp only [advanceIndex, Blocks.onCsu, h]
    rw [if_neg h]
    rfl

theorem journalRequest_idle (idle : s.mp.cycle = .idle) (journal : s.blocks.csu.journal = e :: rest) :
    s.journalRequest = some (.journal (journalAddress s.blocks e.next) (e.words[e.next]) false) := by
  simp [State.journalRequest, idle, CycleState.journalWord, journal]

theorem sourceRequest_idle {b : ProgramBuffer} (idle : s.mp.cycle = .idle)
    (reading : s.blocks.su.storeState = .reading b) :
    s.sourceRequest = some (.source (b.source + BitVec.ofNat 24 (4 * b.words.length))) := by
  simp [State.sourceRequest, idle, CycleState.sourceWord, reading]

theorem takeSourceWord_reading {b : Blocks} {p : ProgramBuffer} (w : Word)
    (reading : b.su.storeState = .reading p) :
    takeSourceWord w b = b.onSu fun u => { u with
      storeState := if p.words.length + 1 < p.count then .reading { p with words := p.words ++ [w] }
        else .programming { p with words := p.words ++ [w] } } := by
  simp [takeSourceWord, Blocks.onSu, reading]

end

/-- Settles O26. -/
theorem journalWordIsWritten : Obligations.JournalWordIsWritten := by
  intro s a d e rest
  refine ⟨fun cycle => ?_, fun cycle journal inner => ?_, fun cycle journal last => ?_,
    fun ok => readWord_writeWord_same _ _ _ ok,
    fun _ => readByte_writeWord_outside _ _ _, fun idle journal => ?_⟩
  · exact congrArg Host.Outcome.next (journalDone_discarded (s := s.fresh) cycle)
  · exact congrArg Host.Outcome.next
      (journalDone_written (s := s.fresh) cycle (journalWordWritten_inRecord journal inner))
  · exact congrArg Host.Outcome.next (journalDone_written (s := s.fresh) cycle
      ((journalWordWritten_last journal last).trans (advanceIndex_eq _)))
  · exact ⟨_, journalRequest_idle idle journal, BitVec.toNat_ofNat ..⟩

/-- Settles O27. -/
theorem sourceWordJoinsTheBuffer : Obligations.SourceWordJoinsTheBuffer := by
  intro s a b full reading
  refine ⟨fun cycle => congrArg Host.Outcome.next ?_, fun idle => ?_⟩
  · rw [sourceDone_eq (s := s.fresh) cycle]
    refine complete_eq (u := { s with
      answers := [], mp := { s.mp with cycle := .handing }, blocks := { s.blocks with su := { s.blocks.su with
        storeState := if b.words.length + 1 < b.count then .reading full else .programming full } } }) ?_
    exact congrArg (fun b => ({ s with
      answers := [], mp := { s.mp with cycle := .handing }, blocks := b } : State))
      (takeSourceWord_reading _ reading)
  · refine ⟨_, sourceRequest_idle idle reading, ?_⟩
    simp [BitVec.toNat_add, BitVec.toNat_ofNat]

/-! ## The Profile Store's operations (R175, R176) -/

section

/-- Fewer than 17 words from a word upwards reach no word twice. -/
theorem programWords_outside (k i : Fin 16) (ws : List Word) (p : Page)
    (h : ws.length ≤ (k - i).val) : (programWords i ws p)[k] = p[k] := by
  induction ws generalizing i p with
  | nil => rfl
  | cons w ws ih =>
    have apart : (k - (i + 1)).val + 1 = (k - i).val := by
      simp only [List.length_cons] at h
      omega
    have other : i.val ≠ k.val := by
      simp only [List.length_cons] at h
      omega
    rw [programWords, ih _ _ (by simp only [List.length_cons] at h; omega)]
    exact Vector.getElem_set_ne _ _ other

theorem programWords_inside (i k : Fin 16) (ws : List Word) (p : Page) (short : ws.length ≤ 16)
    (h : (k - i).val < ws.length) : (programWords i ws p)[k] = p[k] &&& ws[(k - i).val] := by
  induction ws generalizing i p with
  | nil => exact absurd h (Nat.not_lt_zero _)
  | cons w ws ih =>
    simp only [List.length_cons] at short h
    by_cases first : k = i
    · subst first
      rw [programWords, programWords_outside _ _ _ _ (by omega)]
      simp
    · have apart : (k - i).val = (k - (i + 1)).val + 1 := by omega
      have other : i.val ≠ k.val := by omega
      rw [programWords, ih (i + 1) _ (by omega) (by omega)]
      congr 1
      · exact Vector.getElem_set_ne _ _ other
      · simp only [apart, List.getElem_cons_succ]

theorem finishProgram_eq {b : Blocks} {p : ProgramBuffer} (h : b.su.storeState = .programming p) :
    finishProgram b
      = storeDone p.page (programWords p.startWord p.words) (.programmed p.page) b := by
  simp only [finishProgram, h]

theorem finishErase_eq {b : Blocks} {p : Fin 5} (h : b.su.storeState = .erasing p) :
    finishErase b = storeDone p (fun _ => erasedPage) (.erased p) b := by
  simp only [finishErase, h]

end

/-- Settles O28. -/
theorem storeOperationsComplete : Obligations.StoreOperationsComplete := by
  intro s done
  refine ⟨fun b programming short => ?_, fun p erasing => ?_⟩
  · let page := programWords b.startWord b.words s.blocks.su.store[b.page]
    refine ⟨s.blocks.su.store.set b.page page, ?_, fun p other => ?_, fun i inside => ?_,
      fun i outside => ?_⟩
    · refine congrArg (fun b => Host.Outcome.next ({ s with answers := [], blocks := b } : State))
        (finishProgram_eq programming)
    · exact Vector.getElem_set_ne _ _ (Fin.val_ne_of_ne other).symm
    · simp only [Pages.word, Fin.getElem_fin, Vector.getElem_set_self]
      have back : (b.startWord + i - b.startWord).val = i.val := by rw [add_sub_cancel_left]
      rw [← Fin.getElem_fin, programWords_inside _ _ _ _ short (back ▸ inside)]
      simp only [back]
      rfl
    · simp only [Pages.word, Fin.getElem_fin, Vector.getElem_set_self]
      refine programWords_outside _ _ _ _ ?_
      rw [add_sub_cancel_left]
      exact outside
  · exact congrArg (fun b => Host.Outcome.next ({ s with answers := [], blocks := b } : State))
      (finishErase_eq erasing)

end Sys2Proof.Machine

namespace Sys2Proof.Machine

/-! ## The commands' mode test (R161) -/

section

variable {s : State} {m : Master} {tag code : BitVec 8} {taken : Mode → Bool}

/-- A command in a mode that does not take it records WRONG_MODE and does nothing else. -/
theorem takeCommand_wrongMode (no : taken s.blocks.su.mode = false) (owner : State → Result × State) :
    takeCommand m tag code taken owner s = s.act (recordResult m tag code .wrongMode) := by
  have no : taken s.mode = false := no
  simp only [takeCommand, no, Bool.false_eq_true, if_false]

theorem commandEvent_running (running : s.blocks.su.mode ≠ .startUp) (f : State → State) :
    commandEvent f s = .next (f s.fresh) :=
  congrArg Host.Outcome.next (if_pos (inEvery_of_ne_startUp running))

theorem commandEvent_wrongMode (running : s.blocks.su.mode ≠ .startUp)
    (no : taken s.blocks.su.mode = false) (owner : State → Result × State) :
    commandEvent (takeCommand m tag code taken owner) s
      = .next (s.became (recordResult m tag code .wrongMode s.blocks)) := by
  rw [commandEvent_running running, takeCommand_wrongMode (s := s.fresh) no]
  rfl

/-- A command that its mode takes, of an owner that acts in the blocks alone. -/
theorem commandEvent_owner (running : s.blocks.su.mode ≠ .startUp)
    (yes : taken s.blocks.su.mode = true) {f : Blocks → Result × Blocks} {r : Result} {b : Blocks}
    (owner : f s.blocks = (r, b)) :
    commandEvent (takeCommand m tag code taken (ownerOf f)) s
      = .next (s.became (recordResult m tag code r b)) := by
  have yes : taken s.fresh.mode = true := yes
  have acts : ownerOf f s.fresh = (r, { s.fresh with blocks := b }) := by
    simp [ownerOf, owner]
  rw [commandEvent_running running]
  simp only [takeCommand, yes, acts, if_true]
  rfl

theorem settled_became (h : s.Settled) (b : Blocks) : (s.became b).Settled :=
  (onward_poke _).settled (settled_same (s := s) rfl rfl h)

theorem exec_enterBypass_wrongMode (running : s.blocks.su.mode ≠ .startUp)
    (no : inService s.blocks.su.mode = false) (hs : s.Settled) :
    exec (.enterBypass m tag) s
      = .next (s.became (recordResult m tag 0x03 .wrongMode s.blocks)) := by
  refine (commandEvent_running running fun s => drain (doEnterBypass m tag s)).trans ?_
  rw [doEnterBypass, takeCommand_wrongMode (s := s.fresh) no]
  exact congrArg Host.Outcome.next (drain_settled (settled_became hs _))

end

/-- Settles O47: each row is the one refusal, by the mode's place in its row of Table 9-2. -/
theorem wrongModeIsRefused : Obligations.WrongModeIsRefused := by
  intro s m tag mode refused
  have outsideService (h : mode = .bypass ∨ mode = .active) :
      mode ≠ .startUp ∧ inService mode = false := by rcases h with h | h <;> rw [h] <;> decide
  have outsideActive (h : mode = .bypass ∨ mode = .service) :
      mode ≠ .startUp ∧ inActive mode = false := by rcases h with h | h <;> rw [h] <;> decide
  have active (h : mode = .active) : mode ≠ .startUp ∧ inApply mode = false := by rw [h]; decide
  have bypass (h : mode = .bypass) : mode ≠ .startUp ∧ inOperation mode = false := by rw [h]; decide
  refine ⟨fun h => ?_, fun h => ?_, fun h => ?_, fun h => ?_⟩
  · obtain ⟨running, no⟩ := outsideService h
    exact ⟨commandEvent_wrongMode running no _, exec_enterBypass_wrongMode running no⟩
  · obtain ⟨running, no⟩ := outsideActive h
    exact ⟨commandEvent_wrongMode running no _, fun _ => commandEvent_wrongMode running no _,
      fun _ => commandEvent_wrongMode running no _⟩
  · obtain ⟨running, no⟩ := active h
    exact commandEvent_wrongMode running no _
  · obtain ⟨running, no⟩ := bypass h
    exact ⟨fun _ => commandEvent_wrongMode running no _, fun _ => commandEvent_wrongMode running no _,
      fun _ => commandEvent_wrongMode running no _, fun _ => commandEvent_wrongMode running no _,
      fun _ => commandEvent_wrongMode running no _, fun _ => commandEvent_wrongMode running no _⟩

/-! ## The events and the Fault Log (R163, R164, R167, R168) -/

/-- Every position of a flag set is a flag's (11.3). -/
theorem exists_flag_index : ∀ i : Fin 13, ∃ f ∈ [Flag.lane, .overload, .spanLock, .defied, .unmatched,
    .overdue, .unwarned, .tableFull, .directiveOverflow, .fault, .journalLost, .longOpDone,
    .supplyWarn], f.index = i.val := by decide

theorem attn_iff (b : Blocks) :
    b.attn = true ↔ ∃ f : Flag, b.flagSet f = true ∧ b.flagEnabled f = true := by
  constructor
  · intro on
    by_contra none
    refine of_decide_eq_true on (BitVec.eq_of_getLsbD_eq fun i hi => ?_)
    obtain ⟨f, -, place⟩ := exists_flag_index ⟨i, hi⟩
    have notBoth : ¬ (b.flagSet f = true ∧ b.flagEnabled f = true) := fun both => none ⟨f, both⟩
    rw [Blocks.flagSet, Blocks.flagEnabled, place] at notBoth
    simpa [BitVec.getLsbD_and] using notBoth
  · rintro ⟨f, isSet, enabled⟩
    refine decide_eq_true fun zero => ?_
    have bit := congrArg (·.getLsbD f.index) zero
    rw [Blocks.flagSet] at isSet
    rw [Blocks.flagEnabled] at enabled
    simp [BitVec.getLsbD_and, isSet, enabled] at bit

/-- Settles O48. -/
theorem eventAndFaultCommands : Obligations.EventAndFaultCommands := by
  intro s m tag names c done after
  refine ⟨fun running => ⟨?_, ?_, ?_⟩, attn_iff _, rfl, rfl, rfl, rfl⟩
  · exact commandEvent_inEvery running (f := always (clearFlags names)) rfl
  · exact commandEvent_inEvery running (f := always (setEnables names)) rfl
  · exact commandEvent_inEvery running (f := always clearFaultLog) rfl

theorem faultPopWord_eq (b : Blocks) :
    faultPopWord b
      = BitVec.ofNat 32 (b.csu.faultLog.length % 16) ||| (if b.csu.overrun then 0x100 else 0) := by
  have count : place b.csu.faultLog.length 0 4 = BitVec.ofNat 32 (b.csu.faultLog.length % 16) :=
    congrArg (BitVec.ofNat 32) (Nat.mul_one (b.csu.faultLog.length % 16))
  rw [faultPopWord, count]
  cases b.csu.overrun <;> rfl

theorem popFault_empty {b : Blocks} (h : b.csu.faultLog = []) :
    popFault b = { b with csu := { b.csu with faultLog := [], holding := none } } := by
  simp only [popFault, Blocks.onCsu, h]

theorem popFault_cons {b : Blocks} {f : FaultRecord} {rest : List FaultRecord}
    (h : b.csu.faultLog = f :: rest) :
    popFault b = { b with csu := { b.csu with faultLog := rest, holding := some f } } := by
  simp only [popFault, Blocks.onCsu, h]

theorem holdingWord_eq (f : FaultRecord → Word) (b : Blocks) :
    holdingWord f b = (b.csu.holding.map f).getD 0 := by
  unfold holdingWord
  split <;> rename_i e <;> rw [e] <;> rfl

/-- Settles O46. -/
theorem faultPopTakesTheOldest : Obligations.FaultPopTakesTheOldest := by
  intro s m c word popped
  refine ⟨fun running => ⟨fun empty => ?_, fun f rest log => ?_⟩, fun starting => ?_,
    fun log pair => ⟨congrArg some (holdingWord_eq _ _), congrArg some (holdingWord_eq _ _)⟩⟩
  · rw [exec_faultPop (inEvery_of_ne_startUp running), faultPopWord_eq, popFault_empty empty]
    rfl
  · rw [exec_faultPop (inEvery_of_ne_startUp running), faultPopWord_eq, popFault_cons log]
    rfl
  · exact congrArg Host.Outcome.next
      (if_neg (show ¬ inEvery s.blocks.su.mode = true by rw [starting]; decide))

/-! ## INVALIDATE_AREA (R30) -/

section

variable {s : State} {m : Master} {tag area : BitVec 8} {g : SweepTarget}

theorem exec_invalidateArea (operating : s.blocks.su.mode = .service ∨ s.blocks.su.mode = .active)
    {r : Result} {p : Ptu} (owner : invalidate area s.fresh = (r, { s.fresh with ptu := p })) :
    exec (.invalidateArea m tag area) s = .next (poke { s with
      answers := [], ptu := p, blocks := recordResult m tag 0x07 r s.blocks }) := by
  have running : s.blocks.su.mode ≠ .startUp := by rcases operating with h | h <;> rw [h] <;> decide
  have yes : inOperation s.fresh.mode = true := by
    change inOperation s.blocks.su.mode = true
    rcases operating with h | h <;> rw [h] <;> rfl
  refine (commandEvent_running running _).trans ?_
  simp only [doInvalidateArea, takeCommand, yes, owner, if_true]
  rfl

theorem sweepTargetOf_area {k : Master} (h : area.toNat = k.val) :
    sweepTargetOf area = some (.area k) := by
  have low : area.toNat < 8 := by omega
  simp [sweepTargetOf, h]

theorem sweepTargetOf_all (h : area = 0xFF) : sweepTargetOf area = some .all := by subst h; rfl

theorem sweepTargetOf_none (high : 7 < area.toNat) (other : area ≠ 0xFF) :
    sweepTargetOf area = none := by
  have : ¬ area.toNat < 8 := by omega
  rw [sweepTargetOf, dif_neg this, if_neg other]

theorem invalidate_none (h : sweepTargetOf area = none) : invalidate area s = (.badOperand, s) := by
  simp only [invalidate, h]

theorem invalidate_busy (h : sweepTargetOf area = some g) (running : s.ptu.sweep.running = true) :
    invalidate area s = (.busy, s) := by
  simp only [invalidate, h, running, if_true]

theorem invalidate_started (h : sweepTargetOf area = some g) (stopped : s.ptu.sweep.running = false) :
    invalidate area s = (.started, { s with ptu := startSweep g s.ptu }) := by
  simp only [invalidate, h, stopped, Bool.false_eq_true, if_false]
  rfl

theorem covers_iff (g : SweepTarget) (m : Master) :
    g.covers m = true ↔ g = .all ∨ g = .area m := by
  cases g with
  | all => simp [SweepTarget.covers]
  | area a => simp [SweepTarget.covers]

/-- The start of a sweep, with the walk of a covered area marked. -/
theorem startSweep_eq (g : SweepTarget) (p : Ptu) :
    let marked (w : Walk) : Walk :=
      if g = .all ∨ g = .area w.master then { w with areaSwept := true } else w
    startSweep g p = { p with
      sweep := { p.sweep with running := true, target := some g, position := some ⟨g.first, 0⟩ }
      engine := match p.engine with
        | .idle => .idle
        | .region w => .region (marked w)
        | .page w t => .page (marked w) t } := by
  intro marked
  have same (w : Walk) : (if g.covers w.master then { w with areaSwept := true } else w) = marked w :=
    if_congr (covers_iff g w.master) rfl rfl
  unfold startSweep
  cases p.engine with
  | idle => rfl
  | region w => simp only [Engine.onWalk, same]
  | page w t => simp only [Engine.onWalk, same]

end

/-- Settles O53. -/
theorem invalidateAreaStartsTheSweep : Obligations.InvalidateAreaStartsTheSweep := by
  intro s m tag area after started operating
  have starts {g : SweepTarget} (target : sweepTargetOf area = some g)
      (stopped : s.ptu.sweep.running = false) :
      exec (.invalidateArea m tag area) s = .next (after .started (started g g.first)) := by
    refine (exec_invalidateArea operating (invalidate_started target stopped)).trans ?_
    rw [startSweep_eq]
    rfl
  refine ⟨fun high other => ?_, fun named running => ?_, fun k h => starts (sweepTargetOf_area h),
    fun h => starts (sweepTargetOf_all h)⟩
  · exact exec_invalidateArea operating (p := s.ptu) (invalidate_none (sweepTargetOf_none high other))
  · obtain ⟨g, target⟩ : ∃ g, sweepTargetOf area = some g := by
      rcases named with low | all
      · exact ⟨_, sweepTargetOf_area (k := ⟨area.toNat, by omega⟩) rfl⟩
      · exact ⟨_, sweepTargetOf_all all⟩
    exact exec_invalidateArea operating (p := s.ptu) (invalidate_busy target running)

/-! ## Holds, the settle interval and the supply watch (R154, R156, R179, R183) -/

section

variable {b : Blocks} {x : Approach}

theorem reachHoldEnd_reached {h : BeaconHold} (hold : b.du.hold.at x = some h)
    (now : reached b.now h.expiry = true) :
    reachHoldEnd x b = evalBeacons { b with du := { b.du with hold := b.du.hold.put x none } } := by
  simp only [reachHoldEnd, hold, Option.any_some, now, if_true]
  rfl

theorem reachHoldEnd_early (early : ∀ h, b.du.hold.at x = some h → reached b.now h.expiry = false) :
    reachHoldEnd x b = b := by
  refine if_neg ?_
  cases hold : b.du.hold.at x with
  | none => simp
  | some h => simp [early h hold]

theorem reachSettle_reached {e : Time} (active : b.su.mode = .active)
    (expiry : b.su.settleExpiry = some e) (now : reached b.now e = true) :
    reachSettle b = noticeSettled (b.onSu fun u => { u with settleExpiry := none }) := by
  simp only [reachSettle, active, expiry, Option.any_some, now, decide_true, Bool.and_self, if_true]

theorem reachSettle_early (h : b.su.mode ≠ .active ∨ b.su.settleExpiry.any (reached b.now) = false) :
    reachSettle b = b := by
  refine if_neg ?_
  rcases h with h | h
  · simp [h]
  · simp [h]

theorem crossSupply_warns {before : Supply} (supply : b.su.supply = before)
    (running : b.su.startUp = .over) :
    crossSupply before .warning b
      = noticeSupply true ((b.onSu fun u => { u with supply := .warning }).request .supplyWarn) := by
  simp only [crossSupply, supply, running, ne_eq, not_true, if_false]

theorem crossSupply_returns {before : Supply} (supply : b.su.supply = before)
    (running : b.su.startUp = .over) :
    crossSupply before .normal b = noticeSupply false (b.onSu fun u => { u with supply := .normal }) := by
  simp only [crossSupply, supply, running, ne_eq, not_true, if_false]

theorem crossSupply_starting {before after : Supply} {mode : Mode} (supply : b.su.supply = before)
    (chosen : b.su.startUp = .chosen mode) :
    crossSupply before after b = b.onSu fun u => { u with supply := after } := by
  simp only [crossSupply, supply, chosen, ne_eq, not_true, if_false]

theorem crossSupply_other {before after : Supply}
    (h : b.su.supply ≠ before ∨ b.su.startUp = .causeHolds) : crossSupply before after b = b := by
  rcases h with h | h
  · simp only [crossSupply, h, ne_eq, not_false_eq_true, if_true]
  · simp only [crossSupply, h, ite_self]

theorem crossSupply_evaluated {before after : Supply} (supply : b.su.supply = before)
    (running : b.su.startUp = .over) :
    let warning := decide (after = .warning)
    Evaluated allLanes { b with
      su := { b.su with supply := after }
      du := { b.du with inputs := { b.du.inputs with supplyWarning := warning } }
      csu := { b.csu with flags :=
        if warning then b.csu.flags ||| Flag.supplyWarn.bit else b.csu.flags } }
      (crossSupply before after b) := by
  intro warning
  cases after with
  | warning =>
    rw [crossSupply_warns supply running]
    exact notice_evaluated _ allLanes_nodup (fun i => { i with supplyWarning := true })
      ((b.onSu fun u => { u with supply := .warning }).request .supplyWarn)
  | normal =>
    rw [crossSupply_returns supply running]
    exact notice_evaluated _ allLanes_nodup (fun i => { i with supplyWarning := false })
      (b.onSu fun u => { u with supply := .normal })

end

/-- Settles O45. -/
theorem holdAndSettleIntervalEnd : Obligations.HoldAndSettleIntervalEnd := by
  intro s x b ended
  let inside (c : Blocks) : Host.Outcome State Fault Refusal := .next { s with answers := [], blocks := c }
  refine ⟨fun h hold now => ?_, fun early => ?_, fun e active expiry now => ?_, fun early => ?_⟩
  · exact congrArg inside (reachHoldEnd_reached hold now)
  · exact congrArg inside (reachHoldEnd_early early)
  · refine ⟨_, congrArg inside (reachSettle_reached active expiry now), ?_⟩
    exact notice_evaluated _ allLanes_nodup (fun i => { i with settling := false })
      (b.onSu fun u => { u with settleExpiry := none })
  · exact congrArg inside (reachSettle_early early)

/-- Settles O60: both rows are one crossing. -/
theorem supplyCrossingIsTold : Obligations.SupplyCrossingIsTold := by
  intro s i before after b moved warning row
  have crossing : Machine.exec i s
      = .next { s with answers := [], blocks := crossSupply before after b } := by
    rcases row with ⟨rfl, rfl, rfl⟩ | ⟨rfl, rfl, rfl⟩ <;> rfl
  rw [crossing]
  let inside (c : Blocks) : Host.Outcome State Fault Refusal := .next { s with answers := [], blocks := c }
  refine ⟨fun supply running => ⟨_, rfl, crossSupply_evaluated supply running⟩,
    fun mode supply chosen => ?_, fun other => ?_⟩
  · exact congrArg inside (crossSupply_starting supply chosen)
  · exact congrArg inside (crossSupply_other other)

/-! ## Reset and start-up at the SU (R15, R172, R177, R182) -/

section

variable {s : State}

/-- Every held transaction of the masters listed is answered REFUSED, in their order, and their slots
are FREE. -/
theorem answerAll_eq (ms : List Master) (s : State) :
    ms.foldl (fun s m => answer m false allOnes s) s = { s with
      slots := ms.foldl (fun v (m : Master) => v.set m .free) s.slots
      answers := s.answers ++ ms.map fun m => { master := m, okay := false, data := 0xFFFFFFFF } } := by
  induction ms generalizing s with
  | nil => simp
  | cons m ms ih =>
    rw [List.foldl_cons, ih]
    simp [answer, State.setSlot, allOnes]

theorem getElem_freeAll (ms : List Master) (v : Vector Slot 8) (m : Master) :
    (ms.foldl (fun v (m : Master) => v.set m .free) v)[m] = if m ∈ ms then .free else v[m] := by
  induction ms generalizing v with
  | nil => simp
  | cons k ms ih =>
    rw [List.foldl_cons, ih]
    by_cases tail : m ∈ ms
    · simp [tail]
    · by_cases head : m = k
      · subst head
        simp [tail]
      · simp [tail, head, Fin.val_ne_of_ne (Ne.symm head)]

theorem transaction_isSome_iff (y : Slot) : y.transaction.isSome = true ↔ y ≠ .free := by
  cases y <;> simp [Slot.transaction]

theorem holders_eq (s : State) : s.holders = allMasters.filter fun m => s.slot m ≠ .free :=
  List.filter_congr fun m _ => by
    rw [Bool.eq_iff_iff, transaction_isSome_iff, decide_eq_true_iff]

/-- With its holders answered, a port holds nothing. -/
theorem freeAll_holders (s : State) :
    s.holders.foldl (fun v (m : Master) => v.set m .free) s.slots = Vector.replicate 8 .free := by
  refine Vector.ext fun i hi => ?_
  have each := getElem_freeAll s.holders s.slots ⟨i, hi⟩
  simp only [Fin.getElem_fin] at each
  rw [each, Vector.getElem_replicate]
  split
  · rfl
  · rename_i free
    have all : (⟨i, hi⟩ : Master) ∈ allMasters :=
      (show ∀ m : Master, m ∈ allMasters by decide) _
    rw [holders_eq, List.mem_filter, decide_eq_true_iff] at free
    exact not_not.mp fun held => free ⟨all, held⟩

/-- A reset with no bus request untaken. -/
theorem resetEvent_eq (cause : ResetCause) (quiet : ∀ m : Master, s.bus[m] = []) :
    resetEvent cause s.fresh = { s with
      slots := Vector.replicate 8 .free
      answers := (allMasters.filter fun m => s.slot m ≠ .free).map fun m =>
        { master := m, okay := false, data := 0xFFFFFFFF }
      mp := .reset, ptu := .reset, blocks := resetBlocks cause s.blocks } := by
  have held : s.fresh.holders = s.holders := rfl
  have slots : s.fresh.slots = s.slots := rfl
  have none : s.fresh.answers = [] := rfl
  simp only [resetEvent, answerAll_eq, held, slots, none, freeAll_holders, List.nil_append]
  rw [holders_eq]
  refine drain_settled fun m => ⟨?_, fun _ => quiet m⟩
  simp [State.slot, Slot.isAt]

/-! ### The store at a reset -/

variable {lands : Nat → Bool}

/-- Words that an operation cut off was not to change keep their values. -/
theorem cutWords_outside (k i : Fin 16) (n : Nat) (fs : List (Word → Word)) (p : Page)
    (h : fs.length ≤ (k - i).val) : (cutWords lands i n fs p)[k] = p[k] := by
  induction fs generalizing i n p with
  | nil => rfl
  | cons f fs ih =>
    simp only [List.length_cons] at h
    have apart : (k - (i + 1)).val + 1 = (k - i).val := by omega
    have other : i.val ≠ k.val := by omega
    rw [cutWords, ih _ _ _ (by omega)]
    exact Vector.getElem_set_ne _ _ other

/-- A word that an operation cut off was changing holds its old or its new value (R177). -/
theorem cutWords_oldOrNew (k i : Fin 16) (n : Nat) (fs : List (Word → Word)) (p : Page)
    (short : fs.length ≤ 16) :
    (cutWords lands i n fs p)[k] = p[k]
      ∨ ∃ h : (k - i).val < fs.length, (cutWords lands i n fs p)[k] = fs[(k - i).val] p[k] := by
  induction fs generalizing i n p with
  | nil => exact .inl rfl
  | cons f fs ih =>
    simp only [List.length_cons] at short
    by_cases first : k = i
    · subst first
      rw [cutWords, cutWords_outside _ _ _ _ _ (by omega)]
      have zero : (k - k).val = 0 := by rw [sub_self]; rfl
      have here : (f :: fs)[(k - k).val]'(by simp) = f := by
        simp only [zero, List.getElem_cons_zero]
      by_cases landed : lands n = true
      · exact .inr ⟨by simp, by simp [landed, here]⟩
      · exact .inl (by simp [landed])
    · have other : i.val ≠ k.val := by omega
      have kept : (p.set i (if lands n then f p[i] else p[i]))[k] = p[k] :=
        Vector.getElem_set_ne _ _ other
      rw [cutWords]
      rcases ih (i + 1) (n + 1) (p.set i (if lands n then f p[i] else p[i])) (by omega)
        with old | ⟨inside, new⟩
      · exact .inl (old.trans kept)
      · have apart : (k - i).val = (k - (i + 1)).val + 1 := by omega
        refine .inr ⟨by simp only [List.length_cons]; omega, ?_⟩
        rw [new, kept]
        exact congrFun (by simp only [apart, List.getElem_cons_succ]) _

/-- A cut store has changed in the store and the count of free values alone. -/
theorem cutStore_eq (u : Supervisor) : cutStore lands u = { u with
    store := (cutStore lands u).store, freeCount := (cutStore lands u).freeCount } := by
  unfold cutStore
  split <;> rfl

theorem word_set_same (v : Pages) (p : Fin 5) (g : Page) (w : Fin 16) :
    Pages.word (v.set p g) p w = g[w] := by
  simp [Pages.word]

theorem word_set_other (v : Pages) {p q : Fin 5} (h : p ≠ q) (g : Page) (w : Fin 16) :
    Pages.word (v.set q g) p w = v.word p w := by
  simp [Pages.word, Fin.val_ne_of_ne h.symm]

/-- What a reset makes of each word of the store. -/
theorem cutStore_word (u : Supervisor) (p : Fin 5) (w : Fin 16) :
    (cutStore lands u).store.word p w = u.store.word p w
      ∨ (∃ b : ProgramBuffer, u.storeState = .programming b ∧ p = b.page
          ∧ (b.words.length ≤ 16 → ∃ k : Fin 16, w = b.startWord + k
            ∧ ∃ h : k.val < b.words.length,
              (cutStore lands u).store.word p w = u.store.word p w &&& b.words[k]))
      ∨ (u.storeState = .erasing p ∧ (cutStore lands u).store.word p w = 0xFFFFFFFF) := by
  unfold cutStore
  split
  case h_1 | h_2 => exact .inl rfl
  case h_3 b programming =>
    by_cases page : p = b.page
    · subst page
      by_cases same : Pages.word (u.store.set b.page (cutWords lands b.startWord u.freeCount
          (b.words.map fun w x => x &&& w) u.store[b.page])) b.page w = u.store.word b.page w
      · exact .inl same
      · refine .inr (.inl ⟨b, programming, rfl, fun short => ⟨w - b.startWord, by abel, ?_⟩⟩)
        rw [word_set_same] at same ⊢
        rcases cutWords_oldOrNew (lands := lands) w b.startWord u.freeCount
          (b.words.map fun w x => x &&& w) u.store[b.page] (by simpa using short) with old | ⟨inside, new⟩
        · exact absurd old same
        · refine ⟨by simpa using inside, new.trans ?_⟩
          simp [Pages.word]
    · exact .inl (word_set_other _ page _ _)
  case h_4 page erasing =>
    by_cases same : p = page
    · subst same
      rw [word_set_same]
      rcases cutWords_oldOrNew (lands := lands) w 0 u.freeCount
        (List.replicate 16 fun _ => 0xFFFFFFFF) u.store[p] (by simp) with old | ⟨inside, new⟩
      · exact .inl old
      · exact .inr (.inr ⟨erasing, new.trans (congrFun (List.getElem_replicate _) _)⟩)
    · exact .inl (word_set_other _ same _ _)

end

/-- Settles O57: the three rows are one reset with its own cause. -/
theorem resetTakesEveryBlock : Obligations.ResetTakesEveryBlock := by
  intro s i cause u row quiet
  have reset : Machine.exec i s = .next (resetEvent cause s.fresh) := by
    rcases row with ⟨rfl, rfl⟩ | ⟨rfl, rfl⟩ | ⟨rfl, rfl⟩ <;> rfl
  refine ⟨(cutStore cutOffLands u).store, (cutStore cutOffLands u).freeCount, ?_,
    fun p w => cutStore_word u p w⟩
  rw [reset, resetEvent_eq cause quiet]
  have blocks : resetBlocks cause s.blocks = { Blocks.reset with su := { Supervisor.reset with
      cause, store := (cutStore cutOffLands u).store, validity := u.validity, divisor := u.divisor
      limlock := u.limlock, freeCount := (cutStore cutOffLands u).freeCount } } := by
    rw [resetBlocks, Supervisor.afterReset, cutStore_eq]
  rw [blocks]

theorem pagesValidity_all (p : Pages) :
    (pagesValidity p).toList.all id = true ↔ ∀ k : Fin 5, pageValid p k = true := by
  have each (f : Fin 5 → Bool) :
      (#v[f 0, f 1, f 2, f 3, f 4] : Vector Bool 5).toList.all id = true ↔ ∀ k, f k = true := by
    simp [Fin.forall_fin_succ]
  exact each _

theorem causesEnd_held {below strap : Bool} {b : Blocks} (held : b.su.startUp = .causeHolds) :
    causesEnd below strap b = b.onSu (Supervisor.startUpSteps below strap) := by
  simp only [causesEnd, held]

theorem causesEnd_later {below strap : Bool} {b : Blocks} (later : b.su.startUp ≠ .causeHolds) :
    causesEnd below strap b = b := by
  unfold causesEnd
  split
  · exact absurd ‹_› later
  all_goals rfl

/-- Settles O58. -/
theorem startUpChoosesTheMode : Obligations.StartUpChoosesTheMode := by
  intro s below strap u valid mode
  have failed : (!(pagesValidity u.store).toList.all id) = true
      ↔ ∃ p : Fin 5, pageValid u.store p = false := by
    rw [Bool.not_eq_true', ← Bool.not_eq_true, pagesValidity_all]
    simp
  have chosen : chosenMode (pagesValidity u.store) u.store strap = mode := by
    refine if_congr ?_ rfl rfl
    rw [Bool.or_eq_true, failed]
  let inside (c : Blocks) : Host.Outcome State Fault Refusal := .next { s with answers := [], blocks := c }
  refine ⟨fun held => ?_, fun running => congrArg inside (causesEnd_later running)⟩
  rw [← chosen]
  exact congrArg inside (causesEnd_held held)

end Sys2Proof.Machine

namespace Sys2Proof.Machine

/-! ## The Vehicle Assembler is no part of what the VT, the AU and the DU do

Vehicles that close are handed on; nothing that follows comes back to the VA (4.6, 6.2). -/

section

theorem baseKept_va (v : Assembler) : BaseKept fun b => b.va = v where
  du _ _ _ h := h
  overflow _ h := h
  record _ _ _ _ h := h
  request _ _ h := h
  fault b f h := by rw [sendFault_eq]; exact h

@[simp] theorem notice_va (ls : List Lane) (f : DirectiveInputs → DirectiveInputs) (b : Blocks) :
    (notice ls f b).va = b.va := (baseKept_va b.va).notice ls f rfl

@[simp] theorem queueDirective_va (x : Approach) (e : Directive) (b : Blocks) :
    (queueDirective x e b).va = b.va := (baseKept_va b.va).queueDirective x e rfl

@[simp] theorem queueVehicle_va (kind : DirectiveKind) (x : Reason) (r : VehicleRecord) (b : Blocks) :
    (queueVehicle kind x r b).va = b.va := queueDirective_va _ _ _

@[simp] theorem markUnwarned_va (n : VehicleNumber) (b : Blocks) :
    (markUnwarned n b).va = b.va := (baseKept_va b.va).markUnwarned n rfl

@[simp] theorem onRecord_va (n : VehicleNumber) (f : VehicleRecord → VehicleRecord) (b : Blocks) :
    (b.onRecord n f).va = b.va := rfl

@[simp] theorem offerJournal_va (w : Vector Word 8) (b : Blocks) : (offerJournal w b).va = b.va := by
  unfold offerJournal
  split <;> rfl

@[simp] theorem evalAlarm_va (c : Bool) (b : Blocks) : (evalAlarm c b).va = b.va := by
  unfold evalAlarm noticeAlarm
  split_ifs
  · rw [notice_va]; rfl
  · rfl
  · rw [notice_va]; rfl
  · rfl

@[simp] theorem setLock_va (b : Blocks) : (setLock b).va = b.va := by
  unfold setLock noticeLock
  split_ifs
  · rfl
  · rw [notice_va]; rfl

section

variable {again : Blocks → Blocks} (ha : ∀ b, (again b).va = b.va)
include ha

theorem reportCounts_va (b : Blocks) : (reportCounts again b).va = b.va := by
  unfold reportCounts noticeLock
  dsimp only
  split_ifs
  · rw [ha, notice_va]; rfl
  · rfl

theorem release_va (o : Owner) (b : Blocks) : (release again o b).va = b.va := by
  unfold release
  split_ifs
  · rw [ha, evalAlarm_va]; rfl
  · rfl

theorem retire_va (o : JournalOutcome) (n : VehicleNumber) (b : Blocks) :
    (retire again o n b).va = b.va := by
  have left : (if b.queued n then reportCounts again (dropOccupants (Occupant.isVehicle n) b)
      else b).va = b.va := by
    split_ifs
    · exact reportCounts_va ha _
    · rfl
  unfold retire
  dsimp only
  generalize (if b.queued n then reportCounts again (dropOccupants (Occupant.isVehicle n) b)
    else b) = c at left ⊢
  have released : (if (c.record n).any (·.reserved) then release again (.vehicle n) c else c).va
      = b.va := by
    split_ifs
    · exact (release_va ha _ _).trans left
    · exact left
  split
  · exact released
  · rw [Blocks.onVt_va, offerJournal_va]
    exact released

theorem examineAdmitted_va (n : VehicleNumber) (b : Blocks) :
    (examineAdmitted again n b).va = b.va := by
  have moved (st : VehicleState) (late : Bool) :
      (if late then retire again .lost n (b.onRecord n (·.to st)) else b.onRecord n (·.to st)).va
        = b.va := by
    cases late with
    | true => exact retire_va ha _ _ _
    | false => rfl
  unfold examineAdmitted
  split
  · rfl
  · exact moved _ _

theorem tryHeld_va (n : VehicleNumber) (b : Blocks) : (tryHeld again n b).va = b.va := by
  unfold tryHeld
  split
  · rfl
  · split_ifs
    · rw [queueVehicle_va, examineAdmitted_va ha]; rfl
    · rfl

end

theorem foldl_va {α : Type} {f : Blocks → α → Blocks} (hf : ∀ b a, (f b a).va = b.va) (l : List α)
    (b : Blocks) : (l.foldl f b).va = b.va := by
  induction l generalizing b with
  | nil => rfl
  | cons a l ih => rw [List.foldl_cons, ih, hf]

theorem reevaluateLevel_va (n : Nat) (b : Blocks) : (reevaluateLevel n b).va = b.va := by
  induction n generalizing b with
  | zero => rfl
  | succ n ih => exact foldl_va (fun b v => tryHeld_va ih v b) _ _

@[simp] theorem reevaluate_va (b : Blocks) : (reevaluate b).va = b.va := reevaluateLevel_va _ _

@[simp] theorem examineDiverted_va (n : VehicleNumber) (b : Blocks) :
    (examineDiverted n b).va = b.va := by
  have retired (c : Blocks) : (retire reevaluate .lost n c).va = c.va := retire_va reevaluate_va _ _ _
  unfold examineDiverted
  split
  · rfl
  · dsimp only
    split_ifs <;> simp [retired]

@[simp] theorem revoke_va (r : VehicleRecord) (b : Blocks) : (revoke r b).va = b.va := by
  unfold revoke
  rw [queueVehicle_va, examineDiverted_va]
  rfl

@[simp] theorem revokeWhile_va (goOn : Blocks → Bool) (among : VehicleRecord → Bool) (n : Nat)
    (p : Blocks × Bool) : (revokeWhile goOn among n p).1.va = p.1.va := by
  induction n generalizing p with
  | zero => rfl
  | succ n ih =>
    unfold revokeWhile
    split_ifs
    · split
      · rfl
      · rw [ih, revoke_va]
    · rfl

@[simp] theorem sweepAfter_va (p : Blocks × Bool) : (sweepAfter p).va = p.1.va := by
  unfold sweepAfter
  dsimp only
  split_ifs <;> simp

@[simp] theorem shortfallSweep_va (b : Blocks) : (shortfallSweep b).va = b.va := sweepAfter_va _

@[simp] theorem closeApproach_va (x : Approach) (b : Blocks) : (closeApproach x b).va = b.va := by
  simp [closeApproach]

@[simp] theorem actOnReport_va (p : RestrictionReport) (b : Blocks) : (actOnReport p b).va = b.va := by
  unfold actOnReport
  dsimp only
  split_ifs <;> simp

theorem divertEntered_va (x : Reason) (r : VehicleRecord) (b : Blocks) :
    (divertEntered x r b).va = b.va := by
  unfold divertEntered
  rw [examineDiverted_va, queueVehicle_va]
  rfl

theorem takeLate_va (r : VehicleRecord) (b : Blocks) : (takeLate r b).va = b.va := by
  unfold takeLate
  split_ifs
  · rw [examineAdmitted_va reevaluate_va, shortfallSweep_va, queueVehicle_va]; rfl
  · rw [divertEntered_va, setLock_va]

theorem giveVerdict_va (v : ClosedVehicle) (r : VehicleRecord) (b : Blocks) :
    (giveVerdict v r b).va = b.va := by
  unfold giveVerdict
  split
  · exact divertEntered_va _ _ _
  · split_ifs
    · rw [examineAdmitted_va reevaluate_va, queueVehicle_va]; rfl
    · exact takeLate_va _ _
    · rfl

/-- The AU's taking of a closed vehicle leaves the VA as it is. -/
@[simp] theorem takeClosed_va (v : ClosedVehicle) (b : Blocks) : (takeClosed v b).va = b.va := by
  unfold takeClosed takeUntracked
  split_ifs
  · rfl
  · exact (offerJournal_va _ _).trans (queueDirective_va _ _ _)
  · exact giveVerdict_va _ _ _

end

end Sys2Proof.Machine

namespace Sys2Proof.Machine

/-! ## Records and lane states (R39, R43 to R45, R50 to R53, R64) -/

section

variable {b : Blocks} {l : Lane} {r : CaptureRecord} {st : LaneState}

/-- The lanes of the CU are no part of what the VA, the VT, the AU and the DU do. -/
theorem blocksKept_lanes (v : Vector LaneUnit 6) : BlocksKept fun b => b.lanes = v where
  du _ _ _ h := h
  overflow _ h := h
  record _ _ _ _ h := h
  request _ _ h := h
  fault b f h := by rw [sendFault_eq]; exact h
  va _ _ _ h := h
  vt _ _ _ _ _ h := h
  entered _ _ _ h := h
  held _ _ _ h := h
  without _ _ h := h
  stopped _ h := h
  joined _ _ _ _ h := h
  au _ _ _ _ _ h := h
  placed _ _ _ _ h := h
  offer _ _ h := by unfold offerJournal; split <;> exact h

theorem lane_of_lanes {c : Blocks} {u : LaneUnit} (h : c.lanes = b.lanes.set l u) : c.lane l = u := by
  simp [Blocks.lane, h]

theorem setLane_of_lanes {c : Blocks} {u v : LaneUnit} (h : c.lanes = b.lanes.set l u) :
    c.setLane l v = { c with lanes := b.lanes.set l v } := by
  simp [Blocks.setLane, h]

/-- Entering a state changes the lane's own unit and no other's. -/
theorem enterLane_lanes (l : Lane) (st : LaneState) (b : Blocks) : (enterLane l st b).lanes
    = b.lanes.set l ((b.lane l).enter b.now (silenceMs b.profile l) st) := by
  have k := blocksKept_lanes (b.lanes.set l ((b.lane l).enter b.now (silenceMs b.profile l) st))
  unfold enterLane announceLane noticeLane
  dsimp only
  split_ifs
  · rfl
  · exact k.request _ _ (k.notice _ _ (k.laneChanged _ _ _ rfl))
  · exact k.notice _ _ (k.laneChanged _ _ _ rfl)

/-- What a record of a lane that accepts them leaves, before its delivery (R44, stages 1 to 4). -/
theorem takeRecord_accepting (slot : BitVec 12) (acc : accepting (b.lane l).state = true) :
    takeRecord l slot r b
      = deliver l slot r (setSilence l (changeState l r (checkSequence l slot r.sequence b))) :=
  if_pos acc

theorem takeRecord_ignored (slot : BitVec 12) (ignored : accepting (b.lane l).state = false) :
    takeRecord l slot r b = b :=
  if_neg (by rw [ignored]; decide)

/-- The state after a record of a lane that accepts records. -/
theorem stateAfter_entered (acc : accepting (b.lane l).state = true) :
    stateAfter r (b.lane l).state = .live ∨ stateAfter r (b.lane l).state = .degraded
      ∨ stateAfter r (b.lane l).state = .faulted := by
  generalize (b.lane l).state = st at acc
  cases r with
  | heartbeat h => cases hh : h.health <;> simp [stateAfter, hh]
  | laneFault f => simp [stateAfter]
  | axle _ | passage _ => cases st <;> simp_all [stateAfter, accepting]

theorem enter_listening (u : LaneUnit) (now : Time) (ms : Nat)
    (h : st = .live ∨ st = .degraded ∨ st = .faulted) : u.enter now ms st = { u with state := st } := by
  rcases h with rfl | rfl | rfl <;> rfl

/-- A record in order that changes its lane's state, up to its delivery: the lane's unit, the notice to
the DU and the LANE flag. -/
theorem takeRecord_changed (slot : BitVec 12) (acc : accepting (b.lane l).state = true)
    (h : InOrder (b.lane l) r.sequence) (ne : (b.lane l).state ≠ stateAfter r (b.lane l).state)
    (keeps : NothingToGiveUp l (stateAfter r (b.lane l).state) b) :
    let st := stateAfter r (b.lane l).state
    ∃ c, takeRecord l slot r b = deliver l slot r c
      ∧ Evaluated [l] { b with
          lanes := b.lanes.set l { b.lane l with
            state := st, prevSeq := some r.sequence
            silence := some (timeAdd b.now (silenceMs b.profile l)) }
          du := { b.du with inputs := { b.du.inputs with lanes := b.du.inputs.lanes.set l st } }
          csu := { b.csu with flags := b.csu.flags ||| (if flagsLane st then Flag.lane.bit else 0) } }
        c := by
  intro st
  refine ⟨_, takeRecord_accepting slot acc, ?_⟩
  have unit := lane_setLane b l { b.lane l with prevSeq := some r.sequence }
  rw [checkSequence_inOrder slot h, changeState, unit]
  have entered := enterLane_evaluated
    (b := b.setLane l { b.lane l with prevSeq := some r.sequence }) (l := l) (st := st)
    (by rw [unit]; exact ne) (by intro active reports; rw [unit] at reports; exact keeps active reports)
  rw [unit, enter_listening _ _ _ (stateAfter_entered acc)] at entered
  have lanes := (enterLane_lanes l st (b.setLane l { b.lane l with prevSeq := some r.sequence }))
  rw [unit, enter_listening _ _ _ (stateAfter_entered acc)] at lanes
  have frame := entered.frame
  have su : (enterLane l st (b.setLane l { b.lane l with prevSeq := some r.sequence })).su = b.su := by
    rw [frame]; rfl
  have twice := entered.setLane l { b.lane l with
    state := st, prevSeq := some r.sequence
    silence := some (timeAdd b.now (silenceMs b.profile l)) }
  convert twice using 1
  · simp [Blocks.setLane]
  · unfold setSilence Blocks.now Blocks.profile
    rw [su, lane_of_lanes lanes]

/-- A record that leaves its lane's state as it was, whatever its number. -/
theorem changeState_same (same : stateAfter r (b.lane l).state = (b.lane l).state)
    (acc : accepting (b.lane l).state = true) : changeState l r b = b := by
  unfold changeState
  rw [same]
  exact enterLane_same rfl (same ▸ stateAfter_entered acc)

theorem setSilence_setLane (b : Blocks) (l : Lane) (u : LaneUnit) :
    setSilence l (b.setLane l u)
      = b.setLane l { u with silence := some (timeAdd b.now (silenceMs b.profile l)) } := by
  unfold setSilence
  rw [lane_setLane, setLane_setLane]
  rfl

theorem suspectNotice_eq (l : Lane) (b : Blocks) : suspectNotice l b = { b with
    va := if b.su.mode = .active then
        { opened := b.va.opened.set l ((b.openVehicle l).map fun v => { v with suspect := true })
          straddle := b.va.straddle.set l ((b.straddleSlot l).map fun h => { h with suspect := true }) }
      else b.va } := by
  unfold suspectNotice
  by_cases active : b.su.mode = .active
  · rw [if_neg (not_not.mpr active), if_pos active]
    rfl
  · rw [if_pos active, if_neg active]

/-- A fault record changes the CSU alone. -/
theorem sendFault_frame (f : FaultRecord) (b : Blocks) :
    sendFault f b = { b with csu := (sendFault f b).csu } := by
  simp only [sendFault_eq]

theorem laneFaultRecord_eq (f : FaultKind) (l : Lane) (slot : BitVec 12) (b : Blocks) :
    laneFaultRecord f l slot b = { b with
      csu := (sendFault { kind := f, subject := .lane l, clock16 := b.su.clock.extractLsb' 0 16,
                          location := slot.setWidth 24 } b).csu } := by
  exact sendFault_frame _ b

/-- A record out of order that leaves its lane's state as it was (R45, R64). -/
theorem takeRecord_gap (slot : BitVec 12) (acc : accepting (b.lane l).state = true)
    (gap : ¬ InOrder (b.lane l) r.sequence)
    (same : stateAfter r (b.lane l).state = (b.lane l).state) :
    takeRecord l slot r b = deliver l slot r
      ((suspectNotice l (laneFaultRecord .sequenceGap l slot b)).setLane l { b.lane l with
        prevSeq := some r.sequence
        silence := some (timeAdd b.now (silenceMs b.profile l)) }) := by
  have out : inOrder (b.lane l).prevSeq r.sequence = false := by
    rw [← Bool.not_eq_true, inOrder_iff]
    exact gap
  have lanes : (suspectNotice l (laneFaultRecord .sequenceGap l slot b)).lane l = b.lane l := by
    rw [suspectNotice_eq, laneFaultRecord_eq]
    rfl
  have su : (suspectNotice l (laneFaultRecord .sequenceGap l slot b)).su = b.su := by
    rw [suspectNotice_eq, laneFaultRecord_eq]
  rw [takeRecord_accepting slot acc, checkSequence, out]
  simp only [Bool.false_eq_true, if_false, lanes]
  rw [changeState_same (by rw [lane_setLane]; exact same) (by rw [lane_setLane]; exact acc),
    setSilence_setLane]
  unfold Blocks.now Blocks.profile
  rw [su]

end

theorem exec_heartbeat (s : State) (l : Lane) (slot : BitVec 12) (r : HeartbeatRecord) :
    exec (.heartbeat l slot r) s = .next (s.became (takeRecord l slot (.heartbeat r) s.blocks)) := rfl

/-- Settles O30. -/
theorem heartbeatSetsTheLaneState : Obligations.HeartbeatSetsTheLaneState := by
  intro s l slot r u st lanes
  have after : stateAfter (.heartbeat r) u.state = st := rfl
  have entered : st = .live ∨ st = .degraded := by
    cases health : r.health <;> simp [st, health]
  refine ⟨fun acc order same => ?_, fun acc order ne => ?_, fun acc gap same => ?_, fun idle => ?_⟩
  · have stays : stateAfter (.heartbeat r) (s.blocks.lane l).state = (s.blocks.lane l).state :=
      after.trans same.symm
    rw [exec_heartbeat, takeRecord_same slot order stays (stays ▸ stateAfter_entered acc)]
    simp only [lanes, ← same]
    rfl
  · have keeps : NothingToGiveUp l (stateAfter (.heartbeat r) u.state) s.blocks := by
      intro _ _ silent
      rw [after] at silent
      rcases entered with h | h <;> rw [h] at silent <;> exact absurd silent (by decide)
    have flags : (s.blocks.csu.flags ||| (if flagsLane st then Flag.lane.bit else 0))
        = if st = .degraded then s.blocks.csu.flags ||| Flag.lane.bit else s.blocks.csu.flags := by
      rcases entered with h | h <;> rw [h] <;> simp [flagsLane]
    obtain ⟨c, taken, evaluated⟩ := takeRecord_changed (r := .heartbeat r) slot acc order ne keeps
    rw [after, flags] at evaluated
    exact ⟨c, by rw [exec_heartbeat, taken]; rfl, evaluated⟩
  · rw [exec_heartbeat, takeRecord_gap (r := .heartbeat r) slot acc gap (after.trans same.symm), suspectNotice_eq,
      laneFaultRecord_eq]
    simp only [lanes, ← same]
    rfl
  · have ignored : accepting u.state = false := by rcases idle with h | h | h <;> rw [h] <;> rfl
    have same (r : CaptureRecord) : s.became (takeRecord l slot r s.blocks) = s.became s.blocks := by
      rw [takeRecord_ignored slot ignored]
    exact ⟨congrArg _ (same (.heartbeat r)), fun a => congrArg _ (same (.axle a)),
      fun p => congrArg _ (same (.passage p)), fun f => congrArg _ (same (.laneFault f))⟩

end Sys2Proof.Machine

namespace Sys2Proof.Machine

/-! ## What a lane gives up as it leaves LIVE or DEGRADED (R70, R71) -/

section

variable {b : Blocks} {l : Lane} {st : LaneState}

theorem setOpen_va (b : Blocks) (l : Lane) (v : Option OpenVehicle) :
    (b.setOpen l v).va = { b.va with opened := b.va.opened.set l v } := rfl

/-- A vehicle that closes is gone from its lane, and the rest of the VA is as it was. -/
theorem closeVehicle_va (l : Lane) (incomplete : Bool) (b : Blocks) :
    (closeVehicle l incomplete b).va = { b.va with opened := b.va.opened.set l none } := by
  unfold closeVehicle
  split
  · rename_i empty
    rw [vector_set_same _ _ _ empty]
  · rw [takeClosed_va, setOpen_va]

theorem closeIfReached_va (l : Lane) (b : Blocks) :
    ∃ v, (closeIfReached l b).va = { b.va with opened := b.va.opened.set l v } := by
  have unchanged : b.va = { b.va with opened := b.va.opened.set l (b.openVehicle l) } := by
    rw [vector_set_same _ _ _ (by rfl)]
  unfold closeIfReached
  split
  · exact ⟨_, unchanged⟩
  · split_ifs
    · exact ⟨none, closeVehicle_va _ _ _⟩
    · exact ⟨_, unchanged⟩

theorem setOpen_closeIfReached_va (l : Lane) (x : Option OpenVehicle) (b : Blocks) :
    ∃ v, (closeIfReached l (b.setOpen l x)).va = { b.va with opened := b.va.opened.set l v } := by
  obtain ⟨v, closed⟩ := closeIfReached_va l (b.setOpen l x)
  refine ⟨v, ?_⟩
  rw [closed, setOpen_va, Vector.set_set]

/-- A join changes its own lane's open vehicle alone. -/
theorem join_va (l : Lane) (j : JoinAxle) (b : Blocks) :
    ∃ v, (join l j b).va = { b.va with opened := b.va.opened.set l v } := by
  unfold join openNew
  split
  · exact setOpen_closeIfReached_va _ _ _
  · split_ifs
    · exact setOpen_closeIfReached_va _ _ _
    · obtain ⟨v, joined⟩ := setOpen_closeIfReached_va l
        (some (openedBy (closeVehicle l false b).profile l j)) (closeVehicle l false b)
      refine ⟨v, ?_⟩
      rw [joined, closeVehicle_va, Vector.set_set]

theorem releaseAlone_va (l : Lane) (b : Blocks) : ∃ v, (releaseAlone l b).va
    = { opened := b.va.opened.set l v, straddle := b.va.straddle.set l none } := by
  unfold releaseAlone
  split
  · rename_i empty
    refine ⟨b.openVehicle l, ?_⟩
    rw [vector_set_same _ _ _ (by rfl), vector_set_same _ _ _ empty]
  · exact join_va _ _ _

/-- The lane that leaves LIVE or DEGRADED holds neither an open vehicle nor a held axle. -/
theorem laneChanged_va {before after : LaneState} (active : b.su.mode = .active)
    (reports : reporting before = true) (silent : reporting after = false) :
    (laneChanged l before after b).va
      = { opened := b.va.opened.set l none, straddle := b.va.straddle.set l none } := by
  obtain ⟨v, released⟩ := releaseAlone_va l b
  have gives : (laneChanged l before after b) = closeVehicle l true (releaseAlone l b) := by
    simp only [laneChanged, active, reports, silent]
    rfl
  rw [gives, closeVehicle_va, released, Vector.set_set]

theorem enterLane_changed (ne : (b.lane l).state ≠ st) :
    enterLane l st b
      = (let c := noticeLane l st (laneChanged l (b.lane l).state st
          (b.setLane l ((b.lane l).enter b.now (silenceMs b.profile l) st)))
        if flagsLane st then c.request .lane else c) :=
  if_neg ne

theorem noticeLane_va (l : Lane) (st : LaneState) (b : Blocks) : (noticeLane l st b).va = b.va :=
  notice_va _ _ _

theorem enterLane_va (active : b.su.mode = .active) (reports : reporting (b.lane l).state = true)
    (silent : reporting st = false) : (enterLane l st b).va
      = { opened := b.va.opened.set l none, straddle := b.va.straddle.set l none } := by
  have ne : (b.lane l).state ≠ st := fun same => by rw [same, silent] at reports; cases reports
  have gives := laneChanged_va (l := l)
    (b := b.setLane l ((b.lane l).enter b.now (silenceMs b.profile l) st)) active reports silent
  rw [enterLane_changed ne]
  dsimp only
  split_ifs
  · exact (noticeLane_va _ _ _).trans gives
  · exact (noticeLane_va _ _ _).trans gives

/-- Entering another state that asks for it sets LANE (R52). -/
theorem enterLane_flag (ne : (b.lane l).state ≠ st) (flags : flagsLane st = true) :
    (enterLane l st b).flagSet .lane = true := by
  rw [enterLane_changed ne]
  dsimp only
  rw [if_pos flags, flagSet_request]
  simp

/-! ## A lane enters a state after a change of its unit -/

/-- A lane's unit changed, and then another state entered, with nothing for the VA to give up. -/
theorem setLane_enterLane (u : LaneUnit) (same : u.state = (b.lane l).state) (ne : u.state ≠ st)
    (keeps : NothingToGiveUp l st b) :
    Evaluated [l] { b with
        lanes := b.lanes.set l (u.enter b.now (silenceMs b.profile l) st)
        du := { b.du with inputs := { b.du.inputs with lanes := b.du.inputs.lanes.set l st } }
        csu := { b.csu with flags := b.csu.flags ||| (if flagsLane st then Flag.lane.bit else 0) } }
      (enterLane l st (b.setLane l u)) := by
  have unit := lane_setLane b l u
  have entered := enterLane_evaluated (b := b.setLane l u) (l := l) (st := st)
    (by rw [unit]; exact ne)
    (fun active reports => keeps active (by rw [unit, same] at reports; exact reports))
  rw [unit] at entered
  convert entered using 1
  simp [Blocks.setLane, Blocks.now, Blocks.profile]

/-- A state that asks for no flag leaves the CSU as it was. -/
theorem setLane_enterLane_unflagged (u : LaneUnit) (same : u.state = (b.lane l).state)
    (ne : u.state ≠ st) (keeps : NothingToGiveUp l st b) (flags : flagsLane st = false) :
    Evaluated [l] { b with
        lanes := b.lanes.set l (u.enter b.now (silenceMs b.profile l) st)
        du := { b.du with inputs := { b.du.inputs with lanes := b.du.inputs.lanes.set l st } } }
      (enterLane l st (b.setLane l u)) := by
  have entered := setLane_enterLane u same ne keeps
  rw [if_neg (by rw [flags]; decide)] at entered
  have zero : b.csu.flags ||| 0 = b.csu.flags := by simp
  rw [zero] at entered
  exact entered

end

/-! ## LANE_FAULT (R50 to R52) -/

theorem exec_laneFault (s : State) (l : Lane) (slot : BitVec 12) (r : LaneFaultRecord) :
    exec (.laneFault l slot r) s = .next (s.became (takeRecord l slot (.laneFault r) s.blocks)) := rfl

/-- A LANE_FAULT in order, of a lane that reports in ACTIVE. -/
theorem takeRecord_laneFault {b : Blocks} {l : Lane} (slot : BitVec 12) {r : LaneFaultRecord}
    (active : b.su.mode = .active) (reports : reporting (b.lane l).state = true)
    (order : InOrder (b.lane l) r.sequence) :
    let c := takeRecord l slot (.laneFault r) b
    c.lanes = b.lanes.set l { b.lane l with
        state := .faulted, prevSeq := some r.sequence, faultCode := some r.code
        silence := some (timeAdd b.now (silenceMs b.profile l)) }
      ∧ c.flagSet .lane = true
      ∧ c.va = { opened := b.va.opened.set l none, straddle := b.va.straddle.set l none } := by
  have live : (b.lane l).state = .live ∨ (b.lane l).state = .degraded := by
    simpa [reporting] using reports
  have acc : accepting (b.lane l).state = true := by rcases live with h | h <;> rw [h] <;> rfl
  have unit := lane_setLane b l { b.lane l with prevSeq := some r.sequence }
  have ne : ((b.setLane l { b.lane l with prevSeq := some r.sequence }).lane l).state ≠ .faulted := by
    rw [unit]
    rcases live with h | h <;> rw [h] <;> decide
  have stages : takeRecord l slot (.laneFault r) b
      = deliver l slot (.laneFault r) (setSilence l (enterLane l .faulted
          (b.setLane l { b.lane l with prevSeq := some r.sequence }))) := by
    have checked := checkSequence_inOrder slot order
    rw [takeRecord_accepting slot acc, CaptureRecord.sequence, checked]
    rfl
  have lanes := enterLane_lanes l .faulted (b.setLane l { b.lane l with prevSeq := some r.sequence })
  rw [unit] at lanes
  have su := (laneKept_su b.su).enterLane (b := b.setLane l { b.lane l with prevSeq := some r.sequence })
    l .faulted rfl
  intro c
  refine ⟨?_, ?_, ?_⟩
  · have now : (enterLane l .faulted (b.setLane l { b.lane l with prevSeq := some r.sequence })).now
        = b.now := congrArg Supervisor.clock su
    have profile : (enterLane l .faulted
        (b.setLane l { b.lane l with prevSeq := some r.sequence })).profile = b.profile := by
      unfold Blocks.profile
      rw [su]
    simp only [c, stages, deliver, setSilence]
    rw [now, profile, lane_setLane, setLane_setLane, setLane_of_lanes lanes, lane_of_lanes lanes]
    simp [Blocks.setLane, LaneUnit.enter]
  · have flag := enterLane_flag (b := b.setLane l { b.lane l with prevSeq := some r.sequence }) ne rfl
    rw [show c = _ from stages]
    exact flag
  · have gives := enterLane_va (l := l) (st := .faulted)
      (b := b.setLane l { b.lane l with prevSeq := some r.sequence }) active
      (by rw [unit]; exact reports) rfl
    rw [show c = _ from stages]
    exact gives

/-- Settles O31. -/
theorem laneFaultMarksTheLane : Obligations.LaneFaultMarksTheLane := by
  intro s l slot r u b lanes acc order
  refine ⟨fun faulted => ?_, fun ne empty => ?_, fun active reports => ?_⟩
  · rw [exec_laneFault, takeRecord_same (r := .laneFault r) slot order faulted.symm (.inr (.inr faulted))]
    simp only [lanes, ← faulted]
    simp [deliver, Blocks.setLane, Blocks.lane, u, b, CaptureRecord.sequence]
  · obtain ⟨c, taken, evaluated⟩ := takeRecord_changed (r := .laneFault r) slot acc order ne
      (fun active reports _ => empty active reports)
    refine ⟨_, by rw [exec_laneFault, taken], ?_⟩
    have unit : c.lane l = { u with
        state := .faulted, prevSeq := some r.sequence
        silence := some (timeAdd b.now (silenceMs b.profile l)) } := by
      rw [evaluated.frame]
      simp only [Blocks.lane, Fin.getElem_fin, Vector.getElem_set_self]
      rfl
    have delivered := evaluated.setLane l { c.lane l with faultCode := some r.code }
    rw [unit] at delivered
    simp only [deliver, unit]
    convert delivered using 1
    simp [Blocks.setLane, lanes, b, u, stateAfter, flagsLane]
  · obtain ⟨held, flag, gives⟩ := takeRecord_laneFault slot active reports order
    refine ⟨_, exec_laneFault s l slot r, held, ?_, ?_, flag, gives⟩
    · exact (laneKept_ru b.ru).takeRecord l slot _ rfl
    · exact (laneKept_su b.su).takeRecord l slot _ rfl

/-! ## SILENCE_EXPIRY and PULSE_END (R43, R52 to R55) -/

theorem listening_states {st : LaneState} (h : listening st = true) :
    st ≠ .silent ∧ st ≠ .restarting := by
  cases st <;> simp_all [listening]

/-- Settles O34. -/
theorem silenceAndPulseEnd : Obligations.SilenceAndPulseEnd := by
  intro s l b p u restarts told
  have silence : Machine.exec (.silenceExpiry l) s = .next (s.became (reachSilence l b)) := rfl
  have pulse : Machine.exec (.pulseEnd l) s = .next (s.became (reachPulseEnd l b)) := rfl
  refine ⟨fun e listens expiry now empty => ?_, fun idle => ?_, fun e restarting expiry now => ?_,
    fun idle => ?_⟩
  · have acts : reachSilence l b = silenceAction l b := by
      refine if_pos ?_
      simp only [u, expiry, Option.any_some] at listens ⊢
      rw [listens, now]
      rfl
    obtain ⟨notSilent, notRestarting⟩ := listening_states listens
    refine ⟨fun stays => ⟨_, silence, ?_⟩, fun again => ⟨_, silence, ?_⟩⟩
    · have silent : silenceAction l b = enterLane l .silent b := by
        refine if_neg ?_
        simpa [restarts] using stays
      rw [acts, silent]
      exact enterLane_evaluated notSilent (fun active reports _ => empty active reports)
    · have restart : silenceAction l b = restartLane l b := by
        refine if_pos ?_
        simpa [restarts] using again
      rw [acts, restart]
      exact setLane_enterLane (b := b) (l := l) (st := .restarting) { u with
        restartCount := u.restartCount + 1, lineLow := true, disablePending := false,
        pulseEnd := some (timeAdd b.now (resetPulse b.profile)) } rfl notRestarting
        (fun active reports _ => empty active reports)
  · have idle : reachSilence l b = b := by
      refine if_neg ?_
      rcases idle with h | h
      · simp [u] at h; simp [h]
      · simp [u] at h; simp [h]
    rw [silence, idle]
  · refine ⟨_, pulse, ?_⟩
    have acts : reachPulseEnd l b = enterLane l (if u.disablePending then .disabled else .offline)
        (b.setLane l { u with lineLow := false, pulseEnd := none, disablePending := false }) := by
      refine if_pos ?_
      simp only [u] at restarting expiry
      simp only [restarting, expiry, Option.any_some, now]
      rfl
    rw [acts]
    have idle (st : LaneState) : NothingToGiveUp l st b := by
      intro _ reports
      rw [show (b.lane l).state = .restarting from restarting] at reports
      cases reports
    have enters (st : LaneState) (ne : .restarting ≠ st) (flags : flagsLane st = false) :=
      setLane_enterLane_unflagged (b := b) (l := l) (st := st)
        { u with lineLow := false, pulseEnd := none, disablePending := false } rfl
        (by rw [restarting]; exact ne) (idle st) flags
    cases pending : u.disablePending with
    | true => exact enters .disabled (by decide) rfl
    | false => exact enters .offline (by decide) rfl
  · have idle : reachPulseEnd l b = b := by
      refine if_neg ?_
      rcases idle with h | h
      · simp [u] at h; simp [h]
      · simp [u] at h; simp [h]
    rw [pulse, idle]

/-! ## The lane commands (R57 to R59) -/

section

variable {b : Blocks} {l : Lane} {n : BitVec 8}

theorem laneOf_none (h : 5 < n.toNat) : laneOf n = none := dif_neg (by omega)

theorem laneOf_some (h : n.toNat = l.val) : laneOf n = some l := by
  have low : n.toNat < 6 := h ▸ l.isLt
  rw [laneOf, dif_pos low]
  exact congrArg some (Fin.ext h)

theorem laneCommand_none (act : Lane → Blocks → Result × Blocks) (h : 5 < n.toNat) :
    laneCommand act n b = (.badOperand, b) := by
  rw [laneCommand, laneOf_none h]

theorem laneCommand_some (act : Lane → Blocks → Result × Blocks) (h : n.toNat = l.val) :
    laneCommand act n b = act l b := by
  rw [laneCommand, laneOf_some h]

theorem disableLane_accepting (acc : accepting (b.lane l).state = true) :
    disableLane l b = (.done, enterLane l .disabled b) := by
  unfold disableLane
  split <;> simp_all [accepting]

theorem enableLane_disabled (h : (b.lane l).state = .disabled) :
    enableLane l b = (.done, enterLane l .offline b) := by
  simp only [enableLane, h]

theorem enableLane_other (h : (b.lane l).state ≠ .disabled) : enableLane l b = (.badOperand, b) := by
  unfold enableLane
  split
  · exact absurd ‹_› h
  all_goals rfl

theorem recoverLane_refused (h : (b.lane l).state = .unused) : recoverLane l b = (.badOperand, b) := by
  simp only [recoverLane, h]

theorem recoverLane_silent (h : (b.lane l).state = .silent) : recoverLane l b
    = (.done, enterLane l .offline (b.setLane l { b.lane l with restartCount := 0 })) := by
  simp only [recoverLane, h]

theorem recoverLane_other (unused : (b.lane l).state ≠ .unused) (silent : (b.lane l).state ≠ .silent) :
    recoverLane l b = (.done, b.setLane l { b.lane l with restartCount := 0 }) := by
  unfold recoverLane
  dsimp only
  split
  · exact absurd ‹_› unused
  · exact absurd ‹_› silent
  all_goals rfl

theorem inOperation_of {mode : Mode} (h : mode = .service ∨ mode = .active) :
    mode ≠ .startUp ∧ inOperation mode = true := by
  rcases h with rfl | rfl <;> decide

end

/-- Settles O56, by the lane's state. -/
theorem laneCommandsActByState : Obligations.LaneCommandsActByState := by
  intro s m tag n l b u result stays told offline operating
  obtain ⟨running, taken⟩ := inOperation_of operating
  have act (f : Lane → Blocks → Result × Blocks) (code : BitVec 8) {r : Result} {c : Blocks}
      (owner : laneCommand f n b = (r, c)) :
      commandEvent (takeCommand m tag code inOperation (ownerOf (laneCommand f n))) s
        = .next (s.became (recordResult m tag code r c)) :=
    commandEvent_owner running taken owner
  refine ⟨fun high => ⟨act _ _ (laneCommand_none _ high), act _ _ (laneCommand_none _ high),
    act _ _ (laneCommand_none _ high)⟩, fun h => ?_⟩
  have named (f : Lane → Blocks → Result × Blocks) (code : BitVec 8) {r : Result} {c : Blocks}
      (owner : f l b = (r, c)) :
      commandEvent (takeCommand m tag code inOperation (ownerOf (laneCommand f n))) s
        = .next (s.became (recordResult m tag code r c)) :=
    act f code ((laneCommand_some f h).trans owner)
  have same (code : BitVec 8) (r : Result) :
      recordResult m tag code r b = { b with lanes := b.lanes.set l u, csu := result code r } := by
    rw [vector_set_same b.lanes l u rfl]
    rfl
  refine ⟨fun unused => ?_, fun restarting => ?_, fun disabled => ?_, fun acc empty => ?_,
    fun disabled => ?_, fun other => ?_, fun unused => ?_, fun silent => ?_, fun used heard => ?_⟩
  · have owner : disableLane l b = (.badOperand, b) := by
      simp only [u] at unused
      simp only [disableLane, unused]
    exact (named _ 0x0C owner).trans (by rw [same])
  · have owner : disableLane l b = (.done, b.setLane l { u with disablePending := true }) := by
      simp only [u] at restarting
      simp only [disableLane, restarting, u]
    exact named _ 0x0C owner
  · have owner : disableLane l b = (.done, b) := by
      simp only [u] at disabled
      simp only [disableLane, disabled]
    exact (named _ 0x0C owner).trans (by rw [same])
  · refine ⟨_, named _ 0x0C (disableLane_accepting acc), ?_⟩
    have entered := setLane_enterLane_unflagged (b := b) (l := l) (st := .disabled) u rfl
      (fun disabled => by rw [disabled] at acc; cases acc)
      (fun active reports _ => empty active reports) rfl
    rw [setLane_lane] at entered
    exact entered.result m tag 0x0C .done
  · refine ⟨_, named _ 0x0D (enableLane_disabled disabled), ?_⟩
    have entered := setLane_enterLane_unflagged (b := b) (l := l) (st := .offline) u rfl
      (by rw [disabled]; decide)
      (fun _ reports => by rw [show (b.lane l).state = .disabled from disabled] at reports; cases reports)
      rfl
    rw [setLane_lane] at entered
    exact entered.result m tag 0x0D .done
  · exact (named _ 0x0D (enableLane_other other)).trans (by rw [same])
  · exact (named _ 0x0E (recoverLane_refused unused)).trans (by rw [same])
  · refine ⟨_, named _ 0x0E (recoverLane_silent silent), ?_⟩
    have entered := setLane_enterLane_unflagged (b := b) (l := l) (st := .offline)
      { u with restartCount := 0 } rfl (by rw [silent]; decide)
      (fun _ reports => by rw [show (b.lane l).state = .silent from silent] at reports; cases reports)
      rfl
    exact entered.result m tag 0x0E .done
  · exact named _ 0x0E (recoverLane_other used heard)

end Sys2Proof.Machine

namespace Sys2Proof.Machine

/-! ## Joining and holding axles (4.3, 4.5) -/

section

variable {b : Blocks} {l : Lane} {j : JoinAxle} {a : Axle}

theorem closeIfReached_early {v : OpenVehicle} (h : b.openVehicle l = some v)
    (early : reached b.now v.closeTime = false) : closeIfReached l b = b := by
  simp only [closeIfReached, h, early, Bool.false_eq_true, if_false]

theorem openVehicle_setOpen (b : Blocks) (l : Lane) (v : Option OpenVehicle) :
    (b.setOpen l v).openVehicle l = v := by
  simp [Blocks.openVehicle, Blocks.setOpen]

/-- An axle that finds no open vehicle opens one (R65). -/
theorem join_opens {t : Time} (empty : b.openVehicle l = none) (event : j.eventTime = t)
    (early : reached b.now (timeAdd t (assemblyGap b.profile)) = false) :
    join l j b = b.setOpen l (some (openedBy b.profile l j)) := by
  subst event
  simp only [join, empty, openNew]
  exact closeIfReached_early (openVehicle_setOpen _ _ _) early

/-- An axle with a spacing that continues the lane's vehicle joins it (R65, R66). -/
theorem join_continues {v : OpenVehicle} {n : Nat} {t : Time} (h : b.openVehicle l = some v)
    (spacing : j.spacing = n) (on : continues b.profile n = true) (event : j.eventTime = t)
    (early : reached b.now (timeAdd t (assemblyGap b.profile)) = false) :
    join l j b = b.setOpen l (some (joinedBy b.profile j v)) := by
  subst spacing event
  simp only [join, h, on, if_true]
  exact closeIfReached_early (openVehicle_setOpen _ _ _) early

theorem releaseAlone_empty (h : b.straddleSlot l = none) : releaseAlone l b = b := by
  simp only [releaseAlone, h]

/-- In ACTIVE an axle whose lane holds no half is placed at once (R63). -/
theorem takeAxle_placed (active : b.su.mode = .active) (empty : b.straddleSlot a.lane = none) :
    takeAxle a b = placeAxle a b := by
  rw [takeAxle, if_neg (not_not.mpr active), releaseAlone_empty empty]

theorem placeAxle_single (h : a.straddle = .none) :
    placeAxle a b = join a.lane (joinOf false false a) b := by
  simp only [placeAxle, h]

theorem placeAxle_alone (straddle : a.straddle ≠ .none)
    (none : usablePartner b a.lane a.straddle = none) :
    placeAxle a b = join a.lane (joinOf true false a) b := by
  cases h : a.straddle with
  | none => exact absurd h straddle
  | left | right => simp only [placeAxle, h]; rw [← h, none]

theorem placeAxle_beside {q : Lane} (straddle : a.straddle ≠ .none)
    (some : usablePartner b a.lane a.straddle = some q) :
    placeAxle a b = mergeOrHold q a b := by
  cases h : a.straddle with
  | none => exact absurd h straddle
  | left | right => simp only [placeAxle, h]; rw [← h, some]

theorem mergeOrHold_holds {q : Lane} (empty : b.straddleSlot q = none)
    (early : reached b.now (timeAdd a.eventTime (straddleWindow b.profile)) = false) :
    mergeOrHold q a b = b.setStraddle a.lane (some
      { axle := a, suspect := false, expiry := timeAdd a.eventTime (straddleWindow b.profile) }) := by
  simp only [mergeOrHold, empty, holdAxle]
  exact if_neg (by rw [Bool.not_eq_true]; exact early)

theorem mergeOrHold_merges {q : Lane} {h : HeldAxle} (slot : b.straddleSlot q = some h)
    (merge : merges (straddleWindow b.profile) h a = true) :
    mergeOrHold q a b = join (ownerLane h a) (mergedAxle h a) (b.setStraddle q none) := by
  simp only [mergeOrHold, slot, merge, if_true]

/-! ### Partner lanes (R72) -/

theorem lowerLane_eq_some : ∀ l q : Lane, lowerLane l = some q ↔ q.val + 1 = l.val := by decide

theorem higherLane_eq_some : ∀ l q : Lane, higherLane l = some q ↔ l.val + 1 = q.val := by decide

theorem partnerOf_eq_some (l q : Lane) (x : Straddle) :
    partnerOf l x = some q
      ↔ (x = .left ∧ q.val + 1 = l.val) ∨ (x = .right ∧ l.val + 1 = q.val) := by
  cases x <;> simp [partnerOf, lowerLane_eq_some, higherLane_eq_some]

theorem reporting_iff (st : LaneState) : reporting st = true ↔ st = .live ∨ st = .degraded := by
  simp [reporting]

theorem usablePartner_eq_some (b : Blocks) (l q : Lane) (x : Straddle) :
    usablePartner b l x = some q ↔ partnerOf l x = some q ∧ laneInUse b.profile q = true
      ∧ laneApproach b.profile q = laneApproach b.profile l
      ∧ ((b.lane q).state = .live ∨ (b.lane q).state = .degraded) := by
  simp only [usablePartner, Option.filter_eq_some_iff, Bool.and_eq_true, decide_eq_true_eq,
    reporting_iff, and_assoc]

end

/-! ## AXLE records (R45 to R47, R65 to R68, R72 to R74) -/

section

variable {b : Blocks} {l : Lane} {slot : BitVec 12} {r : AxleRecord}

/-- The blocks with an accepted record's sequence number and silence expiry taken. -/
def Blocks.heard (b : Blocks) (l : Lane) (n : BitVec 8) : Blocks :=
  b.setLane l { b.lane l with
    prevSeq := some n, silence := some (timeAdd b.now (silenceMs b.profile l)) }

theorem lane_heard (b : Blocks) (l : Lane) (n : BitVec 8) : (b.heard l n).lane l = { b.lane l with
    prevSeq := some n, silence := some (timeAdd b.now (silenceMs b.profile l)) } := lane_setLane _ _ _

theorem state_heard (b : Blocks) (l q : Lane) (n : BitVec 8) :
    ((b.heard l n).lane q).state = (b.lane q).state := by
  by_cases same : l = q
  · subst same; rw [lane_heard]
  · rw [Blocks.heard, lane_setLane_ne b same]

/-- An AXLE or a PASSAGE of a lane that is LIVE, DEGRADED or FAULTED is delivered with its number and
the silence expiry taken, and changes no state (R44, Table 3-5). -/
theorem takeRecord_heard {c : CaptureRecord} (slot : BitVec 12)
    (states : (b.lane l).state = .live ∨ (b.lane l).state = .degraded ∨ (b.lane l).state = .faulted)
    (same : stateAfter c (b.lane l).state = (b.lane l).state) (order : InOrder (b.lane l) c.sequence) :
    takeRecord l slot c b = deliver l slot c (b.heard l c.sequence) :=
  takeRecord_same slot order same states

theorem stateAfter_axle {st : LaneState} (r : AxleRecord)
    (h : st = .live ∨ st = .degraded ∨ st = .faulted) : stateAfter (.axle r) st = st := by
  rcases h with rfl | rfl | rfl <;> rfl

theorem stateAfter_passage {st : LaneState} (r : PassageRecord)
    (h : st = .live ∨ st = .degraded ∨ st = .faulted) : stateAfter (.passage r) st = st := by
  rcases h with rfl | rfl | rfl <;> rfl

theorem exec_axle (s : State) (l : Lane) (slot : BitVec 12) (r : AxleRecord) :
    exec (.axle l slot r) s = .next (s.became (takeRecord l slot (.axle r) s.blocks)) := rfl

/-- The axle of a record, as it goes to the VA. -/
theorem axleOf_heard (b : Blocks) (l : Lane) (r : AxleRecord) :
    axleOf (b.heard l r.sequence) l r = axleOf b l r := by
  unfold axleOf
  rw [state_heard]
  rfl

/-- An AXLE that a reporting lane delivers. -/
theorem takeRecord_axle (states : (b.lane l).state = .live ∨ (b.lane l).state = .degraded)
    (order : InOrder (b.lane l) r.sequence) :
    takeRecord l slot (.axle r) b = takeAxle (axleOf b l r) (b.heard l r.sequence) := by
  have listening := states.imp_right (Or.inl (b := (b.lane l).state = .faulted))
  rw [takeRecord_heard slot listening (stateAfter_axle r listening) order]
  have reports : reporting ((b.heard l r.sequence).lane l).state = true := by
    rw [state_heard]
    exact (reporting_iff _).mpr states
  simp only [deliver, deliverAxle, CaptureRecord.sequence, reports, if_true, axleOf_heard]

/-- An AXLE that is discarded: from a FAULTED lane, and outside ACTIVE (R47, R63). -/
theorem takeRecord_axle_discarded
    (h : (b.su.mode ≠ .active ∧ ((b.lane l).state = .live ∨ (b.lane l).state = .degraded))
      ∨ (b.lane l).state = .faulted)
    (order : InOrder (b.lane l) r.sequence) :
    takeRecord l slot (.axle r) b = b.heard l r.sequence := by
  rcases h with ⟨mode, states⟩ | faulted
  · rw [takeRecord_axle states order]
    exact if_pos mode
  · rw [takeRecord_heard slot (.inr (.inr faulted)) (stateAfter_axle r (.inr (.inr faulted))) order]
    refine if_neg ?_
    rw [state_heard, faulted]
    decide

end

theorem decide_toNat_ne_zero {w : Nat} (n : BitVec w) : decide (n.toNat ≠ 0) = decide (n ≠ 0) := by
  rw [decide_eq_decide, ne_eq, ne_eq, ← BitVec.toNat_inj]
  rfl

section

variable (p : Pages) (l : Lane) (b : Blocks) (r : AxleRecord)

/-- The vehicle that a single axle opens (R65, R67). -/
theorem openedBy_single :
    let event := b.now - BitVec.ofNat 32 r.age.toNat
    let load := min 65535 (r.left.toNat + r.right.toNat)
    openedBy p l (joinOf false false (axleOf b l r)) =
      { approach := laneApproach p l, axles := [⟨load, 0⟩], speeds := [r.speed.toNat]
        axleCount := 1, gross := load, spacingSum := 0, isPartial := decide (r.quality = 3)
        overlong := false
        suspect := decide (maxAge b.profile < r.age.toNat) || decide (r.spacing ≠ 0)
        straddled := false, degradedAxle := decide ((b.lane l).state = .degraded)
        lastEvent := event, closeTime := timeAdd event (assemblyGap p) } := by
  simp only [openedBy, joinOf, axleOf, Bool.false_or, decide_toNat_ne_zero]
  rfl

/-- The lane's vehicle after a single axle has joined it (R66, R68). -/
theorem joinedBy_single (v : OpenVehicle) :
    let event := b.now - BitVec.ofNat 32 r.age.toNat
    let load := min 65535 (r.left.toNat + r.right.toNat)
    joinedBy p (joinOf false false (axleOf b l r)) v = { v with
      axles := if v.axles.length < 9 then v.axles ++ [⟨load, r.spacing.toNat⟩] else v.axles
      speeds := if v.axles.length < 9 then v.speeds ++ [r.speed.toNat] else v.speeds
      axleCount := min 255 (v.axleCount + 1)
      gross := min 1048575 (v.gross + load)
      spacingSum := min 1048575 (v.spacingSum + r.spacing.toNat)
      isPartial := v.isPartial || decide (r.quality = 3)
      overlong := v.overlong || decide (9 ≤ v.axles.length)
      suspect := v.suspect || decide (maxAge b.profile < r.age.toNat)
      degradedAxle := v.degradedAxle || decide ((b.lane l).state = .degraded)
      lastEvent := event, closeTime := timeAdd event (assemblyGap p) } := by
  have full : (!decide (v.axles.length < axleCapacity)) = decide (9 ≤ v.axles.length) := by
    rw [← decide_not, decide_eq_decide]
    exact not_lt
  simp only [joinedBy, joinOf, axleOf, Bool.false_or, Bool.or_false, full, decide_eq_true_eq]
  rfl

end

/-- Settles O32. -/
theorem axleOpensOrJoinsTheVehicle : Obligations.AxleOpensOrJoinsTheVehicle := by
  intro s l slot r b p u lanes event close load aged degraded incomplete order
  refine ⟨fun states active single empty early => ?_, fun discarded => ?_⟩
  · have placed : takeRecord l slot (.axle r) b
        = join l (joinOf false false (axleOf b l r)) (b.heard l r.sequence) := by
      rw [takeRecord_axle states order, takeAxle_placed (b := b.heard l r.sequence) (a := axleOf b l r) active empty,
        placeAxle_single (a := axleOf b l r) single]
      rfl
    replace early : reached (b.heard l r.sequence).now
        (timeAdd event (assemblyGap (b.heard l r.sequence).profile)) = false := early
    refine ⟨fun none => ?_, fun v opened low high => ?_⟩
    · rw [exec_axle, placed, join_opens (b := b.heard l r.sequence) (t := event) none rfl early]
      exact congrArg (fun v => Host.Outcome.next (s.became ((b.heard l r.sequence).setOpen l (some v))))
        (openedBy_single p l b r)
    · have on : continues p r.spacing.toNat = true := by
        simp [continues, inRange, low, high]
      rw [exec_axle, placed, join_continues (b := b.heard l r.sequence) (n := r.spacing.toNat)
        (t := event) (j := joinOf false false (axleOf b l r)) opened rfl on rfl early]
      exact congrArg (fun v => Host.Outcome.next (s.became ((b.heard l r.sequence).setOpen l (some v))))
        (joinedBy_single p l b r v)
  · exact congrArg (fun c => Host.Outcome.next (s.became c)) (takeRecord_axle_discarded discarded order)

/-- Settles O33. -/
theorem straddleHalvesMerge : Obligations.StraddleHalvesMerge := by
  intro s l partner slot r b p u lanes event aged half beside usable order states active empty straddle
  have taken : takeRecord l slot (.axle r) b = placeAxle half (b.heard l r.sequence) := by
    rw [takeRecord_axle states order]
    exact takeAxle_placed (b := b.heard l r.sequence) (a := half) active empty
  have partner_iff (q : Lane) :
      usablePartner (b.heard l r.sequence) l r.straddle = some q ↔ usable q := by
    rw [usablePartner_eq_some, partnerOf_eq_some, state_heard]
    rfl
  refine ⟨fun use vacant early => ?_, fun h use slot' from_ back near => ?_, fun alone none early => ?_⟩
  · replace early : reached (b.heard l r.sequence).now
        (timeAdd event (straddleWindow (b.heard l r.sequence).profile)) = false := early
    rw [exec_axle, taken, placeAxle_beside (a := half) straddle ((partner_iff partner).mpr use),
      mergeOrHold_holds (b := b.heard l r.sequence) (a := half) vacant early]
    rfl
  · intro owner first load spacing opened early
    have backs : h.axle.straddle = reciprocal r.straddle := by
      rw [back]
      cases kind : r.straddle with
      | none => exact absurd kind straddle
      | left | right => rfl
    have merge : merges (straddleWindow (b.heard l r.sequence).profile) h half = true := by
      simp only [merges, Bool.and_eq_true, decide_eq_true_eq]
      exact ⟨backs, near⟩
    have owns : ownerLane h half = owner := by
      simp only [ownerLane, from_, owner, half]
    replace early : reached ((b.heard l r.sequence).setStraddle partner none).now
        (timeAdd first (assemblyGap ((b.heard l r.sequence).setStraddle partner none).profile)) = false :=
      early
    rw [exec_axle, taken, placeAxle_beside (a := half) straddle ((partner_iff partner).mpr use),
      mergeOrHold_merges (b := b.heard l r.sequence) (a := half) slot' merge, owns,
      join_opens (b := (b.heard l r.sequence).setStraddle partner none) (t := first)
        (j := mergedAxle h half) opened rfl early]
    have vehicle : openedBy p owner (mergedAxle h half) =
        { approach := laneApproach p owner, axles := [⟨load, 0⟩]
          speeds := [(h.axle.speed + half.speed) / 2], axleCount := 1, gross := load
          spacingSum := 0, isPartial := decide (h.axle.quality = 3) || decide (r.quality = 3)
          overlong := false
          suspect := (h.suspect || h.axle.aged || aged) || decide (spacing ≠ 0), straddled := true
          degradedAxle := decide (h.axle.laneState = .degraded) || decide (u.state = .degraded)
          lastEvent := first, closeTime := timeAdd first (assemblyGap p) } := by
      simp only [openedBy, mergedAxle, from_]
      rfl
    exact congrArg (fun v => Host.Outcome.next (s.became
      (((b.heard l r.sequence).setStraddle partner none).setOpen owner (some v)))) vehicle
  · intro load
    have unusable : usablePartner (b.heard l r.sequence) l r.straddle = Option.none :=
      Option.eq_none_iff_forall_ne_some.mpr fun q some => alone q ((partner_iff q).mp some)
    replace early : reached (b.heard l r.sequence).now
        (timeAdd event (assemblyGap (b.heard l r.sequence).profile)) = false := early
    rw [exec_axle, taken, placeAxle_alone (a := half) straddle unusable,
      join_opens (b := b.heard l r.sequence) (t := event) (j := joinOf true false half) none rfl early]
    rfl

/-! ## CLOSE_TIME and HOLD_EXPIRY (R69, R75, R76, R107) -/

section

variable {b : Blocks} {l : Lane}

theorem closeIfReached_none (h : ∀ v, b.openVehicle l = some v → reached b.now v.closeTime = false) :
    closeIfReached l b = b := by
  cases v : b.openVehicle l with
  | none => simp only [closeIfReached, v]
  | some v' => exact closeIfReached_early v (h v' v)

theorem closeIfReached_closes {v : OpenVehicle} (h : b.openVehicle l = some v)
    (now : reached b.now v.closeTime = true) : closeIfReached l b
      = takeClosed (closedVehicle b.profile l (b.lane l).state false v) (b.setOpen l none) := by
  simp only [closeIfReached, closeVehicle, h, now, if_true]

theorem takeClosed_light {v : ClosedVehicle} (gross : v.gross < lightThreshold b.profile)
    (axles : v.axleCount ≤ 2) : takeClosed v b = countLight v.approach b := by
  refine if_pos ?_
  simp [isLight, gross, axles]

theorem reachHoldExpiry_early (h : ∀ h, b.straddleSlot l = some h → reached b.now h.expiry = false) :
    reachHoldExpiry l b = b := by
  cases slot : b.straddleSlot l with
  | none => simp only [reachHoldExpiry, slot]
  | some half => simp only [reachHoldExpiry, slot, h half slot, Bool.false_eq_true, if_false]

theorem reachHoldExpiry_releases {h : HeldAxle} (slot : b.straddleSlot l = some h)
    (now : reached b.now h.expiry = true) :
    reachHoldExpiry l b = join l (joinOf true h.suspect h.axle) (b.setStraddle l none) := by
  simp only [reachHoldExpiry, releaseAlone, slot, now, if_true]

end

/-- Settles O38. -/
theorem lightVehicleAndLoneHalf : Obligations.LightVehicleAndLoneHalf := by
  intro s l b p
  let outcome (c : Blocks) : Host.Outcome State Fault Refusal := .next (s.became c)
  refine ⟨fun v opened now gross axles => ?_, fun early => congrArg outcome (closeIfReached_none early),
    fun h slot now none => ?_, fun early => congrArg outcome (reachHoldExpiry_early early)⟩
  · refine congrArg outcome ((closeIfReached_closes opened now).trans ?_)
    exact takeClosed_light (b := b.setOpen l Option.none) gross axles
  · intro close load early
    refine congrArg outcome ((reachHoldExpiry_releases slot now).trans ?_)
    replace early : reached (b.setStraddle l Option.none).now
        (timeAdd h.axle.eventTime (assemblyGap (b.setStraddle l Option.none).profile)) = false := early
    rw [join_opens (b := b.setStraddle l Option.none) (t := h.axle.eventTime)
      (j := joinOf true h.suspect h.axle) none rfl early]
    rfl

end Sys2Proof.Machine

namespace Sys2Proof.Machine

/-! ## CLEAR_VEHICLE and CLEAR_PHANTOMS (R102, R103) -/

section

variable {b : Blocks} {n : VehicleNumber} {a : BitVec 8} {x : Approach}

theorem clearRecord_none (h : b.record n = none) : clearRecord n b = (.notFound, b) := by
  simp only [clearRecord, h]

theorem clearRecord_some {v : VehicleRecord} (h : b.record n = some v) :
    clearRecord n b = (.done, retire reevaluate .clearedByCommand n b) := by
  simp only [clearRecord, h]

theorem clearPhantomsOf_bad (h : 1 < a.toNat) : clearPhantomsOf a b = (.badOperand, b) := by
  have notA : a ≠ 0 := fun zero => by rw [zero] at h; simp at h
  have notB : a ≠ 1 := fun one => by rw [one] at h; simp at h
  rw [clearPhantomsOf, if_neg notA, if_neg notB]

theorem clearPhantomsOf_A (h : a = 0) : clearPhantomsOf a b = (.done, dropPhantoms .A b) := by
  subst h; rfl

theorem clearPhantomsOf_B (h : a = 1) : clearPhantomsOf a b = (.done, dropPhantoms .B b) := by
  subst h; rfl

theorem dropPhantoms_none (h : (b.vt.occupants.at x).any Occupant.phantomKind = false) :
    dropPhantoms x b = b :=
  if_neg (by rw [h]; decide)

/-- One count report, and then the releases in queue order. -/
theorem dropPhantoms_some (h : (b.vt.occupants.at x).any Occupant.phantomKind = true) :
    let queue := b.vt.occupants.at x
    ∃ c, CountsReported { b with vt := { b.vt with
          occupants := b.vt.occupants.put x (queue.filter fun o => !o.phantomKind) } } c
      ∧ ReleasesInOrder ((reservedPhantoms queue).map Owner.phantom) c (dropPhantoms x b) := by
  intro queue
  refine ⟨_, reportCounts_reported _, ?_⟩
  rw [dropPhantoms, if_pos h]
  exact foldl_release_releases _ _

end

/-- Settles O55. -/
theorem clearVehicleAndPhantoms : Obligations.ClearVehicleAndPhantoms := by
  intro s m tag n a b result cleared active
  have running : s.blocks.su.mode ≠ .startUp := by rw [active]; decide
  have taken : inActive s.blocks.su.mode = true := by rw [active]; rfl
  have vehicle {r : Result} {c : Blocks} (owner : clearRecord n b = (r, c)) :
      Machine.exec (.clearVehicle m tag n) s = .next (result 0x0A r c) :=
    commandEvent_owner running taken owner
  have phantoms {r : Result} {c : Blocks} (owner : clearPhantomsOf a b = (r, c)) :
      Machine.exec (.clearPhantoms m tag a) s = .next (result 0x0B r c) :=
    commandEvent_owner running taken owner
  have clears (x : Approach) (owner : clearPhantomsOf a b = (.done, dropPhantoms x b)) : cleared x := by
    refine ⟨fun none => ?_, fun some => ?_⟩
    · rw [dropPhantoms_none none] at owner
      exact phantoms owner
    · obtain ⟨c, reported, releases⟩ := dropPhantoms_some some
      exact ⟨c, _, phantoms owner, reported, releases⟩
  refine ⟨fun none => vehicle (clearRecord_none none),
    fun v found => ⟨_, vehicle (clearRecord_some found), retire_retires _ _ _⟩,
    fun bad => phantoms (clearPhantomsOf_bad bad), fun isA => clears .A (clearPhantomsOf_A isA),
    fun isB => clears .B (clearPhantomsOf_B isB)⟩

/-! ## PASSAGE records (R48, R49, R95, R99, R100) -/

section

variable {b : Blocks} {l : Lane} {slot : BitVec 12} {r : PassageRecord} {x : Approach} {t : Time}

theorem exec_passage (s : State) (l : Lane) (slot : BitVec 12) (r : PassageRecord) :
    exec (.passage l slot r) s = .next (s.became (takeRecord l slot (.passage r) s.blocks)) := rfl

/-- A PASSAGE in order of a lane that is LIVE, DEGRADED or FAULTED is delivered. -/
theorem takeRecord_passage
    (states : (b.lane l).state = .live ∨ (b.lane l).state = .degraded ∨ (b.lane l).state = .faulted)
    (order : InOrder (b.lane l) r.sequence) :
    takeRecord l slot (.passage r) b = deliverPassage l slot r (b.heard l r.sequence) :=
  takeRecord_heard slot states (stateAfter_passage r states) order

theorem deliverPassage_misdirected (h : l.val ≠ loopLane b.profile (laneApproach b.profile l)) :
    deliverPassage l slot r b = laneFaultRecord .misdirected l slot b :=
  if_pos h

theorem deliverPassage_short (h : l.val = loopLane b.profile (laneApproach b.profile l))
    (short : r.length.toNat < heavyLenMin b.profile l) : deliverPassage l slot r b = b := by
  rw [deliverPassage, if_neg (not_not.mpr h), if_pos short]

theorem deliverPassage_taken (h : l.val = loopLane b.profile (laneApproach b.profile l))
    (heavy : heavyLenMin b.profile l ≤ r.length.toNat) : deliverPassage l slot r b
      = takePassage (laneApproach b.profile l) r.loop (b.now - BitVec.ofNat 32 r.age.toNat) b := by
  rw [deliverPassage, if_neg (not_not.mpr h), if_neg (not_lt.mpr heavy)]
  rfl

theorem takePassage_outside (h : b.su.mode ≠ .active) (loop : Loop) : takePassage x loop t b = b :=
  if_pos h

theorem takePassage_spanEntry (h : b.su.mode = .active) :
    takePassage x .spanEntry t b = spanEntry x t b := if_neg (not_not.mpr h)

theorem takePassage_spanExit (h : b.su.mode = .active) : takePassage x .spanExit t b = spanExit x b :=
  if_neg (not_not.mpr h)

theorem takePassage_divertExit (h : b.su.mode = .active) :
    takePassage x .divertExit t b = divertExit x t b := if_neg (not_not.mpr h)

theorem spanExit_vehicle {n : VehicleNumber} {entry : Time} {reserved : Bool} {rest : List Occupant}
    (h : b.vt.occupants.at x = .vehicle n entry reserved :: rest) :
    spanExit x b = retire reevaluate .cleared n b := by
  simp only [spanExit, h]

theorem spanExit_phantom {k : Phantom} {entry finish : Time} {reserved overdue : Bool}
    {rest : List Occupant} (h : b.vt.occupants.at x = .phantom k entry reserved finish overdue :: rest) :
    spanExit x b = freePhantomAt k reserved b := by
  simp only [spanExit, h]

theorem spanExit_empty (h : b.vt.occupants.at x = []) : spanExit x b = b.request .unmatched := by
  simp only [spanExit, h]

/-- A phantom leaves its queue with a count report, and a reserved one's release follows (R99). -/
theorem freePhantomAt_frees (k : Phantom) (reserved : Bool) (b : Blocks) :
    ∃ c, CountsReported (b.withoutOccupants (Occupant.isPhantom k)) c
      ∧ (reserved = true → Releases (.phantom k) c (freePhantomAt k reserved b))
      ∧ (reserved = false → freePhantomAt k reserved b = c) := by
  refine ⟨_, reportCounts_reported _, fun held => ?_, fun free => ?_⟩
  · subst held
    exact release_releases (.phantom k) _
  · subst free
    rfl

/-! ### The records that a passage may match -/

theorem inWindow_iff (p a z : Time) : inWindow p a z = true ↔ (p - a).toNat ≤ (z - a).toNat := by
  simp [inWindow]

theorem entryCandidate_iff {s1 s2 : VehicleState} (w : VehicleRecord) :
    entryCandidate x t s1 s2 w = true ↔ (w.approach = x
      ∧ (t - w.times.e0).toNat ≤ (w.times.e1 - w.times.e0).toNat) ∧ (w.state = s1 ∨ w.state = s2) := by
  simp only [entryCandidate, Bool.and_eq_true, Bool.or_eq_true, decide_eq_true_eq, inWindow_iff]
  tauto

theorem divertCandidate_iff (w : VehicleRecord) :
    divertCandidate x t w = true ↔ w.approach = x
      ∧ (w.state = .diverted ∨ w.state = .divertUnconfirmed)
      ∧ (t - w.times.v0).toNat ≤ (w.times.v1 - w.times.v0).toNat := by
  simp only [divertCandidate, Bool.and_eq_true, Bool.or_eq_true, decide_eq_true_eq, inWindow_iff,
    and_assoc]

/-- The record that goes before every other of those named is the earliest. -/
theorem earliest_eq_some {p : VehicleRecord → Bool} {v : VehicleRecord} (mem : v ∈ b.vt.table)
    (named : p v = true)
    (first : ∀ w ∈ b.vt.table, p w = true → w ≠ v →
      matchedBefore v w = true ∧ matchedBefore w v = false) : b.earliest p = some v :=
  bestOf_eq _ (List.mem_filter.mpr ⟨mem, named⟩) fun w mem ne => by
    obtain ⟨mem, named⟩ := List.mem_filter.mp mem
    exact first w mem named ne

theorem earliest_eq_none {p : VehicleRecord → Bool} (h : ∀ w ∈ b.vt.table, p w = false) :
    b.earliest p = none := by
  rw [Blocks.earliest, List.filter_eq_nil_iff.mpr fun w mem => by rw [h w mem]; decide]
  rfl

theorem divertExit_some {v : VehicleRecord} (h : b.earliest (divertCandidate x t) = some v) :
    divertExit x t b = retire reevaluate .divertConfirmed v.number b := by
  simp only [divertExit, h]

theorem divertExit_none (h : b.earliest (divertCandidate x t) = none) :
    divertExit x t b = b.request .unmatched := by
  simp only [divertExit, h]

end

/-- Settles O36. -/
theorem spanExitClearsTheHead : Obligations.SpanExitClearsTheHead := by
  intro s l slot r b p u x time taken awaited states order active loopLane heavy
  have passes : takeRecord l slot (.passage r) b = takePassage x r.loop time taken := by
    rw [takeRecord_passage states order]
    exact deliverPassage_taken (b := b.heard l r.sequence) loopLane heavy
  refine ⟨fun n entry reserved rest loop head => ?_,
    fun k entry finish reserved overdue rest loop head => ?_,
    fun v mem loop distinct awaits first => ?_⟩
  · refine ⟨_, exec_passage s l slot r, ?_⟩
    rw [passes, loop, takePassage_spanExit (b := taken) active, spanExit_vehicle (b := taken) head]
    exact retire_retires _ _ _
  · obtain ⟨c, reported, releases, free⟩ := freePhantomAt_frees k reserved taken
    refine ⟨c, _, exec_passage s l slot r, reported, ?_, ?_⟩
    · rw [passes, loop, takePassage_spanExit (b := taken) active, spanExit_phantom (b := taken) head]
      exact releases
    · rw [passes, loop, takePassage_spanExit (b := taken) active, spanExit_phantom (b := taken) head]
      exact free
  · refine ⟨_, exec_passage s l slot r, ?_⟩
    have earliest : taken.earliest (divertCandidate x time) = some v :=
      earliest_eq_some mem ((divertCandidate_iff v).mpr awaits)
        fun w mem named ne => first w mem ((divertCandidate_iff w).mp named) ne
    rw [passes, loop, takePassage_divertExit (b := taken) active, divertExit_some earliest]
    exact retire_retires _ _ _

/-! ## Sweeps that find nothing to revoke, and reservations made OPEN (R119, R124) -/

section

variable {b : Blocks} {o : Owner}

theorem revokeWhile_stops {goOn : Blocks → Bool} (h : goOn b = false) (among : VehicleRecord → Bool)
    (n : Nat) (any : Bool) : revokeWhile goOn among n (b, any) = (b, any) := by
  cases n with
  | zero => rfl
  | succ n => simp only [revokeWhile, h, Bool.false_eq_true, if_false]

/-- Without an overload and without an alarm the sweep does nothing. -/
theorem shortfallSweep_idle (alarm : b.au.alarm = false) (load : overloaded b = false) :
    shortfallSweep b = b := by
  unfold shortfallSweep sweepAfter
  rw [revokeWhile_stops load]
  exact evalAlarm_agrees (alarm.trans load.symm) true

/-- The blocks with the reservation of an owner made OPEN. -/
def Blocks.opened (b : Blocks) (o : Owner) : Blocks := { b with au := { b.au with
  reservations := b.au.reservations.map fun w => if w.owner = o then { w with finish := none } else w } }

theorem holds_iff (b : Blocks) (o : Owner) :
    b.holds o = true ↔ ∃ w ∈ b.au.reservations, w.owner = o := by
  simp [Blocks.holds]

theorem opened_of_not_holds (h : b.holds o = false) : b.opened o = b := by
  have others : ∀ w ∈ b.au.reservations, w.owner ≠ o := by simpa [Blocks.holds] using h
  have same : (b.au.reservations.map fun w => if w.owner = o then { w with finish := none } else w)
      = b.au.reservations :=
    (List.map_congr_left fun w mem => if_neg (others w mem)).trans (List.map_id _)
  rw [Blocks.opened, same]

theorem makeOpen_holds (h : b.holds o = true) : makeOpen o b = shortfallSweep (b.opened o) := if_pos h

/-- Where the sweep finds nothing to do, a reservation is made OPEN and nothing else happens. -/
theorem makeOpen_idle (alarm : b.au.alarm = false) (load : overloaded (b.opened o) = false) :
    makeOpen o b = b.opened o := by
  cases held : b.holds o with
  | false =>
    rw [opened_of_not_holds held]
    exact if_neg (by rw [held]; decide)
  | true =>
    rw [makeOpen_holds held]
    exact shortfallSweep_idle (b := b.opened o) alarm load

end

/-! ## PHANTOM_END_TIME (R98) -/

section

variable {b : Blocks} {k : Phantom} {e t : Time} {r : Bool}

/-- The mark of an overdue phantom, on one occupant. -/
theorem onlyFor_markOverdue (k : Phantom) (o : Occupant) :
    onlyFor (Occupant.isPhantom k) Occupant.markOverdue o = match o with
      | .phantom j e r t d => .phantom j e r t (d || decide (j = k))
      | .vehicle m e r => .vehicle m e r := by
  cases o with
  | vehicle m e r => rfl
  | phantom j e r t d => by_cases same : j = k <;>
      simp [onlyFor, Occupant.isPhantom, Occupant.markOverdue, same]

/-- The blocks with a phantom marked overdue in its queue. -/
def Blocks.overduePhantom (b : Blocks) (k : Phantom) : Blocks :=
  let mark := onlyFor (Occupant.isPhantom k) Occupant.markOverdue
  b.onVt fun v => { v with occupants := ⟨v.occupants.a.map mark, v.occupants.b.map mark⟩ }

theorem reachPhantomEnd_reached (h : b.phantom k = some (.phantom k e r t false))
    (now : reached b.now t = true) : reachPhantomEnd k b
      = (if r then makeOpen (.phantom k) (b.overduePhantom k) else b.overduePhantom k).request
          .overdue := by
  simp only [reachPhantomEnd, h, now, if_true]
  rfl

theorem reachPhantomEnd_none (h : b.phantom k = none) : reachPhantomEnd k b = b := by
  simp only [reachPhantomEnd, h]

theorem reachPhantomEnd_early {o : Bool} (h : b.phantom k = some (.phantom k e r t o))
    (late : o = true ∨ reached b.now t = false) : reachPhantomEnd k b = b := by
  cases o with
  | true => simp only [reachPhantomEnd, h]
  | false =>
    have early := late.resolve_left (by decide)
    simp only [reachPhantomEnd, h, early, Bool.false_eq_true, if_false]

end

/-- Settles O43. -/
theorem phantomEndTimeMarksOverdue : Obligations.PhantomEndTimeMarksOverdue := by
  intro s k b marked
  let outcome (c : Blocks) : Host.Outcome State Fault Refusal := .next (s.became c)
  refine ⟨fun e t r found now => ?_, fun none => congrArg outcome (reachPhantomEnd_none none),
    fun e t r o found late => congrArg outcome (reachPhantomEnd_early found late)⟩
  intro opened flagged
  have mark : onlyFor (Occupant.isPhantom k) Occupant.markOverdue = marked :=
    funext (onlyFor_markOverdue k)
  have overdue : b.overduePhantom k = { b with vt := { b.vt with
      occupants := ⟨b.vt.occupants.a.map marked, b.vt.occupants.b.map marked⟩ } } := by
    rw [Blocks.overduePhantom, mark]
    rfl
  have acts := congrArg outcome (reachPhantomEnd_reached found now)
  cases r with
  | false =>
    have free : opened = b.overduePhantom k := by rw [overdue]; rfl
    refine ⟨fun _ => ?_, fun reserved => absurd reserved (by decide)⟩
    rw [free]
    exact acts
  | true =>
    have open_ : opened = (b.overduePhantom k).opened (.phantom k) := by rw [overdue]; rfl
    refine ⟨fun quiet => ?_, fun _ holder distinct rs revokes => ?_⟩
    · obtain ⟨alarm, load⟩ := quiet.resolve_right (by decide)
      have made : makeOpen (.phantom k) (b.overduePhantom k) = opened := by
        rw [open_] at load ⊢
        exact makeOpen_idle (b := b.overduePhantom k) alarm load
      rw [if_pos rfl, made] at acts
      exact acts
    · have made : makeOpen (.phantom k) (b.overduePhantom k) = shortfallSweep opened := by
        rw [open_]
        exact makeOpen_holds ((holds_iff _ _).mpr holder)
      rw [if_pos rfl, made] at acts
      exact ⟨_, acts, shortfallSweep_ends (b := opened) distinct revokes⟩

end Sys2Proof.Machine

namespace Sys2Proof.Machine

/-! ## Directives whose report finds nothing to mark (R92, R146, R147) -/

section

variable {b : Blocks} {x : Approach} {e : Directive}

/-- The blocks with no vehicle record. -/
def Blocks.recordless (b : Blocks) : Blocks := { b with vt := { b.vt with table := [] } }

/-- The drop of the directive, if it comes to that, is reported to no record that it would mark. -/
def ReportsNothing (e : Directive) (b : Blocks) : Prop :=
  ∀ c : Blocks, c.vt = b.vt → reportDrop e c = c ∧ c.dropReported e = c

theorem dropReported_recordless (b : Blocks) (table : b.vt.table = []) (e : Directive) :
    b.dropReported e = b := by
  unfold Blocks.dropReported
  rw [table]
  split <;> simp_all

theorem reportDrop_recordless (b : Blocks) (table : b.vt.table = []) (e : Directive) :
    reportDrop e b = b := by
  simp only [reportDrop, namedByReport, table, List.find?_nil]

theorem setOverflow_recordless (x : Approach) (b : Blocks) :
    setOverflow x b = { setOverflow x b.recordless with vt := b.vt } := by
  unfold setOverflow
  by_cases held : b.du.overflow.at x = true
  · rw [if_pos held, if_pos (show b.recordless.du.overflow.at x = true from held)]
    rfl
  · rw [if_neg held, if_neg (show ¬ b.recordless.du.overflow.at x = true from held)]
    rfl

theorem dropDirective_recordless (x : Approach) (h : ReportsNothing e b) :
    dropDirective x e b = { dropDirective x e b.recordless with vt := b.vt } := by
  have overflow := setOverflow_recordless x (b.request .directiveOverflow)
  have vt : (setOverflow x (b.request .directiveOverflow)).vt = b.vt := by rw [overflow]; rfl
  have table : (setOverflow x (b.recordless.request .directiveOverflow)).vt.table = [] := by
    rw [setOverflow_recordless]; rfl
  unfold dropDirective
  cases e.kind with
  | divert =>
    dsimp only
    rw [(h _ vt).1, reportDrop_recordless _ table, ite_self, ite_self]
    exact overflow
  | proceed => exact overflow
  | standingOn | standingOff => exact congrArg (markResend e.lane) overflow

theorem queueDirective_recordless (x : Approach) (h : ReportsNothing e b) :
    queueDirective x e b = { queueDirective x e b.recordless with vt := b.vt } := by
  have same : b.recordless.directives x = b.directives x := rfl
  unfold queueDirective
  dsimp only
  rw [same]
  split_ifs
  · rfl
  · split
    · exact dropDirective_recordless x h
    · split_ifs <;> rfl
  · exact dropDirective_recordless x h

theorem told_recordless (x : Approach) (h : ReportsNothing e b) :
    b.told x e = { b.recordless.told x e with vt := b.vt } := by
  have drop (c : Blocks) (vt : c.vt = b.vt) :
      c.dropReported e = { c.recordless.dropReported e with vt := b.vt } := by
    rw [(h c vt).2, dropReported_recordless c.recordless rfl, ← vt]
    rfl
  have same : b.recordless.du = b.du := rfl
  unfold Blocks.told
  rw [same]
  cases dropped : (joins (b.du.queues.at x) e).dropped with
  | false =>
    simp only [dropped, Bool.false_eq_true, if_false]
    rfl
  | true =>
    simp only [dropped, if_true]
    exact drop _ rfl

/-- An entry whose drop marks nothing joins its queue, whatever numbers the table holds. -/
theorem queueDirective_reportless (h : ReportsNothing e b) : queueDirective x e b = b.told x e := by
  rw [queueDirective_recordless x h, told_recordless x h,
    queueDirective_told x (b := b.recordless) fun _ _ r mem => absurd mem List.not_mem_nil]

/-- Where every record of its number is marked UNWARNED already, the drop marks nothing. -/
theorem reportsNothing_of_unwarned
    (h : ∀ r ∈ b.vt.table, r.number = e.vehicle → r.flags.unwarned = true) : ReportsNothing e b := by
  intro c same
  constructor
  · unfold reportDrop
    split
    · rfl
    · rename_i r found
      have number : r.number = e.vehicle := by
        have named := List.find?_some found
        simp only [Bool.and_eq_true, beq_iff_eq] at named
        exact named.1.1
      unfold markUnwarned
      split
      · rfl
      · rename_i w record
        have mem : w ∈ b.vt.table := same ▸ List.mem_of_find?_eq_some record
        rw [if_pos (h w mem ((record_number record).trans number))]
  · unfold Blocks.dropReported
    dsimp only
    generalize found : (if e.kind = .divert ∧ e.tracked = true then
      List.find? _ c.vt.table else none) = o
    cases o with
    | none => rfl
    | some r =>
      split_ifs at found with told
      have mem : r ∈ b.vt.table := same ▸ List.mem_of_find?_eq_some found
      have named := List.find?_some found
      simp only [Bool.and_eq_true, decide_eq_true_eq] at named
      exact if_pos (h r mem named.1.1)

end

/-! ## The expiries of a record, one by one (R86 to R90) -/

section

variable {b : Blocks} {n : VehicleNumber} {v : VehicleRecord} {again : Blocks → Blocks}

/-- An expiry reached and not yet served leaves a DIVERTED record as it is: D is not reached, or the
directive is delivered, or the record is marked already (R87). -/
def VehicleRecord.warned (v : VehicleRecord) (now : Time) : Prop :=
  v.dReached now = false ∨ v.delivery.isSome = true ∨ v.flags.unwarned = true

/-- The state of a record in ADMITTED or COMMITTED once its D and its E1 are served. -/
def VehicleRecord.admittedOn (v : VehicleRecord) (now : Time) : VehicleState :=
  let st := if v.state = .admitted && v.dReached now then .committed else v.state
  if (st = .admitted || st = .committed) && v.e1Reached now then .missing else st

theorem examineAdmitted_eq (h : b.record n = some v) :
    examineAdmitted again n b = if v.admittedOn b.now = .missing && v.tReached b.now then
        retire again .lost n (b.onRecord n (·.to (v.admittedOn b.now)))
      else b.onRecord n (·.to (v.admittedOn b.now)) := by
  simp only [examineAdmitted, h]
  rfl

theorem examineAdmitted_stays (h : b.record n = some v)
    (stays : v.admittedOn b.now ≠ .missing ∨ v.tReached b.now = false) :
    examineAdmitted again n b = b.onRecord n (·.to (v.admittedOn b.now)) := by
  rw [examineAdmitted_eq h, if_neg]
  rcases stays with other | early
  · simp [other]
  · simp [early]

theorem examineAdmitted_lost (h : b.record n = some v) (missing : v.admittedOn b.now = .missing)
    (now : v.tReached b.now = true) : examineAdmitted again n b
      = retire again .lost n (b.onRecord n (·.to .missing)) := by
  rw [examineAdmitted_eq h, missing, now]
  rfl

theorem admittedOn_committed {now : Time} (state : v.state = .admitted) (d : v.dReached now = true)
    (early : v.e1Reached now = false) : v.admittedOn now = .committed := by
  simp [VehicleRecord.admittedOn, state, d, early]

theorem admittedOn_missing {now : Time} (state : v.state = .admitted) (e1 : v.e1Reached now = true) :
    v.admittedOn now = .missing := by
  cases d : v.dReached now <;> simp [VehicleRecord.admittedOn, state, d, e1]

theorem markUnwarned_clear (h : b.record n = some v) (clear : v.flags.unwarned = false) :
    markUnwarned n b = (b.onRecord n fun r =>
      { r with flags := { r.flags with unwarned := true } }).request .unwarned := by
  simp only [markUnwarned, h, clear, Bool.false_eq_true, if_false]

theorem markUnwarned_marked (h : b.record n = some v) (marked : v.flags.unwarned = true) :
    markUnwarned n b = b := by
  simp only [markUnwarned, h, marked, if_true]

/-! ### D (R87, R123) -/

theorem serveD_none (h : b.record n = none) : serveD n b = b := by
  simp only [serveD, h]

theorem serveD_early (h : b.record n = some v) (early : v.dReached b.now = false) : serveD n b = b := by
  simp only [serveD, h, early, Bool.not_false, if_true]

theorem serveD_admitted (h : b.record n = some v) (d : v.dReached b.now = true)
    (state : v.state = .admitted) : serveD n b = examineAdmitted reevaluate n b := by
  simp only [serveD, h, d, state, Bool.not_true, Bool.false_eq_true, if_false]

theorem serveD_held (h : b.record n = some v) (d : v.dReached b.now = true) (state : v.state = .held) :
    serveD n b = divertHeld v b := by
  simp only [serveD, h, d, state, Bool.not_true, Bool.false_eq_true, if_false]

theorem serveD_diverted (h : b.record n = some v) (d : v.dReached b.now = true)
    (state : v.state = .diverted) :
    serveD n b = if v.delivery.isNone then markUnwarned n b else b := by
  simp only [serveD, h, d, state, Bool.not_true, Bool.false_eq_true, if_false]

/-- A record that D does not move, and that is warned where it is DIVERTED. -/
theorem serveD_same (h : b.record n = some v)
    (quiet : v.dReached b.now = false ∨ (v.state ≠ .admitted ∧ v.state ≠ .held
      ∧ (v.state = .diverted → v.delivery.isSome = true ∨ v.flags.unwarned = true))) :
    serveD n b = b := by
  by_cases early : v.dReached b.now = false
  · exact serveD_early h early
  have d : v.dReached b.now = true := by simpa using early
  obtain ⟨notAdmitted, notHeld, warned⟩ := quiet.resolve_left early
  cases state : v.state with
  | admitted => exact absurd state notAdmitted
  | held => exact absurd state notHeld
  | diverted =>
    rw [serveD_diverted h d state]
    rcases warned state with delivered | marked
    · rw [if_neg (by rw [Option.isNone_iff_eq_none]; exact Option.ne_none_iff_isSome.mpr delivered)]
    · rw [markUnwarned_marked h marked, ite_self]
  | committed | onSpan | overdue | missing | divertUnconfirmed =>
    simp only [serveD, h, d, state, Bool.not_true, Bool.false_eq_true, if_false]

theorem serveD_marks (h : b.record n = some v) (state : v.state = .diverted)
    (unwarned : ¬ v.warned b.now) : serveD n b = (b.onRecord n fun r =>
      { r with flags := { r.flags with unwarned := true } }).request .unwarned := by
  unfold VehicleRecord.warned at unwarned
  push Not at unwarned
  obtain ⟨d, delivery, clear⟩ := unwarned
  rw [serveD_diverted h (by simpa using d) state, if_pos (by simpa using delivery),
    markUnwarned_clear h (by simpa using clear)]

/-! ### E1 and V1 (R88, R89) -/

theorem serveE1_none (h : b.record n = none) : serveE1 n b = b := by
  simp only [serveE1, h]

theorem serveE1_same (h : b.record n = some v)
    (quiet : v.e1Reached b.now = false ∨ (v.state ≠ .admitted ∧ v.state ≠ .committed)) :
    serveE1 n b = b := by
  by_cases early : v.e1Reached b.now = false
  · simp only [serveE1, h, early, Bool.not_false, if_true]
  obtain ⟨notAdmitted, notCommitted⟩ := quiet.resolve_left early
  unfold serveE1
  rw [h]
  dsimp only
  rw [if_neg (by simpa using early)]
  split
  · exact absurd ‹_› notAdmitted
  · exact absurd ‹_› notCommitted
  all_goals rfl

theorem serveE1_moves (h : b.record n = some v) (e1 : v.e1Reached b.now = true)
    (state : v.state = .admitted ∨ v.state = .committed) : serveE1 n b = goMissing n v b := by
  rcases state with state | state <;>
    simp only [serveE1, h, e1, state, Bool.not_true, Bool.false_eq_true, if_false]

theorem goMissing_early (early : v.tReached b.now = false) :
    goMissing n v b = b.onRecord n (·.to .missing) :=
  if_neg (by rw [Bool.not_eq_true]; exact early)

theorem goMissing_lost (now : v.tReached b.now = true) :
    goMissing n v b = retire reevaluate .lost n (b.onRecord n (·.to .missing)) :=
  if_pos now

theorem serveV1_none (h : b.record n = none) : serveV1 n b = b := by
  simp only [serveV1, h]

theorem serveV1_same (h : b.record n = some v)
    (quiet : v.v1Reached b.now = false ∨ v.state ≠ .diverted) : serveV1 n b = b := by
  by_cases early : v.v1Reached b.now = false
  · simp only [serveV1, h, early, Bool.not_false, if_true]
  unfold serveV1
  rw [h]
  dsimp only
  rw [if_neg (by simpa using early)]
  split
  · exact absurd ‹_› (quiet.resolve_left early)
  all_goals rfl

theorem serveV1_moves (h : b.record n = some v) (v1 : v.v1Reached b.now = true)
    (state : v.state = .diverted) : serveV1 n b = goUnconfirmed n v b := by
  simp only [serveV1, h, v1, state, Bool.not_true, Bool.false_eq_true, if_false]

theorem goUnconfirmed_early (early : v.tReached b.now = false) :
    goUnconfirmed n v b = b.onRecord n (·.to .divertUnconfirmed) :=
  if_neg (by rw [Bool.not_eq_true]; exact early)

theorem goUnconfirmed_lost (now : v.tReached b.now = true) :
    goUnconfirmed n v b = retire reevaluate .lost n (b.onRecord n (·.to .divertUnconfirmed)) :=
  if_pos now

theorem record_onRecord_some (h : b.record n = some v) (f : VehicleRecord → VehicleRecord)
    (hf : ∀ r, (f r).number = r.number) : (b.onRecord n f).record n = some (f v) := by
  rw [record_onRecord b n f hf, h]
  rfl

end

/-! ## DECISION_DEADLINE (R87, R123) -/

section

variable {b : Blocks} {n : VehicleNumber} {v : VehicleRecord}

/-- A DIVERTED record with its D reached, no delivery and no mark, before its V1, is marked. -/
theorem examineDiverted_marks (h : b.record n = some v) (state : v.state = .diverted)
    (d : v.dReached b.now = true) (delivery : v.delivery = none) (clear : v.flags.unwarned = false)
    (early : v.v1Reached b.now = false) : examineDiverted n b = (b.onRecord n fun r =>
      { r with flags := { r.flags with unwarned := true } }).request .unwarned := by
  have now : (markUnwarned n b).now = b.now := by rw [markUnwarned_clear h clear]; rfl
  simp only [examineDiverted, h, state, d, delivery, Option.isNone_none, Bool.and_self, if_true,
    ne_eq, not_true, if_false]
  rw [if_neg (by rw [now, early]; decide), markUnwarned_clear h clear]

/-- D of a HELD vehicle, before its V1 (R123). -/
theorem divertHeld_told (h : b.record n = some v) (d : v.dReached b.now = true)
    (delivery : v.delivery = none) (clear : v.flags.unwarned = false)
    (early : v.v1Reached b.now = false) :
    divertHeld v b = Blocks.told { b.recordNow n (fun w => { w with
        state := .diverted, verdict := some (.divert .spanFull)
        flags := { w.flags with unwarned := true } }) with
      au := { b.au with held := b.au.held.erase n }
      csu := { b.csu with flags := b.csu.flags ||| Flag.unwarned.bit } } v.approach
      (directiveFor .divert .spanFull v) := by
  obtain rfl := record_number h
  let c : Blocks := b.onAu fun a => { a with held := a.held.erase v.number }
  let f (w : VehicleRecord) : VehicleRecord :=
    { w with state := .diverted, verdict := some (.divert .spanFull) }
  let marked (w : VehicleRecord) : VehicleRecord := { f w with flags := { w.flags with unwarned := true } }
  have record : (divertRecord .spanFull v.number c).record v.number = some (f v) :=
    record_onRecord_some (b := c) h f fun _ => rfl
  have moved : examineDiverted v.number (divertRecord .spanFull v.number c)
      = (c.recordNow v.number marked).request .unwarned := by
    rw [examineDiverted_marks record rfl d delivery clear early]
    exact congrArg (·.request .unwarned) (onRecord_onRecord c v.number f _ fun _ => rfl)
  have reportless : ReportsNothing (directiveFor .divert .spanFull v)
      ((c.recordNow v.number marked).request .unwarned) := by
    refine reportsNothing_of_unwarned fun r mem number => ?_
    obtain ⟨w, -, rfl⟩ := List.mem_map.mp mem
    by_cases same : w.number = v.number
    · simp only [if_pos same]
      rfl
    · simp only [if_neg same] at number
      exact absurd number same
  have directive : vehicleDirective .divert v.lane .spanFull v.number v.gross v.times.d
      = directiveFor .divert .spanFull v := by
    simp [vehicleDirective, directiveFor, directiveGross]
  change queueVehicle .divert .spanFull v (examineDiverted v.number
    (divertRecord .spanFull v.number c)) = _
  rw [moved, queueVehicle, directive]
  exact queueDirective_reportless reportless

end

/-- Settles O40, by the record's state. -/
theorem decisionDeadlineActsByState : Obligations.DecisionDeadlineActsByState := by
  intro s n b table unwarned
  let outcome (c : Blocks) : Host.Outcome State Fault Refusal := .next (s.became c)
  refine ⟨fun v found d => ⟨fun state early => congrArg outcome ?_,
    fun state delivery clear early => congrArg outcome ?_, fun state delivery clear => congrArg outcome ?_,
    fun quiet => congrArg outcome ?_⟩, fun early => congrArg outcome ?_⟩
  · have committed := admittedOn_committed state d early
    exact (serveD_admitted found d state).trans ((examineAdmitted_stays found
      (.inl (by rw [committed]; decide))).trans (by rw [committed]; rfl))
  · refine (serveD_held found d state).trans ((divertHeld_told found d delivery clear early).trans ?_)
    obtain rfl := record_number found
    rfl
  · refine (serveD_marks found state ?_).trans rfl
    simp [VehicleRecord.warned, d, delivery, clear]
  · refine serveD_same found (.inr ?_)
    rcases quiet with ⟨state, warned⟩ | ⟨notAdmitted, notHeld, notDiverted⟩
    · exact ⟨by rw [state]; decide, by rw [state]; decide, fun _ => warned⟩
    · exact ⟨notAdmitted, notHeld, fun state => absurd state notDiverted⟩
  · change serveD n b = b
    cases found : b.record n with
    | none => exact serveD_none found
    | some v => exact serveD_early found (early v found)

end Sys2Proof.Machine

namespace Sys2Proof.Machine

/-! ## What a served expiry leaves of a record (R86, R101) -/

section

variable {b c : Blocks} {n : VehicleNumber} {v : VehicleRecord} {again : Blocks → Blocks}

/-- A retired vehicle has no record. -/
theorem record_retire (again : Blocks → Blocks) (o : JournalOutcome) (n : VehicleNumber) (b : Blocks) :
    (retire again o n b).record n = none := by
  unfold retire
  dsimp only
  split
  · assumption
  · exact List.find?_eq_none.mpr fun r mem => by
      have other := (List.mem_filter.mp mem).2
      simpa using other

theorem record_onRecord_of (b : Blocks) (n m : VehicleNumber) (f : VehicleRecord → VehicleRecord)
    (hf : ∀ r, (f r).number = r.number) :
    (b.onRecord m f).record n = (b.record n).map fun r => if r.number = m then f r else r := by
  unfold Blocks.onRecord Blocks.onVt Blocks.record
  simp only [List.find?_map]
  congr 2
  funext r
  by_cases same : r.number = m <;> simp [same, hf]

/-- The record of a number, if there is one, is past what E1 and V1 can move: it is DIVERT_UNCONFIRMED,
or DIVERTED before its V1. -/
def LeftDiverted (now : Time) (n : VehicleNumber) (c : Blocks) : Prop :=
  ∀ w, c.record n = some w → w.state = .divertUnconfirmed ∨ (w.state = .diverted ∧ w.v1Reached now = false)

theorem duKept_leftDiverted (now : Time) (n : VehicleNumber) : DuKept (LeftDiverted now n) where
  du _ _ _ h := h
  overflow _ h := h

theorem LeftDiverted.markUnwarned {now : Time} (h : LeftDiverted now n c) (m : VehicleNumber) :
    LeftDiverted now n (markUnwarned m c) := by
  unfold Machine.markUnwarned
  split
  · exact h
  · split_ifs
    · exact h
    · intro w found
      have map := record_onRecord_of c n m (fun r =>
        { r with flags := { r.flags with unwarned := true } }) fun _ => rfl
      obtain ⟨w', found', rfl⟩ := Option.map_eq_some_iff.mp (map.symm.trans found)
      have left := h w' found'
      dsimp only
      split_ifs
      · exact left
      · exact left

theorem LeftDiverted.queueVehicle {now : Time} (h : LeftDiverted now n c) (kind : DirectiveKind)
    (x : Reason) (r : VehicleRecord) : LeftDiverted now n (queueVehicle kind x r c) := by
  have k := duKept_leftDiverted now n
  refine k.queueWith _ _ ?_ h
  have overflown := k.setOverflow r.approach (k.overflow c h)
  unfold Machine.dropDirective
  dsimp only
  split
  · split_ifs
    · unfold Machine.reportDrop
      split
      · exact overflown
      · exact overflown.markUnwarned _
    · exact overflown
  · exact overflown
  · exact k.markResend _ overflown
  · exact k.markResend _ overflown

theorem record_markUnwarned (h : b.record n = some v) : ∃ flags : VehicleFlags,
    (markUnwarned n b).record n = some { v with flags } := by
  by_cases marked : v.flags.unwarned = true
  · rw [markUnwarned_marked h marked]
    exact ⟨v.flags, h⟩
  · rw [markUnwarned_clear h (by simpa using marked)]
    exact ⟨{ v.flags with unwarned := true }, record_onRecord_some h _ fun _ => rfl⟩

/-- The record that enters DIVERTED is left past its V1, if that is reached, or gone with its T. -/
theorem leftDiverted_examineDiverted (h : b.record n = some v) (state : v.state = .diverted) :
    LeftDiverted b.now n (examineDiverted n b) := by
  have marks : ∃ flags : VehicleFlags,
      (if v.dReached b.now && v.delivery.isNone then markUnwarned n b else b).record n
        = some { v with flags } := by
    split_ifs
    · exact record_markUnwarned h
    · exact ⟨v.flags, h⟩
  have now : (if v.dReached b.now && v.delivery.isNone then markUnwarned n b else b).now = b.now := by
    split_ifs
    · exact congrArg Supervisor.clock ((laneKept_su b.su).markUnwarned n rfl)
    · rfl
  unfold examineDiverted
  rw [h]
  dsimp only
  rw [if_neg (not_not.mpr state)]
  generalize (if v.dReached b.now && v.delivery.isNone then markUnwarned n b else b) = c at marks now ⊢
  obtain ⟨flags, marked⟩ := marks
  have unconfirmed : (c.onRecord n (·.to .divertUnconfirmed)).record n
      = some (({ v with flags } : VehicleRecord).to .divertUnconfirmed) :=
    record_onRecord_some marked _ fun _ => rfl
  intro w
  split_ifs with v1 late
  · rw [record_retire]
    exact fun found => absurd found (by simp)
  · rw [unconfirmed]
    rintro ⟨⟩
    exact .inl rfl
  · rw [marked]
    rintro ⟨⟩
    refine .inr ⟨state, ?_⟩
    rw [now] at v1
    exact (by simpa using v1 : v.v1Reached b.now = false)

theorem leftDiverted_divertHeld (h : b.record n = some v) : LeftDiverted b.now n (divertHeld v b) := by
  obtain rfl := record_number h
  refine LeftDiverted.queueVehicle ?_ _ _ _
  exact leftDiverted_examineDiverted (b := divertRecord .spanFull v.number
    (b.onAu fun a => { a with held := a.held.erase v.number }))
    (record_onRecord_some (b := b.onAu _) h _ fun _ => rfl) rfl

theorem divertHeld_now (v : VehicleRecord) (b : Blocks) : (divertHeld v b).now = b.now :=
  congrArg Supervisor.clock ((laneKept_su b.su).divertHeld v rfl)

/-- E1 and V1 have nothing to do in a HELD record whose D is served. -/
theorem serveE1_divertHeld (h : b.record n = some v) : serveE1 n (divertHeld v b) = divertHeld v b := by
  have left := leftDiverted_divertHeld h
  cases found : (divertHeld v b).record n with
  | none => exact serveE1_none found
  | some w =>
    refine serveE1_same found (.inr ?_)
    rcases left w found with state | ⟨state, -⟩ <;> rw [state] <;> decide

theorem serveV1_divertHeld (h : b.record n = some v) : serveV1 n (divertHeld v b) = divertHeld v b := by
  have left := leftDiverted_divertHeld h
  cases found : (divertHeld v b).record n with
  | none => exact serveV1_none found
  | some w =>
    refine serveV1_same found ?_
    rw [divertHeld_now]
    rcases left w found with state | ⟨-, early⟩
    · exact .inr (by rw [state]; decide)
    · exact .inl early

/-! ### E1 and V1 with the expiries before them (R86) -/

theorem reachE1_early (h : ∀ v, b.record n = some v → v.e1Reached b.now = false) : reachE1 n b = b := by
  refine if_neg ?_
  cases found : b.record n with
  | none => simp
  | some v => simp [h v found]

theorem reachE1_reached (h : b.record n = some v) (e1 : v.e1Reached b.now = true) :
    reachE1 n b = serveE1 n (serveD n b) := if_pos (by simpa [h] using e1)

theorem reachV1_early (h : ∀ v, b.record n = some v → v.v1Reached b.now = false) : reachV1 n b = b := by
  refine if_neg ?_
  cases found : b.record n with
  | none => simp
  | some v => simp [h v found]

theorem reachV1_reached (h : b.record n = some v) (v1 : v.v1Reached b.now = true) :
    reachV1 n b = serveV1 n (serveD n b) := if_pos (by simpa [h] using v1)

/-- D and E1 of an ADMITTED or COMMITTED record. -/
theorem serveE1_serveD (h : b.record n = some v) (e1 : v.e1Reached b.now = true)
    (state : v.state = .admitted ∨ v.state = .committed) :
    serveE1 n (serveD n b) = goMissing n v b := by
  by_cases d : v.dReached b.now = true ∧ v.state = .admitted
  · obtain ⟨d, admitted⟩ := d
    have missing := admittedOn_missing admitted e1
    rw [serveD_admitted h d admitted]
    by_cases late : v.tReached b.now = true
    · rw [examineAdmitted_lost h missing late, goMissing_lost late]
      exact serveE1_none (record_retire _ _ _ _)
    · have early : v.tReached b.now = false := by simpa using late
      rw [examineAdmitted_stays h (.inr early), missing, goMissing_early early]
      exact serveE1_same (record_onRecord_some h _ fun _ => rfl)
        (.inr ⟨by nofun, by nofun⟩)
  · have same : serveD n b = b := by
      refine serveD_same h ?_
      rcases state with state | state
      · exact .inl (by simpa [state] using d)
      · exact .inr ⟨by rw [state]; decide, by rw [state]; decide,
          fun diverted => absurd (state.symm.trans diverted) (by decide)⟩
    rw [same]
    exact serveE1_moves h e1 state

theorem serveD_warned (h : b.record n = some v) (state : v.state = .diverted) (warned : v.warned b.now) :
    serveD n b = b :=
  serveD_same h (warned.imp_right fun done =>
    ⟨by rw [state]; decide, by rw [state]; decide, fun _ => done⟩)

/-- The mark of a DIVERTED record, and then its V1. -/
theorem serveV1_serveD_marks (h : b.record n = some v) (v1 : v.v1Reached b.now = true)
    (state : v.state = .diverted) (unwarned : ¬ v.warned b.now) (early : v.tReached b.now = false) :
    serveV1 n (serveD n b) = (b.recordNow n fun w => { w with
      state := .divertUnconfirmed, flags := { w.flags with unwarned := true } }).request .unwarned := by
  have record : ((b.onRecord n fun r => { r with flags := { r.flags with unwarned := true } }).request
      .unwarned).record n = some { v with flags := { v.flags with unwarned := true } } :=
    record_onRecord_some h _ fun _ => rfl
  rw [serveD_marks h state unwarned, serveV1_moves record v1 state]
  refine (if_neg (by rw [Bool.not_eq_true]; exact early)).trans ?_
  exact congrArg (·.request .unwarned) (onRecord_onRecord b n
    (fun r => { r with flags := { r.flags with unwarned := true } }) (·.to .divertUnconfirmed) fun _ => rfl)

end

/-- Settles O41. -/
theorem windowEndsMoveTheRecord : Obligations.WindowEndsMoveTheRecord := by
  intro s n b moved served
  let outcome (c : Blocks) : Host.Outcome State Fault Refusal := .next (s.became c)
  refine ⟨fun v found early => ⟨fun e1 state => congrArg outcome ?_,
    fun v1 state warned => congrArg outcome ?_, fun v1 state unwarned => congrArg outcome ?_⟩,
    fun v found d state => ⟨fun e1 => congrArg outcome ?_, fun v1 => congrArg outcome ?_⟩,
    fun quiet => congrArg outcome ?_, fun quiet => congrArg outcome ?_⟩
  · exact (reachE1_reached found e1).trans
      ((serveE1_serveD found e1 state).trans (goMissing_early early))
  · exact (reachV1_reached found v1).trans
      (by rw [serveD_warned found state warned, serveV1_moves found v1 state, goUnconfirmed_early early]; rfl)
  · exact (reachV1_reached found v1).trans (serveV1_serveD_marks found v1 state unwarned early)
  · exact (reachE1_reached found e1).trans
      (by rw [serveD_held found d state]; exact (serveE1_divertHeld found).trans (serveD_held found d state).symm)
  · exact (reachV1_reached found v1).trans
      (by rw [serveD_held found d state]; exact (serveV1_divertHeld found).trans (serveD_held found d state).symm)
  · by_cases reached : ∃ v, b.record n = some v ∧ v.e1Reached b.now = true
    · obtain ⟨v, found, e1⟩ := reached
      obtain ⟨notAdmitted, notCommitted, d⟩ := (quiet v found).resolve_left (by rw [e1]; decide)
      have same : serveD n b = b := by
        by_cases early : v.dReached b.now = false
        · exact serveD_early found early
        · obtain ⟨notHeld, warned⟩ := d.resolve_left early
          exact serveD_same found (.inr ⟨notAdmitted, notHeld,
            fun state => (warned state).resolve_left early⟩)
      exact (reachE1_reached found e1).trans
        (by rw [same]; exact serveE1_same found (.inr ⟨notAdmitted, notCommitted⟩))
    · exact reachE1_early fun v found => by
        by_contra e1
        exact reached ⟨v, found, by simpa using e1⟩
  · by_cases reached : ∃ v, b.record n = some v ∧ v.v1Reached b.now = true
    · obtain ⟨v, found, v1⟩ := reached
      obtain ⟨notDiverted, d⟩ := (quiet v found).resolve_left (by rw [v1]; decide)
      have same : serveD n b = b := serveD_same found (d.imp_right fun ⟨notHeld, notAdmitted⟩ =>
        ⟨notAdmitted, notHeld, fun state => absurd state notDiverted⟩)
      exact (reachV1_reached found v1).trans
        (by rw [same]; exact serveV1_same found (.inr notDiverted))
    · exact reachV1_early fun v found => by
        by_contra v1
        exact reached ⟨v, found, by simpa using v1⟩

end Sys2Proof.Machine

namespace Sys2Proof.Machine

/-! ## A queue that has become empty (R148) -/

/-- The standing states with the resend marks of some lanes cleared. -/
def unmarked (lanes : Vector StandingLane 6) (ls : List Lane) : Vector StandingLane 6 :=
  Vector.ofFn fun l => { lanes[l] with resend := lanes[l].resend && !ls.contains l }

@[simp] theorem unmarked_getElem (lanes : Vector StandingLane 6) (ls : List Lane) (l : Lane) :
    (unmarked lanes ls)[l] = { lanes[l] with resend := lanes[l].resend && !ls.contains l } := by
  simp [unmarked]

/-- The directives of the marked lanes among `ls`, in their order. -/
def resentBy (b : Blocks) (ls : List Lane) : List Directive :=
  (ls.filter fun l => (b.standing l).resend).filterMap (standingResent b)

/-- The blocks after the marked lanes among `ls` have resent their standing directives to one queue with
room for them. -/
def Blocks.resent (b : Blocks) (x : Approach) (ls : List Lane) : Blocks :=
  b.onDu fun d => { d with
    queues := d.queues.put x (b.directives x ++ resentBy b ls), lanes := unmarked d.lanes ls }

section

variable {b : Blocks} {x : Approach} {l : Lane}

theorem standing_resent (b : Blocks) (x : Approach) (ls : List Lane) (k : Lane) :
    (b.resent x ls).standing k
      = { b.standing k with resend := (b.standing k).resend && !ls.contains k } :=
  unmarked_getElem _ _ _

theorem directives_resent (b : Blocks) (x : Approach) (ls : List Lane) :
    (b.resent x ls).directives x = b.directives x ++ resentBy b ls :=
  PerApproach.at_put_same _ _ _

theorem length_resentBy (b : Blocks) (ls : List Lane) : (resentBy b ls).length ≤ ls.length :=
  (List.length_filterMap_le _ _).trans (List.length_filter_le _ _)

theorem unmarked_append (lanes : Vector StandingLane 6) (ks ls : List Lane) :
    unmarked (unmarked lanes ks) ls = unmarked lanes (ks ++ ls) :=
  lanes_ext fun l => by
    rw [unmarked_getElem, unmarked_getElem, unmarked_getElem]
    simp only [List.contains_append, Bool.not_or, Bool.and_assoc]

@[simp] theorem unmarked_nil (lanes : Vector StandingLane 6) : unmarked lanes [] = lanes :=
  lanes_ext fun l => by
    rw [unmarked_getElem]
    simp only [List.contains_nil, Bool.not_false, Bool.and_true]

theorem unmarked_of_clear {lanes : Vector StandingLane 6} {l : Lane} (clear : lanes[l].resend = false) :
    unmarked lanes [l] = lanes :=
  lanes_ext fun k => by
    rw [unmarked_getElem]
    by_cases same : k = l
    · subst same
      simp only [clear, Bool.false_and]
      exact clear ▸ rfl
    · have absent : [l].contains k = false := by simpa using same
      simp only [absent, Bool.not_false, Bool.and_true]

theorem resent_nil (b : Blocks) (x : Approach) : b.resent x [] = b := by
  have queues : b.du.queues.put x (b.directives x ++ []) = b.du.queues := by
    rw [List.append_nil]
    exact PerApproach.put_at _ _
  unfold Blocks.resent Blocks.onDu
  simp only [resentBy, List.filter_nil, List.filterMap_nil, queues, unmarked_nil]

/-- A lane that is not among `ks` is resent as it was before `ks`. -/
theorem resentBy_resent (b : Blocks) (x : Approach) {ks ls : List Lane} (apart : ∀ l ∈ ls, l ∉ ks) :
    resentBy (b.resent x ks) ls = resentBy b ls := by
  have standing (l : Lane) (mem : l ∈ ls) : (b.resent x ks).standing l = b.standing l := by
    rw [standing_resent]
    simp [apart l mem]
  have marks : ls.filter (fun l => ((b.resent x ks).standing l).resend)
      = ls.filter fun l => (b.standing l).resend :=
    List.filter_congr fun l mem => by rw [standing l mem]
  unfold resentBy
  rw [marks]
  exact List.filterMap_congr fun l mem => by
    unfold standingResent
    rw [standing l (List.mem_of_mem_filter mem)]

theorem resent_append (b : Blocks) (x : Approach) {ks ls : List Lane} (apart : ∀ l ∈ ls, l ∉ ks) :
    (b.resent x ks).resent x ls = b.resent x (ks ++ ls) := by
  have queues : (b.resent x ks).directives x ++ resentBy (b.resent x ks) ls
      = b.directives x ++ resentBy b (ks ++ ls) := by
    rw [directives_resent, resentBy_resent b x apart, List.append_assoc]
    simp [resentBy]
  rw [Blocks.resent, queues]
  unfold Blocks.resent Blocks.onDu
  simp only [unmarked_append]
  cases x <;> rfl

theorem unmarked_one (lanes : Vector StandingLane 6) (l : Lane) :
    unmarked lanes [l] = lanes.set l { lanes[l] with resend := false } := by
  refine lanes_ext fun k => ?_
  rw [unmarked_getElem]
  by_cases same : k = l
  · subst same
    simp
  · simp [same, Fin.val_ne_of_ne (Ne.symm same)]

theorem resendLane_resent (place : laneApproach b.profile l = x) (room : (b.directives x).length < 16) :
    resendLane l b = b.resent x [l] := by
  by_cases mark : (b.standing l).resend = true
  · have by_one : resentBy b [l] = (standingResent b l).toList := by
      simp only [resentBy, List.filter_cons, mark, if_true, List.filter_nil, List.filterMap_cons,
        List.filterMap_nil]
      cases standingResent b l <;> rfl
    have shape : b.resent x [l] = (b.setStanding l { b.standing l with resend := false }).setDirectives x
        (b.directives x ++ (standingResent b l).toList) := by
      unfold Blocks.resent Blocks.onDu
      simp only [by_one, unmarked_one]
      rfl
    rw [shape]
    unfold resendLane queueStandingOn queueStandingOff standingResent
    simp only [mark, Bool.not_true, Bool.false_eq_true, if_false]
    cases (b.standing l).state with
    | on => exact place ▸ queue_room _ _ (b.setStanding l _) (place ▸ room)
    | off => exact place ▸ queue_room _ _ (b.setStanding l _) (place ▸ room)
    | absent =>
      rw [Option.toList_none, List.append_nil]
      exact (congrArg (fun q => (b.setStanding l _).onDu fun d => { d with queues := q })
        (PerApproach.put_at b.du.queues x)).symm
  · have clear : (b.standing l).resend = false := by simpa using mark
    have none : resentBy b [l] = [] := by simp [resentBy, clear]
    unfold resendLane
    simp only [clear, Bool.not_false, if_true]
    unfold Blocks.resent Blocks.onDu
    simp only [none, List.append_nil, show unmarked b.du.lanes [l] = b.du.lanes from unmarked_of_clear clear]
    exact (congrArg (fun q : PerApproach (List Directive) => { b with du := { b.du with queues := q } })
      (PerApproach.put_at b.du.queues x)).symm

theorem foldl_resendLane {ls : List Lane} (once : ls.Nodup)
    (place : ∀ l ∈ ls, laneApproach b.profile l = x)
    (room : (b.directives x).length + ls.length ≤ 16) :
    ls.foldl (fun b l => resendLane l b) b = b.resent x ls := by
  induction ls generalizing b with
  | nil => exact (resent_nil b x).symm
  | cons l ls ih =>
    obtain ⟨fresh, once⟩ := List.nodup_cons.mp once
    rw [List.length_cons] at room
    have room' : ((b.resent x [l]).directives x).length + ls.length ≤ 16 := by
      rw [directives_resent, List.length_append]
      have := length_resentBy b [l]
      rw [List.length_singleton] at this
      omega
    rw [List.foldl_cons, resendLane_resent (place l (by simp)) (by omega),
      ih (b := b.resent x [l]) once (fun k mem => place k (List.mem_cons_of_mem _ mem)) room',
      resent_append b x fun k mem same => fresh (by rwa [List.mem_singleton.mp same] at mem)]
    rfl

theorem mem_lanesOf : l ∈ b.lanesOf x ↔ laneInUse b.profile l = true ∧ laneApproach b.profile l = x := by
  have all : l ∈ allLanes := by revert l; decide
  simp [Blocks.lanesOf, Blocks.inUseLanes, all, and_comm]

/-- The blocks after an empty queue has ended its overflow condition and taken its marked lanes'
directives. -/
def Blocks.refilled (b : Blocks) (x : Approach) : Blocks :=
  (b.onDu fun d => { d with overflow := d.overflow.put x false }).resent x (b.lanesOf x)

theorem resentBy_lanesOf (b : Blocks) (x : Approach) : resentBy b (b.lanesOf x) = resentTo b x := by
  unfold resentBy resentTo Blocks.lanesOf Blocks.inUseLanes
  simp only [List.filter_filter]
  congr 2
  funext l
  cases laneInUse b.profile l <;> simp [Bool.and_comm]

/-- A queue that has become empty takes afresh the directives of its marked lanes, whose marks end
(R148). -/
theorem queueEmptied_refilled (empty : b.directives x = []) :
    queueEmptied x b = evalBeacons (b.refilled x) := by
  have short : (b.lanesOf x).length ≤ 6 :=
    ((List.length_filter_le _ _).trans (List.length_filter_le _ _)).trans (by decide)
  refine congrArg evalBeacons (foldl_resendLane ?_ ?_ ?_)
  · exact (allLanes_nodup.filter _).filter _
  · exact fun l mem => (mem_lanesOf (b := b).mp mem).2
  · rw [show (b.onDu fun d => { d with overflow := d.overflow.put x false }).directives x = [] from empty]
    exact (Nat.zero_add _).le.trans (short.trans (by decide))

theorem standing_refilled (b : Blocks) (x : Approach) (k : Lane) :
    (b.refilled x).standing k
      = { b.standing k with resend := (b.standing k).resend && !(b.lanesOf x).contains k } :=
  standing_resent _ _ _ _

theorem refilled_eq (empty : b.directives x = []) :
    b.refilled x = b.onDu fun d => { d with
      queues := d.queues.put x (resentTo b x), overflow := d.overflow.put x false
      lanes := (b.refilled x).du.lanes } := by
  have queue : (b.onDu fun d => { d with overflow := d.overflow.put x false }).directives x
      ++ resentBy (b.onDu fun d => { d with overflow := d.overflow.put x false }) (b.lanesOf x)
      = resentTo b x := by
    rw [← resentBy_lanesOf, show (b.onDu fun d =>
      { d with overflow := d.overflow.put x false }).directives x = [] from empty]
    rfl
  unfold Blocks.refilled Blocks.resent
  rw [queue]
  rfl

theorem queueEmptied_eq (empty : b.directives x = []) :
    queueEmptied x b = evalBeacons (b.onDu fun d => { d with
      queues := d.queues.put x (resentTo b x), overflow := d.overflow.put x false
      lanes := (b.refilled x).du.lanes }) := by
  rw [queueEmptied_refilled empty, ← refilled_eq empty]

/-! ## The pop (R149, R91, R156) -/

/-- The blocks with an approach's beacon hold started or extended. -/
def Blocks.holding (b : Blocks) (x : Approach) : Blocks :=
  b.onDu fun d => { d with hold := d.hold.put x (some
    ⟨((d.hold.at x).map (·.start)).getD b.now, timeAdd b.now (beaconHold b.profile)⟩) }

theorem startHold_none (h : b.du.hold.at x = none) : startHold x b = evalBeacons (b.holding x) := by
  simp only [startHold, h, Blocks.holding, Blocks.onDu, Option.map_none, Option.getD_none]

theorem startHold_some {i : BeaconHold} (h : b.du.hold.at x = some i) :
    startHold x b = b.holding x := by
  simp only [startHold, h, Blocks.holding, Blocks.onDu, Option.map_some, Option.getD_some]

/-- A directive's report names a record (R91). -/
def Directive.names (d : Directive) (r : VehicleRecord) : Bool :=
  r.number == d.vehicle && r.times.d.extractLsb' 0 16 == d.deadline && kindAgrees d.kind r.verdict

theorem namedByReport_eq (d : Directive) (b : Blocks) :
    namedByReport d b = b.vt.table.find? d.names := rfl

theorem number_of_names {d : Directive} {r : VehicleRecord} (named : d.names r = true) :
    r.number = d.vehicle := by
  simp only [Directive.names, Bool.and_eq_true, beq_iff_eq] at named
  exact named.1.1

theorem reportDelivery_frame (d : Directive) (b : Blocks) : reportDelivery d b
    = b.onVt fun t => { t with table := (reportDelivery d b).vt.table } := by
  unfold reportDelivery
  split
  · rfl
  · rfl

theorem reportDelivery_unnamed {d : Directive} (others : ∀ r ∈ b.vt.table, d.names r = false) :
    reportDelivery d b = b := by
  have missing : namedByReport d b = none := by
    rw [namedByReport_eq, List.find?_eq_none]
    exact fun r mem => by simp [others r mem]
  simp only [reportDelivery, missing]

theorem reportDelivery_distinct (d : Directive) (once : b.NumbersDistinct) :
    (reportDelivery d b).vt.table
      = b.vt.table.map fun r => if d.names r then { r with delivery := some b.now } else r := by
  cases found : namedByReport d b with
  | none =>
    have others (r : VehicleRecord) (mem : r ∈ b.vt.table) : d.names r = false := by
      simpa using List.find?_eq_none.mp (namedByReport_eq d b ▸ found) r mem
    rw [reportDelivery_unnamed others]
    refine ((List.map_congr_left (g := fun r => r) fun r mem => ?_).trans (List.map_id' _)).symm
    simp [others r mem]
  | some v =>
    rw [namedByReport_eq] at found
    have named : d.names v = true := List.find?_some found
    have there : b.record v.number = some v := record_of_mem once (List.mem_of_find?_eq_some found)
    simp only [reportDelivery, namedByReport_eq, found]
    refine List.map_congr_left fun r mem => ?_
    by_cases same : r.number = v.number
    · have eq : r = v := by
        have here := record_of_mem once mem
        rw [same, there] at here
        exact (Option.some.inj here).symm
      simp [eq, named]
    · have other : d.names r = false := by
        by_contra names
        exact same ((number_of_names (by simpa using names)).trans (number_of_names named).symm)
      simp [same, other]

/-- The blocks as a pop leaves them before the reports and the hold: the head is the last-popped record. -/
def Blocks.headTaken (b : Blocks) (x : Approach) (e : Directive) (rest : List Directive) : Blocks :=
  (b.setDirectives x rest).onDu fun d => { d with lastPopped := d.lastPopped.put x (some e) }

/-- The blocks after the delivery report that a tracked directive has. -/
def Blocks.delivered (b : Blocks) (e : Directive) : Blocks :=
  if e.tracked then reportDelivery e b else b

theorem delivered_frame (b : Blocks) (e : Directive) :
    b.delivered e = b.onVt fun t => { t with table := (b.delivered e).vt.table } := by
  unfold Blocks.delivered
  split_ifs
  · exact reportDelivery_frame e b
  · rfl

theorem popDirective_nil (empty : b.directives x = []) :
    popDirective x b = b.onDu fun d => { d with lastPopped := d.lastPopped.put x none } := by
  simp only [popDirective, empty]

theorem popDirective_cons {e : Directive} {rest : List Directive} (queue : b.directives x = e :: rest) :
    popDirective x b =
      let c := (b.headTaken x (judged b.now e) rest).delivered (judged b.now e)
      let d := if e.kind = .divert then startHold x c else c
      if rest.isEmpty then queueEmptied x d else d := by
  simp only [popDirective, queue]
  rfl

theorem exec_directivePop_off (m : Master) {s : State} (h : inOperation s.blocks.su.mode = false) :
    exec (.directivePop m x) s = .next { s with answers := [] } := by
  have off : inOperation s.fresh.mode = false := h
  simp only [exec, execDirectivePop, off, Bool.false_eq_true, if_false]
  rfl

/-- What a pop leaves of the blocks `d` that have the delivery reported: a DIVERT holds the beacon, and a
queue left empty is refilled. -/
theorem pop_tail (d : Blocks) (x : Approach) (divert : Bool) :
    ∃ c, (let h := if divert then startHold x d else d
          if (d.directives x).isEmpty then queueEmptied x h else h) = c
      ∧ c = { d with du := { d.du with
          queues := if d.directives x = [] then d.du.queues.put x (resentTo d x) else d.du.queues
          overflow := if d.directives x = [] then d.du.overflow.put x false else d.du.overflow
          hold := if divert then (d.holding x).du.hold else d.du.hold
          lanes := c.du.lanes
          beacon := if d.directives x = [] ∨ (divert = true ∧ d.du.hold.at x = none) then
            ⟨beaconState c .A, beaconState c .B⟩ else d.du.beacon } }
      ∧ ∀ k, c.standing k = { d.standing k with resend := (d.standing k).resend
          && !(decide (d.directives x = []) && (d.lanesOf x).contains k) } := by
  refine ⟨_, rfl, ?_, fun k => ?_⟩
  · by_cases empty : d.directives x = []
    · cases divert with
      | false =>
        simp only [empty, List.isEmpty_nil, if_true, true_or, Bool.false_eq_true, if_false]
        rw [queueEmptied_eq empty]
        rfl
      | true =>
        cases held : d.du.hold.at x with
        | none =>
          simp only [empty, List.isEmpty_nil, if_true, true_or]
          rw [startHold_none held, queueEmptied_eq (b := evalBeacons (d.holding x)) empty]
          rfl
        | some i =>
          simp only [empty, List.isEmpty_nil, if_true, true_or]
          rw [startHold_some held, queueEmptied_eq (b := d.holding x) empty]
          rfl
    · have stays : (d.directives x).isEmpty = false := by simpa using empty
      cases divert with
      | false =>
        simp only [empty, stays, Bool.false_eq_true, if_false, false_or, false_and]
      | true =>
        cases held : d.du.hold.at x with
        | none =>
          simp only [empty, stays, Bool.false_eq_true, if_true, if_false, false_or, true_and]
          rw [startHold_none held]
          rfl
        | some i =>
          simp only [empty, stays, Bool.false_eq_true, if_true, if_false, false_or, true_and, reduceCtorEq]
          rw [startHold_some held]
          rfl
  · have hold : (if divert then startHold x d else d).du.lanes = d.du.lanes ∧
        (if divert then startHold x d else d).directives x = d.directives x ∧
        (if divert then startHold x d else d).lanesOf x = d.lanesOf x := by
      cases divert with
      | false => exact ⟨rfl, rfl, rfl⟩
      | true =>
        cases held : d.du.hold.at x with
        | none => simp only [if_true, startHold_none held]; exact ⟨rfl, rfl, rfl⟩
        | some i => simp only [if_true, startHold_some held]; exact ⟨rfl, rfl, rfl⟩
    dsimp only
    generalize (if divert then startHold x d else d) = h at hold ⊢
    obtain ⟨lanes, queue, inUse⟩ := hold
    have same : h.standing k = d.standing k := congrArg (fun v : Vector StandingLane 6 => v[k]) lanes
    by_cases empty : d.directives x = []
    · simp only [empty, List.isEmpty_nil, if_true, decide_true, Bool.true_and]
      rw [queueEmptied_refilled (queue.trans empty)]
      exact (standing_refilled h x k).trans (by rw [same, inUse])
    · have stays : (d.directives x).isEmpty = false := by simpa using empty
      simp only [stays, empty, Bool.false_eq_true, if_false, decide_false, Bool.false_and, Bool.not_false,
        Bool.and_true]
      exact same

end

theorem inOperation_off {mode : Mode} (service : mode ≠ .service) (active : mode ≠ .active) :
    inOperation mode = false := by
  cases mode with
  | service => exact absurd rfl service
  | active => exact absurd rfl active
  | startUp => rfl
  | bypass => rfl

/-- Settles O44, from the head taken on, by the delivery report and then the hold and the refill. -/
theorem directivePopDeliversTheHead : Obligations.DirectivePopDeliversTheHead := by
  intro s m x e rest b popped named resent
  refine ⟨fun service active => exec_directivePop_off m (inOperation_off service active),
    fun mode empty => ?_, fun mode queue => ?_⟩
  · rw [exec_directivePop (inOperation_of mode).2, popDirective_nil empty]
    simp only [popWord, show s.blocks.directives x = [] from empty]
    rfl
  · let taken := b.headTaken x popped rest
    let d := taken.delivered popped
    have unreported (h : e.tracked = false ∨ ∀ r ∈ b.vt.table, named r = false) :
        d.vt.table = b.vt.table := by
      rcases h with untracked | others
      · exact congrArg (·.vt.table) (if_neg (by simp [popped, untracked]) : d = taken)
      · by_cases tracked : popped.tracked = true
        · exact congrArg (·.vt.table) ((if_pos tracked).trans (reportDelivery_unnamed others) : d = taken)
        · exact congrArg (·.vt.table) (if_neg tracked : d = taken)
    have reported (once : b.NumbersDistinct) (tracked : e.tracked = true) : d.vt.table
        = b.vt.table.map fun r => if named r then { r with delivery := some b.now } else r :=
      (congrArg (·.vt.table) (if_pos tracked : d = reportDelivery popped taken)).trans
        (reportDelivery_distinct (b := taken) popped once)
    have delivered : d = taken.onVt fun t => { t with table := d.vt.table } := delivered_frame _ _
    have left : d.directives x = rest := by
      rw [delivered]
      exact PerApproach.at_put_same _ _ _
    obtain ⟨c, pop, shape, standing⟩ := pop_tail d x (decide (e.kind = .divert))
    simp only [left, decide_eq_true_eq] at pop shape standing
    have table : c.vt.table = d.vt.table := by rw [shape]
    refine ⟨c, ?_, ?_, fun l => ?_, fun h => table.trans (unreported h),
      fun once tracked => table.trans (reported once tracked)⟩
    · rw [exec_directivePop (inOperation_of mode).2, popDirective_cons queue]
      simp only [popWord, show s.blocks.directives x = e :: rest from queue]
      exact congrArg (fun c => Host.Outcome.next (s.answered m true popped.word0 c)) pop
    · rw [table]
      refine shape.trans ?_
      clear pop shape standing table left unreported reported
      generalize d.vt.table = t at delivered
      clear_value d
      subst delivered
      by_cases empty : rest = []
      · subst empty
        cases x with
        | A => rfl
        | B => rfl
      · simp only [empty, if_false]
        rfl
    · have same : d.standing l = b.standing l ∧ (l ∈ d.lanesOf x ↔ l ∈ b.lanesOf x) := by
        rw [delivered]
        exact ⟨rfl, Iff.rfl⟩
      have mem : l ∈ b.lanesOf x ↔ laneInUse b.profile l = true ∧ laneApproach b.profile l = x :=
        mem_lanesOf
      rw [standing l, same.1]
      refine ⟨fun ⟨empty, use⟩ => ?_, fun others => ?_⟩
      · have there : (d.lanesOf x).contains l = true := by simpa using same.2.mpr (mem.mpr use)
        simp only [empty, there, decide_true, Bool.and_true, Bool.not_true, Bool.and_false]
      · have stays : (decide (rest = []) && (d.lanesOf x).contains l) = false := by
          rw [Bool.and_eq_false_imp]
          intro empty
          have apart : l ∉ d.lanesOf x := fun there =>
            others ⟨by simpa using empty, mem.mp (same.2.mp there)⟩
          simpa using apart
        simp only [stays, Bool.not_false, Bool.and_true]

end Sys2Proof.Machine

namespace Sys2Proof.Machine

/-! ## What a sweep leaves of the records' times and of the occupants (R119, R124, R127)

A sweep revokes, admits and retires: it moves records between states and takes records and occupants
away, and it never moves a time. -/

/-- A change of a vehicle record that leaves its number and its times. -/
def KeepsTimes (f : VehicleRecord → VehicleRecord) : Prop :=
  ∀ r, (f r).number = r.number ∧ (f r).times = r.times ∧ (f r).past = r.past

/-- A property that the changes a sweep makes keep: of the DU, the CSU and the AU, whose Held List only
shrinks; of a mark of a record; of a record that keeps its number and its times; of records and occupants
that leave. A sweep moves and retires the vehicles that are HELD or ADMITTED, and `moves` names the
numbers of those at least. -/
structure SweepKept (moves : VehicleNumber → Prop) (P : Blocks → Prop) : Prop extends DuKept P where
  csu : ∀ b c, P b → P { b with csu := c }
  au : ∀ b a, a.held.Sublist b.au.held → P b → P { b with au := a }
  mark : ∀ (b : Blocks) n f, KeepsTimes f → (∀ r, (f r).state = r.state) → P b → P (b.onRecord n f)
  record : ∀ (b : Blocks) n f, moves n → KeepsTimes f → P b → P (b.onRecord n f)
  gone : ∀ (b : Blocks) n, moves n → P b →
    P (b.onVt fun t => { t with table := t.table.filter fun r => r.number ≠ n })
  left : ∀ b g, P b → P (dropOccupants g b)
  held : ∀ b, P b → ∀ n ∈ b.au.held, moves n
  admitted : ∀ b, P b → ∀ r ∈ b.vt.table, r.state = .admitted → moves r.number

theorem mem_of_bestOf {α : Type} {beats : α → α → Bool} {l : List α} {x : α}
    (h : bestOf beats l = some x) : x ∈ l := by
  cases l with
  | nil => cases h
  | cons y ys =>
    rw [← Option.some.inj h]
    clear h
    induction ys generalizing y with
    | nil => simp
    | cons z zs ih =>
      rw [List.foldl_cons]
      have mem := ih (if beats z y then z else y)
      split_ifs at mem ⊢ <;> simp only [List.mem_cons] at mem ⊢ <;> tauto

namespace SweepKept

variable {moves : VehicleNumber → Prop} {P : Blocks → Prop} {b : Blocks} {n : VehicleNumber}
  {again : Blocks → Blocks}

theorem markUnwarned (k : SweepKept moves P) (n : VehicleNumber) (h : P b) : P (markUnwarned n b) := by
  unfold Machine.markUnwarned
  split
  · exact h
  · split_ifs
    · exact h
    · exact k.csu _ _ (k.mark _ _ _ (fun _ => ⟨rfl, rfl, rfl⟩) (fun _ => rfl) h)

theorem queueVehicle (k : SweepKept moves P) (kind : DirectiveKind) (x : Reason) (r : VehicleRecord)
    (h : P b) : P (queueVehicle kind x r b) := by
  refine k.queueWith _ _ ?_ h
  have overflown := k.setOverflow r.approach (k.overflow b h)
  unfold Machine.dropDirective
  dsimp only
  split
  · split_ifs
    · unfold Machine.reportDrop
      split
      · exact overflown
      · exact k.markUnwarned _ overflown
    · exact overflown
  · exact overflown
  · exact k.markResend _ overflown
  · exact k.markResend _ overflown

theorem evalAlarm (k : SweepKept moves P) (maySet : Bool) (h : P b) : P (evalAlarm maySet b) := by
  unfold Machine.evalAlarm noticeAlarm
  split_ifs
  · exact k.notice _ _ (k.csu _ _ (k.au _ _ (.refl _) h))
  · exact h
  · exact k.notice _ _ (k.au _ _ (.refl _) h)
  · exact h

theorem reportCounts (k : SweepKept moves P) (ha : ∀ b, P b → P (again b)) (h : P b) :
    P (reportCounts again b) := by
  have counted := k.au b { b.au with
    occupants := ⟨b.vt.occupants.a.length, b.vt.occupants.b.length⟩, unreserved := b.unreservedCount } (.refl _) h
  unfold Machine.reportCounts
  dsimp only
  split_ifs
  · exact ha _ (k.notice _ _ (k.au _ _ (.refl _) counted))
  · exact counted

theorem release (k : SweepKept moves P) (ha : ∀ b, P b → P (again b)) (o : Owner) (h : P b) :
    P (release again o b) := by
  unfold Machine.release
  split_ifs
  · exact ha _ (k.evalAlarm _ (k.au _ _ (.refl _) h))
  · exact h

theorem offerJournal (k : SweepKept moves P) (w : Vector Word 8) (h : P b) : P (offerJournal w b) := by
  unfold Machine.offerJournal
  split_ifs
  · exact k.csu _ _ h
  · exact k.csu _ _ h

theorem retire (k : SweepKept moves P) (ha : ∀ b, P b → P (again b)) (o : JournalOutcome)
    (moved : moves n) (h : P b) : P (retire again o n b) := by
  have counted : P (if b.queued n then Machine.reportCounts again (dropOccupants (Occupant.isVehicle n) b)
      else b) := by
    split_ifs
    · exact k.reportCounts ha (k.left _ _ h)
    · exact h
  unfold Machine.retire
  dsimp only
  generalize (if b.queued n then Machine.reportCounts again (dropOccupants (Occupant.isVehicle n) b)
    else b) = c at counted ⊢
  have released : P (if (c.record n).any (·.reserved) then Machine.release again (.vehicle n) c else c) := by
    split_ifs
    · exact k.release ha _ counted
    · exact counted
  split
  · exact k.au _ _ List.erase_sublist released
  · exact k.gone _ _ moved (k.offerJournal _ (k.au _ _ List.erase_sublist released))

theorem examineAdmitted (k : SweepKept moves P) (ha : ∀ b, P b → P (again b)) (moved : moves n) (h : P b) :
    P (examineAdmitted again n b) := by
  unfold Machine.examineAdmitted
  split
  · exact h
  · have goes (st : VehicleState) : P (b.onRecord n (·.to st)) :=
      k.record _ _ _ moved (fun _ => ⟨rfl, rfl, rfl⟩) h
    dsimp only
    split_ifs
    · exact k.retire ha _ moved (goes _)
    · exact goes _
    · exact k.retire ha _ moved (goes _)
    · exact goes _
    · exact k.retire ha _ moved (goes _)
    · exact goes _
    · exact k.retire ha _ moved (goes _)
    · exact goes _

theorem admitNormal (k : SweepKept moves P) {r : VehicleRecord} (moved : moves r.number) (h : P b) :
    P (admitNormal r b) :=
  k.record _ _ _ moved (fun _ => ⟨rfl, rfl, rfl⟩) (k.au _ _ (.refl _) (k.au _ _ (.refl _) h))

theorem tryHeld (k : SweepKept moves P) (ha : ∀ b, P b → P (again b)) (n : VehicleNumber) (h : P b) :
    P (tryHeld again n b) := by
  unfold Machine.tryHeld
  split
  · exact h
  · rename_i r found
    split
    · rename_i admits
      simp only [Bool.and_eq_true] at admits
      have moved : moves n := k.held b h n (List.contains_iff_mem.mp admits.1.1)
      have admitted := k.admitNormal (record_number found ▸ moved : moves r.number) h
      exact k.queueVehicle _ _ _ (k.examineAdmitted ha moved (k.au _ _ List.erase_sublist admitted))
    · exact h

theorem reevaluateLevel (k : SweepKept moves P) : ∀ (n : Nat) (b : Blocks), P b → P (reevaluateLevel n b)
  | 0, _, h => h
  | n + 1, _, h => by
    unfold Machine.reevaluateLevel
    exact DuKept.fold (fun _ v h => k.tryHeld (k.reevaluateLevel n) v h) _ _ h

theorem reevaluate (k : SweepKept moves P) (b : Blocks) (h : P b) : P (reevaluate b) := k.reevaluateLevel _ _ h

theorem examineDiverted (k : SweepKept moves P) (moved : moves n) (h : P b) : P (examineDiverted n b) := by
  unfold Machine.examineDiverted
  split
  · exact h
  · rename_i r _
    have marked : P (if r.dReached b.now && r.delivery.isNone then Machine.markUnwarned n b else b) := by
      split_ifs
      · exact k.markUnwarned _ h
      · exact h
    dsimp only
    generalize (if r.dReached b.now && r.delivery.isNone then Machine.markUnwarned n b else b) = c
      at marked ⊢
    have unconfirmed := k.record c n (·.to .divertUnconfirmed) moved (fun _ => ⟨rfl, rfl, rfl⟩) marked
    split_ifs
    · exact h
    · exact k.retire k.reevaluate _ moved unconfirmed
    · exact unconfirmed
    · exact marked

theorem revoke (k : SweepKept moves P) {r : VehicleRecord} (moved : moves r.number) (h : P b) :
    P (revoke r b) :=
  k.queueVehicle _ _ _ (k.examineDiverted moved (k.record _ _ _ moved (fun _ => ⟨rfl, rfl, rfl⟩)
    (k.record _ _ _ moved (fun _ => ⟨rfl, rfl, rfl⟩) (k.au _ _ (.refl _) h))))

theorem revokeWhile (k : SweepKept moves P) {goOn : Blocks → Bool} {among : VehicleRecord → Bool} :
    ∀ (n : Nat) (p : Blocks × Bool), P p.1 → P (revokeWhile goOn among n p).1
  | 0, _, h => h
  | n + 1, (b, any), h => by
    unfold Machine.revokeWhile
    split
    · split
      · exact h
      · rename_i r found
        have mem := List.mem_filter.mp (mem_of_bestOf found)
        simp only [Bool.and_eq_true, decide_eq_true_eq] at mem
        obtain ⟨mem, state, -⟩ := mem
        exact k.revokeWhile n _ (k.revoke (k.admitted b h r mem state) h)
    · exact h

theorem sweepAfter (k : SweepKept moves P) {p : Blocks × Bool} (h : P p.1) : P (sweepAfter p) := by
  have told := k.evalAlarm true
    (k.revokeWhile (goOn := overloaded) (among := fun _ => true) p.1.vt.table.length p h)
  unfold Machine.sweepAfter
  dsimp only
  split_ifs
  · exact k.reevaluate _ told
  · exact told

theorem shortfallSweep (k : SweepKept moves P) (h : P b) : P (shortfallSweep b) := k.sweepAfter h

end SweepKept

/-- The clock is at `now`, and the records of a number have a T that is not reached. -/
def TAhead (now : Time) (n : VehicleNumber) (b : Blocks) : Prop :=
  b.now = now ∧ ∀ r ∈ b.vt.table, r.number = n → r.tReached now = false

theorem tReached_of {r w : VehicleRecord} (times : w.times = r.times) (past : w.past = r.past)
    (now : Time) : w.tReached now = r.tReached now := by
  rw [VehicleRecord.tReached, VehicleRecord.tReached, times, past]

theorem tAhead_record {now : Time} {n : VehicleNumber} {b : Blocks} (m : VehicleNumber)
    (f : VehicleRecord → VehicleRecord) (hf : KeepsTimes f) (h : TAhead now n b) :
    TAhead now n (b.onRecord m f) := by
  obtain ⟨clock, ahead⟩ := h
  refine ⟨clock, fun w mem own => ?_⟩
  obtain ⟨r, there, rfl⟩ := List.mem_map.mp mem
  obtain ⟨number, times, past⟩ := hf r
  by_cases same : r.number = m
  · rw [if_pos same] at own ⊢
    exact (tReached_of times past now).trans (ahead r there (number ▸ own))
  · rw [if_neg same] at own ⊢
    exact ahead r there own

theorem sweepKept_tAhead (now : Time) (n : VehicleNumber) : SweepKept (fun _ => True) (TAhead now n) where
  du _ _ _ h := h
  overflow _ h := h
  csu _ _ h := h
  au _ _ _ h := h
  mark _ m f hf _ := tAhead_record m f hf
  record _ m f _ hf := tAhead_record m f hf
  held _ _ _ _ := trivial
  admitted _ _ _ _ _ := trivial
  gone _ _ _ := fun ⟨clock, ahead⟩ => ⟨clock, fun r mem own => ahead r (List.mem_of_mem_filter mem) own⟩
  left _ _ h := h

/-- The clock is at `now`, and the phantoms of a number end at a time that is not reached. -/
def EndAhead (now : Time) (k : Phantom) (b : Blocks) : Prop :=
  b.now = now ∧ ∀ o ∈ b.vt.occupants.a ++ b.vt.occupants.b, ∀ e r t d,
    o = .phantom k e r t d → reached now t = false

theorem sweepKept_endAhead (now : Time) (k : Phantom) : SweepKept (fun _ => True) (EndAhead now k) where
  du _ _ _ h := h
  overflow _ h := h
  csu _ _ h := h
  au _ _ _ h := h
  mark _ _ _ _ _ h := h
  record _ _ _ _ _ h := h
  gone _ _ _ h := h
  held _ _ _ _ := trivial
  admitted _ _ _ _ _ := trivial
  left b g := fun ⟨clock, ahead⟩ => ⟨clock, fun o mem => ahead o (by
    rw [List.mem_append] at mem ⊢
    exact mem.imp List.mem_of_mem_filter List.mem_of_mem_filter)⟩

/-- A record whose T is ahead is left as it is when its expiries on the span are examined. -/
theorem examineOnSpan_ahead {b : Blocks} {n : VehicleNumber} (h : TAhead b.now n b) :
    examineOnSpan n b = b := by
  unfold examineOnSpan
  split
  · rfl
  · rename_i r found
    rw [h.2 r (List.mem_of_find?_eq_some found) (record_number found), Bool.and_false]
    rfl

/-- A phantom whose end time is ahead is left as it is when that time is examined. -/
theorem reachPhantomEnd_ahead {b : Blocks} {k : Phantom} (h : EndAhead b.now k b) :
    reachPhantomEnd k b = b := by
  unfold reachPhantomEnd
  split
  · rename_i j e r t found
    have mem := List.mem_of_find?_eq_some found
    have own := List.find?_some found
    simp only [Occupant.isPhantom, decide_eq_true_eq] at own
    rw [h.2 _ mem e r t false (own ▸ rfl)]
    rfl
  · rfl
  · rfl

end Sys2Proof.Machine

namespace Sys2Proof.Machine

/-! ## Occupants placed, reservations refused, span lock set (R93, R94, R118, R128) -/

/-- The blocks with an occupant at the tail of an approach's queue. -/
def Blocks.joined (b : Blocks) (x : Approach) (o : Occupant) : Blocks :=
  b.onVt fun t => { t with occupants := t.occupants.put x (b.vt.occupants.at x ++ [o]) }

/-- The blocks with the occupants changed one by one. -/
def Blocks.mapped (b : Blocks) (f : Occupant → Occupant) : Blocks :=
  b.onVt fun t => { t with occupants := ⟨t.occupants.a.map f, t.occupants.b.map f⟩ }

/-- The blocks with the counts of the occupants recorded in the AU. -/
def Blocks.counted (b : Blocks) : Blocks := { b with au := { b.au with
  occupants := ⟨b.vt.occupants.a.length, b.vt.occupants.b.length⟩, unreserved := b.unreservedCount } }

/-- The blocks with span lock set and the DU told of it. -/
def Blocks.locked (b : Blocks) : Blocks := { b with
  au := { b.au with lock := true }
  du := { b.du with inputs := { b.du.inputs with lock := true } }
  csu := { b.csu with flags := b.csu.flags ||| Flag.spanLock.bit } }

section

variable {b : Blocks} {x : Approach} {o : Occupant} {p : Occupant → Bool}

/-- A count report with the lock clear only records the counts. -/
theorem reportCounts_unlocked (again : Blocks → Blocks) (lock : b.au.lock = false) :
    reportCounts again b = b.counted := by
  refine if_neg ?_
  simp [Blocks.onAu, lock]

theorem placeOccupant_joined (room : (b.vt.occupants.at x).length < 24) (lock : b.au.lock = false) :
    placeOccupant x o b = (b.joined x o).counted :=
  (if_pos room).trans (reportCounts_unlocked (b := b.joined x o) reevaluate lock)

theorem changeOccupants_mapped {f : Occupant → Occupant} (lock : b.au.lock = false) :
    changeOccupants f b = (b.mapped f).counted :=
  reportCounts_unlocked (b := b.mapped f) reevaluate lock

theorem unreservedCount_joined (b : Blocks) (x : Approach) (o : Occupant) :
    (b.joined x o).unreservedCount = b.unreservedCount + if o.unreserved then 1 else 0 := by
  unfold Blocks.unreservedCount Blocks.joined Blocks.onVt
  cases x with
  | A => cases mark : o.unreserved <;> simp [PerApproach.put, PerApproach.at, mark, Nat.add_right_comm]
  | B => cases mark : o.unreserved <;> simp [PerApproach.put, PerApproach.at, mark, Nat.add_assoc]

theorem setLock_evaluated (lock : b.au.lock = false) : Evaluated allLanes b.locked (setLock b) := by
  have clear : ¬ b.au.lock = true := by rw [lock]; decide
  rw [setLock, if_neg clear]
  exact notice_evaluated allLanes allLanes_nodup (fun i => { i with lock := true })
    ((b.onAu fun a => { a with lock := true }).request .spanLock)

/-- The occupants named become UNRESERVED, with a count report, and span lock is set. -/
theorem refuseReservation_evaluated (lock : b.au.lock = false) (mem : o ∈ b.vt.occupants.at x)
    (named : p o = true) :
    Evaluated allLanes (b.mapped (onlyFor p Occupant.markUnreserved)).counted.locked
      (refuseReservation p b) := by
  have any : (b.vt.occupants.a ++ b.vt.occupants.b).any p = true := by
    rw [List.any_eq_true]
    refine ⟨o, ?_, named⟩
    cases x with
    | A => exact List.mem_append_left _ mem
    | B => exact List.mem_append_right _ mem
  rw [refuseReservation, if_pos any, changeOccupants_mapped lock]
  exact setLock_evaluated (b := (b.mapped _).counted) lock

theorem mem_joined (b : Blocks) (x : Approach) (o : Occupant) :
    o ∈ (b.joined x o).vt.occupants.at x := by
  rw [show (b.joined x o).vt.occupants.at x = b.vt.occupants.at x ++ [o] from PerApproach.at_put_same _ _ _]
  simp

theorem markUnreserved_isVehicle (n : VehicleNumber) (o : Occupant) :
    onlyFor (Occupant.isVehicle n) Occupant.markUnreserved o = match o with
      | .vehicle k e r => .vehicle k e (r && decide (k ≠ n))
      | .phantom k e r t d => .phantom k e r t d := by
  cases o with
  | vehicle k e r =>
    by_cases same : k = n <;> simp [onlyFor, Occupant.isVehicle, Occupant.markUnreserved, same]
  | phantom k e r t d => rfl

/-- The AU's records after a count report and the lock: the evaluation leaves the table and the clock. -/
theorem Evaluated.tAhead {ls : List Lane} {b c : Blocks} {now : Time} {n : VehicleNumber}
    (h : Evaluated ls b c) (ahead : TAhead now n b) : TAhead now n c := by
  rw [h.frame]
  exact ahead

theorem Evaluated.endAhead {ls : List Lane} {b c : Blocks} {now : Time} {k : Phantom}
    (h : Evaluated ls b c) (ahead : EndAhead now k b) : EndAhead now k c := by
  rw [h.frame]
  exact ahead

/-- A flag other than DIRECTIVE_OVERFLOW may be asked for before the evaluation or after it. -/
theorem Evaluated.request {ls : List Lane} {b c : Blocks} (h : Evaluated ls b c) (f : Flag) :
    Evaluated ls (b.request f) (c.request f) := by
  have csu : c.csu = { b.csu with flags := c.csu.flags } := congrArg (·.csu) h.frame
  have kept := h.with b.lanes b.csu f.bit
  have same : c.request f = { c with lanes := b.lanes
                                     csu := { b.csu with flags := c.csu.flags ||| f.bit } } := by
    conv_lhs => rw [h.frame]
    conv_rhs => rw [h.frame]
    rfl
  rw [same]
  exact kept

end

/-! ## A passage that enters the span (R95, R96) -/

section

variable {b : Blocks} {x : Approach} {p : Time} {v : VehicleRecord}

theorem eq_of_number (once : b.NumbersDistinct) {r : VehicleRecord} (rmem : r ∈ b.vt.table)
    (vmem : v ∈ b.vt.table) (same : r.number = v.number) : r = v := by
  have here := record_of_mem once rmem
  rw [same, record_of_mem once vmem] at here
  exact (Option.some.inj here).symm

/-- One record is changed, and its T is ahead. -/
theorem tAhead_onRecord (once : b.NumbersDistinct) (mem : v ∈ b.vt.table)
    {f : VehicleRecord → VehicleRecord} (early : (f v).tReached b.now = false) : TAhead b.now v.number (b.onRecord v.number f) := by
  refine ⟨rfl, fun w there own => ?_⟩
  obtain ⟨r, rmem, rfl⟩ := List.mem_map.mp there
  by_cases same : r.number = v.number
  · rw [if_pos same, eq_of_number once rmem mem same]
    exact early
  · rw [if_neg same] at own
    exact absurd own same

/-- The blocks with a record of the table moved on the span and its occupant queued. -/
def Blocks.enteredSpan (b : Blocks) (x : Approach) (n : VehicleNumber) (p : Time)
    (f : VehicleRecord → VehicleRecord) : Blocks :=
  ((b.onRecord n f).joined x (.vehicle n p true)).counted

theorem enteredSpan_eq (b : Blocks) (x : Approach) (n : VehicleNumber) (p : Time)
    (f : VehicleRecord → VehicleRecord) :
    let occupants := b.vt.occupants.put x (b.vt.occupants.at x ++ [.vehicle n p true])
    b.enteredSpan x n p f = { b with
      vt := { b.vt with
        table := b.vt.table.map fun w => if w.number = n then f w else w
        occupants }
      au := { b.au with
        occupants := ⟨occupants.a.length, occupants.b.length⟩, unreserved := b.unreservedCount } } := by
  intro occupants
  have count : ((b.onRecord n f).joined x (.vehicle n p true)).unreservedCount = b.unreservedCount :=
    unreservedCount_joined _ _ _
  rw [Blocks.enteredSpan, Blocks.counted, count]
  rfl

/-- A second change of the record that entered is made with the first. -/
theorem enteredSpan_onRecord (b : Blocks) (x : Approach) (n : VehicleNumber) (p : Time)
    {f : VehicleRecord → VehicleRecord} (g : VehicleRecord → VehicleRecord)
    (number : ∀ r, (f r).number = r.number) :
    (b.enteredSpan x n p f).onRecord n g = b.enteredSpan x n p fun r => g (f r) :=
  congrArg (fun c : Blocks => (c.joined x (.vehicle n p true)).counted)
    (onRecord_onRecord b n f g number)

theorem enterAdmitted_entered (once : b.NumbersDistinct) (mem : v ∈ b.vt.table)
    (room : (b.vt.occupants.at x).length < 24) (lock : b.au.lock = false)
    (early : v.tReached b.now = false) : enterAdmitted x p v b
      = b.enteredSpan x v.number p fun r => { r with state := .onSpan, entryTime := some p } := by
  have placed := placeOccupant_joined (o := .vehicle v.number p true)
    (b := b.onRecord v.number fun r => { r with state := .onSpan, entryTime := some p }) room lock
  unfold enterAdmitted
  dsimp only
  rw [placed]
  exact examineOnSpan_ahead (tAhead_onRecord once mem early)

theorem entryFree_iff (b : Blocks) : b.entryFree = true ↔ b.au.reservations.length < 40 :=
  decide_eq_true_iff

/-- The reservation that a defied diversion takes (R96). -/
def defiedClaim (x : Approach) (p : Time) (profile : Pages) (v : VehicleRecord) : Reservation :=
  { owner := .vehicle v.number, kind := .forced, approach := x, load := v.gross, start := p
    finish := some (defiedRecord profile p v).times.t }

/-- The record at a defied entry that takes a reservation, and at one that finds none free. -/
def defiedReserved (profile : Pages) (p : Time) (r : VehicleRecord) : VehicleRecord :=
  { defiedRecord profile p r with reserved := true }
def defiedUnreserved (profile : Pages) (p : Time) (r : VehicleRecord) : VehicleRecord :=
  { defiedRecord profile p r with flags := { r.flags with unreserved := true } }

theorem enterDefied_placed (room : (b.vt.occupants.at x).length < 24) (lock : b.au.lock = false) :
    enterDefied x p v b = examineOnSpan v.number ((
      if (b.enteredSpan x v.number p (defiedRecord b.profile p)).entryFree then
        shortfallSweep (placeReservation (defiedClaim x p b.profile v)
          (b.enteredSpan x v.number p (defiedReserved b.profile p)))
      else refuseReservation (Occupant.isVehicle v.number)
        (b.enteredSpan x v.number p (defiedUnreserved b.profile p))).request .defied) := by
  have placed := placeOccupant_joined (o := .vehicle v.number p true)
    (b := b.onRecord v.number (defiedRecord b.profile p)) room lock
  have reserved := enteredSpan_onRecord b x v.number p (f := defiedRecord b.profile p)
    (fun r => { r with reserved := true }) fun _ => rfl
  have unreserved := enteredSpan_onRecord b x v.number p (f := defiedRecord b.profile p)
    (fun r => { r with flags := { r.flags with unreserved := true } }) fun _ => rfl
  unfold enterDefied
  dsimp only
  rw [placed]
  refine congrArg (fun c : Blocks => examineOnSpan v.number (c.request .defied)) ?_
  exact congrArg₂ (fun c d : Blocks =>
    if (b.enteredSpan x v.number p (defiedRecord b.profile p)).entryFree then
      shortfallSweep (placeReservation (defiedClaim x p b.profile v) c)
    else refuseReservation (Occupant.isVehicle v.number) d) reserved unreserved

/-- A defied diversion with an entry free: the reservation is placed and the sweep follows. -/
theorem enterDefied_free (once : b.NumbersDistinct) (mem : v ∈ b.vt.table)
    (room : (b.vt.occupants.at x).length < 24) (lock : b.au.lock = false)
    (early : reached b.now (defiedRecord b.profile p v).times.t = false)
    (free : b.au.reservations.length < 40) : enterDefied x p v b
      = (shortfallSweep (placeReservation (defiedClaim x p b.profile v)
          (b.enteredSpan x v.number p (defiedReserved b.profile p)))).request .defied := by
  have entry : (b.enteredSpan x v.number p (defiedRecord b.profile p)).entryFree = true :=
    (entryFree_iff _).mpr free
  have ahead : TAhead b.now v.number (b.onRecord v.number (defiedReserved b.profile p)) :=
    tAhead_onRecord once mem ((Bool.false_or _).trans early)
  have swept := (sweepKept_tAhead b.now v.number).shortfallSweep
    (b := placeReservation (defiedClaim x p b.profile v)
      (b.enteredSpan x v.number p (defiedReserved b.profile p))) ahead
  rw [enterDefied_placed room lock, if_pos entry]
  exact examineOnSpan_ahead (swept.1 ▸ swept)

/-- A defied diversion with no entry free: it is UNRESERVED with its occupant, and span lock is set. -/
theorem enterDefied_full (once : b.NumbersDistinct) (mem : v ∈ b.vt.table)
    (room : (b.vt.occupants.at x).length < 24) (lock : b.au.lock = false)
    (early : reached b.now (defiedRecord b.profile p v).times.t = false)
    (full : 40 ≤ b.au.reservations.length) :
    Evaluated allLanes (((b.enteredSpan x v.number p (defiedUnreserved b.profile p)).mapped
        (onlyFor (Occupant.isVehicle v.number) Occupant.markUnreserved)).counted.locked.request .defied)
      (enterDefied x p v b) := by
  have entry : ¬ (b.enteredSpan x v.number p (defiedRecord b.profile p)).entryFree = true :=
    fun free => absurd ((entryFree_iff _).mp free) (not_lt.mpr full)
  have ahead : TAhead b.now v.number (b.onRecord v.number (defiedUnreserved b.profile p)) :=
    tAhead_onRecord once mem ((Bool.false_or _).trans early)
  have refused := (refuseReservation_evaluated (x := x) (p := Occupant.isVehicle v.number)
    (b := b.enteredSpan x v.number p (defiedUnreserved b.profile p))
    (o := .vehicle v.number p true) lock (mem_joined _ _ _) (by simp [Occupant.isVehicle])).request .defied
  have left := refused.tAhead (show TAhead b.now v.number _ from ahead)
  rw [enterDefied_placed room lock, if_neg entry, examineOnSpan_ahead (left.1 ▸ left)]
  exact refused

theorem spanEntry_admitted (h : b.earliest (entryCandidate x p .admitted .committed) = some v) :
    spanEntry x p b = enterAdmitted x p v b := by
  simp only [spanEntry, h]

theorem spanEntry_defied (others : b.earliest (entryCandidate x p .admitted .committed) = none)
    (h : b.earliest (entryCandidate x p .diverted .divertUnconfirmed) = some v) :
    spanEntry x p b = enterDefied x p v b := by
  simp only [spanEntry, others, h]

theorem spanEntry_phantom (others : b.earliest (entryCandidate x p .admitted .committed) = none)
    (h : b.earliest (entryCandidate x p .diverted .divertUnconfirmed) = none) :
    spanEntry x p b = enterPhantom x p b := by
  simp only [spanEntry, others, h]

end

/-- Settles O35. -/
theorem passageEntersTheSpan : Obligations.PassageEntersTheSpan := by
  intro s l slot r v b p u x time within matching defying earliest occupants entered t defied
    states order active loopLane heavy loop once mem room lock
  let taken := b.heard l r.sequence
  have passes : takeRecord l slot (.passage r) b = spanEntry x time taken := by
    rw [takeRecord_passage states order,
      ← takePassage_spanEntry (b := taken) (x := x) (t := time) active, ← loop]
    exact deliverPassage_taken (b := taken) loopLane heavy
  let outcome (c : Blocks) : Host.Outcome State Fault Refusal := .next (s.became c)
  have runs : Machine.exec (.passage l slot r) s = outcome (spanEntry x time taken) :=
    congrArg outcome passes
  have matches_iff (w : VehicleRecord) : entryCandidate x time .admitted .committed w = true ↔ matching w :=
    entryCandidate_iff w
  have defies_iff (w : VehicleRecord) :
      entryCandidate x time .diverted .divertUnconfirmed w = true ↔ defying w := entryCandidate_iff w
  refine ⟨fun ⟨named, first⟩ early => ?_, fun unmatched ⟨named, first⟩ ahead => ?_⟩
  · have found : taken.earliest (entryCandidate x time .admitted .committed) = some v :=
      earliest_eq_some mem ((matches_iff v).mpr named)
        fun w there named ne => first w there ((matches_iff w).mp named) ne
    rw [runs, spanEntry_admitted found, enterAdmitted_entered (b := taken) once mem room lock early,
      enteredSpan_eq]
    rfl
  · have others : taken.earliest (entryCandidate x time .admitted .committed) = none :=
      earliest_eq_none fun w there => by
        simpa using fun named => unmatched w there ((matches_iff w).mp named)
    have found : taken.earliest (entryCandidate x time .diverted .divertUnconfirmed) = some v :=
      earliest_eq_some mem ((defies_iff v).mpr named)
        fun w there named ne => first w there ((defies_iff w).mp named) ne
    rw [runs, spanEntry_defied others found]
    refine ⟨fun free rs => ?_, fun full => ?_⟩
    · intro placed revokes
      rw [enterDefied_free (b := taken) once mem room lock ahead free]
      have record : defiedReserved p time = fun w =>
          defied true false { w with state := .onSpan, entryTime := some time } := by
        funext w
        simp only [defied, Bool.or_true, Bool.or_false]
        rfl
      have start : placeReservation (defiedClaim x time p v)
          (taken.enteredSpan x v.number time (defiedReserved p time)) = placed := by
        rw [enteredSpan_eq, record]
        rfl
      have once' : placed.NumbersDistinct := by
        rw [← start]
        exact numbersDistinct_recordNow once v.number (f := defiedReserved p time) fun _ => rfl
      exact ⟨_, rfl, start ▸ shortfallSweep_ends once' revokes⟩
    · intro marked after
      have refused := enterDefied_full (b := taken) once mem room lock ahead full
      have mark : onlyFor (Occupant.isVehicle v.number) Occupant.markUnreserved = marked :=
        funext (markUnreserved_isVehicle v.number)
      have record : defiedUnreserved p time = fun w =>
          defied false true { w with state := .onSpan, entryTime := some time } := by
        funext w
        simp only [defied, Bool.or_true, Bool.or_false]
        rfl
      refine ⟨_, rfl, ?_⟩
      rw [mark, enteredSpan_eq] at refused
      simp only [Blocks.mapped, Blocks.counted, Blocks.onVt, List.length_map] at refused
      rw [show defiedUnreserved taken.profile time = _ from record] at refused
      exact refused

end Sys2Proof.Machine

namespace Sys2Proof.Machine

/-! ## Passages that match nothing (R97, R98) -/

section

variable {b : Blocks} {x : Approach} {p : Time} {k : Phantom}

theorem allPhantoms_eq : allPhantoms = List.finRange 16 := by decide

/-- The lowest number that no phantom has. -/
theorem freePhantom_eq_some (free : b.phantom k = none) (below : ∀ j < k, b.phantom j ≠ none) :
    b.freePhantom = some k := by
  unfold Blocks.freePhantom
  rw [allPhantoms_eq, List.find?_eq_some_iff_getElem]
  refine ⟨by simp [free], k.val, by simp, by simp, fun j lt => ?_⟩
  have taken := below ⟨j, lt.trans k.isLt⟩ lt
  simpa [Option.isSome_iff_ne_none] using taken

theorem freePhantom_eq_none (all : ∀ k, b.phantom k ≠ none) : b.freePhantom = none := by
  unfold Blocks.freePhantom
  exact List.find?_eq_none.mpr fun k _ => by simpa [Option.isNone_iff_eq_none] using all k

theorem enterPhantom_queued (number : b.freePhantom = some k)
    (room : (b.vt.occupants.at x).length < 24) : enterPhantom x p b = queuePhantom x p k b := by
  simp only [enterPhantom, number]
  exact if_pos room

/-- A phantom that cannot be queued sets span lock (R97). -/
theorem enterPhantom_full (h : (∀ k, b.phantom k ≠ none) ∨ 24 ≤ (b.vt.occupants.at x).length) :
    enterPhantom x p b = ((setLock b).request .tableFull).request .unmatched := by
  unfold enterPhantom
  split
  · rename_i k number
    have full : 24 ≤ (b.vt.occupants.at x).length := h.resolve_left fun all => by
      rw [freePhantom_eq_none all] at number
      cases number
    exact if_neg (not_lt.mpr full)
  · rfl

/-- The reservation that a phantom takes (R97). -/
def phantomClaim (x : Approach) (p : Time) (profile : Pages) (k : Phantom) : Reservation :=
  { owner := .phantom k, kind := .phantom, approach := x, load := unknownHeavyLoad profile, start := p
    finish := some (phantomEnd profile p) }

/-- The phantom that an entry queues, as it holds a reservation or not. -/
def enteredPhantom (profile : Pages) (p : Time) (k : Phantom) (reserved : Bool) : Occupant :=
  .phantom k p reserved (phantomEnd profile p) false

/-- No other occupant is the phantom of a free number. -/
theorem isPhantom_of_free (free : b.phantom k = none) {o : Occupant}
    (mem : o ∈ b.vt.occupants.a ++ b.vt.occupants.b) : o.isPhantom k = false := by
  simpa using List.find?_eq_none.mp free o mem

theorem endAhead_joined (free : b.phantom k = none)
    (early : reached b.now (phantomEnd b.profile p) = false) (reserved : Bool) :
    EndAhead b.now k (b.joined x (enteredPhantom b.profile p k reserved)) := by
  refine ⟨rfl, fun o mem e r t d own => ?_⟩
  have place : o ∈ b.vt.occupants.a ++ b.vt.occupants.b ∨ o = enteredPhantom b.profile p k reserved := by
    cases x with
    | A =>
      have mem : o ∈ (b.vt.occupants.a ++ [enteredPhantom b.profile p k reserved]) ++ b.vt.occupants.b := mem
      simp only [List.mem_append, List.mem_singleton] at mem ⊢
      tauto
    | B =>
      have mem : o ∈ b.vt.occupants.a ++ (b.vt.occupants.b ++ [enteredPhantom b.profile p k reserved]) := mem
      simp only [List.mem_append, List.mem_singleton] at mem ⊢
      tauto
  rcases place with there | new
  · have other := isPhantom_of_free free there
    rw [own] at other
    simp [Occupant.isPhantom] at other
  · rw [own] at new
    cases new
    exact early

/-- The lengths of the queues do not tell one occupant at a tail from another. -/
theorem lengths_joined (b : Blocks) (x : Approach) (o o' : Occupant) :
    (⟨(b.joined x o).vt.occupants.a.length, (b.joined x o).vt.occupants.b.length⟩ : PerApproach Nat)
      = ⟨(b.joined x o').vt.occupants.a.length, (b.joined x o').vt.occupants.b.length⟩ := by
  cases x with
  | A => simp [Blocks.joined, PerApproach.put]
  | B => simp [Blocks.joined, PerApproach.put]

theorem queuePhantom_placed (room : (b.vt.occupants.at x).length < 24) (lock : b.au.lock = false) :
    let c := (b.joined x (enteredPhantom b.profile p k true)).counted
    queuePhantom x p k b = reachPhantomEnd k ((
      if c.entryFree then shortfallSweep (placeReservation (phantomClaim x p b.profile k) c)
      else refuseReservation (Occupant.isPhantom k) c).request .unmatched) := by
  intro c
  have placed : placeOccupant x (enteredPhantom b.profile p k true) b = c := placeOccupant_joined room lock
  unfold queuePhantom
  dsimp only
  rw [show Occupant.phantom k p true (phantomEnd b.profile p) false
    = enteredPhantom b.profile p k true from rfl, placed]
  rfl

/-- A phantom with an entry free: its reservation is placed and the sweep follows. -/
theorem queuePhantom_free (room : (b.vt.occupants.at x).length < 24) (lock : b.au.lock = false)
    (number : b.phantom k = none) (early : reached b.now (phantomEnd b.profile p) = false)
    (free : b.au.reservations.length < 40) : queuePhantom x p k b
      = (shortfallSweep (placeReservation (phantomClaim x p b.profile k)
          (b.joined x (enteredPhantom b.profile p k true)).counted)).request .unmatched := by
  have entry : (b.joined x (enteredPhantom b.profile p k true)).counted.entryFree = true :=
    (entryFree_iff _).mpr free
  have swept := (sweepKept_endAhead b.now k).shortfallSweep
    (b := placeReservation (phantomClaim x p b.profile k)
      (b.joined x (enteredPhantom b.profile p k true)).counted)
    (endAhead_joined (x := x) number early true)
  rw [queuePhantom_placed room lock, if_pos entry]
  exact reachPhantomEnd_ahead (swept.1 ▸ swept)

/-- The mark of a refused reservation names the new phantom alone. -/
theorem mapped_joined_phantom (number : b.phantom k = none) (profile : Pages) :
    (b.joined x (enteredPhantom profile p k true)).mapped
        (onlyFor (Occupant.isPhantom k) Occupant.markUnreserved)
      = b.joined x (enteredPhantom profile p k false) := by
  have others {l : List Occupant} (mem : ∀ o ∈ l, o ∈ b.vt.occupants.a ++ b.vt.occupants.b) :
      l.map (onlyFor (Occupant.isPhantom k) Occupant.markUnreserved) = l := by
    refine (List.map_congr_left (g := fun o => o) fun o there => ?_).trans (List.map_id' _)
    simp only [onlyFor, isPhantom_of_free number (mem o there), Bool.false_eq_true, if_false]
  have new : onlyFor (Occupant.isPhantom k) Occupant.markUnreserved (enteredPhantom profile p k true)
      = enteredPhantom profile p k false := by
    simp [onlyFor, enteredPhantom, Occupant.isPhantom, Occupant.markUnreserved]
  have queueA := others (l := b.vt.occupants.a) fun o there => List.mem_append_left _ there
  have queueB := others (l := b.vt.occupants.b) fun o there => List.mem_append_right _ there
  unfold Blocks.mapped Blocks.joined Blocks.onVt
  cases x with
  | A => simp only [PerApproach.put, PerApproach.at, List.map_append, List.map_cons, List.map_nil, queueA,
      queueB, new]
  | B => simp only [PerApproach.put, PerApproach.at, List.map_append, List.map_cons, List.map_nil, queueA,
      queueB, new]

/-- A phantom with no entry free: it is UNRESERVED, and span lock is set. -/
theorem queuePhantom_full (room : (b.vt.occupants.at x).length < 24) (lock : b.au.lock = false)
    (number : b.phantom k = none) (early : reached b.now (phantomEnd b.profile p) = false)
    (full : 40 ≤ b.au.reservations.length) :
    Evaluated allLanes
      ((b.joined x (enteredPhantom b.profile p k false)).counted.locked.request .unmatched)
      (queuePhantom x p k b) := by
  have entry : ¬ (b.joined x (enteredPhantom b.profile p k true)).counted.entryFree = true :=
    fun free => absurd ((entryFree_iff _).mp free) (not_lt.mpr full)
  have refused := (refuseReservation_evaluated (x := x) (p := Occupant.isPhantom k)
    (b := (b.joined x (enteredPhantom b.profile p k true)).counted)
    (o := enteredPhantom b.profile p k true) lock (mem_joined _ _ _)
    (by simp [enteredPhantom, Occupant.isPhantom])).request .unmatched
  have marked : ((b.joined x (enteredPhantom b.profile p k true)).counted.mapped
      (onlyFor (Occupant.isPhantom k) Occupant.markUnreserved)).counted
      = (b.joined x (enteredPhantom b.profile p k false)).counted :=
    (show _ = ((b.joined x (enteredPhantom b.profile p k true)).mapped
      (onlyFor (Occupant.isPhantom k) Occupant.markUnreserved)).counted from rfl).trans
      (congrArg Blocks.counted (mapped_joined_phantom number b.profile))
  rw [marked] at refused
  have left := refused.endAhead
    (show EndAhead b.now k _ from endAhead_joined (x := x) number early false)
  rw [queuePhantom_placed room lock, if_neg entry, reachPhantomEnd_ahead (left.1 ▸ left)]
  exact refused

end

/-- Settles O37. -/
theorem passageThatMatchesNothing : Obligations.PassageThatMatchesNothing := by
  intro s l slot r b p u x time lanes unmatched finish joined queued locked states order
  let taken := b.heard l r.sequence
  let outcome (c : Blocks) : Host.Outcome State Fault Refusal := .next (s.became c)
  have runs : Machine.exec (.passage l slot r) s = outcome (deliverPassage l slot r taken) :=
    congrArg outcome (takeRecord_passage states order)
  refine ⟨fun other => ?_, fun loopLane discards => ?_, fun loopLane heavy active => ?_⟩
  · rw [runs, deliverPassage_misdirected (b := taken) other, laneFaultRecord_eq]
    rfl
  · rw [runs]
    refine congrArg outcome ?_
    by_cases short : r.length.toNat < heavyLenMin p l
    · exact deliverPassage_short (b := taken) loopLane short
    · rw [deliverPassage_taken (b := taken) loopLane (not_lt.mp short)]
      exact takePassage_outside (b := taken) (discards.resolve_left short) _
  · have passes : deliverPassage l slot r taken = takePassage x r.loop time taken :=
      deliverPassage_taken (b := taken) loopLane heavy
    refine ⟨fun loop empty => ?_, fun loop outside => ?_, fun loop once lock outside => ?_⟩
    · rw [runs, passes, loop, takePassage_spanExit (b := taken) active, spanExit_empty (b := taken) empty]
      rfl
    · have nothing : taken.earliest (divertCandidate x time) = none :=
        earliest_eq_none fun w mem => by
          by_contra named
          obtain ⟨approach, state, within⟩ := (divertCandidate_iff w).mp (by simpa using named)
          exact absurd (outside w mem approach state) (not_lt.mpr within)
      rw [runs, passes, loop, takePassage_divertExit (b := taken) active, divertExit_none nothing]
      rfl
    · have nothing {s1 s2 : VehicleState} (states : ∀ w : VehicleRecord, w.state = s1 ∨ w.state = s2 →
          w.state = .admitted ∨ w.state = .committed ∨ w.state = .diverted
            ∨ w.state = .divertUnconfirmed) : taken.earliest (entryCandidate x time s1 s2) = none :=
        earliest_eq_none fun w mem => by
          by_contra named
          obtain ⟨⟨approach, within⟩, state⟩ := (entryCandidate_iff w).mp (by simpa using named)
          exact absurd (outside w mem approach (states w state)) (not_lt.mpr within)
      have enters : Machine.exec (.passage l slot r) s = outcome (enterPhantom x time taken) := by
        rw [runs, passes, loop, takePassage_spanEntry (b := taken) active,
          spanEntry_phantom (nothing fun w => by tauto) (nothing fun w => by tauto)]
      refine ⟨fun k free below room early => ?_, fun full => ?_⟩
      · rw [enters, enterPhantom_queued (b := taken) (freePhantom_eq_some free below) room]
        refine ⟨fun entry rs => ?_, fun listFull => ?_⟩
        · intro placed revokes
          rw [queuePhantom_free (b := taken) room lock free early entry]
          have start : placeReservation (phantomClaim x time p k)
              (taken.joined x (enteredPhantom p time k true)).counted = placed := by
            rw [Blocks.counted, unreservedCount_joined]
            rfl
          exact ⟨_, rfl, start ▸ shortfallSweep_ends (b := placed) once revokes⟩
        · refine ⟨_, rfl, ?_⟩
          have refused := queuePhantom_full (b := taken) (x := x) room lock free early listFull
          rw [Blocks.counted, unreservedCount_joined,
            lengths_joined taken x _ (enteredPhantom p time k true)] at refused
          exact refused
      · rw [enters, enterPhantom_full (b := taken) full]
        refine ⟨_, rfl, ?_⟩
        have set := ((setLock_evaluated (b := taken) lock).request .tableFull).request .unmatched
        have flags := BitVec.or_assoc (b.csu.flags ||| Flag.spanLock.bit) Flag.tableFull.bit
          Flag.unmatched.bit
        exact (congrArg (fun f => Evaluated allLanes
          { taken.locked with csu := { b.csu with flags := f } } _) flags).mp set

end Sys2Proof.Machine

namespace Sys2Proof.Machine

/-! ## Changes of one record among distinct numbers -/

section

variable {b : Blocks} {n : VehicleNumber} {v : VehicleRecord} {x : Approach} {e : Directive}

theorem mem_of_record (h : b.record n = some v) : v ∈ b.vt.table := List.mem_of_find?_eq_some h

/-- A change that leaves the record of the number as it is leaves everything. -/
theorem onRecord_idle (once : b.NumbersDistinct) (found : b.record n = some v)
    {f : VehicleRecord → VehicleRecord} (same : f v = v) : b.onRecord n f = b := by
  have table : (b.vt.table.map fun r => if r.number = n then f r else r) = b.vt.table := by
    refine (List.map_congr_left (g := fun r => r) fun r mem => ?_).trans (List.map_id' _)
    by_cases own : r.number = n
    · rw [if_pos own, eq_of_number once mem (mem_of_record found) (own.trans (record_number found).symm),
        same]
    · exact if_neg own
  unfold Blocks.onRecord Blocks.onVt
  simp only [table]

/-- A record whose D and E1 have nothing to move stays as it is. -/
theorem examineAdmitted_idle (again : Blocks → Blocks) (once : b.NumbersDistinct)
    (found : b.record n = some v) (stays : v.admittedOn b.now = v.state) (here : v.state ≠ .missing) :
    examineAdmitted again n b = b := by
  rw [examineAdmitted_stays found (.inl (stays ▸ here)), stays]
  exact onRecord_idle once found rfl

/-! ## Directives told (R92, R146, R147) -/

/-- The blocks after an entry has joined, as far as its queue and the marks of lanes go. -/
def Blocks.joinedQueue (b : Blocks) (x : Approach) (e : Directive) : Blocks := { b with
  du := { b.du with
    queues := b.du.queues.put x (joins (b.du.queues.at x) e).queue
    lanes := marked b.du.lanes (joins (b.du.queues.at x) e).marks } }

/-- The same with the overflow condition of a drop, before its report. -/
def Blocks.overflown (b : Blocks) (x : Approach) (e : Directive) : Blocks :=
  let c := b.joinedQueue x e
  let d : Blocks := { c with
    du := { c.du with overflow := c.du.overflow.put x true }
    csu := { c.csu with flags := c.csu.flags ||| Flag.directiveOverflow.bit } }
  { d with du := { d.du with beacon :=
    if (b.du.overflow.at x) then b.du.beacon else ⟨beaconState d .A, beaconState d .B⟩ } }

theorem told_dropped (h : (joins (b.du.queues.at x) e).dropped = true) :
    b.told x e = (b.overflown x e).dropReported e := if_pos h

theorem told_joined (h : (joins (b.du.queues.at x) e).dropped = false) :
    b.told x e = b.joinedQueue x e := if_neg (by simp [h])

/-- A told directive marks at most the record that it names. -/
theorem record_dropReported (found : b.record n = some v) (e : Directive) :
    ∃ flags, (b.dropReported e).record n = some { v with flags } := by
  unfold Blocks.dropReported
  dsimp only
  split
  · exact ⟨v.flags, found⟩
  · rename_i r _
    split_ifs
    · exact ⟨v.flags, found⟩
    · have map := record_onRecord_of b n r.number (fun w =>
        { w with flags := { w.flags with unwarned := true } }) fun _ => rfl
      rw [found] at map
      by_cases own : v.number = r.number
      · exact ⟨{ v.flags with unwarned := true }, map.trans (congrArg some (if_pos own))⟩
      · exact ⟨v.flags, map.trans (congrArg some (if_neg own))⟩

theorem record_told (found : b.record n = some v) (x : Approach) (e : Directive) :
    ∃ flags, (b.told x e).record n = some { v with flags } := by
  cases drop : (joins (b.du.queues.at x) e).dropped with
  | true => rw [told_dropped drop]; exact record_dropReported (b := b.overflown x e) found e
  | false => rw [told_joined drop]; exact ⟨v.flags, found⟩

theorem told_su (b : Blocks) (x : Approach) (e : Directive) : (b.told x e).su = b.su := by
  cases drop : (joins (b.du.queues.at x) e).dropped with
  | true =>
    rw [told_dropped drop]
    unfold Blocks.dropReported
    dsimp only
    split
    · rfl
    · split <;> rfl
  | false => rw [told_joined drop]; rfl

/-- A PROCEED that is told leaves the table. -/
theorem told_vt (h : ¬ (e.kind = .divert ∧ e.tracked = true)) (b : Blocks) (x : Approach) :
    (b.told x e).vt = b.vt := by
  cases drop : (joins (b.du.queues.at x) e).dropped with
  | true => rw [told_dropped drop, dropReported_other h]; rfl
  | false => rw [told_joined drop]; rfl

/-- The record with its UNWARNED mark. -/
def VehicleRecord.markedUnwarned (r : VehicleRecord) : VehicleRecord :=
  { r with flags := { r.flags with unwarned := true } }

/-- The report of a dropped DIVERT marks the one record of its number. -/
theorem dropReported_named (once : b.NumbersDistinct) (found : b.record n = some v) {why reason : Reason}
    (verdict : v.verdict = some (.divert why)) :
    b.dropReported (directiveFor .divert reason v) = markUnwarned n b := by
  obtain rfl := record_number found
  have names (r : VehicleRecord) (mem : r ∈ b.vt.table) :
      (directiveFor .divert reason v).names r = (r.number == v.number) := by
    by_cases own : r.number = v.number
    · rw [eq_of_number once mem (mem_of_record found) own]
      simp [Directive.names, directiveFor, kindAgrees, verdict]
    · have other : (r.number == v.number) = false := by simpa using own
      simp [Directive.names, directiveFor, other]
  have named : namedByReport (directiveFor .divert reason v) b = some v := by
    rw [namedByReport_eq, List.find?_congr names]
    exact found
  rw [← reportDrop_eq rfl rfl (reportFinds_of_distinct once _)]
  simp only [reportDrop, named]

/-- A DIVERT told for a record that is not marked, and the mark after it: the mark may come first. -/
theorem markUnwarned_told (once : b.NumbersDistinct) (found : b.record n = some v) {why reason : Reason}
    (verdict : v.verdict = some (.divert why)) (clear : v.flags.unwarned = false) :
    markUnwarned n (b.told x (directiveFor .divert reason v))
      = ((b.onRecord n VehicleRecord.markedUnwarned).told x
          (directiveFor .divert reason v)).request .unwarned := by
  cases drop : (joins (b.du.queues.at x) (directiveFor .divert reason v)).dropped with
  | false =>
    rw [told_joined drop, told_joined (b := b.onRecord n VehicleRecord.markedUnwarned) drop]
    exact markUnwarned_clear (b := b.joinedQueue x _) found clear
  | true =>
    have before := dropReported_named (b := b.overflown x (directiveFor .divert reason v)) (reason := reason)
      once found verdict
    have marked : ((b.onRecord n VehicleRecord.markedUnwarned).overflown x
        (directiveFor .divert reason v)).record n = some v.markedUnwarned :=
      record_onRecord_some found _ fun _ => rfl
    have after := dropReported_named (reason := reason) (v := v.markedUnwarned)
      (b := (b.onRecord n VehicleRecord.markedUnwarned).overflown x (directiveFor .divert reason v))
      (numbersDistinct_recordNow once n fun _ => rfl) marked verdict
    rw [markUnwarned_marked marked rfl] at after
    rw [told_dropped drop, told_dropped (b := b.onRecord n VehicleRecord.markedUnwarned) drop, before,
      markUnwarned_clear (b := b.overflown x _) found clear]
    exact (markUnwarned_marked (v := v.markedUnwarned)
      (b := ((b.onRecord n VehicleRecord.markedUnwarned).overflown x _).request .unwarned) marked rfl).trans
      (congrArg (fun c : Blocks => c.request .unwarned) after.symm)

/-! ## Verdict DIVERT (R109, R111, R113) -/

/-- The record with verdict DIVERT, as it enters DIVERTED. -/
def VehicleRecord.divertedFor (r : VehicleRecord) (why : Reason) : VehicleRecord :=
  { r with state := .diverted, verdict := some (.divert why) }

theorem queueVehicle_divert (once : b.NumbersDistinct) {why : Reason} (named : why ≠ .tableFull)
    (v : VehicleRecord) : queueVehicle .divert why v (divertRecord why v.number b)
      = (b.onRecord v.number (·.divertedFor why)).told v.approach (directiveFor .divert why v) :=
  queueVehicle_told named (reportFinds_of_distinct
    (numbersDistinct_recordNow once v.number (f := (·.divertedFor why)) fun _ => rfl) _)

theorem examineDiverted_early (found : b.record n = some v) (d : v.dReached b.now = false)
    (v1 : v.v1Reached b.now = false) : examineDiverted n b = b := by
  simp [examineDiverted, found, d, v1]

theorem examineDiverted_unwarned (found : b.record n = some v) (state : v.state = .diverted)
    (d : v.dReached b.now = true) (delivery : v.delivery = none) (v1 : v.v1Reached b.now = false) :
    examineDiverted n b = markUnwarned n b := by
  have now : (markUnwarned n b).now = b.now :=
    congrArg Supervisor.clock ((laneKept_su b.su).markUnwarned n rfl)
  simp [examineDiverted, found, state, d, delivery, now, v1]

/-- The told DIVERT of a record that has entered DIVERTED, and the record that it leaves. -/
theorem record_told_divert (found : b.record v.number = some v) (why : Reason) :
    ∃ flags, ((b.onRecord v.number (·.divertedFor why)).told v.approach
      (directiveFor .divert why v)).record v.number = some { v.divertedFor why with flags } :=
  record_told (v := v.divertedFor why) (record_onRecord_some found (·.divertedFor why) fun _ => rfl) _ _

theorem told_now (b : Blocks) (x : Approach) (e : Directive) : (b.told x e).now = b.now :=
  congrArg Supervisor.clock (told_su b x e)

/-- A diversion before its D and its V1. -/
theorem divertEntered_early (once : b.NumbersDistinct) (found : b.record v.number = some v) {why : Reason}
    (named : why ≠ .tableFull) (d : v.dReached b.now = false) (v1 : v.v1Reached b.now = false) :
    divertEntered why v b = (b.onRecord v.number (·.divertedFor why)).told v.approach
      (directiveFor .divert why v) := by
  obtain ⟨flags, record⟩ := record_told_divert found why
  have now := told_now (b.onRecord v.number (·.divertedFor why)) v.approach (directiveFor .divert why v)
  rw [divertEntered, queueVehicle_divert once named]
  exact examineDiverted_early record (now ▸ d) (now ▸ v1)

/-- A diversion past its D: the record is marked UNWARNED. -/
theorem divertEntered_unwarned (once : b.NumbersDistinct) (found : b.record v.number = some v)
    {why : Reason} (named : why ≠ .tableFull) (clear : v.flags.unwarned = false)
    (delivery : v.delivery = none) (d : v.dReached b.now = true) (v1 : v.v1Reached b.now = false) :
    divertEntered why v b = ((b.onRecord v.number fun r => (r.divertedFor why).markedUnwarned).told
      v.approach (directiveFor .divert why v)).request .unwarned := by
  obtain ⟨flags, record⟩ := record_told_divert found why
  have now := told_now (b.onRecord v.number (·.divertedFor why)) v.approach (directiveFor .divert why v)
  have marks := markUnwarned_told (reason := why) (v := v.divertedFor why) (x := v.approach)
    (numbersDistinct_recordNow once v.number (f := (·.divertedFor why)) fun _ => rfl)
    (record_onRecord_some found _ fun _ => rfl) rfl clear
  have both : (b.onRecord v.number (·.divertedFor why)).onRecord v.number VehicleRecord.markedUnwarned
      = b.onRecord v.number fun r => (r.divertedFor why).markedUnwarned := onRecord_onRecord _ _ _ _ fun _ => rfl
  rw [divertEntered, queueVehicle_divert once named,
    examineDiverted_unwarned record rfl (now ▸ d) delivery (now ▸ v1), ← both]
  exact marks

end

/-! ## A vehicle that enters the table (R82, R109 to R112) -/

section

variable {b : Blocks} {n : VehicleNumber} {r : VehicleRecord}

/-- The blocks with a record entered under a number. -/
def Blocks.withNew (b : Blocks) (n : VehicleNumber) (r : VehicleRecord) : Blocks :=
  b.onVt fun t => { t with table := t.table ++ [r], nextNumber := n + 1 }

theorem enterVehicle_withNew (n : VehicleNumber) (v : ClosedVehicle) (b : Blocks) :
    enterVehicle n v b = b.withNew n (enteredRecord b.profile n v) := rfl

theorem withNew_onRecord (free : n ∉ b.vt.table.map (·.number)) (own : r.number = n)
    (f : VehicleRecord → VehicleRecord) : (b.withNew n r).onRecord n f = b.withNew n (f r) := by
  have others : (b.vt.table.map fun w => if w.number = n then f w else w) = b.vt.table :=
    (List.map_congr_left (g := fun w => w) fun w mem => if_neg fun same : w.number = n =>
      free (same ▸ List.mem_map_of_mem mem)).trans (List.map_id' _)
  unfold Blocks.onRecord Blocks.withNew Blocks.onVt
  simp only [List.map_append, List.map_cons, List.map_nil, others, if_pos own]

theorem withNew_record (free : n ∉ b.vt.table.map (·.number)) (own : r.number = n) :
    (b.withNew n r).record n = some r := by
  have others : b.vt.table.find? (fun w => w.number == n) = none :=
    List.find?_eq_none.mpr fun w mem same => free (by
      rw [← beq_iff_eq.mp same]
      exact List.mem_map_of_mem mem)
  unfold Blocks.record Blocks.withNew Blocks.onVt
  simp [List.find?_append, others, own]

theorem withNew_distinct (once : b.NumbersDistinct) (room : b.vt.table.length < 48)
    (free : n ∉ b.vt.table.map (·.number)) (own : r.number = n) : (b.withNew n r).NumbersDistinct := by
  refine ⟨?_, ?_⟩
  · have : (b.withNew n r).vt.table.length = b.vt.table.length + 1 := by
      simp [Blocks.withNew, Blocks.onVt]
    omega
  · have : (b.withNew n r).vt.table.map (·.number) = b.vt.table.map (·.number) ++ [n] := by
      simp [Blocks.withNew, Blocks.onVt, own]
    rw [this]
    exact List.nodup_append.mpr ⟨once.2, List.nodup_singleton n, fun a mem c single same => free (by
      rw [← List.mem_singleton.mp single, ← same]
      exact mem)⟩

theorem admissible_iff (b : Blocks) (r : VehicleRecord) : admissible b r = true ↔ spanCheck b r = true
    ∧ b.normalCount < 32 ∧ b.au.reservations.length < 40 ∧ b.au.alarm = false ∧ b.au.lock = false := by
  simp only [admissible, Bool.and_eq_true, decide_eq_true_eq, Bool.not_eq_true', and_assoc]
  rfl

variable {v : ClosedVehicle}

theorem takeClosed_entered (heavy : lightThreshold b.profile ≤ v.gross ∨ 2 < v.axleCount)
    (room : b.vt.table.length < 48) : takeClosed v b
      = giveVerdict v (enteredRecord b.profile b.numberToAssign v) (enterVehicle b.numberToAssign v b) := by
  have notLight : ¬ isLight b.profile v = true := by
    simp only [isLight, Bool.and_eq_true, decide_eq_true_eq]
    omega
  rw [takeClosed, if_neg notLight]
  exact if_neg (not_le.mpr room)

theorem takeClosed_untracked (heavy : lightThreshold b.profile ≤ v.gross ∨ 2 < v.axleCount)
    (full : 48 ≤ b.vt.table.length) : takeClosed v b = takeUntracked v b := by
  have notLight : ¬ isLight b.profile v = true := by
    simp only [isLight, Bool.and_eq_true, decide_eq_true_eq]
    omega
  rw [takeClosed, if_neg notLight]
  exact if_pos full

theorem giveVerdict_diverts {why : Reason} (h : diversionReason b v = some why) :
    giveVerdict v r b = divertEntered why r b := by
  simp only [giveVerdict, h]

theorem giveVerdict_admits (h : diversionReason b v = none) (fits : admissible b r = true) :
    giveVerdict v r b
      = examineAdmitted reevaluate r.number (queueVehicle .proceed .none r (admitNormal r b)) := by
  simp only [giveVerdict, h, fits, if_true]

theorem giveVerdict_late (h : diversionReason b v = none) (fits : ¬ admissible b r = true)
    (d : r.dReached b.now = true) : giveVerdict v r b = takeLate r b := by
  simp only [giveVerdict, h, fits, d, if_true, Bool.false_eq_true, if_false]

theorem giveVerdict_holds (h : diversionReason b v = none) (fits : ¬ admissible b r = true)
    (d : r.dReached b.now = false) : giveVerdict v r b = holdVehicle r b := by
  simp only [giveVerdict, h, fits, d, Bool.false_eq_true, if_false]

theorem queueVehicle_proceed (r : VehicleRecord) (b : Blocks) :
    queueVehicle .proceed .none r b = b.told r.approach (directiveFor .proceed .none r) :=
  queueVehicle_told (by decide) fun divert => nomatch divert

end

end Sys2Proof.Machine

namespace Sys2Proof.Machine

/-! ## What a sweep leaves of a COMMITTED record (R124) -/

/-- The number is off the Held List, and its records are COMMITTED with an E1 that is not reached. -/
def Spared (now : Time) (n : VehicleNumber) (b : Blocks) : Prop :=
  b.now = now ∧ n ∉ b.au.held
    ∧ ∀ r ∈ b.vt.table, r.number = n → r.state = .committed ∧ r.e1Reached now = false

theorem e1Reached_of {r w : VehicleRecord} (times : w.times = r.times) (past : w.past = r.past)
    (now : Time) : w.e1Reached now = r.e1Reached now := by
  rw [VehicleRecord.e1Reached, VehicleRecord.e1Reached, times, past]

/-- A sweep moves HELD and ADMITTED vehicles alone. -/
theorem sweepKept_spared (now : Time) (n : VehicleNumber) : SweepKept (· ≠ n) (Spared now n) where
  du _ _ _ h := h
  overflow _ h := h
  csu _ _ h := h
  au _ _ shorter := fun ⟨clock, off, there⟩ => ⟨clock, fun mem => off (shorter.subset mem), there⟩
  mark b m f hf state := fun ⟨clock, off, there⟩ => by
    refine ⟨clock, off, fun w mem own => ?_⟩
    obtain ⟨r, here, rfl⟩ := List.mem_map.mp mem
    obtain ⟨number, times, past⟩ := hf r
    by_cases same : r.number = m
    · rw [if_pos same] at own ⊢
      obtain ⟨committed, e1⟩ := there r here (number ▸ own)
      exact ⟨(state r).trans committed, (e1Reached_of times past now).trans e1⟩
    · rw [if_neg same] at own ⊢
      exact there r here own
  record b m f other hf := fun ⟨clock, off, there⟩ => by
    refine ⟨clock, off, fun w mem own => ?_⟩
    obtain ⟨r, here, rfl⟩ := List.mem_map.mp mem
    by_cases same : r.number = m
    · rw [if_pos same] at own
      exact absurd (same.symm.trans ((hf r).1.symm.trans own)) other
    · rw [if_neg same] at own ⊢
      exact there r here own
  gone _ _ _ := fun ⟨clock, off, there⟩ =>
    ⟨clock, off, fun r mem own => there r (List.mem_of_mem_filter mem) own⟩
  left _ _ h := h
  held b := fun ⟨_, off, _⟩ m mem same => off (same ▸ mem)
  admitted b := fun ⟨_, _, there⟩ r mem state same => by
    rw [(there r mem same).1] at state
    cases state

/-- Before its E1 a record is not moved, but an ADMITTED one past its D. -/
theorem admittedOn_stays {v : VehicleRecord} {now : Time} (e1 : v.e1Reached now = false)
    (d : v.state = .admitted → v.dReached now = false) : v.admittedOn now = v.state := by
  by_cases state : v.state = .admitted
  · simp [VehicleRecord.admittedOn, e1, state, d state]
  · simp [VehicleRecord.admittedOn, e1, state]

/-- A spared record is not moved by its D and its E1. -/
theorem examineAdmitted_spared {b : Blocks} {n : VehicleNumber} (again : Blocks → Blocks)
    (h : Spared b.now n b) : examineAdmitted again n b = b := by
  obtain ⟨-, -, there⟩ := h
  cases found : b.record n with
  | none => simp only [examineAdmitted, found]
  | some v =>
    obtain ⟨state, e1⟩ := there v (mem_of_record found) (record_number found)
    have stays : v.admittedOn b.now = .committed :=
      (admittedOn_stays e1 fun admitted => absurd (state.symm.trans admitted) (by decide)).trans state
    rw [examineAdmitted_stays found (.inl (by rw [stays]; decide)), stays]
    have table : (b.vt.table.map fun r => if r.number = n then r.to .committed else r) = b.vt.table := by
      refine (List.map_congr_left (g := fun r => r) fun r mem => ?_).trans (List.map_id' _)
      split_ifs with own
      · rw [VehicleRecord.to, ← (there r mem own).1]
      · rfl
    unfold Blocks.onRecord Blocks.onVt
    simp only [table]

/-! ## Verdicts of an entered vehicle (R109 to R112) -/

section

variable {b : Blocks} {n : VehicleNumber} {r : VehicleRecord}

/-- The AU with a vehicle's reservation placed. -/
def Blocks.reservedAu (b : Blocks) (kind : ReservationKind) (r : VehicleRecord) : Admission :=
  { b.au with reservations := reservedFor kind r b.au.reservations, counter := b.au.counter + 1 }

/-- The record as its admission leaves it. -/
def VehicleRecord.admittedAs (r : VehicleRecord) (st : VehicleState) (late : Bool) (stamp : Time) :
    VehicleRecord :=
  { r with state := st, verdict := some .admitted, reserved := true, stamp := some stamp
           flags := { r.flags with late := r.flags.late || late } }

theorem admitRecord_new (free : n ∉ b.vt.table.map (·.number)) (own : r.number = n)
    (kind : ReservationKind) (st : VehicleState) (late : Bool) :
    admitRecord kind st late r (b.withNew n r)
      = { b.withNew n (r.admittedAs st late b.au.counter) with au := b.reservedAu kind r } := by
  subst own
  exact congrArg (fun c : Blocks => { c with au := b.reservedAu kind r })
    (withNew_onRecord free rfl (·.admittedAs st late b.au.counter))

/-- The admission of an entered vehicle before its E1 (R110). -/
theorem admits_new (once : b.NumbersDistinct) (room : b.vt.table.length < 48)
    (free : n ∉ b.vt.table.map (·.number)) (own : r.number = n) (e1 : r.e1Reached b.now = false) :
    let late := r.dReached b.now
    examineAdmitted reevaluate n (queueVehicle .proceed .none r (admitNormal r (b.withNew n r)))
      = Blocks.told { b.withNew n (r.admittedAs (if late then .committed else .admitted) late b.au.counter)
          with au := b.reservedAu .normal r } r.approach (directiveFor .proceed .none r) := by
  intro late
  let st : VehicleState := if late then .committed else .admitted
  let c : Blocks := { b.withNew n (r.admittedAs st late b.au.counter) with au := b.reservedAu .normal r }
  have admitted : admitNormal r (b.withNew n r) = c := admitRecord_new free own .normal st late
  rw [admitted, queueVehicle_proceed]
  have once' : c.NumbersDistinct := withNew_distinct once room free own
  have found : (c.told r.approach (directiveFor .proceed .none r)).record n
      = some (r.admittedAs st late b.au.counter) := by
    rw [Blocks.record, told_vt (by rintro ⟨kind, -⟩; cases kind)]
    exact withNew_record free own
  refine examineAdmitted_idle _ (numbersDistinct_told once' _ _) found ?_ ?_
  · rw [told_now]
    refine admittedOn_stays e1 fun admitted => ?_
    by_contra d
    have isLate : late = true := (Bool.not_eq_false _).mp d
    have state : st = .committed := if_pos isLate
    exact absurd (state.symm.trans admitted) (by decide)
  · show st ≠ .missing
    cases isLate : late <;> simp [st, isLate]

/-- A late vehicle with an entry free: it is COMMITTED with a FORCED reservation, and the sweep
follows (R111). -/
theorem takeLate_forced (free : n ∉ b.vt.table.map (·.number)) (own : r.number = n)
    (entry : b.au.reservations.length < 40) (off : n ∉ b.au.held) (e1 : r.e1Reached b.now = false) :
    takeLate r (b.withNew n r) = shortfallSweep (Blocks.told
      { b.withNew n (r.admittedAs .committed true b.au.counter) with au := b.reservedAu .forced r }
      r.approach (directiveFor .proceed .none r)) := by
  let c : Blocks := { b.withNew n (r.admittedAs .committed true b.au.counter) with
    au := b.reservedAu .forced r }
  have admitted : admitRecord .forced .committed true r (b.withNew n r) = c := admitRecord_new free own _ _ _
  have spared : Spared b.now n c := by
    refine ⟨rfl, off, fun w mem same => ?_⟩
    rcases List.mem_append.mp mem with there | new
    · exact absurd (same ▸ List.mem_map_of_mem there) free
    · rw [List.mem_singleton.mp new]
      exact ⟨rfl, e1⟩
  have k := sweepKept_spared b.now n
  have told := k.queueVehicle .proceed .none r spared
  have swept := k.shortfallSweep told
  have free' : (b.withNew n r).entryFree = true := (entryFree_iff _).mpr entry
  rw [takeLate, if_pos free', admitted, own,
    examineAdmitted_spared reevaluate (swept.1 ▸ swept), queueVehicle_proceed]

end

/-! ## Vehicles that find the table full (R108) -/

theorem told_csu {e : Directive} (h : ¬ (e.kind = .divert ∧ e.tracked = true)) (b : Blocks)
    (x : Approach) : (b.told x e).csu.journal = b.csu.journal := by
  cases drop : (joins (b.du.queues.at x) e).dropped with
  | true => rw [told_dropped drop, dropReported_other h]; rfl
  | false => rw [told_joined drop]; rfl

theorem takeUntracked_told (v : ClosedVehicle) (b : Blocks) :
    let q := b.told v.approach (vehicleDirective .divert v.lane .tableFull 0 v.gross 0)
    takeUntracked v b = Blocks.request { q with
      csu := if b.csu.journal.length < 8 then { q.csu with
          journal := b.csu.journal ++ [{ words := untrackedWords v b.now, next := 0 }] }
        else { q.csu with flags := q.csu.flags ||| Flag.journalLost.bit } } .tableFull := by
  intro q
  have untracked : ¬ ((vehicleDirective .divert v.lane .tableFull 0 v.gross 0).kind = .divert
      ∧ (vehicleDirective .divert v.lane .tableFull 0 v.gross 0).tracked = true) := by
    simp [vehicleDirective]
  have joined : queueDirective v.approach (vehicleDirective .divert v.lane .tableFull 0 v.gross 0) b = q :=
    queueDirective_told _ fun kind tracked => absurd ⟨kind, tracked⟩ untracked
  have journal : q.csu.journal = b.csu.journal := told_csu untracked b _
  have now : q.now = b.now := told_now b _ _
  unfold takeUntracked offerJournal
  dsimp only
  rw [joined, now, journal]
  by_cases room : b.csu.journal.length < 8
  · rw [if_pos (show b.csu.journal.length < journalCapacity from room), if_pos room, ← journal]
    rfl
  · rw [if_neg (show ¬ b.csu.journal.length < journalCapacity from room), if_neg room, ← journal]
    rfl

end Sys2Proof.Machine

namespace Sys2Proof.Machine

/-! ## The verdict of a heavy vehicle (R109) -/

section

variable {b : Blocks} {l : Lane} {v : OpenVehicle}

/-- The vehicle as it closes complete, and as R109 judges it. -/
theorem unreliableAtEntry_closed (p : Pages) (l : Lane) (st : LaneState) (v : OpenVehicle) :
    unreliableAtEntry (closedVehicle p l st false v)
      = (v.isPartial || v.suspect || (v.degradedAxle && !v.overlong) || st ≠ .live) := by
  have marks : ∀ alone suspect long degraded down : Bool, (alone || suspect || false
      || ((alone || long || suspect || false || degraded || down) && !long) || down)
      = (alone || suspect || (degraded && !long) || down) := by decide
  exact marks _ _ _ _ _

/-- The notices of the DU neither read nor change the records of the VT. -/
theorem Evaluated.onVt {ls : List Lane} {b c : Blocks} (h : Evaluated ls b c) (f : Tracker → Tracker) :
    Evaluated ls (b.onVt f) (c.onVt f) where
  frame := by
    have vt : c.vt = b.vt := congrArg (·.vt) h.frame
    have e := congrArg (fun z : Blocks => { z with vt := f b.vt }) h.frame
    rw [Blocks.onVt, vt]
    exact e
  flags := h.flags
  lanes := h.lanes
  marks := h.marks
  beacons := h.beacons
  queued := h.queued
  overflow := h.overflow

theorem takeLate_full {b : Blocks} {r : VehicleRecord} (full : 40 ≤ b.au.reservations.length) :
    takeLate r b = divertEntered .spanFull r (setLock b) := by
  have none : ¬ b.entryFree = true := fun free => absurd ((entryFree_iff b).mp free) (not_lt.mpr full)
  exact if_neg none

theorem not_tableFull_of_diversionReason {c : ClosedVehicle} {why : Reason}
    (h : diversionReason b c = some why) : why ≠ .tableFull := by
  unfold diversionReason at h
  rintro rfl
  split_ifs at h <;> cases h

/-- The Held List's order reads the records of its own numbers alone. -/
theorem placeAfter_congr {α : Type} {p q : α → Bool} {l : List α} (h : ∀ y ∈ l, p y = q y) (x : α) :
    placeAfter p x l = placeAfter q x l := by
  induction l with
  | nil => rfl
  | cons y ys ih =>
    have any : (y :: ys).any p = (y :: ys).any q := by
      rw [Bool.eq_iff_iff, List.any_eq_true, List.any_eq_true]
      exact exists_congr fun z => and_congr_right fun mem => by rw [h z mem]
    rw [placeAfter, placeAfter, any, ih fun z mem => h z (List.mem_cons_of_mem _ mem)]

theorem record_withNew_of {n : VehicleNumber} {r : VehicleRecord} {k : VehicleNumber}
    (there : b.record k ≠ none) : (b.withNew n r).record k = b.record k := by
  obtain ⟨w, found⟩ := Option.ne_none_iff_exists'.mp there
  unfold Blocks.record at found
  unfold Blocks.record Blocks.withNew Blocks.onVt
  simp [List.find?_append, found]

/-- The vehicle joins the Held List by its D (R121). -/
theorem holdVehicle_new {n : VehicleNumber} {r : VehicleRecord} (own : r.number = n)
    (there : ∀ k ∈ b.au.held, b.record k ≠ none) :
    let names := placeAfter (fun k => (b.record k).any fun w => !later w.times.d r.times.d) n b.au.held
    holdVehicle r (b.withNew n r) = { b.withNew n r with au := { b.au with held := names } } := by
  subst own
  have order : placeAfter (heldNotLater (b.withNew r.number r) r.times.d) r.number b.au.held
      = placeAfter (fun k => (b.record k).any fun w => !later w.times.d r.times.d) r.number b.au.held :=
    placeAfter_congr (fun k mem => by rw [heldNotLater, record_withNew_of (there k mem)]) _
  exact congrArg (fun names : List VehicleNumber =>
    { b.withNew r.number r with au := { b.au with held := names } }) order

end

/-- Settles O39. -/
theorem heavyVehicleIsGivenItsVerdict : Obligations.HeavyVehicleIsGivenItsVerdict := by
  intro s l v b p x closed n entered va directive reason found now heavy room tabled given late unwarned
    reserved committed flagged
  let outcome (c : Blocks) : Host.Outcome State Fault Refusal := .next (s.became c)
  let taken := b.setOpen l none
  let new := taken.withNew n entered
  have runs : Machine.exec (.closeTime l) s = outcome (takeClosed closed taken) :=
    congrArg outcome (closeIfReached_closes found now)
  have enters (space : b.vt.table.length < 48) :
      Machine.exec (.closeTime l) s = outcome (giveVerdict closed entered new) := by
    rw [runs, takeClosed_entered (b := taken) (v := closed) heavy space]
    rfl
  have why_eq : diversionReason new closed = reason := by
    unfold diversionReason
    rw [unreliableAtEntry_closed]
    rfl
  have fits_iff : admissible new entered = true ↔ room := admissible_iff new entered
  have dReached : entered.dReached b.now = reached b.now entered.times.d := Bool.false_or _
  have e1Reached : entered.e1Reached b.now = reached b.now entered.times.e1 := Bool.false_or _
  have v1Reached : entered.v1Reached b.now = reached b.now entered.times.v1 := Bool.false_or _
  have space_free (space : b.vt.table.length < 48) : n ∉ taken.vt.table.map (·.number) :=
    numberToAssign_free b space.le
  have once_new (space : b.vt.table.length < 48) (once : b.NumbersDistinct) : new.NumbersDistinct :=
    withNew_distinct once space (space_free space) rfl
  have found_new (space : b.vt.table.length < 48) : new.record entered.number = some entered :=
    withNew_record (space_free space) rfl
  have moved (space : b.vt.table.length < 48) (f : VehicleRecord → VehicleRecord) :
      new.onRecord entered.number f = taken.withNew n (f entered) :=
    withNew_onRecord (space_free space) rfl f
  refine ⟨fun space once dEarly => ?_, fun space once dNow => ?_, fun full => ?_⟩
  · rw [enters space]
    refine ⟨fun why is v1 => congrArg outcome ?_, fun passes fits e1 => congrArg outcome ?_,
      fun passes unfit there => congrArg outcome ?_⟩
    · rw [giveVerdict_diverts (why_eq.trans is), divertEntered_early (b := new) (once_new space once)
        (found_new space) (not_tableFull_of_diversionReason (why_eq.trans is)) (dReached.trans dEarly)
        (v1Reached.trans v1), moved space]
      rfl
    · rw [giveVerdict_admits (why_eq.trans passes) (fits_iff.mpr fits)]
      refine (admits_new (b := taken) once space (space_free space) rfl (e1Reached.trans e1)).trans ?_
      rw [show entered.dReached taken.now = false from dReached.trans dEarly]
      rfl
    · rw [giveVerdict_holds (why_eq.trans passes) (fun fits => unfit (fits_iff.mp fits))
        (dReached.trans dEarly)]
      exact holdVehicle_new (b := taken) rfl there
  · have unwarnedOn (c : Blocks) (h : c.vt = new.vt) (su : c.su = new.su) (why : Reason)
        (other : why ≠ .tableFull) (v1 : reached b.now entered.times.v1 = false) :
        divertEntered why entered c = ((c.onRecord n fun r => (r.divertedFor why).markedUnwarned).told x
          (directive .divert why)).request .unwarned := by
      have once' : c.NumbersDistinct := by
        rw [Blocks.NumbersDistinct, h]
        exact once_new space once
      have there : c.record entered.number = some entered := by
        rw [Blocks.record, h]
        exact found_new space
      have clock : c.now = b.now := congrArg Supervisor.clock su
      exact divertEntered_unwarned once' there other rfl rfl (clock ▸ dReached.trans dNow)
        (clock ▸ v1Reached.trans v1)
    rw [enters space]
    refine ⟨fun why is v1 => congrArg outcome ?_, fun passes fits e1 => congrArg outcome ?_,
      fun passes unfit entry e1 rs => ?_, fun passes unfit full v1 => ?_⟩
    · rw [giveVerdict_diverts (why_eq.trans is), unwarnedOn new rfl rfl why
        (not_tableFull_of_diversionReason (why_eq.trans is)) v1]
      exact congrArg (fun c : Blocks => (c.told x (directive .divert why)).request .unwarned)
        (moved space fun r => (r.divertedFor why).markedUnwarned)
    · rw [giveVerdict_admits (why_eq.trans passes) (fits_iff.mpr fits)]
      refine (admits_new (b := taken) once space (space_free space) rfl (e1Reached.trans e1)).trans ?_
      rw [show entered.dReached taken.now = true from dReached.trans dNow]
      rfl
    · intro placed revokes off
      rw [giveVerdict_late (why_eq.trans passes) (fun fits => unfit (fits_iff.mp fits)) (dReached.trans dNow)]
      refine ⟨_, congrArg outcome (takeLate_forced (b := taken) (space_free space) rfl entry off
        (e1Reached.trans e1)), ?_⟩
      have once' : placed.NumbersDistinct := numbersDistinct_told (b := tabled committed (reserved .forced))
        (withNew_distinct once space (space_free space) rfl) _ _
      exact shortfallSweep_ends once' revokes
    · intro r
      rw [giveVerdict_late (why_eq.trans passes) (fun fits => unfit (fits_iff.mp fits)) (dReached.trans dNow),
        takeLate_full (b := new) full]
      refine ⟨fun lock => congrArg outcome ?_, fun lock => ?_⟩
      · rw [setLock, if_pos (show new.au.lock = true from lock),
          unwarnedOn new rfl rfl .spanFull (by decide) v1]
        exact congrArg (fun c : Blocks => (c.told x (directive .divert .spanFull)).request .unwarned)
          (moved space fun r => (r.divertedFor .spanFull).markedUnwarned)
      · have set := setLock_evaluated (b := new) lock
        have vt : (setLock new).vt = new.vt := congrArg (·.vt) set.frame
        have su : (setLock new).su = new.su := congrArg (·.su) set.frame
        refine ⟨_, congrArg outcome (unwarnedOn (setLock new) vt su .spanFull (by decide) v1), ?_⟩
        have both := set.onVt fun t => { t with table := t.table.map fun w =>
          if w.number = n then (w.divertedFor .spanFull).markedUnwarned else w }
        have start : new.locked.onVt (fun t => { t with table := t.table.map fun w =>
            if w.number = n then (w.divertedFor .spanFull).markedUnwarned else w })
            = (taken.withNew n r).locked :=
          congrArg Blocks.locked (moved space fun r => (r.divertedFor .spanFull).markedUnwarned)
        rw [start] at both
        exact both
  · rw [runs, takeClosed_untracked (b := taken) (v := closed) heavy full, takeUntracked_told]
    rfl

end Sys2Proof.Machine

namespace Sys2Proof.Machine

/-! ## The PROCEED entries that STOP purges (R153, R148) -/

section

variable {b c : Blocks} {x y : Approach} {l : Lane}

/-- The entries of a queue that a purge keeps, and a queue that it leaves empty. -/
abbrev Blocks.keptOf (b : Blocks) (x : Approach) : List Directive :=
  (b.directives x).filter fun d => d.kind ≠ .proceed
abbrev Blocks.empties (b : Blocks) (x : Approach) : Prop := b.keptOf x = [] ∧ b.directives x ≠ []

/-- `c` is `b` after the purge of the queues of `xs`; the beacons are left open. -/
structure Purged (xs : List Approach) (b c : Blocks) : Prop where
  frame : c = { b with du := { b.du with
    queues := c.du.queues, overflow := c.du.overflow, lanes := c.du.lanes, beacon := c.du.beacon } }
  queued : ∀ y, c.directives y
    = if y ∈ xs then if b.empties y then resentTo b y else b.keptOf y else b.directives y
  overflow : ∀ y, c.du.overflow.at y
    = if y ∈ xs ∧ b.empties y then false else b.du.overflow.at y
  standing : ∀ l, c.standing l = { b.standing l with
    resend := if laneInUse b.profile l = true ∧ laneApproach b.profile l ∈ xs
        ∧ b.empties (laneApproach b.profile l) then false
      else (b.standing l).resend }

theorem at_put (p : PerApproach α) (x y : Approach) (v : α) :
    (p.put x v).at y = if y = x then v else p.at y := by
  cases x <;> cases y <;> rfl

theorem purgeProceeds_emptied (h : b.empties x) :
    purgeProceeds x b = queueEmptied x (b.setDirectives x []) := by
  obtain ⟨kept, some⟩ := h
  have none : (b.directives x).isEmpty = false := by simpa using some
  unfold purgeProceeds
  dsimp only
  rw [show (b.directives x).filter (fun e => decide (e.kind ≠ .proceed)) = [] from kept, none]
  rfl

theorem purgeProceeds_kept (h : ¬ b.empties x) : purgeProceeds x b = b.setDirectives x (b.keptOf x) := by
  refine if_neg fun both => h ?_
  simp only [Bool.and_eq_true, List.isEmpty_iff, Bool.not_eq_true', List.isEmpty_eq_false_iff] at both
  exact both

theorem purgeProceeds_purged (x : Approach) (b : Blocks) : Purged [x] b (purgeProceeds x b) := by
  by_cases h : b.empties x
  · have empty : (b.setDirectives x []).directives x = [] := PerApproach.at_put_same _ _ _
    rw [purgeProceeds_emptied h, queueEmptied_eq empty]
    refine ⟨rfl, fun y => ?_, fun y => ?_, fun l => ?_⟩
    · refine (at_put _ x y _).trans ?_
      by_cases same : y = x
      · subst same
        rw [if_pos rfl, if_pos (List.mem_singleton_self y), if_pos h]
        rfl
      · simp only [same, if_false, List.mem_singleton]
        exact (at_put _ x y _).trans (if_neg same)
    · refine (at_put _ x y _).trans ?_
      by_cases same : y = x
      · subst same
        rw [if_pos rfl, if_pos ⟨List.mem_singleton_self y, h⟩]
      · simp only [same, if_false, List.mem_singleton, false_and]
        rfl
    · refine (standing_refilled (b.setDirectives x []) x l).trans ?_
      have mem : l ∈ b.lanesOf x ↔ laneInUse b.profile l = true ∧ laneApproach b.profile l = x := mem_lanesOf
      by_cases there : l ∈ b.lanesOf x
      · obtain ⟨use, place⟩ := mem.mp there
        have marks : ((b.setDirectives x []).lanesOf x).contains l = true := List.contains_iff_mem.mpr there
        rw [marks, if_pos ⟨use, by simp [place], place ▸ h⟩]
        simp only [Bool.not_true, Bool.and_false]
        rfl
      · have marks : ((b.setDirectives x []).lanesOf x).contains l = false :=
          Bool.eq_false_iff.mpr fun marked => there (List.contains_iff_mem.mp marked)
        rw [marks, if_neg fun ⟨use, place, _⟩ => there (mem.mpr ⟨use, List.mem_singleton.mp place⟩)]
        simp only [Bool.not_false, Bool.and_true]
        rfl
  · rw [purgeProceeds_kept h]
    refine ⟨rfl, fun y => ?_, fun y => ?_, fun l => ?_⟩
    · refine (at_put _ x y _).trans ?_
      by_cases same : y = x
      · subst same
        rw [if_pos rfl, if_pos (List.mem_singleton_self y), if_neg h]
      · simp only [same, if_false, List.mem_singleton]
        rfl
    · rw [if_neg fun ⟨same, emptied⟩ => h (List.mem_singleton.mp same ▸ emptied)]
      rfl
    · rw [if_neg fun ⟨_, place, emptied⟩ => h (List.mem_singleton.mp place ▸ emptied)]
      rfl

theorem Purged.profile {xs : List Approach} (h : Purged xs b c) : c.profile = b.profile := by
  rw [h.frame]
  rfl

/-- The purge of one queue leaves what the other's purge reads. -/
theorem Purged.resentTo_other (h : Purged [x] b c) (other : y ≠ x) : resentTo c y = resentTo b y := by
  have standing (l : Lane) (place : laneApproach b.profile l = y) : c.standing l = b.standing l := by
    rw [h.standing, if_neg fun ⟨_, here, _⟩ => other (place.symm.trans (List.mem_singleton.mp here))]
  unfold resentTo
  rw [h.profile]
  refine (List.filterMap_congr fun l mem => ?_).trans (congrArg (List.filterMap (standingResent b))
    (List.filter_congr fun l _ => ?_))
  · have place := (List.mem_filter.mp mem).2
    simp only [Bool.and_eq_true, decide_eq_true_eq] at place
    rw [standingResent, standingResent, standing l place.1.2]
  · by_cases place : laneApproach b.profile l = y
    · rw [standing l place]
    · simp [place]

theorem Purged.directives_other (h : Purged [x] b c) (other : y ≠ x) : c.directives y = b.directives y :=
  (h.queued y).trans (if_neg fun here => other (List.mem_singleton.mp here))

theorem Purged.empties_other (h : Purged [x] b c) (other : y ≠ x) : c.empties y ↔ b.empties y := by
  rw [Blocks.empties, Blocks.keptOf, h.directives_other other]

theorem purgeProceeds_both (b : Blocks) :
    Purged [.A, .B] b (purgeProceeds .B (purgeProceeds .A b)) := by
  have first := purgeProceeds_purged .A b
  have second := purgeProceeds_purged .B (purgeProceeds .A b)
  generalize purgeProceeds .A b = c at first second
  generalize purgeProceeds .B c = d at second
  have emptiesB := first.empties_other (y := .B) (by decide)
  have all (y : Approach) : y ∈ [Approach.A, Approach.B] := by cases y <;> decide
  refine ⟨?_, fun y => ?_, fun y => ?_, fun l => ?_⟩
  · rw [second.frame, first.frame]
  · rw [if_pos (all y)]
    cases y with
    | A =>
      rw [second.directives_other (by decide), first.queued, if_pos (by decide)]
    | B =>
      have kept : c.keptOf .B = b.keptOf .B :=
        congrArg (List.filter _) (first.directives_other (by decide))
      rw [second.queued, if_pos (by decide), first.resentTo_other (by decide)]
      exact if_congr emptiesB rfl kept
  · rw [second.overflow, first.overflow]
    cases y with
    | A => simp
    | B => simp [emptiesB]
  · rw [second.standing, first.standing, first.profile]
    cases place : laneApproach b.profile l with
    | A => simp
    | B => simp [emptiesB]

/-! ## What joins a queue (R146) -/

theorem mem_joins {q : List Directive} {e d : Directive} (mem : d ∈ (joins q e).queue) : d ∈ q ∨ d = e := by
  unfold joins at mem
  dsimp only at mem
  split at mem
  · simpa using mem
  · split at mem
    · rcases List.mem_append.mp mem with there | new
      · exact .inl (List.mem_of_mem_erase there)
      · exact .inr (List.mem_singleton.mp new)
    · exact .inl mem

theorem mem_joinsAll {q es : List Directive} {d : Directive} (mem : d ∈ (joinsAll q es).queue) :
    d ∈ q ∨ d ∈ es := by
  induction es generalizing q with
  | nil => exact .inl mem
  | cons e es ih =>
    rcases ih mem with there | new
    · rcases mem_joins there with old | same
      · exact .inl old
      · exact .inr (same ▸ List.mem_cons_self)
    · exact .inr (List.mem_cons_of_mem _ new)

theorem kind_of_mem_resentTo {d : Directive} (mem : d ∈ resentTo b x) : d.kind ≠ .proceed := by
  obtain ⟨l, -, resent⟩ := List.mem_filterMap.mp mem
  unfold standingResent at resent
  split at resent
  · cases resent; nofun
  · cases resent; nofun
  · cases resent

/-! ## Vehicles abandoned (R104, R169) -/

theorem length_byNumber (table : List VehicleRecord) : (byNumber table).length = table.length := by
  have fold (l acc : List VehicleRecord) : (l.foldl (fun l r =>
      placeAfter (fun y => decide (y.number.toNat ≤ r.number.toNat)) r l) acc).length
      = acc.length + l.length := by
    induction l generalizing acc with
    | nil => rfl
    | cons r l ih =>
      rw [List.foldl_cons, ih, (placeAfter_perm _ r acc).length_eq, List.length_cons, List.length_cons]
      omega
  exact (fold table []).trans (Nat.zero_add _)

/-- Records offered to the journal one after the other: as many join as the queue has room for. -/
theorem foldl_offerJournal (rs : List VehicleRecord) (o : JournalOutcome) (b : Blocks) :
    rs.foldl (fun b r => offerJournal (recordWords o r b.now) b) b = { b with csu := { b.csu with
      journal := b.csu.journal ++ ((rs.map fun r =>
        { words := recordWords o r b.now, next := 0 }).take (8 - b.csu.journal.length))
      flags := if 8 - b.csu.journal.length < rs.length then b.csu.flags ||| Flag.journalLost.bit
        else b.csu.flags } } := by
  induction rs generalizing b with
  | nil => simp
  | cons r rs ih =>
    rw [List.foldl_cons, ih]
    by_cases room : b.csu.journal.length < 8
    · have offered : offerJournal (recordWords o r b.now) b = b.onCsu fun c => { c with
          journal := c.journal ++ [{ words := recordWords o r b.now, next := 0 }] } := if_pos room
      obtain ⟨k, left⟩ : ∃ k, 8 - b.csu.journal.length = k + 1 := ⟨7 - b.csu.journal.length, by omega⟩
      have left' : 8 - (b.csu.journal.length + 1) = k := by omega
      rw [offered]
      simp [Blocks.onCsu, Blocks.now, left, left']
    · have offered : offerJournal (recordWords o r b.now) b = b.request .journalLost := if_neg room
      have none : 8 - b.csu.journal.length = 0 := by omega
      rw [offered]
      simp [Blocks.request, Blocks.onCsu, none, BitVec.or_assoc]

end

end Sys2Proof.Machine

namespace Sys2Proof.Machine

/-! ## Notices outside ACTIVE (R152 to R154) -/

section

variable {b : Blocks} {x : Approach} {l : Lane}

theorem standingCause_service (mode : b.du.inputs.mode = .service) (l : Lane) :
    standingCause b l = some .service := if_pos mode

theorem beaconState_inactive (mode : b.du.inputs.mode ≠ .active) (x : Approach) :
    beaconState b x = .steady :=
  if_pos (by simp [mode])

theorem evalBeacons_inactive (mode : b.du.inputs.mode ≠ .active) :
    evalBeacons b = b.onDu fun d => { d with beacon := ⟨.steady, .steady⟩ } := by
  rw [evalBeacons, beaconState_inactive mode, beaconState_inactive mode]

/-- No in-use lane is OFF. -/
def Blocks.AllOn (b : Blocks) : Prop := ∀ l, laneInUse b.profile l = true → (b.standing l).state ≠ .off

theorem evalLane_allOn (mode : b.du.inputs.mode = .service) (on : b.AllOn) (l : Lane) :
    evalLane l b = b := by
  unfold evalLane
  split
  · rfl
  · rename_i use
    dsimp only
    rw [standingCause_service mode]
    cases state : (b.standing l).state with
    | off => exact absurd state (on l (by simpa using use))
    | on => rfl
    | absent => rfl

/-- In SERVICE a notice finds nothing to change in lanes that are ON. -/
theorem notice_allOn (f : DirectiveInputs → DirectiveInputs) (mode : (f b.du.inputs).mode = .service)
    (on : b.AllOn) : notice allLanes f b = b.onDu fun d => { d with
      inputs := f d.inputs, beacon := ⟨.steady, .steady⟩ } := by
  let c := b.onDu fun d => { d with inputs := f d.inputs }
  have same (ls : List Lane) : ls.foldl (fun b l => evalLane l b) c = c := by
    induction ls with
    | nil => rfl
    | cons l ls ih =>
      rw [List.foldl_cons, evalLane_allOn (b := c) mode on]
      exact ih
  have inactive : c.du.inputs.mode ≠ .active := by
    rw [show c.du.inputs.mode = .service from mode]
    decide
  rw [notice, evalStanding, same, evalBeacons_inactive inactive]
  rfl

/-- What STOP leaves in the AU, where the DU has every lane ON already (R130). -/
theorem stopAdmission_allOn (mode : b.du.inputs.mode = .service) (on : b.AllOn)
    (beacon : b.du.beacon = ⟨.steady, .steady⟩) : stopAdmission b = { b with
      au := { b.au with reservations := [], held := [], alarm := false, lock := false
                        occupants := ⟨0, 0⟩, unreserved := 0 }
      du := { b.du with inputs := { b.du.inputs with
        alarm := if b.au.alarm then false else b.du.inputs.alarm
        lock := if b.au.lock then false else b.du.inputs.lock } } } := by
  let c := b.onAu fun a => { a with reservations := [], held := [], alarm := false, lock := false,
                                    occupants := ⟨0, 0⟩, unreserved := 0 }
  have told (i : DirectiveInputs) : { b.du with inputs := i } = { b.du with
      inputs := i, beacon := ⟨.steady, .steady⟩ } := by rw [← beacon]
  have alarmed : noticeAlarm false c = _ := notice_allOn (b := c) (fun i => { i with alarm := false }) mode on
  unfold stopAdmission
  dsimp only
  rw [told]
  cases alarm : b.au.alarm with
  | false =>
    cases lock : b.au.lock with
    | false =>
      simp only [Bool.false_eq_true, if_false]
      rw [← told]
      rfl
    | true =>
      simp only [Bool.false_eq_true, if_false, if_true]
      exact notice_allOn (b := c) (fun i => { i with lock := false }) mode on
  | true =>
    simp only [if_true]
    rw [alarmed]
    cases lock : b.au.lock with
    | false =>
      simp only [Bool.false_eq_true, if_false]
      rfl
    | true =>
      simp only [if_true]
      exact notice_allOn (b := c.onDu _) (fun i => { i with lock := false }) mode on

/-- The lanes that a notice of SERVICE wakes queue their STANDING_ON each. -/
theorem toldBy_service (mode : b.du.inputs.mode = .service) (ls : List Lane) (x : Approach) :
    toldBy ls b x = (ls.filter fun l => decide ((laneInUse b.profile l = true
        ∧ (b.standing l).state = .off) ∧ laneApproach b.profile l = x)).map fun l =>
      standingDirective .standingOn l .service := by
  have told (l : Lane) : standingTold b l = if (b.standing l).state = .off then
      some (standingDirective .standingOn l .service) else none := by
    unfold standingTold
    rw [standingCause_service mode]
    cases (b.standing l).state <;> rfl
  unfold toldBy
  induction ls with
  | nil => rfl
  | cons l ls ih =>
    simp only [List.filter_cons]
    by_cases use : laneInUse b.profile l = true ∧ laneApproach b.profile l = x
    · obtain ⟨use, place⟩ := use
      rw [if_pos (by simp [use, place]), List.filterMap_cons, told l]
      by_cases off : (b.standing l).state = .off
      · rw [if_pos off, if_pos (by simp [use, place, off]), List.map_cons, ih]
      · rw [if_neg off, if_neg (by simp [off])]
        exact ih
    · have other : ¬ ((laneInUse b.profile l = true ∧ (b.standing l).state = .off)
          ∧ laneApproach b.profile l = x) := fun ⟨⟨here, _⟩, place⟩ => use ⟨here, place⟩
      rw [if_neg (by simpa using use), if_neg (by simpa using other)]
      exact ih

theorem standingAfter_service (mode : b.du.inputs.mode = .service) (l : Lane) :
    standingAfter b l = if (b.standing l).state = .off then (.on, some .service)
      else ((b.standing l).state, (b.standing l).reason) := by
  unfold standingAfter
  rw [standingCause_service mode]
  cases (b.standing l).state <;> simp

theorem abandonAll_eq (b : Blocks) : abandonAll b = { b with
    vt := { b.vt with table := [], occupants := ⟨[], []⟩ }
    csu := { b.csu with
      journal := b.csu.journal ++ (((byNumber b.vt.table).map fun r =>
        { words := recordWords .abandoned r b.now, next := 0 }).take (8 - b.csu.journal.length))
      flags := if 8 - b.csu.journal.length < b.vt.table.length then
          b.csu.flags ||| Flag.journalLost.bit else b.csu.flags } } := by
  unfold abandonAll
  dsimp only
  rw [foldl_offerJournal, length_byNumber]
  rfl

end

section

variable {b : Blocks}

theorem startActive_eq (b : Blocks) : startActive b = notice allLanes
    (fun i => { i with mode := .active, settling := decide (0 < settleMs b.profile) })
    (b.onSu fun u => { u with mode := .active, settleExpiry := settleFrom b.now b.profile }) := by
  have settling : (settleFrom b.now b.profile).isSome = decide (0 < settleMs b.profile) := by
    unfold settleFrom
    by_cases some : 0 < settleMs b.profile
    · rw [if_pos some]; simp [some]
    · rw [if_neg some]; simp [some]
  rw [← settling]
  rfl

/-- The blocks after STOP, from those that the DU's notice of it leaves. -/
theorem stopActive_eq {c : Blocks}
    (notice : stopNotice (b.onSu fun u => { u with mode := .service, settleExpiry := none }) = c)
    (mode : c.du.inputs.mode = .service) (on : c.AllOn) (beacon : c.du.beacon = ⟨.steady, .steady⟩) :
    stopActive b = { c with
      va := Assembler.reset
      vt := { c.vt with table := [], occupants := ⟨[], []⟩ }
      au := { c.au with reservations := [], held := [], alarm := false, lock := false
                        occupants := ⟨0, 0⟩, unreserved := 0 }
      du := { c.du with inputs := { c.du.inputs with
        alarm := if c.au.alarm then false else c.du.inputs.alarm
        lock := if c.au.lock then false else c.du.inputs.lock } }
      csu := (abandonAll c).csu } := by
  have abandoned := abandonAll_eq (discardVehicles c)
  have stops := stopAdmission_allOn (b := abandonAll (discardVehicles c))
    (by rw [abandoned]; exact mode) (by rw [abandoned]; exact on) (by rw [abandoned]; exact beacon)
  subst notice
  refine stops.trans ?_
  rw [abandoned, abandonAll_eq (stopNotice _)]
  rfl

/-- JOURNAL_LOST is set where the journal's queue has no room for every record. -/
theorem flagSet_ite (b : Blocks) (lost : Prop) [Decidable lost] (f g : Flag) :
    Blocks.flagSet { b with csu := { b.csu with
      flags := if lost then b.csu.flags ||| g.bit else b.csu.flags } } f
      = (b.flagSet f || (decide lost && decide (g = f))) := by
  by_cases full : lost
  · simp only [full, if_true, decide_true, Bool.true_and]
    exact flagSet_request b g f
  · simp only [full, if_false, decide_false, Bool.false_and, Bool.or_false]

end

/-- Settles O49: START by the notice's evaluation, STOP by the purge, the evaluation in SERVICE and the
emptying of the VT and the AU. -/
theorem startAndStop : Obligations.StartAndStop := by
  intro s m tag b settle kept emptied waking joined abandoned
  refine ⟨fun service => ?_, fun active => ?_⟩
  · have running : s.blocks.su.mode ≠ .startUp := by rw [service]; decide
    have taken : inService s.blocks.su.mode = true := by rw [service]; rfl
    refine ⟨_, commandEvent_owner (f := always startActive) running taken rfl, ?_⟩
    rw [startActive_eq]
    exact (notice_evaluated allLanes allLanes_nodup
      (fun i => { i with mode := .active, settling := decide (0 < settle) })
      (b.onSu fun u => { u with mode := .active, settleExpiry := settleFrom b.now b.profile })).result
      m tag 0x01 .done
  · have running : s.blocks.su.mode ≠ .startUp := by rw [active]; decide
    have taken : inActive s.blocks.su.mode = true := by rw [active]; rfl
    let c₀ := b.onSu fun u => { u with mode := .service, settleExpiry := none }
    let c₁ := purgeProceeds .B (purgeProceeds .A c₀)
    let c₂ := c₁.onDu fun d => { d with inputs := { d.inputs with mode := .service, settling := false } }
    have purged : Purged [.A, .B] c₀ c₁ := purgeProceeds_both c₀
    have told : Evaluated allLanes c₂ (stopNotice c₀) := notice_evaluated allLanes allLanes_nodup
      (fun i => { i with mode := .service, settling := false }) c₁
    generalize notice : stopNotice c₀ = c₃ at told
    have all (y : Approach) : y ∈ [Approach.A, Approach.B] := by cases y <;> decide
    have mode₂ : c₂.du.inputs.mode = .service := rfl
    have mode₃ : c₃.du.inputs.mode = .service := congrArg (·.du.inputs.mode) told.frame
    have inUse (l : Lane) : laneInUse c₂.profile l = laneInUse b.profile l := by
      rw [show c₂.profile = b.profile from purged.profile]
    have state₂ (l : Lane) : (c₂.standing l).state = (b.standing l).state :=
      (congrArg StandingLane.state (purged.standing l) :)
    have reason₂ (l : Lane) : (c₂.standing l).reason = (b.standing l).reason :=
      (congrArg StandingLane.reason (purged.standing l) :)
    have stands (l : Lane) : ((c₃.standing l).state, (c₃.standing l).reason) =
        if waking l then (.on, some .service) else ((b.standing l).state, (b.standing l).reason) := by
      have lane : l ∈ allLanes := by revert l; decide
      rw [told.lanes, standingAfter_service mode₂, inUse, state₂, reason₂]
      by_cases use : laneInUse b.profile l = true
      · by_cases off : (b.standing l).state = .off
        · rw [if_pos ⟨lane, use⟩, if_pos off, if_pos (show waking l from ⟨use, off⟩)]
        · rw [if_pos ⟨lane, use⟩, if_neg off, if_neg (show ¬ waking l from fun w => off w.2)]
      · rw [if_neg (fun w => use w.2), if_neg (show ¬ waking l from fun w => use w.1)]
    have on : c₃.AllOn := fun l use off => by
      have same := congrArg Prod.fst (stands l)
      have here : laneInUse b.profile l = true := by
        rw [← inUse, show c₂.profile = c₃.profile from (congrArg Blocks.profile told.frame).symm]
        exact use
      by_cases wakes : waking l
      · rw [if_pos wakes] at same
        exact absurd (off.symm.trans same) (by decide)
      · rw [if_neg wakes] at same
        exact wakes ⟨here, (off.symm.trans same).symm⟩
    have beacon : c₃.du.beacon = ⟨.steady, .steady⟩ := by
      have inactive : c₃.du.inputs.mode ≠ .active := by rw [mode₃]; decide
      have a := (told.beacons .A).trans (beaconState_inactive inactive .A)
      have b := (told.beacons .B).trans (beaconState_inactive inactive .B)
      exact congrArg₂ PerApproach.mk a b
    have queue (x : Approach) : evaluatedQueue allLanes c₂ x = joined x := by
      have start : c₂.directives x = if emptied x then resentTo b x else kept x :=
        (purged.queued x).trans (if_pos (all x))
      have names : toldBy allLanes c₂ x = (allLanes.filter fun l =>
          waking l ∧ laneApproach b.profile l = x).map fun l => standingDirective .standingOn l .service := by
        rw [toldBy_service mode₂]
        simp only [state₂, show c₂.profile = b.profile from purged.profile]
        rfl
      exact congrArg₂ joinsAll start names
    have frame : c₃ = { c₀ with
        du := { b.du with
          queues := c₃.du.queues, overflow := c₃.du.overflow, lanes := c₃.du.lanes
          beacon := c₃.du.beacon
          inputs := { b.du.inputs with mode := .service, settling := false } }
        csu := { b.csu with flags := c₃.csu.flags } } :=
      told.frame.trans (congrArg (fun d : Blocks => { d with
        du := { d.du with
          queues := c₃.du.queues, overflow := c₃.du.overflow, lanes := c₃.du.lanes
          beacon := c₃.du.beacon
          inputs := { d.du.inputs with mode := .service, settling := false } }
        csu := { d.csu with flags := c₃.csu.flags } }) purged.frame)
    have queued (x : Approach) : c₃.directives x = (joined x).queue := (told.queued x).trans (by rw [queue])
    have overflow (x : Approach) : c₃.du.overflow.at x
        = ((if emptied x then false else b.du.overflow.at x) || (joined x).dropped) := by
      have start : c₂.du.overflow.at x = if emptied x then false else b.du.overflow.at x :=
        (purged.overflow x).trans (if_congr (and_iff_right (all x)) rfl rfl)
      rw [told.overflow, queue, start]
    have marks (l : Lane) : (c₃.standing l).resend
        = ((if laneInUse b.profile l = true ∧ emptied (laneApproach b.profile l) then false
            else (b.standing l).resend)
          || (joined .A).marks.contains l || (joined .B).marks.contains l) := by
      have start : (c₂.standing l).resend
          = if laneInUse b.profile l = true ∧ emptied (laneApproach b.profile l) then false
            else (b.standing l).resend :=
        (congrArg StandingLane.resend (purged.standing l) :).trans
          (if_congr (and_congr_right fun _ => and_iff_right (all _)) rfl rfl)
      rw [told.marks, queue, queue, start]
    have flags (f : Flag) : c₃.flagSet f = (b.flagSet f || (decide (f = .directiveOverflow)
        && ((joined .A).dropped || (joined .B).dropped))) := by
      have start : c₂.flagSet f = b.flagSet f :=
        (congrArg (fun d : Blocks => d.flagSet f) purged.frame :)
      rw [told.flags, queue, queue, start]
    have acts : Machine.exec (.stop m tag) s = .next (s.became (recordResult m tag 0x02 .done (stopActive b))) :=
      commandEvent_owner (f := always stopActive) running taken rfl
    rw [stopActive_eq notice mode₃ on beacon, abandonAll_eq] at acts
    rw [beacon] at frame
    obtain ⟨q, o, ls, fs, rfl⟩ : ∃ q o ls fs, c₃ = { c₀ with
        du := { b.du with
          queues := q, overflow := o, lanes := ls, beacon := ⟨.steady, .steady⟩
          inputs := { b.du.inputs with mode := .service, settling := false } }
        csu := { b.csu with flags := fs } } := ⟨_, _, _, _, frame⟩
    have noted (f : Flag) : Blocks.flagSet { b with csu := { b.csu with flags := fs } } f = _ := flags f
    have after (f : Flag) := (flagSet_ite { b with csu := { b.csu with flags := fs } }
      (8 - b.csu.journal.length < b.vt.table.length) f .journalLost).trans
      (congrArg (· || (decide (8 - b.csu.journal.length < b.vt.table.length)
        && decide (Flag.journalLost = f))) (noted f))
    refine ⟨_, acts, rfl, stands, fun x d mem => ?_, fun x => ⟨queued x, overflow x⟩, marks, ?_, ?_,
      fun f other notDropped => ?_⟩
    · have mem : d ∈ (joined x).queue := (congrArg (d ∈ ·) (queued x)).mp mem
      rcases mem_joinsAll mem with there | new
      · split_ifs at there
        · exact kind_of_mem_resentTo there
        · simpa using (List.mem_filter.mp there).2
      · obtain ⟨l, -, rfl⟩ := List.mem_map.mp new
        nofun
    · exact (after .directiveOverflow).trans (by simp [Bool.or_assoc])
    · exact (after .journalLost).trans (by simp)
    · exact (after f).trans (by simp [notDropped, other.symm])

end Sys2Proof.Machine

namespace Sys2Proof.Machine

/-! ## Operands of PUSH_RESTRICTION (R134, R135) -/

section

variable {b : Blocks} {o : PushOperands} {x : Approach}

/-- A present field that fails R134. -/
def badPush (o : PushOperands) : Prop :=
  (o.spanLoadPresent = true ∧ o.spanLoad = 0) ∨ (o.grossPresent = true ∧ o.gross = 0)
    ∨ (o.heavyPresent = true ∧ (o.heavy = 0 ∨ 8 < o.heavy.toNat))
    ∨ (o.closedPresent = true ∧ 3 < o.closed.toNat)

/-- The entry that the operands spell where no field fails. -/
def spelledEntry (o : PushOperands) : Restriction :=
  { origin := o.origin
    spanLoad := if o.spanLoadPresent then some o.spanLoad.toNat else none
    heavy := if o.heavyPresent then some o.heavy.toNat else none
    gross := if o.grossPresent then some o.gross.toNat else none
    closed := if o.closedPresent then some ⟨o.closed.getLsbD 0, o.closed.getLsbD 1⟩ else none }

theorem closedOfCode_spelled : ∀ c : BitVec 3, closedOfCode c.toNat
    = if 3 < c.toNat then none else some ⟨c.getLsbD 0, c.getLsbD 1⟩ := by decide

theorem heavy_inRange (h : BitVec 4) : inRange h.toNat 1 8 = true ↔ ¬ (h = 0 ∨ 8 < h.toNat) := by
  revert h
  decide

theorem entryOf_bad (bad : badPush o) : entryOf o = none := by
  rcases bad with ⟨present, zero⟩ | ⟨present, zero⟩ | ⟨present, outside⟩ | ⟨present, unnamed⟩
  · simp [entryOf, present, zero]
  · simp [entryOf, present, zero]
  · have outside : inRange o.heavy.toNat 1 8 = false :=
      Bool.eq_false_iff.mpr fun inside => (heavy_inRange _).mp inside outside
    simp [entryOf, present, outside]
  · have code : closedOfCode o.closed.toNat = none := (closedOfCode_spelled _).trans (if_pos unnamed)
    simp [entryOf, present, code]

theorem entryOf_fine (fine : ¬ badPush o) : entryOf o = some (spelledEntry o) := by
  unfold badPush at fine
  simp only [not_or, not_and] at fine
  obtain ⟨load, gross, heavy, closed⟩ := fine
  have inside (present : o.heavyPresent = true) : inRange o.heavy.toNat 1 8 = true :=
    (heavy_inRange _).mpr (not_or.mpr (heavy present))
  have code (present : o.closedPresent = true) : closedOfCode o.closed.toNat
      = some ⟨o.closed.getLsbD 0, o.closed.getLsbD 1⟩ := (closedOfCode_spelled _).trans (if_neg (closed present))
  have noLoad : ¬ (o.spanLoadPresent && decide (o.spanLoad = 0)) = true := by simpa using load
  have noGross : ¬ (o.grossPresent && decide (o.gross = 0)) = true := by simpa using gross
  have noHeavy : ¬ (o.heavyPresent && !inRange o.heavy.toNat 1 8) = true := by simpa using inside
  rw [entryOf, if_neg noLoad, if_neg noGross, if_neg noHeavy]
  cases present : o.closedPresent with
  | false => simp [spelledEntry, optionalField, present]
  | true => simp [spelledEntry, optionalField, present, code present]

theorem looserThan_iff (p : Pages) (o : PushOperands) : looserThan p (spelledEntry o) = true ↔
    (o.spanLoadPresent = true ∧ spanLoadLimit p < o.spanLoad.toNat)
      ∨ (o.heavyPresent = true ∧ spanHeavyLimit p < o.heavy.toNat)
      ∨ (o.grossPresent = true ∧ grossLimit p < o.gross.toNat) := by
  unfold looserThan exceeds spelledEntry
  cases o.spanLoadPresent <;> cases o.heavyPresent <;> cases o.grossPresent <;>
    simp [or_assoc]

/-! ## The two commands' refusals (R134 to R136) -/

theorem pushEntry_bad (bad : badPush o) : pushEntry o b = (.badOperand, b) := by
  simp only [pushEntry, entryOf_bad bad]

theorem pushEntry_looser (fine : ¬ badPush o) (looser : looserThan b.profile (spelledEntry o) = true) :
    pushEntry o b = (.looser, b) := by
  simp only [pushEntry, entryOf_fine fine, looser, if_true]

theorem pushEntry_full (fine : ¬ badPush o) (within : ¬ looserThan b.profile (spelledEntry o) = true)
    (full : 8 ≤ b.ru.stack.length) : pushEntry o b = (.stackFull, b) := by
  simp only [pushEntry, entryOf_fine fine, if_neg within]
  exact if_pos full

theorem pushEntry_done (fine : ¬ badPush o) (within : ¬ looserThan b.profile (spelledEntry o) = true)
    (room : b.ru.stack.length < 8) :
    pushEntry o b = (.done, changeStack (spelledEntry o :: ·) b) := by
  simp only [pushEntry, entryOf_fine fine, if_neg within]
  exact if_neg (not_le.mpr room)

variable {expected : BitVec 9} {e : Restriction} {rest : List Restriction}

theorem popEntry_bad (beyond : 0x100 < expected.toNat) : popEntry expected b = (.badOperand, b) :=
  if_pos beyond

theorem popEntry_empty (named : expected.toNat ≤ 0x100) (empty : b.ru.stack = []) :
    popEntry expected b = (.stackEmpty, b) := by
  rw [popEntry, if_neg (show ¬ anyOrigin.toNat < expected.toNat from not_lt.mpr named)]
  simp only [empty]

theorem origin_ne_iff (expected : BitVec 9) (origin : BitVec 8) :
    (expected ≠ anyOrigin && expected ≠ origin.setWidth 9) = true
      ↔ expected.toNat ≠ 0x100 ∧ expected.toNat ≠ origin.toNat := by
  have any : expected = anyOrigin ↔ expected.toNat = 0x100 := BitVec.toNat_inj.symm
  have own : expected = origin.setWidth 9 ↔ expected.toNat = origin.toNat := by
    rw [← BitVec.toNat_inj, BitVec.toNat_setWidth, Nat.mod_eq_of_lt (by omega)]
  simp [any, own]

theorem popEntry_other (stack : b.ru.stack = e :: rest) (named : expected.toNat < 0x100)
    (other : expected.toNat ≠ e.origin.toNat) : popEntry expected b = (.notFound, b) := by
  rw [popEntry, if_neg (show ¬ anyOrigin.toNat < expected.toNat from not_lt.mpr named.le)]
  simp only [stack]
  exact if_pos ((origin_ne_iff _ _).mpr ⟨named.ne, other⟩)

theorem popEntry_done (stack : b.ru.stack = e :: rest)
    (own : expected.toNat = 0x100 ∨ expected.toNat = e.origin.toNat) :
    popEntry expected b = (.done, changeStack List.tail b) := by
  have named : ¬ anyOrigin.toNat < expected.toNat := by
    have : anyOrigin.toNat = 0x100 := rfl
    have := e.origin.isLt
    omega
  rw [popEntry, if_neg named]
  simp only [stack]
  exact if_neg fun differs => by
    obtain ⟨notAny, notOwn⟩ := (origin_ne_iff _ _).mp differs
    exact own.elim notAny notOwn

/-! ## What a changed stack brings (R137, R138, R126) -/

theorem changeStack_lanes (f : List Restriction → List Restriction) (b : Blocks) :
    (changeStack f b).lanes = b.lanes :=
  (blocksKept_lanes b.lanes).actOnReport _ ((blocksKept_lanes b.lanes).noticeClosure _ _ rfl)

theorem changeStack_va (f : List Restriction → List Restriction) (b : Blocks) :
    (changeStack f b).va = b.va := by
  rw [changeStack, actOnReport_va]
  exact (baseKept_va b.va).noticeClosure _ _ rfl

theorem changeStack_ru (f : List Restriction → List Restriction) (b : Blocks) :
    (changeStack f b).ru = { stack := f b.ru.stack } :=
  congrArg Restrictions.mk (changeStack_stack f b)

/-- Where no vehicle is known and no closure changes, the stack alone changes. -/
theorem changeStack_quiet {f : List Restriction → List Restriction} (rest : b.AtRest)
    (mode : b.su.mode ≠ .active)
    (same : (b.onRu fun r => { r with stack := f r.stack }).effClosed = b.effClosed) :
    changeStack f b = b.onRu fun r => { r with stack := f r.stack } := by
  have quiet : Quiet (b.onRu fun r => { r with stack := f r.stack }) := ⟨mode, rest.same rfl rfl rfl⟩
  unfold changeStack
  dsimp only
  rw [same, noticeClosure, if_pos rfl]
  exact quiet.actOnReport _

/-- The DU's notice of the approaches that a changed stack closes and opens (R138). -/
theorem noticeClosure_same {before after : PerApproach Bool} (same : after = before) (b : Blocks) :
    noticeClosure before after b = b := if_pos same.symm

theorem noticeClosure_evaluated {before after : PerApproach Bool} (moved : after ≠ before) (b : Blocks) :
    Evaluated (allLanes.filter fun l =>
        after.at (laneApproach b.profile l) ≠ before.at (laneApproach b.profile l))
      { b with du := { b.du with inputs := { b.du.inputs with closed := after } } }
      (noticeClosure before after b) := by
  have swap : (allLanes.filter fun l => decide (before.at (laneApproach b.profile l)
      ≠ after.at (laneApproach b.profile l))) = allLanes.filter fun l =>
        decide (after.at (laneApproach b.profile l) ≠ before.at (laneApproach b.profile l)) :=
    List.filter_congr fun l _ => decide_eq_decide.mpr ne_comm
  rw [noticeClosure, if_neg fun same => moved same.symm, ← swap]
  exact notice_evaluated _ (allLanes_nodup.filter _) (fun i => { i with closed := after }) b

theorem limitChange_tightened (before after : Nat) :
    limitChange before after = .tightened ↔ after < before := by
  unfold limitChange
  split_ifs <;> simp_all

theorem limitChange_loosened (before after : Nat) :
    limitChange before after = .loosened ↔ before < after := by
  unfold limitChange
  split_ifs <;> simp_all
  omega

theorem exists_approach (p : Approach → Prop) : (∃ x, p x) ↔ p .A ∨ p .B :=
  ⟨fun ⟨x, h⟩ => by cases x with
    | A => exact .inl h
    | B => exact .inr h, fun h => h.elim (fun a => ⟨_, a⟩) fun b => ⟨_, b⟩⟩

theorem newlySet_at (before after : PerApproach Bool) (x : Approach) :
    (newlySet before after).at x = true ↔ after.at x = true ∧ before.at x = false := by
  cases x <;> simp [newlySet, PerApproach.at]

section

variable {flag : Bool} {P goesOn : Blocks → Prop} {became : Prop} {d : Blocks}

/-- A closure that is reported, with the revocations and the sweep that it brings. -/
theorem closes_of (when : flag = true ↔ became) (once : d.NumbersDistinct)
    (goes : goesOn (if flag then closeApproach x d else d)) :
    (became → ∀ rs rs',
      RevokesInOrder (fun _ => true) (fun r => decide (r.approach = x)) rs d →
      RevokesInOrder overloaded (fun _ => true) rs' (rs.foldl Blocks.revoked d) →
      ∃ d', SweepEnds (rs ++ rs') d d' ∧ goesOn d') ∧ (¬ became → goesOn d) := by
  refine ⟨fun closed rs rs' first second => ?_, fun stays => ?_⟩
  · rw [if_pos (when.mpr closed)] at goes
    exact ⟨_, closeApproach_ends once x first second, goes⟩
  · rwa [if_neg fun set => stays (when.mp set)] at goes

/-- A tightened limit, with the sweep that it brings. -/
theorem tightens_of (when : flag = true ↔ became) (once : d.NumbersDistinct)
    (goes : goesOn (if flag then shortfallSweep d else d)) :
    (became → ∀ rs, RevokesInOrder overloaded (fun _ => true) rs d →
      ∃ d', SweepEnds rs d d' ∧ goesOn d') ∧ (¬ became → goesOn d) := by
  refine ⟨fun tight rs revokes => ?_, fun stays => ?_⟩
  · rw [if_pos (when.mpr tight)] at goes
    exact ⟨_, shortfallSweep_ends once revokes, goes⟩
  · rwa [if_neg fun set => stays (when.mp set)] at goes

/-- A loosened limit, with the alarm evaluation and the re-evaluation that it brings. -/
theorem relaxes_of (when : flag = true ↔ became)
    (goes : goesOn (if flag then reevaluate (evalAlarm false d) else d)) :
    (became → ∃ d', Reevaluates d d' ∧ goesOn d') ∧ (¬ became → goesOn d) := by
  refine ⟨fun loose => ?_, fun stays => ?_⟩
  · rw [if_pos (when.mpr loose)] at goes
    exact ⟨_, reevaluates_evalAlarm d, goes⟩
  · rwa [if_neg fun set => stays (when.mp set)] at goes

end

end

theorem EventKept.ite {P : Blocks → Prop} (_ : EventKept P) (flag : Bool) {b c : Blocks} (hb : P b)
    (hc : P c) : P (if flag then b else c) := by
  split_ifs
  · exact hb
  · exact hc

/-- Settles O54: the refusals by the operands, and a changed stack stage by stage. -/
theorem restrictionsPushAndPop : Obligations.RestrictionsPushAndPop := by
  intro s m tag o expected e rest b result refused bad entry looser changed mode
  have ⟨running, operating⟩ := inOperation_of mode
  have push {r : Result} {c : Blocks} (owner : pushEntry o b = (r, c)) :
      Machine.exec (.pushRestriction m tag o) s = .next (s.became (recordResult m tag 0x08 r c)) :=
    commandEvent_owner running operating owner
  have pop {r : Result} {c : Blocks} (owner : popEntry expected b = (r, c)) :
      Machine.exec (.popRestriction m tag expected) s = .next (s.became (recordResult m tag 0x09 r c)) :=
    commandEvent_owner running operating owner
  have looser_iff : looserThan b.profile (spelledEntry o) = true ↔ looser := looserThan_iff _ _
  have change (code : BitVec 8) (f : List Restriction → List Restriction) (i : Instr)
      (runs : Machine.exec i s = .next (s.became (recordResult m tag code .done (changeStack f b)))) :
      changed code (f b.ru.stack) i := by
    unfold changed
    intro after moved becameClosed becameOpen closing tightened relaxed closes tightens relaxes
    refine ⟨⟨_, runs, ?_, rfl, changeStack_lanes f b, changeStack_va f b, changeStack_su f b,
      fun service atRest same => ?_⟩, fun once => ?_⟩
    · exact changeStack_ru f b
    · rw [changeStack_quiet atRest (by rw [service]; decide) same]
      rfl
    · let p := reportOf b after
      have k := eventKept_numbersDistinct
      have closed (x : Approach) : p.becameClosed.at x = true ↔ becameClosed x := newlySet_at _ _ x
      have opened (x : Approach) : p.becameOpen.at x = true ↔ becameOpen x :=
        (newlySet_at _ _ x).trans and_comm
      have tight : (p.spanMoved .tightened && !(p.becameClosed.a || p.becameClosed.b)) = true
          ↔ tightened ∧ ¬ closing := by
        have limits : p.spanMoved .tightened = true ↔ tightened := by
          simp only [RestrictionReport.spanMoved, Bool.or_eq_true, decide_eq_true_eq]
          exact or_congr (limitChange_tightened _ _) (limitChange_tightened _ _)
        have either : (p.becameClosed.a || p.becameClosed.b) = true ↔ closing := by
          rw [Bool.or_eq_true]
          exact (or_congr (closed .A) (closed .B)).trans (exists_approach _).symm
        rw [Bool.and_eq_true, Bool.not_eq_true', ← Bool.not_eq_true, limits, either]
      have loose : (p.spanMoved .loosened || p.becameOpen.a || p.becameOpen.b) = true ↔ relaxed := by
        have limits : p.spanMoved .loosened = true
            ↔ b.effSpanLoad < after.effSpanLoad ∨ b.effHeavy < after.effHeavy := by
          simp only [RestrictionReport.spanMoved, Bool.or_eq_true, decide_eq_true_eq]
          exact or_congr (limitChange_loosened _ _) (limitChange_loosened _ _)
        have either : p.becameOpen.a = true ∨ p.becameOpen.b = true ↔ ∃ x, becameOpen x :=
          (or_congr (opened .A) (opened .B)).trans (exists_approach _).symm
        rw [Bool.or_eq_true, Bool.or_eq_true, or_assoc, limits, either, or_assoc]
      refine ⟨noticeClosure b.effClosed after.effClosed after, fun same => noticeClosure_same same after,
        fun differs => noticeClosure_evaluated differs after, ?_⟩
      have once₀ := k.noticeClosure b.effClosed after.effClosed (b := after) once
      refine closes_of (closed .A) once₀ ?_
      have once₁ := k.ite (p.becameClosed.at .A) (k.closeApproach .A once₀) once₀
      refine closes_of (closed .B) once₁ ?_
      have once₂ := k.ite (p.becameClosed.at .B) (k.closeApproach .B once₁) once₁
      exact tightens_of tight once₂ (relaxes_of loose runs)
  refine ⟨fun h => push (pushEntry_bad h),
    fun fine h => push (pushEntry_looser fine (looser_iff.mpr h)),
    fun fine within full => push (pushEntry_full fine (fun h => within (looser_iff.mp h)) full),
    fun fine within room => change 0x08 (entry :: ·) _
      (push (pushEntry_done fine (fun h => within (looser_iff.mp h)) room)),
    fun beyond => pop (popEntry_bad beyond), fun named empty => pop (popEntry_empty named empty),
    fun stack named other => pop (popEntry_other stack named other), fun stack own => ?_⟩
  have tail := change 0x09 List.tail _ (pop (popEntry_done stack own))
  rwa [stack] at tail

end Sys2Proof.Machine

namespace Sys2Proof.Machine

/-! ## Lanes reset where no standing state can move (R38, R60) -/

theorem vector_ext {α : Type} {u v : Vector α 6} (h : ∀ l : Lane, u[l] = v[l]) : u = v :=
  Vector.ext fun i hi => h ⟨i, hi⟩

theorem getElem_set {α : Type} (v : Vector α 6) (k l : Lane) (a : α) :
    (v.set k a)[l] = if l = k then a else v[l] := by
  by_cases same : l = k
  · subst same
    simp
  · simp [same, Fin.val_ne_of_ne (Ne.symm same)]

section

variable {b : Blocks} {l : Lane} {st : LaneState}

/-- The blocks with the lane states that the DU records replaced. -/
def Blocks.toldLanes (b : Blocks) (u : Vector LaneState 6) : Blocks :=
  b.onDu fun d => { d with inputs := { d.inputs with lanes := u } }

/-- No lane that leaves LIVE or stays out of it moves a standing state or a beacon, or gives up a
vehicle. -/
structure Blocks.Fixed (b : Blocks) : Prop where
  beacon : b.du.beacon = ⟨beaconState b .A, beaconState b .B⟩
  calm : b.su.mode = .active → ∀ l, reporting (b.lane l).state = false
  held : ∀ l, laneInUse b.profile l = true → (b.standing l).state = .absent
    ∨ ((b.standing l).state = .on
      ∧ ∀ u : Vector LaneState 6, u[l] ≠ .live → standingCause (b.toldLanes u) l ≠ none)

/-- The state that a lane enters when its view is reset. -/
def Blocks.resetState (b : Blocks) (l : Lane) : LaneState :=
  if laneInUse b.profile l then .offline else .unused

/-- The lane unit that a reset of the views leaves. -/
def Blocks.resetUnit (b : Blocks) (l : Lane) : LaneUnit :=
  (b.lane l).cleared.enter b.now (silenceMs b.profile l) (b.resetState l)

/-- The blocks with the views of some lanes reset. -/
def Blocks.lanesReset (b : Blocks) (ls : List Lane) : Blocks :=
  { b.toldLanes (Vector.ofFn fun l => if l ∈ ls ∧ (b.lane l).state ≠ b.resetState l then b.resetState l
      else b.du.inputs.lanes[l]) with
    lanes := Vector.ofFn fun l => if l ∈ ls then b.resetUnit l else b.lane l }

theorem resetState_ne_live (b : Blocks) (l : Lane) : b.resetState l ≠ .live := by
  unfold Blocks.resetState
  split_ifs <;> decide

theorem evalLane_held {u : Vector LaneState 6} (fixed : b.Fixed) (down : u[l] ≠ .live) :
    evalLane l (b.toldLanes u) = b.toldLanes u := by
  unfold evalLane
  split
  · rfl
  · rename_i use
    have here : laneInUse b.profile l = true := by
      have kept : (b.toldLanes u).profile = b.profile := rfl
      rw [← kept]
      exact by simpa using use
    dsimp only
    rcases fixed.held l here with absent | ⟨on, caused⟩
    · rw [show ((b.toldLanes u).standing l).state = .absent from absent]
    · obtain ⟨r, cause⟩ := Option.ne_none_iff_exists'.mp (caused u down)
      rw [show ((b.toldLanes u).standing l).state = .on from on, cause]

theorem noticeLane_held (fixed : b.Fixed) (down : st ≠ .live) :
    noticeLane l st b = b.toldLanes (b.du.inputs.lanes.set l st) := by
  have still := evalLane_held (u := b.du.inputs.lanes.set l st) fixed (l := l)
    (by rw [getElem_set, if_pos rfl]; exact down)
  have beacon : evalBeacons (b.toldLanes (b.du.inputs.lanes.set l st))
      = b.toldLanes (b.du.inputs.lanes.set l st) := by
    unfold evalBeacons
    exact congrArg (fun p => (b.toldLanes (b.du.inputs.lanes.set l st)).onDu fun d => { d with beacon := p })
      fixed.beacon.symm
  exact (congrArg evalBeacons still).trans beacon

theorem Blocks.Fixed.setLane {u : LaneUnit} (h : b.Fixed) (quiet : reporting u.state = false) :
    (b.setLane l u).Fixed := by
  refine ⟨h.beacon, fun active k => ?_, h.held⟩
  by_cases same : l = k
  · subst same
    rw [lane_setLane]
    exact quiet
  · rw [lane_setLane_ne _ same]
    exact h.calm active k

theorem Blocks.Fixed.told {u : Vector LaneState 6} (h : b.Fixed) : (b.toldLanes u).Fixed :=
  ⟨h.beacon, h.calm, h.held⟩

theorem reporting_enter (u : LaneUnit) (b : Blocks) (l : Lane) :
    reporting (u.enter b.now (silenceMs b.profile l) (b.resetState l)).state = false := by
  unfold Blocks.resetState
  split_ifs <;> rfl

/-- One lane's view is reset. -/
theorem enterLane_reset (fixed : b.Fixed) (l : Lane) :
    enterLane l (b.resetState l) (b.setLane l (b.lane l).cleared)
      = (b.toldLanes (if (b.lane l).state = b.resetState l then b.du.inputs.lanes
          else b.du.inputs.lanes.set l (b.resetState l))).setLane l (b.resetUnit l) := by
  have cleared : (b.setLane l (b.lane l).cleared).lane l = (b.lane l).cleared := lane_setLane _ _ _
  have state : (b.lane l).cleared.state = (b.lane l).state := rfl
  have entered : (b.setLane l (b.lane l).cleared).setLane l (b.resetUnit l) = b.setLane l (b.resetUnit l) :=
    setLane_setLane _ _ _ _
  have after : (b.setLane l (b.resetUnit l)).Fixed := fixed.setLane (reporting_enter _ b l)
  unfold enterLane announceLane
  dsimp only
  rw [cleared, state]
  rw [show (b.setLane l (b.lane l).cleared).setLane l ((b.lane l).cleared.enter
    (b.setLane l (b.lane l).cleared).now (silenceMs (b.setLane l (b.lane l).cleared).profile l)
    (b.resetState l)) = b.setLane l (b.resetUnit l) from entered]
  by_cases same : (b.lane l).state = b.resetState l
  · rw [if_pos same, if_pos same]
    rfl
  · have gives : laneChanged l (b.lane l).state (b.resetState l) (b.setLane l (b.resetUnit l))
        = b.setLane l (b.resetUnit l) := by
      refine if_neg ?_
      by_cases active : b.su.mode = .active
      · simp [fixed.calm active l]
      · simp [active]
    have unflagged : flagsLane (b.resetState l) = false := by
      unfold Blocks.resetState
      split_ifs <;> rfl
    rw [if_neg same, if_neg same, gives, unflagged, noticeLane_held after (resetState_ne_live b l)]
    rfl

theorem enterLane_lanesReset (fixed : b.Fixed) (l : Lane) :
    enterLane l (b.resetState l) (b.setLane l (b.lane l).cleared) = b.lanesReset [l] := by
  have units : b.lanes.set l (b.resetUnit l)
      = Vector.ofFn fun k => if k ∈ [l] then b.resetUnit k else b.lane k :=
    vector_ext fun k => by
      rw [getElem_set]
      by_cases same : k = l
      · subst same; simp
      · simp [same, Blocks.lane]
  have told : (if (b.lane l).state = b.resetState l then b.du.inputs.lanes
      else b.du.inputs.lanes.set l (b.resetState l))
      = Vector.ofFn fun k => if k ∈ [l] ∧ (b.lane k).state ≠ b.resetState k then b.resetState k
        else b.du.inputs.lanes[k] :=
    vector_ext fun k => by
      by_cases same : k = l
      · subst same
        by_cases stays : (b.lane k).state = b.resetState k
        · simp [stays]
        · simp [stays]
      · by_cases stays : (b.lane l).state = b.resetState l
        · simp [same, stays]
        · rw [if_neg stays, getElem_set, if_neg same]
          simp [same]
  rw [enterLane_reset fixed, told]
  exact congrArg (fun v => { b.toldLanes _ with lanes := v }) units

theorem lane_lanesReset (b : Blocks) (ls : List Lane) (l : Lane) :
    (b.lanesReset ls).lane l = if l ∈ ls then b.resetUnit l else b.lane l := by
  simp [Blocks.lanesReset, Blocks.lane]

theorem told_lanesReset (b : Blocks) (ls : List Lane) (l : Lane) :
    (b.lanesReset ls).du.inputs.lanes[l] = if l ∈ ls ∧ (b.lane l).state ≠ b.resetState l
      then b.resetState l else b.du.inputs.lanes[l] := by
  simp [Blocks.lanesReset, Blocks.toldLanes, Blocks.onDu]

theorem lanesReset_nil (b : Blocks) : b.lanesReset [] = b := by
  have units : (b.lanesReset []).lanes = b.lanes := vector_ext fun l => lane_lanesReset b [] l
  have told : (b.lanesReset []).du.inputs.lanes = b.du.inputs.lanes :=
    vector_ext fun l => (told_lanesReset b [] l).trans (by simp)
  exact congrArg₂ (fun u v => { b.toldLanes v with lanes := u }) units told

theorem lanesReset_append (b : Blocks) {ks ls : List Lane} (apart : ∀ l ∈ ls, l ∉ ks) :
    (b.lanesReset ks).lanesReset ls = b.lanesReset (ks ++ ls) := by
  have units : ((b.lanesReset ks).lanesReset ls).lanes = (b.lanesReset (ks ++ ls)).lanes :=
    vector_ext fun l => by
      refine (lane_lanesReset _ ls l).trans (Eq.trans ?_ (lane_lanesReset b (ks ++ ls) l).symm)
      by_cases mem : l ∈ ls
      · have same : (b.lanesReset ks).lane l = b.lane l := by simp [lane_lanesReset, apart l mem]
        rw [if_pos mem, if_pos (List.mem_append_right _ mem)]
        exact congrArg (fun u : LaneUnit => u.cleared.enter b.now (silenceMs b.profile l) (b.resetState l))
          same
      · simp [mem, lane_lanesReset]
  have told : ((b.lanesReset ks).lanesReset ls).du.inputs.lanes
      = (b.lanesReset (ks ++ ls)).du.inputs.lanes :=
    vector_ext fun l => by
      rw [told_lanesReset, told_lanesReset, told_lanesReset]
      have state : (b.lanesReset ks).resetState l = b.resetState l := rfl
      by_cases mem : l ∈ ls
      · have same : (b.lanesReset ks).lane l = b.lane l := by simp [lane_lanesReset, apart l mem]
        simp [mem, apart l mem, same, state]
      · simp [mem]
  exact congrArg₂ (fun u v => { b.toldLanes v with lanes := u }) units told

theorem Blocks.Fixed.lanesReset (fixed : b.Fixed) (ls : List Lane) : (b.lanesReset ls).Fixed := by
  refine ⟨fixed.beacon, fun active l => ?_, fixed.held⟩
  rw [lane_lanesReset]
  split_ifs
  · exact reporting_enter _ b l
  · exact fixed.calm active l

theorem foldl_resetLane {ls : List Lane} (fixed : b.Fixed) (once : ls.Nodup) :
    ls.foldl (fun b l => enterLane l (if laneInUse b.profile l then .offline else .unused)
      (b.setLane l (b.lane l).cleared)) b = b.lanesReset ls := by
  induction ls generalizing b with
  | nil => exact (lanesReset_nil b).symm
  | cons l ls ih =>
    obtain ⟨fresh, once⟩ := List.nodup_cons.mp once
    rw [List.foldl_cons, show enterLane l (if laneInUse b.profile l then .offline else .unused)
      (b.setLane l (b.lane l).cleared) = b.lanesReset [l] from enterLane_lanesReset fixed l,
      ih (fixed.lanesReset [l]) once, lanesReset_append b fun k mem known =>
        fresh (by rwa [List.mem_singleton.mp known] at mem)]
    rfl

/-- The reset of every lane's view moves the lanes and what the DU records of them alone. -/
theorem resetLanes_fixed (fixed : b.Fixed) : resetLanes b = b.lanesReset allLanes :=
  foldl_resetLane fixed allLanes_nodup

theorem mem_allLanes (l : Lane) : l ∈ allLanes := by
  revert l
  decide

/-! ## The standing states set and queued anew (R144, R153) -/

/-- The blocks with every standing state replaced. -/
def Blocks.standingAs (b : Blocks) (f : Lane → StandingLane) : Blocks :=
  b.onDu fun d => { d with lanes := Vector.ofFn f }

theorem getElem_foldl_set {α : Type} (f : Lane → α) (ls : List Lane) (v : Vector α 6) (l : Lane) :
    (ls.foldl (fun (v : Vector α 6) (l : Lane) => v.set l (f l)) v)[l] = if l ∈ ls then f l else v[l] := by
  induction ls generalizing v with
  | nil => simp
  | cons k ls ih =>
    rw [List.foldl_cons, ih, getElem_set]
    by_cases same : l = k
    · simp [same]
    · simp [same]

theorem foldl_setStanding_lanes (f : Lane → StandingLane) (ls : List Lane) (b : Blocks) :
    ls.foldl (fun b l => b.setStanding l (f l)) b
      = b.onDu fun d => { d with
          lanes := ls.foldl (fun (v : Vector StandingLane 6) (l : Lane) => v.set l (f l)) d.lanes } := by
  induction ls generalizing b with
  | nil => rfl
  | cons l ls ih => exact ih (b.setStanding l (f l))

theorem foldl_setStanding (f : Lane → StandingLane) (b : Blocks) :
    allLanes.foldl (fun b l => b.setStanding l (f l)) b = b.standingAs f := by
  rw [foldl_setStanding_lanes]
  have lanes : allLanes.foldl (fun (v : Vector StandingLane 6) (l : Lane) => v.set l (f l)) b.du.lanes
      = Vector.ofFn f :=
    vector_ext fun l => by
      rw [getElem_foldl_set, if_pos (mem_allLanes l)]
      simp
  exact congrArg (fun v => b.onDu fun d => { d with lanes := v }) lanes

/-- The standing state of a lane not in use. -/
def StandingLane.gone : StandingLane := { state := .absent, reason := none, resend := false }

/-- The standing states that a change of profile or mode gives. -/
def Blocks.standingBy (b : Blocks) (f : Lane → StandingLane) : Blocks :=
  b.standingAs fun l => if laneInUse b.profile l then f l else StandingLane.gone

theorem resetStanding_eq (f : Lane → StandingLane) (b : Blocks) : resetStanding f b = b.standingBy f :=
  foldl_setStanding (fun l => if laneInUse b.profile l then f l else StandingLane.gone) b

theorem standing_standingAs (b : Blocks) (f : Lane → StandingLane) (l : Lane) :
    (b.standingAs f).standing l = f l := by
  simp [Blocks.standingAs, Blocks.standing, Blocks.onDu]

/-- A STANDING_ON with its recorded reason for each of some lanes. -/
def Blocks.standingOns (b : Blocks) (ls : List Lane) (x : Approach) : List Directive :=
  (ls.filter fun l => laneApproach b.profile l = x).map fun l =>
    standingDirective .standingOn l ((b.standing l).reason.getD .none)

/-- The blocks with those directives queued. -/
def Blocks.withStandingOns (b : Blocks) (ls : List Lane) : Blocks :=
  b.onDu fun d => { d with queues :=
    ⟨d.queues.a ++ b.standingOns ls .A, d.queues.b ++ b.standingOns ls .B⟩ }

theorem directives_withStandingOns (b : Blocks) (ls : List Lane) (x : Approach) :
    (b.withStandingOns ls).directives x = b.directives x ++ b.standingOns ls x := by
  cases x
  · rfl
  · rfl

theorem length_standingOns (b : Blocks) (ls : List Lane) (x : Approach) :
    (b.standingOns ls x).length ≤ ls.length := by
  unfold Blocks.standingOns
  rw [List.length_map]
  exact List.length_filter_le _ ls

theorem standingOns_cons (b : Blocks) (l : Lane) (ls : List Lane) (x : Approach) :
    b.standingOns (l :: ls) x = b.standingOns [l] x ++ b.standingOns ls x := by
  unfold Blocks.standingOns
  rw [show l :: ls = [l] ++ ls from rfl, List.filter_append, List.map_append]

theorem queueStandingOn_withStandingOns (l : Lane) (room : ∀ x, (b.directives x).length < 16) :
    queueStandingOn l ((b.standing l).reason.getD .none) b = b.withStandingOns [l] := by
  unfold queueStandingOn
  rw [queue_room _ _ _ (room _)]
  unfold Blocks.withStandingOns Blocks.setDirectives Blocks.standingOns Blocks.onDu
  cases place : laneApproach b.profile l with
  | A => simp [place, PerApproach.put, Blocks.directives, PerApproach.at]
  | B => simp [place, PerApproach.put, Blocks.directives, PerApproach.at]

theorem foldl_queueStandingOn {ls : List Lane} (room : ∀ x, (b.directives x).length + ls.length ≤ 16) :
    ls.foldl (fun b l => queueStandingOn l ((b.standing l).reason.getD .none) b) b
      = b.withStandingOns ls := by
  induction ls generalizing b with
  | nil => simp [Blocks.withStandingOns, Blocks.standingOns, Blocks.onDu]
  | cons l ls ih =>
    have first : ∀ x, (b.directives x).length < 16 := fun x => by
      have := room x
      rw [List.length_cons] at this
      omega
    have rest : ∀ x, ((b.withStandingOns [l]).directives x).length + ls.length ≤ 16 := fun x => by
      have := room x
      have one := length_standingOns b [l] x
      rw [List.length_cons] at this
      rw [List.length_singleton] at one
      rw [directives_withStandingOns, List.length_append]
      omega
    rw [List.foldl_cons, queueStandingOn_withStandingOns l first, ih rest]
    exact congrArg₂ (fun u v => b.onDu fun d => { d with queues := ⟨u, v⟩ })
      ((List.append_assoc _ _ _).trans (congrArg (b.du.queues.a ++ ·) (standingOns_cons b l ls .A).symm))
      ((List.append_assoc _ _ _).trans (congrArg (b.du.queues.b ++ ·) (standingOns_cons b l ls .B).symm))

/-- With both queues empty, one STANDING_ON is queued for each in-use lane. -/
theorem queueAllStanding_empty (bare : ∀ x, b.directives x = []) :
    queueAllStanding b = b.withStandingOns b.inUseLanes := by
  refine foldl_queueStandingOn fun x => ?_
  rw [bare x, List.length_nil, Nat.zero_add]
  exact (List.length_filter_le _ allLanes).trans (by decide)

end

end Sys2Proof.Machine

namespace Sys2Proof.Machine

/-! ## ENTER_BYPASS (R181, R36, R60, R153, R171) -/

section

variable {b : Blocks}

/-- The DU as ENTER_BYPASS leaves it. -/
def DirectiveUnit.bypassed (d : DirectiveUnit) : DirectiveUnit :=
  { d with
    queues := ⟨[], []⟩, overflow := ⟨false, false⟩, lastPopped := ⟨none, none⟩
    hold := ⟨none, none⟩, beacon := ⟨.steady, .steady⟩
    lanes := Vector.replicate 6 StandingLane.gone
    inputs := { d.inputs with mode := .bypass, settling := false } }

theorem bypassNotice_eq (b : Blocks) : bypassNotice b = b.onDu DirectiveUnit.bypassed := by
  unfold bypassNotice
  dsimp only
  rw [foldl_setStanding (fun _ => { state := .absent, reason := none, resend := false })]
  refine (evalBeacons_inactive ?_).trans ?_
  · exact (by decide : Mode.bypass ≠ .active)
  have lanes : Vector.ofFn (fun _ : Lane => StandingLane.gone) = Vector.replicate 6 StandingLane.gone :=
    vector_ext fun l => by simp
  exact congrArg (fun v => b.onDu fun d => { d.bypassed with lanes := v }) lanes

theorem laneInUse_noProfile (l : Lane) : laneInUse noProfile l = false := by
  revert l
  decide

theorem bypassNotice_fixed (mode : b.su.mode = .bypass) : (bypassNotice b).Fixed := by
  rw [bypassNotice_eq]
  refine ⟨?_, fun active => ?_, fun l _ => Or.inl ?_⟩
  · have steady (x : Approach) : beaconState (b.onDu DirectiveUnit.bypassed) x = .steady :=
      beaconState_inactive (by exact (by decide : Mode.bypass ≠ .active)) x
    rw [steady, steady]
    rfl
  · exact absurd (mode.symm.trans active) nofun
  · simp [Blocks.standing, Blocks.onDu, DirectiveUnit.bypassed, StandingLane.gone]

theorem bypassReset_eq (mode : b.su.mode = .bypass) :
    resetLanes (bypassNotice b) = (b.onDu DirectiveUnit.bypassed).lanesReset allLanes := by
  rw [resetLanes_fixed (bypassNotice_fixed mode), bypassNotice_eq]

theorem resetState_bypassed (none : b.su.active = none) (l : Lane) : b.resetState l = .unused := by
  have unprofiled : b.profile = noProfile := by
    unfold Blocks.profile
    rw [none]
    rfl
  unfold Blocks.resetState
  rw [unprofiled, laneInUse_noProfile]
  rfl

/-- A lane that enters UNUSED has its line released (R61). -/
theorem resetUnit_unused {l : Lane} (state : b.resetState l = .unused) :
    b.resetUnit l = { LaneUnit.reset with prevSeq := (b.lane l).prevSeq } := by
  unfold Blocks.resetUnit
  rw [state]
  rfl

theorem dropJournal_eq (b : Blocks) : dropJournal b = b.onCsu fun c => { c with
    journal := []
    flags := c.flags ||| if b.csu.journal = [] then 0 else Flag.journalLost.bit } := by
  unfold dropJournal
  cases journal : b.csu.journal with
  | nil =>
    rw [if_pos rfl]
    refine (if_pos rfl).trans ?_
    simp [Blocks.onCsu, ← journal]
  | cons e rest =>
    rw [if_neg nofun, if_neg nofun]
    rfl

end

section

variable {s : State}

/-- A running sweep as APPLY_PROFILE and ENTER_BYPASS leave it (R35, R36). -/
def Sweep.ended (w : Sweep) : Sweep :=
  if w.running then { w with running := false, position := none, outcome := .superseded } else w

theorem supersede_eq (s : State) : supersede s = { s with
    ptu := { s.ptu with sweep := s.ptu.sweep.ended }
    blocks := { s.blocks with csu := { s.blocks.csu with
      flags := s.blocks.csu.flags ||| if s.ptu.sweep.running then Flag.longOpDone.bit else 0 } } } := by
  unfold supersede Sweep.ended
  cases s.ptu.sweep.running with
  | true => rfl
  | false => simp

theorem leavePtu_idle (idle : ∀ (k : Master) t st, s.slot k ≠ .translating t st) :
    s.slots.map leavePtu = s.slots := by
  refine Vector.ext fun i hi => ?_
  rw [Vector.getElem_map]
  have here := idle ⟨i, hi⟩
  unfold State.slot at here
  change ∀ t st, s.slots[i] ≠ .translating t st at here
  cases slot : s.slots[i] with
  | translating t st => exact absurd slot (here t st)
  | free => rfl
  | held t => rfl
  | memory t a k => rfl

/-- The PTU at ENTER_BYPASS with no transaction in its hands. -/
theorem bypassPtu_idle (idle : ∀ (k : Master) t st, s.slot k ≠ .translating t st) :
    bypassPtu s = { s with
      mp := { s.mp with cycle := s.mp.cycle.discardWalk }
      ptu := { s.ptu with
        buffer := Vector.replicate 8 (Vector.replicate 16 BufferSet.cleared)
        engine := .idle, queue := [], sweep := s.ptu.sweep.ended }
      blocks := { s.blocks with csu := { s.blocks.csu with
        flags := s.blocks.csu.flags ||| if s.ptu.sweep.running then Flag.longOpDone.bit else 0 } } } := by
  unfold bypassPtu
  rw [supersede_eq]
  exact congrArg (fun v => ({ s with
      mp := { s.mp with cycle := s.mp.cycle.discardWalk }
      ptu := { s.ptu with
        buffer := Vector.replicate 8 (Vector.replicate 16 BufferSet.cleared)
        engine := .idle, queue := [], sweep := s.ptu.sweep.ended }
      slots := v
      blocks := { s.blocks with csu := { s.blocks.csu with
        flags := s.blocks.csu.flags
          ||| if s.ptu.sweep.running then Flag.longOpDone.bit else 0 } } } : State)) (leavePtu_idle idle)

theorem journalEmptied_nil (h : s.blocks.csu.journal = []) :
    journalEmptied s = s.onMp fun p => { p with waitCount := 0 } := by
  unfold journalEmptied
  rw [h]
  rfl

/-- A command that its mode takes, of an owner that reaches the ports. -/
theorem takeCommand_taken {m : Master} {tag code : BitVec 8} {taken : Mode → Bool}
    {owner : State → Result × State} {r : Result} {t : State} (yes : taken s.blocks.su.mode = true)
    (acts : owner s = (r, t)) :
    takeCommand m tag code taken owner s = t.act (recordResult m tag code r) := by
  have yes : taken s.mode = true := yes
  unfold takeCommand
  rw [if_pos yes, acts]

end

/-- Settles O50. -/
theorem enterBypassClearsThePart : Obligations.EnterBypassClearsThePart := by
  intro s m tag b dropped swept service settled idle
  let left : Blocks := b.onSu fun u => { u with mode := .bypass, active := none }
  let after : Blocks := (left.onDu DirectiveUnit.bypassed).lanesReset allLanes
  refine ⟨after.lanes, after.du.inputs.lanes, fun l => ⟨?_, ?_⟩, ?_⟩
  · refine (lane_lanesReset _ allLanes l).trans ((if_pos (mem_allLanes l)).trans ?_)
    exact resetUnit_unused (resetState_bypassed (b := left.onDu DirectiveUnit.bypassed) rfl l)
  · rw [told_lanesReset, resetState_bypassed (b := left.onDu DirectiveUnit.bypassed) rfl l]
    by_cases unused : (b.lane l).state = .unused
    · rw [if_pos unused, if_neg fun both => both.2 unused]
      rfl
    · rw [if_neg unused, if_pos ⟨mem_allLanes l, unused⟩]
  · have blocks : bypassBlocks b = after.onCsu fun c => { c with
        journal := [], flags := c.flags ||| dropped } := by
      unfold bypassBlocks
      dsimp only
      rw [bypassReset_eq (b := left) rfl, dropJournal_eq]
      rfl
    have acts : enterBypassMode s.fresh = (.done, { s with
        answers := []
        mp := { s.mp with
          waitCount := 0
          cycle := s.mp.cycle.discardJournal.discardWalk }
        ptu := { s.ptu with
          buffer := Vector.replicate 8 (Vector.replicate 16 BufferSet.cleared)
          engine := .idle, queue := [], sweep := s.ptu.sweep.ended }
        blocks := after.onCsu fun c => { c with
          journal := [], flags := (c.flags ||| dropped) ||| swept } }) := by
      unfold enterBypassMode
      rw [show s.fresh.onBlocks bypassBlocks = { s.fresh with blocks := bypassBlocks b } from rfl, blocks,
        journalEmptied_nil rfl]
      exact congrArg (Prod.mk Result.done) (bypassPtu_idle idle)
    refine (commandEvent_running (by rw [service]; nofun) fun s => drain (doEnterBypass m tag s)).trans ?_
    rw [doEnterBypass, takeCommand_taken (s := s.fresh) (show inService b.su.mode = true by rw [service]; rfl)
      acts]
    refine congrArg Host.Outcome.next ?_
    have still (t : State) (slots : t.slots = s.slots) (bus : t.bus = s.bus) : drain (poke t) = poke t :=
      drain_settled ((onward_poke t).settled (settled_same slots bus settled))
    exact still _ rfl rfl

end Sys2Proof.Machine

namespace Sys2Proof.Machine

/-! ## APPLY_PROFILE (R178, R35, R60, R153, R171) -/

section

variable {b : Blocks}

/-- The beacons evaluated leave standing states that no lane's reset moves, where every lane out of
LIVE has a standing cause, or no standing state. -/
theorem fixed_evalBeacons (calm : b.su.mode = .active → ∀ l, reporting (b.lane l).state = false)
    (held : ∀ l, laneInUse b.profile l = true → (b.standing l).state = .absent
      ∨ ((b.standing l).state = .on
        ∧ ∀ u : Vector LaneState 6, u[l] ≠ .live → standingCause (b.toldLanes u) l ≠ none)) :
    (evalBeacons b).Fixed :=
  ⟨rfl, calm, held⟩

/-- The standing state of an in-use lane in standing divert. -/
def StandingLane.onFor (r : Option Reason) : StandingLane := { state := .on, reason := r, resend := false }

theorem standing_standingBy (b : Blocks) (f : Lane → StandingLane) (l : Lane) :
    (b.standingBy f).standing l = if laneInUse b.profile l then f l else StandingLane.gone :=
  standing_standingAs b _ l

/-- A STANDING_ON for each in-use lane of an approach, for one reason. -/
def Blocks.onFor (b : Blocks) (r : Reason) (x : Approach) : List Directive :=
  (allLanes.filter fun l => laneInUse b.profile l && laneApproach b.profile l = x).map fun l =>
    standingDirective .standingOn l r

theorem standingOns_standingBy (b : Blocks) {f : Lane → StandingLane} {r : Reason} (x : Approach)
    (reason : ∀ l, laneInUse b.profile l = true → (f l).reason = some r) :
    (b.standingBy f).standingOns b.inUseLanes x = b.onFor r x := by
  have lanes : b.inUseLanes.filter (fun l => laneApproach b.profile l = x)
      = allLanes.filter fun l => laneInUse b.profile l && laneApproach b.profile l = x := by
    rw [Blocks.inUseLanes, List.filter_filter]
    exact List.filter_congr fun l _ => Bool.and_comm _ _
  change (b.inUseLanes.filter fun l => laneApproach b.profile l = x).map _ = _
  rw [lanes]
  refine List.map_congr_left fun l mem => ?_
  obtain ⟨used, -⟩ := Bool.and_eq_true_iff.mp (List.mem_filter.mp mem).2
  rw [standing_standingBy, if_pos used, reason l used]
  rfl

/-- The blocks with every in-use lane's standing state set and queued, for one reason. -/
theorem queueAllStanding_standingBy {f : Lane → StandingLane} {r : Reason}
    (bare : b.du.queues = ⟨[], []⟩) (reason : ∀ l, laneInUse b.profile l = true → (f l).reason = some r) :
    queueAllStanding (resetStanding f b)
      = (b.standingBy f).onDu fun d => { d with queues := ⟨b.onFor r .A, b.onFor r .B⟩ } := by
  have empty (x : Approach) : (b.standingBy f).directives x = [] := by
    change b.du.queues.at x = []
    rw [bare]
    cases x
    · rfl
    · rfl
  rw [resetStanding_eq, queueAllStanding_empty empty]
  have queue (x : Approach) : (b.standingBy f).directives x ++ (b.standingBy f).standingOns b.inUseLanes x
      = b.onFor r x := by
    rw [empty, List.nil_append, standingOns_standingBy b x reason]
  exact congrArg₂ (fun u v => (b.standingBy f).onDu fun d => { d with queues := ⟨u, v⟩ })
    (queue .A) (queue .B)

/-- The blocks as the DU's part of APPLY_PROFILE leaves them. -/
def Blocks.applied (b : Blocks) : Blocks :=
  b.onDu fun d => { d with
    queues := ⟨b.onFor .service .A, b.onFor .service .B⟩, overflow := ⟨false, false⟩
    lastPopped := ⟨none, none⟩, hold := ⟨none, none⟩, beacon := ⟨.steady, .steady⟩
    lanes := Vector.ofFn fun l =>
      if laneInUse b.profile l then StandingLane.onFor (some .service) else StandingLane.gone
    inputs := { d.inputs with mode := .service, settling := false } }

theorem applyNotice_set (b : Blocks) :
    applyNotice b = evalBeacons (b.applied.onDu fun d => { d with beacon := b.du.beacon }) := by
  unfold applyNotice
  exact congrArg evalBeacons (queueAllStanding_standingBy
    (f := fun _ => StandingLane.onFor (some .service)) (r := .service) rfl fun _ _ => rfl)

theorem applyNotice_eq (b : Blocks) : applyNotice b = b.applied :=
  (applyNotice_set b).trans (evalBeacons_inactive (by exact (by decide : Mode.service ≠ .active)))

theorem standing_applied (b : Blocks) (l : Lane) : b.applied.standing l
    = if laneInUse b.profile l then StandingLane.onFor (some .service) else StandingLane.gone := by
  simp [Blocks.applied, Blocks.standing, Blocks.onDu]

theorem applyNotice_fixed (mode : b.su.mode = .service) : (applyNotice b).Fixed := by
  rw [applyNotice_set]
  refine fixed_evalBeacons (fun active => absurd (mode.symm.trans active) nofun) fun l use => Or.inr ?_
  have on := (standing_applied b l).trans (if_pos use)
  exact ⟨congrArg StandingLane.state on, fun u _ => by rw [standingCause_service rfl]; nofun⟩

theorem applyReset_eq (mode : b.su.mode = .service) :
    resetLanes (applyNotice b) = b.applied.lanesReset allLanes := by
  rw [resetLanes_fixed (applyNotice_fixed mode), applyNotice_eq]

theorem resetUnit_offline {l : Lane} (state : b.resetState l = .offline) :
    b.resetUnit l = { LaneUnit.reset with
      state := .offline, silence := some (timeAdd b.now (silenceMs b.profile l)) } := by
  unfold Blocks.resetUnit
  rw [state]
  rfl

theorem resetUnit_eq (b : Blocks) (l : Lane) : b.resetUnit l = if laneInUse b.profile l then
      { LaneUnit.reset with state := .offline, silence := some (timeAdd b.now (silenceMs b.profile l)) }
    else { LaneUnit.reset with prevSeq := (b.lane l).prevSeq } := by
  by_cases use : laneInUse b.profile l = true
  · rw [if_pos use, resetUnit_offline (if_pos use)]
  · rw [if_neg use, resetUnit_unused (if_neg use)]

theorem state_resetUnit (b : Blocks) (l : Lane) : (b.resetUnit l).state = b.resetState l := by
  rw [resetUnit_eq, Blocks.resetState]
  split_ifs <;> rfl

/-- What the DU records of each lane after every view's reset. -/
theorem told_resetAll (b : Blocks) (l : Lane) : (b.lanesReset allLanes).du.inputs.lanes[l]
    = if (b.lane l).state = ((b.lanesReset allLanes).lane l).state then b.du.inputs.lanes[l]
      else ((b.lanesReset allLanes).lane l).state := by
  rw [told_lanesReset, lane_lanesReset, if_pos (mem_allLanes l), state_resetUnit]
  by_cases same : (b.lane l).state = b.resetState l
  · rw [if_pos same, if_neg fun both => both.2 same]
  · rw [if_neg same, if_pos ⟨mem_allLanes l, same⟩]

/-- Every stored page is valid. -/
theorem validity_all (v : Vector Bool 5) : v.toList.all id = true ↔ ∀ i : Fin 5, v[i] = true := by
  rw [List.all_eq_true]
  constructor
  · intro all i
    exact all _ (by simp)
  · intro each x mem
    obtain ⟨i, hi, rfl⟩ := List.getElem_of_mem mem
    exact each ⟨i, by simpa using hi⟩

theorem looserThanStored_iff (p : Pages) (b : Blocks) :
    looserThanStored p b = true ↔ ∃ e ∈ b.ru.stack, looserThan p e = true :=
  List.any_eq_true

section

variable (idle : b.su.storeState = .idle)
include idle

theorem applyRefusal_invalid (invalid : ¬ ∀ i : Fin 5, b.su.validity[i] = true) :
    applyRefusal b = some .badOperand := by
  rw [← validity_all, Bool.not_eq_true] at invalid
  simp [applyRefusal, idle, StoreState.busy, invalid]

theorem applyRefusal_looser (valid : ∀ i : Fin 5, b.su.validity[i] = true)
    (looser : ∃ e ∈ b.ru.stack, looserThan b.su.store e = true) : applyRefusal b = some .looser := by
  rw [← validity_all] at valid
  rw [← looserThanStored_iff] at looser
  simp [applyRefusal, idle, StoreState.busy, valid, looser]

theorem applyRefusal_none (valid : ∀ i : Fin 5, b.su.validity[i] = true)
    (fits : ∀ e ∈ b.ru.stack, looserThan b.su.store e = false) : applyRefusal b = none := by
  have fits : looserThanStored b.su.store b = false := by
    rw [← Bool.not_eq_true, looserThanStored_iff]
    rintro ⟨e, mem, looser⟩
    exact absurd (looser.symm.trans (fits e mem)) nofun
  rw [← validity_all] at valid
  simp [applyRefusal, idle, StoreState.busy, valid, fits]

end

theorem applyRefusal_busy (busy : b.su.storeState ≠ .idle) : applyRefusal b = some .busy :=
  if_pos ((busy_iff _).mpr busy)

theorem restartOldest_eq (q : List JournalEntry) : restartOldest q = match q with
    | [] => []
    | e :: rest => { e with next := 0 } :: rest := by
  cases q
  · rfl
  · rfl

end

section

variable {s : State}

/-- The PTU at APPLY_PROFILE, with no transaction waiting for a walk or a sweep. -/
theorem applyPtu_alone (queue : s.ptu.queue = [])
    (alone : ∀ k : Master, (s.slot k).isAt .sweepWait = false) :
    applyPtu s = { s with
      ptu := { s.ptu with
        buffer := Vector.replicate 8 (Vector.replicate 16 BufferSet.cleared)
        engine := s.ptu.engine.onWalk fun w => { w with profileApplied := true }
        sweep := s.ptu.sweep.ended }
      blocks := { s.blocks with csu := { s.blocks.csu with
        flags := s.blocks.csu.flags ||| if s.ptu.sweep.running then Flag.longOpDone.bit else 0 } } } := by
  unfold applyPtu
  dsimp only
  rw [mastersAt_of_none alone, queue, List.append_nil, List.foldl_nil, supersede_eq]
  simp only [State.onPtu, Ptu.clear, ← queue]
  rfl

end

/-- Settles O51. -/
theorem applyProfileTakesThePages : Obligations.ApplyProfileTakesThePages := by
  intro s m tag b p result refused valid mode
  have running : s.blocks.su.mode ≠ .startUp := by
    rcases mode with h | h
    · rw [h]; nofun
    · rw [h]; nofun
  have taken : inApply s.blocks.su.mode = true := by
    rcases mode with h | h
    · rw [h]; rfl
    · rw [h]; rfl
  have takes {r : Result} {t : State} (acts : applyProfile s.fresh = (r, t)) :
      Machine.exec (.applyProfile m tag) s = .next (t.act (recordResult m tag 0x04 r)) := by
    refine (commandEvent_running running (doApplyProfile m tag)).trans ?_
    rw [doApplyProfile, takeCommand_taken (s := s.fresh) taken acts]
  have refuses {r : Result} (refusal : applyRefusal b = some r) :
      Machine.exec (.applyProfile m tag) s = .next (refused r) := by
    have acts : applyProfile s.fresh = (r, s.fresh) := by
      unfold applyProfile
      rw [show applyRefusal s.fresh.blocks = some r from refusal]
    exact takes acts
  refine ⟨fun busy => refuses (applyRefusal_busy busy),
    fun idle invalid => refuses (applyRefusal_invalid idle invalid),
    fun idle valid looser => refuses (applyRefusal_looser idle valid looser),
    fun idle valid fits queue alone => ?_⟩
  let taken : Blocks := b.onSu Supervisor.apply
  let reset : Blocks := taken.applied.lanesReset allLanes
  have blocks : applyBlocks b = applyJournal reset := by
    unfold applyBlocks
    rw [applyReset_eq (b := taken) rfl]
  have acts : applyProfile s.fresh = (.done, { s with
      answers := []
      mp := { s.mp with cycle := s.mp.cycle.discardJournal }
      ptu := { s.ptu with
        buffer := Vector.replicate 8 (Vector.replicate 16 BufferSet.cleared)
        engine := s.ptu.engine.onWalk fun w => { w with profileApplied := true }
        sweep := s.ptu.sweep.ended }
      blocks := (applyJournal reset).onCsu fun c => { c with
        flags := c.flags ||| if s.ptu.sweep.running then Flag.longOpDone.bit else 0 } }) := by
    unfold applyProfile
    rw [show applyRefusal s.fresh.blocks = none from applyRefusal_none idle valid fits,
      show s.fresh.onBlocks applyBlocks = { s.fresh with blocks := applyBlocks b } from rfl, blocks]
    exact congrArg (Prod.mk Result.done) (applyPtu_alone queue alone)
  have lane (l : Lane) : reset.lane l = taken.resetUnit l :=
    (lane_lanesReset _ allLanes l).trans (if_pos (mem_allLanes l))
  refine ⟨_, takes acts, ?_, fun l => ?_, fun l => ?_, fun l => ?_, fun x => ?_⟩
  · have flags : (b.csu.flags ||| if s.ptu.sweep.running then Flag.longOpDone.bit else 0)
        = if s.ptu.sweep.running then b.csu.flags ||| Flag.longOpDone.bit else b.csu.flags := by
      split_ifs
      · rfl
      · exact BitVec.or_zero
    rw [← flags]
    exact congrArg (fun q => recordResult m tag 0x04 .done ((applyJournal reset).onCsu fun c => { c with
      journal := q
      flags := c.flags ||| if s.ptu.sweep.running then Flag.longOpDone.bit else 0 }))
      (restartOldest_eq b.csu.journal)
  · exact (lane l).trans (resetUnit_eq taken l)
  · exact told_resetAll taken.applied l
  · exact standing_applied taken l
  · cases x
    · rfl
    · rfl

end Sys2Proof.Machine

namespace Sys2Proof.Machine

/-! ## The end of start-up in the blocks (R182, R38, R144) -/

section

variable {b c : Blocks} {m : Mode} {l : Lane}

/-- The cause that start-up's end leaves for every in-use lane. -/
def startReason (m : Mode) (settling warning : Bool) : Reason :=
  if m = .service then .service else if settling then .settling
  else if warning then .supply else .laneDown

/-- The DU's inputs as the end of start-up leaves them, whatever it takes the lanes for. -/
def DirectiveInputs.StartedIn (i : DirectiveInputs) (m : Mode) (settling warning : Bool) : Prop :=
  ∃ v, i = { DirectiveUnit.reset.inputs with mode := m, settling, supplyWarning := warning, lanes := v }

theorem standingCause_started {settling warning : Bool} (inputs : b.du.inputs.StartedIn m settling warning)
    (down : b.du.inputs.lanes[l] ≠ .live) : standingCause b l = some (startReason m settling warning) := by
  obtain ⟨v, inputs⟩ := inputs
  have closed (x : Approach) : (⟨false, false⟩ : PerApproach Bool).at x = false := by
    cases x
    · rfl
    · rfl
  rw [inputs] at down
  unfold standingCause startReason
  simp only [inputs, DirectiveUnit.reset, closed]
  by_cases service : m = .service
  · simp [service]
  · cases settling with
    | true => simp [service]
    | false =>
      cases warning with
      | true => simp [service]
      | false => simpa [service] using down

/-- What the DU does at the end of start-up, with one reason for every in-use lane. -/
structure Notified (e : Blocks) (m : Mode) (settling warning : Bool) (c : Blocks) : Prop where
  frame : c = { e with du := c.du }
  inputs : c.du.inputs.StartedIn m settling warning
  standing : ∀ l, c.standing l = if laneInUse e.profile l
    then StandingLane.onFor (some (startReason m settling warning)) else StandingLane.gone
  directives : ∀ x, c.directives x = e.onFor (startReason m settling warning) x
  fixed : c.Fixed

theorem evalLane_unused (unused : laneInUse b.profile l = false) : evalLane l b = b := by
  unfold evalLane
  rw [unused]
  rfl

theorem notice_unused (unused : ∀ l, laneInUse b.profile l = false) (ls : List Lane)
    (f : DirectiveInputs → DirectiveInputs) :
    notice ls f b = evalBeacons (b.onDu fun d => { d with inputs := f d.inputs }) := by
  unfold notice evalStanding
  refine congrArg evalBeacons ?_
  induction ls with
  | nil => rfl
  | cons l ls ih =>
    refine (congrArg (fun c => ls.foldl (fun b l => evalLane l b) c) ?_).trans ih
    exact evalLane_unused (unused l)

theorem onFor_unused (unused : ∀ l, laneInUse b.profile l = false) (r : Reason) (x : Approach) :
    b.onFor r x = [] := by
  unfold Blocks.onFor
  rw [List.filter_eq_nil_iff.mpr (by simp [unused]), List.map_nil]

theorem notified_bypass {warning : Bool} (mode : b.su.mode = .bypass) (active : b.su.active = none)
    (fresh : b.du = DirectiveUnit.reset) :
    Notified b .bypass false warning
      (if warning then noticeSupply true (bypassNotice b) else bypassNotice b) := by
  have unused (l : Lane) : laneInUse b.profile l = false := by
    have : b.profile = noProfile := by rw [Blocks.profile, active]; rfl
    rw [this, laneInUse_noProfile]
  have gone (l : Lane) : (b.onDu DirectiveUnit.bypassed).standing l = StandingLane.gone := by
    simp [Blocks.standing, Blocks.onDu, DirectiveUnit.bypassed]
  have empty (x : Approach) : (b.onDu DirectiveUnit.bypassed).directives x = [] := by
    cases x
    · rfl
    · rfl
  have calm : b.su.mode = .active → ∀ l, reporting (b.lane l).state = false :=
    fun active => absurd (mode.symm.trans active) nofun
  cases warning with
  | true =>
    have eq : noticeSupply true (bypassNotice b) = evalBeacons ((b.onDu DirectiveUnit.bypassed).onDu fun d =>
        { d with inputs := { d.inputs with supplyWarning := true } }) := by
      rw [bypassNotice_eq]
      exact notice_unused (b := b.onDu DirectiveUnit.bypassed) unused _ _
    rw [if_pos rfl, eq]
    refine ⟨rfl, ⟨b.du.inputs.lanes, ?_⟩, fun l => ?_, fun x => ?_,
      fixed_evalBeacons calm fun l use => absurd ((unused l).symm.trans use) nofun⟩
    · change { b.du.inputs with mode := .bypass, settling := false, supplyWarning := true } = _
      rw [fresh]
    · rw [unused]
      exact gone l
    · rw [onFor_unused unused]
      exact empty x
  | false =>
    rw [if_neg nofun]
    refine ⟨?_, ⟨b.du.inputs.lanes, ?_⟩, fun l => ?_, fun x => ?_, bypassNotice_fixed mode⟩
    · rw [bypassNotice_eq]
      rfl
    · rw [bypassNotice_eq]
      change { b.du.inputs with mode := .bypass, settling := false } = _
      rw [fresh]
      rfl
    · rw [unused, bypassNotice_eq]
      exact gone l
    · rw [onFor_unused unused, bypassNotice_eq]
      exact empty x

theorem notified_starts {settling warning : Bool}
    (calm : ∀ l, reporting (b.lane l).state = false) (fresh : b.du = DirectiveUnit.reset) :
    Notified b m settling warning (startUpEnds m settling warning b) := by
  let told : Blocks := b.onDu fun d => { d with inputs := { d.inputs with
    mode := m, settling, supplyWarning := warning
    lanes := b.inUseLanes.foldl (fun (v : Vector LaneState 6) (l : Lane) => v.set l LaneState.offline)
      d.inputs.lanes } }
  have started : told.du.inputs.StartedIn m settling warning := by
    refine ⟨told.du.inputs.lanes, ?_⟩
    change { b.du.inputs with
      mode := m, settling, supplyWarning := warning, lanes := told.du.inputs.lanes } = _
    rw [fresh]
  have down (l : Lane) (use : laneInUse b.profile l = true) : told.du.inputs.lanes[l] ≠ .live := by
    have mem : l ∈ b.inUseLanes := List.mem_filter.mpr ⟨mem_allLanes l, use⟩
    have taken : told.du.inputs.lanes[l] = .offline :=
      (getElem_foldl_set (fun _ => LaneState.offline) b.inUseLanes b.du.inputs.lanes l).trans (if_pos mem)
    rw [taken]
    nofun
  have queued : queueAllStanding (resetStanding (fun l => StandingLane.onFor (standingCause told l)) told)
      = (told.standingBy fun l => StandingLane.onFor (standingCause told l)).onDu fun d => { d with
        queues := ⟨b.onFor (startReason m settling warning) .A, b.onFor (startReason m settling warning) .B⟩ } :=
    queueAllStanding_standingBy (congrArg DirectiveUnit.queues fresh) fun l use =>
      standingCause_started started (down l use)
  have eq : startUpEnds m settling warning b = evalBeacons ((told.standingBy fun l =>
      StandingLane.onFor (standingCause told l)).onDu fun d => { d with
        queues := ⟨b.onFor (startReason m settling warning) .A, b.onFor (startReason m settling warning) .B⟩ }) :=
    congrArg evalBeacons queued
  have standing (l : Lane) : (told.standingBy fun l => StandingLane.onFor (standingCause told l)).standing l
      = if laneInUse b.profile l then StandingLane.onFor (some (startReason m settling warning))
        else StandingLane.gone := by
    refine (standing_standingBy told _ l).trans ?_
    by_cases use : laneInUse b.profile l = true
    · rw [if_pos use, standingCause_started started (down l use)]
      exact if_pos use
    · rw [if_neg use]
      exact if_neg use
  rw [eq]
  refine ⟨rfl, started, standing, fun x => ?_,
    fixed_evalBeacons (fun _ => calm) fun l use => .inr ⟨?_, fun u out => ?_⟩⟩
  · cases x
    · rfl
    · rfl
  · exact congrArg StandingLane.state ((standing l).trans (if_pos use))
  · obtain ⟨v, inputs⟩ := started
    refine ne_of_eq_of_ne (standingCause_started (m := m) (settling := settling) (warning := warning)
      ⟨u, ?_⟩ ?_) nofun
    · exact congrArg (fun i : DirectiveInputs => { i with lanes := u }) inputs
    · exact out

end

/-! ### What start-up's end leaves of the blocks -/

section

variable {b : Blocks} {m : Mode}

/-- The blocks as a reset leaves what start-up's end changes. -/
structure Blocks.Starting (b : Blocks) : Prop where
  du : b.du = DirectiveUnit.reset
  lane : ∀ l, b.lane l = LaneUnit.reset

/-- The settle interval runs at the end of start-up. -/
def Blocks.startsSettling (b : Blocks) (m : Mode) : Bool := decide (m = .active ∧ 0 < settleMs b.su.store)

/-- The lanes that are in use at the end of start-up. -/
def Blocks.startsUsed (b : Blocks) (m : Mode) (l : Lane) : Bool :=
  decide (m ≠ .bypass) && laneInUse b.su.store l

/-- The SU and the CSU at the end of start-up, the other units as they were. -/
def Blocks.ended (b : Blocks) (m : Mode) : Blocks :=
  { b with
    csu := { b.csu with flags :=
      if b.su.supply = .warning then b.csu.flags ||| Flag.supplyWarn.bit else b.csu.flags }
    su := { b.su with
      mode := m, startUp := .over
      active := if m = .bypass then none else some b.su.store
      settleExpiry := if b.startsSettling m then some (timeAdd b.now (settleMs b.su.store)) else none } }

theorem settleExpiry_endStartUp (b : Blocks) (m : Mode) : (b.su.endStartUp m).settleExpiry
    = if b.startsSettling m then some (timeAdd b.now (settleMs b.su.store)) else none := by
  unfold Supervisor.endStartUp Blocks.startsSettling settleFrom Blocks.now
  by_cases active : m = .active
  · simp [active]
  · simp [active]

theorem endBlocks_ended (b : Blocks) (m : Mode) :
    endBlocks m b = resetLanes (startUpNotice (b.ended m)) := by
  have moved : b.su.endStartUp m = (b.ended m).su :=
    congrArg (fun e => { b.su.endStartUp m with settleExpiry := e }) (settleExpiry_endStartUp b m)
  unfold endBlocks Blocks.onSu
  rw [moved]
  refine congrArg (fun c => resetLanes (startUpNotice c)) ?_
  by_cases warning : b.su.supply = .warning
  · refine (if_pos warning).trans ?_
    simp only [Blocks.ended, if_pos warning]
    rfl
  · refine (if_neg warning).trans ?_
    simp only [Blocks.ended, if_neg warning]

theorem profile_ended (b : Blocks) (mode : m ≠ .bypass) : (b.ended m).profile = b.su.store := by
  unfold Blocks.profile Blocks.ended
  rw [if_neg mode]
  rfl

theorem laneInUse_ended (b : Blocks) (m : Mode) (l : Lane) :
    laneInUse (b.ended m).profile l = b.startsUsed m l := by
  by_cases bypass : m = .bypass
  · have : (b.ended m).profile = noProfile := by
      unfold Blocks.profile Blocks.ended
      rw [if_pos bypass]
      rfl
    rw [this, laneInUse_noProfile]
    simp [Blocks.startsUsed, bypass]
  · rw [profile_ended b bypass]
    simp [Blocks.startsUsed, bypass]

theorem startUpNotice_notified (h : b.Starting) : Notified (b.ended m) m (b.startsSettling m)
    (decide (b.su.supply = .warning)) (startUpNotice (b.ended m)) := by
  unfold startUpNotice
  dsimp only
  by_cases bypass : m = .bypass
  · subst bypass
    refine (if_pos rfl).symm ▸ ?_
    have settling : b.startsSettling .bypass = false := decide_eq_false fun both => nomatch both.1
    have notified := notified_bypass (b := b.ended .bypass) (warning := decide (b.su.supply = .warning))
      rfl rfl h.du
    simp only [decide_eq_true_eq] at notified
    rw [settling]
    exact notified
  · have settling : (b.ended m).su.settleExpiry.isSome = b.startsSettling m := by
      unfold Blocks.ended
      cases b.startsSettling m with
      | true => rfl
      | false => rfl
    have calm (l : Lane) : reporting ((b.ended m).lane l).state = false := by
      change reporting (b.lane l).state = false
      rw [h.lane l]
      rfl
    rw [if_neg (show (b.ended m).su.mode ≠ .bypass from bypass), settling]
    exact notified_starts calm h.du

/-- What END_OF_START_UP leaves of the blocks: the SU and the CSU, and every lane's view, standing state
and directive. -/
structure Blocks.StartedUp (b : Blocks) (m : Mode) (c : Blocks) : Prop where
  frame : c = { b.ended m with lanes := c.lanes, du := c.du }
  lane : ∀ l, c.lane l = if b.startsUsed m l then
      { LaneUnit.reset with
        state := .offline, silence := some (timeAdd b.now (silenceMs b.su.store l)) }
    else LaneUnit.reset
  standing : ∀ l, c.standing l = if b.startsUsed m l then
      StandingLane.onFor (some (startReason m (b.startsSettling m) (decide (b.su.supply = .warning))))
    else StandingLane.gone
  directives : ∀ x, c.directives x
    = (allLanes.filter fun l => b.startsUsed m l && laneApproach b.su.store l = x).map fun l =>
        standingDirective .standingOn l
          (startReason m (b.startsSettling m) (decide (b.su.supply = .warning)))
  mode : c.du.inputs.mode = m
  settling : c.du.inputs.settling = b.startsSettling m
  warning : c.du.inputs.supplyWarning = decide (b.su.supply = .warning)

theorem endBlocks_startedUp (h : b.Starting) : b.StartedUp m (endBlocks m b) := by
  obtain ⟨frame, ⟨v, inputs⟩, standing, directives, fixed⟩ := startUpNotice_notified h
  rw [endBlocks_ended, resetLanes_fixed fixed]
  generalize told : startUpNotice (b.ended m) = c at *
  have profile : c.profile = (b.ended m).profile := by rw [frame]; rfl
  have lane (l : Lane) : c.lane l = LaneUnit.reset := by rw [frame]; exact h.lane l
  have now : c.now = b.now := by rw [frame]; rfl
  refine ⟨?_, fun l => ?_, fun l => ?_, fun x => ?_, congrArg DirectiveInputs.mode inputs,
    congrArg DirectiveInputs.settling inputs, congrArg DirectiveInputs.supplyWarning inputs⟩
  · exact congrArg (fun e : Blocks => { e with
      lanes := (c.lanesReset allLanes).lanes, du := (c.lanesReset allLanes).du }) frame
  · rw [lane_lanesReset, if_pos (mem_allLanes l), resetUnit_eq, profile, now, lane l, laneInUse_ended]
    by_cases use : b.startsUsed m l = true
    · have operating : m ≠ .bypass := by
        rintro rfl
        exact absurd use nofun
      rw [if_pos use, if_pos use, profile_ended b operating]
    · rw [if_neg use, if_neg use]
  · rw [← laneInUse_ended]
    exact standing l
  · refine (directives x).trans ?_
    unfold Blocks.onFor
    refine congrArg (List.map _) (List.filter_congr fun l _ => ?_)
    rw [laneInUse_ended]
    by_cases bypass : m = .bypass
    · subst bypass
      rfl
    · rw [profile_ended b bypass]

end

end Sys2Proof.Machine

namespace Sys2Proof.Machine

/-! ## The end of start-up at the ports (R16, R13, R19, R23, R24) -/

section

variable {s t : State} {m : Master} {x : Transaction}

/-! ### One turn of the SP at the end of an event -/

/-- A settled end is reached whatever turns are left beyond it. -/
theorem drainLevel_settles {n k : Nat} (settled : (drainLevel n s).Settled) (le : n ≤ k) :
    drainLevel k s = drainLevel n s := by
  induction n generalizing s k with
  | zero => exact drainLevel_settled settled k
  | succ n ih =>
    obtain ⟨k, rfl⟩ : ∃ j, k = j + 1 := ⟨k - 1, by omega⟩
    have le : n ≤ k := by omega
    unfold drainLevel at settled ⊢
    split
    next m hand =>
      simp only [hand] at settled
      split
      next x slot =>
        simp only [slot] at settled
        exact ih settled le
      next => rfl
    next hand =>
      simp only [hand] at settled
      split
      next m take =>
        simp only [take] at settled
        exact ih settled le
      next => rfl

theorem cost_le_turns (s : State) : s.cost + 1 ≤ s.turns := by
  have slots : ∑ k : Master, (s.slot k).cost ≤ ∑ _k : Master, 9 := Finset.sum_le_sum fun k _ => cost_le _
  simp only [Finset.sum_const, Finset.card_univ, Fintype.card_fin, smul_eq_mul] at slots
  unfold State.cost State.turns
  omega

/-- The turns of an event are as good as any other number that pays for the state. -/
theorem drainLevel_paid {n : Nat} (paid : s.cost ≤ n) : drainLevel n s = drain s := by
  have turns := cost_le_turns s
  have exact : drainLevel n s = drainLevel s.cost s :=
    drainLevel_settles (settled_drainLevel _ s le_rfl) paid
  exact exact.trans (drainLevel_settles (settled_drainLevel _ s le_rfl) (by omega)).symm

/-- The next thing that the SP does is to hand over a transaction. -/
theorem drain_hand (hand : s.toHand = some m) (slot : s.slot m = .translating x .toHand) :
    drain s = drain (handOver m x s) := by
  obtain ⟨n, turns⟩ : ∃ n, s.turns = n + 1 := ⟨s.turns - 1, by have := cost_le_turns s; omega⟩
  have cost := cost_handOver s m x
  rw [slot] at cost
  simp only [Slot.cost] at cost
  have enough := cost_le_turns s
  rw [← drainLevel_paid (s := handOver m x s) (n := n) (by omega), drain, turns, drainLevel]
  simp only [hand, slot, Slot.transaction]

/-- The next thing that the SP does is to take a bus request. -/
theorem drain_take {rest : List Transaction} (hand : s.toHand = none) (take : s.toTake = some m)
    (free : s.slot m = .free) (bus : s.bus[m] = x :: rest) : drain s = drain (takeFromBus m s) := by
  obtain ⟨n, turns⟩ : ∃ n, s.turns = n + 1 := ⟨s.turns - 1, by have := cost_le_turns s; omega⟩
  have cost := cost_takeFromBus free bus
  have enough := cost_le_turns s
  rw [← drainLevel_paid (s := takeFromBus m s) (n := n) (by omega), drain, turns, drainLevel]
  simp only [hand, take]

/-- A hand-over forgets where the transaction was. -/
theorem handOver_setSlot (m : Master) (x : Transaction) (s : State) (y : Slot) :
    handOver m x (s.setSlot m y) = handOver m x s := by
  unfold handOver
  rw [setSlot_setSlot]

/-- A TRANSACTION with an aligned address into a FREE slot is handed over, and the event goes on. -/
theorem exec_handOver {a : Addr} {acc : Access} (settled : s.Settled) (free : s.slot m = .free)
    (align : a.toNat % 4 = 0) :
    exec (.transaction m a acc) s = .next (drain (handOver m ⟨a, acc⟩ s.fresh)) := by
  let asked (l : List Transaction) : State := { s with bus := s.bus.set m l, answers := [] }
  have empty : s.bus[m] = [] := (settled m).2 free
  have runs : exec (.transaction m a acc) s = .next (drain (asked (s.bus[m] ++ [⟨a, acc⟩]))) := rfl
  have one : (asked [⟨a, acc⟩]).bus[m] = [⟨a, acc⟩] := by simp [asked]
  have turn := drain_take (s := asked [⟨a, acc⟩]) (toHand_none fun k => (settled k).1)
    (toTake_one (s := s.fresh) settled m free ⟨a, acc⟩) free one
  have restored : (s.bus.set m [⟨a, acc⟩]).set m [] = s.bus := by
    rw [Vector.set_set]
    exact vector_set_same _ _ _ empty
  have taken : takeFromBus m (asked [⟨a, acc⟩]) = takeTransaction m ⟨a, acc⟩ s.fresh := by
    unfold takeFromBus
    rw [one]
    exact congrArg (fun v => takeTransaction m ⟨a, acc⟩ { s.fresh with bus := v }) restored
  rw [runs, empty, List.nil_append, turn, taken, takeTransaction, Machine.aligned align]
  rfl

end

section

variable {s : State} {mode : Mode}

/-- The state as the end of start-up hands it to the SP. -/
def State.opened (s : State) (mode : Mode) : State :=
  { s with answers := [], blocks := endBlocks mode s.blocks, slots := s.slots.map leaveHeld }

theorem exec_endOfStartUp (chosen : s.blocks.su.startUp = .chosen mode) :
    exec .endOfStartUp s = .next (drain (s.opened mode)) := by
  have ends : endStartUp s.fresh = drain (s.opened mode) := by
    unfold endStartUp
    rw [show s.fresh.blocks.su.startUp = .chosen mode from chosen]
    unfold State.opened
    dsimp only
    generalize endBlocks mode = ends
    rfl
  exact congrArg Host.Outcome.next ends

theorem slot_opened (s : State) (mode : Mode) (k : Master) :
    (s.opened mode).slot k = leaveHeld (s.slot k) := by
  simp [State.opened, State.slot]

theorem opened_free (free : ∀ m : Master, s.slot m = .free) :
    s.opened mode = { s with answers := [], blocks := endBlocks mode s.blocks } := by
  have slots : s.slots.map leaveHeld = s.slots := by
    refine Vector.ext fun i hi => ?_
    have here : s.slots[i] = .free := free ⟨i, hi⟩
    rw [Vector.getElem_map, here]
    rfl
  exact congrArg (fun v => { s with
    answers := [], blocks := endBlocks mode s.blocks, slots := v }) slots

/-- With no transaction HELD, start-up's end is what it does to the blocks. -/
theorem exec_endOfStartUp_free (chosen : s.blocks.su.startUp = .chosen mode)
    (free : ∀ m : Master, s.slot m = .free) (bus : ∀ m : Master, s.bus[m] = []) :
    exec .endOfStartUp s = .next { s with answers := [], blocks := endBlocks mode s.blocks } := by
  rw [exec_endOfStartUp chosen, opened_free free]
  refine congrArg Host.Outcome.next (drain_settled fun k => ⟨?_, fun _ => bus k⟩)
  change (s.slot k).isAt .toHand = false
  rw [free k]
  rfl

/-- A transaction that is HELD alone fares as a TRANSACTION of the mode that start-up reaches. -/
theorem exec_endOfStartUp_one {m : Master} {x : Transaction} (chosen : s.blocks.su.startUp = .chosen mode)
    (held : s.slot m = .held x) (others : ∀ j, j ≠ m → s.slot j = .free)
    (bus : ∀ m : Master, s.bus[m] = []) (align : x.address.toNat % 4 = 0) {u : State}
    (reached : exec .endOfStartUp { s with slots := s.slots.set m .free } = .next u) :
    exec .endOfStartUp s = exec (.transaction m x.address x.access) u := by
  have freed (k : Master) : State.slot { s with slots := s.slots.set m .free } k = .free := by
    rw [slot_set]
    by_cases same : m = k
    · exact if_pos same
    · rw [if_neg same]
      exact others k (Ne.symm same)
  rw [exec_endOfStartUp_free (s := { s with slots := s.slots.set m .free }) chosen freed bus] at reached
  obtain rfl := Host.Outcome.next.inj reached
  have waiting (k : Master) : ((s.opened mode).slot k).isAt .toHand = decide (k = m) := by
    rw [slot_opened]
    by_cases same : k = m
    · rw [same, held]
      simp [leaveHeld, Slot.isAt]
    · rw [others k same]
      simp [leaveHeld, Slot.isAt, same]
  have hand : (s.opened mode).toHand = some m := by
    unfold State.toHand
    rw [funext waiting]
    exact find_master m
  have slot : (s.opened mode).slot m = .translating x .toHand := by
    rw [slot_opened, held]
    rfl
  have settled : State.Settled { s with
      answers := [], blocks := endBlocks mode s.blocks, slots := s.slots.set m .free } := by
    refine fun k => ⟨(congrArg (Slot.isAt .toHand) (freed k)).trans rfl, fun _ => bus k⟩
  rw [exec_endOfStartUp chosen, drain_hand hand slot, exec_handOver settled (freed m) align]
  refine congrArg (fun v => Host.Outcome.next (drain v)) ?_
  have same : s.opened mode = State.setSlot { s with
      answers := [], blocks := endBlocks mode s.blocks, slots := s.slots.set m .free } m
        (.translating x .toHand) := by
    have slots : s.slots.map leaveHeld = (s.slots.set m .free).set m (.translating x .toHand) := by
      refine Vector.ext fun i hi => ?_
      have here := slot_opened s mode ⟨i, hi⟩
      by_cases mine : m.val = i
      · subst mine
        simp only [Vector.getElem_set_self]
        exact slot
      · have other : s.slot ⟨i, hi⟩ = .free := others ⟨i, hi⟩ fun e => mine (congrArg Fin.val e).symm
        simp only [Vector.getElem_map, Vector.getElem_set_ne _ _ mine]
        have free : s.slots[i] = .free := other
        rw [free]
        rfl
    unfold State.opened State.setSlot
    rw [slots]
  rw [same, handOver_setSlot]
  generalize endBlocks mode s.blocks = c
  rfl

end

end Sys2Proof.Machine

namespace Sys2Proof.Machine

/-! ## The HELD transactions handed over at the end of start-up (R16, R23, R24) -/

section

variable {s T R : State} {mode : Mode} {m : Master} {x : Transaction} {done : List Master}

/-- The masters whose HELD transactions go to a walk. -/
def State.walksIn (s : State) (mode : Mode) (m : Master) : Bool :=
  decide (mode ≠ .bypass) && !isDirect s.blocks.su.store m && decide (s.slot m ≠ .free)

/-- Where a HELD transaction is at the end of the event. -/
def State.handed (s : State) (mode : Mode) (k : Master) (x : Transaction) : Slot :=
  if s.walksIn mode k then .translating x (if ∃ j < k, s.walksIn mode j = true then .queued else .walking)
  else .memory x x.address .plain

/-- The engine at the walk of the first of some masters. -/
def startEngine (p : Pages) : List Master → Engine
  | [] => .idle
  | m :: _ => .region ⟨m, regionTableBase p m, memoryPages p, false, false⟩

/-- The PTU with the walks of some masters begun. -/
def walkingPtu (p : Pages) (ms : List Master) : Ptu :=
  { Ptu.reset with engine := startEngine p ms, queue := ms.tail }

/-- The MP after the first hand-over. -/
def State.firstMp (s : State) (mode : Mode) (m : Master) (x : Transaction) : MemoryPort :=
  if s.walksIn mode m then
    { s.mp with cycle := .busy (.walkRegion
        (regionEntryAddress (regionTableBase s.blocks.su.store m) x.address) false) }
  else { s.mp with cycle := .busy (.forward m), pointer := m }

/-- Start-up ends with the ports as a reset leaves them but for HELD transactions, none of them to the
fallback page. -/
structure State.Handing (s : State) (mode : Mode) : Prop where
  running : mode ≠ .startUp
  started : s.blocks.StartedUp mode (endBlocks mode s.blocks)
  slots : ∀ m : Master, s.slot m = .free ∨ ∃ t, s.slot m = .held t
  bus : ∀ m : Master, s.bus[m] = []
  ptu : s.ptu = Ptu.reset
  idle : s.mp.cycle = .idle
  nothing : s.NothingWaits
  plain : ∀ m t, s.slot m = .held t → ¬ (mode = .bypass ∧ m = 7 ∧ t.address.toNat < 0x200)

/-- The state with the HELD transactions of some masters handed over. -/
structure State.HandedTo (s : State) (mode : Mode) (T : State) (done : List Master) : Prop where
  frame : T = { s.opened mode with slots := T.slots, ptu := T.ptu, mp := T.mp }
  out : ∀ k ∈ done, ∀ x, s.slot k = .held x → T.slot k = s.handed mode k x
  waiting : ∀ k, k ∉ done → T.slot k = leaveHeld (s.slot k)
  ptu : T.ptu = walkingPtu s.blocks.su.store (done.filter (s.walksIn mode))
  none : done = [] → T.mp = s.mp
  first : ∀ k rest x, done = k :: rest → s.slot k = .held x → T.mp = s.firstMp mode k x

theorem firstMp_busy (s : State) (mode : Mode) (m : Master) (x : Transaction) :
    (s.firstMp mode m x).cycle ≠ .idle := by
  unfold State.firstMp
  split_ifs <;> nofun

/-! ### The blocks that start-up's end leaves -/

theorem blocks_opened (s : State) (mode : Mode) : (s.opened mode).blocks = endBlocks mode s.blocks := by
  unfold State.opened
  dsimp only

theorem State.HandedTo.blocks (h : s.HandedTo mode T done) : T.blocks = endBlocks mode s.blocks := by
  have same := congrArg State.blocks h.frame
  dsimp only at same
  exact same.trans (blocks_opened s mode)

theorem State.HandedTo.fresh (h : s.HandedTo mode T done) : T.fresh = T := by
  have answers : T.answers = [] := by
    rw [h.frame]
    rfl
  unfold State.fresh
  rw [← answers]

theorem Blocks.StartedUp.su {b c : Blocks} (h : b.StartedUp mode c) : c.su = (b.ended mode).su := by
  rw [h.frame]

theorem Blocks.StartedUp.profile {b c : Blocks} (h : b.StartedUp mode c) (operating : mode ≠ .bypass) :
    c.profile = b.su.store := by
  unfold Blocks.profile
  rw [h.su]
  exact profile_ended b operating

theorem nothingWaits_handing (h : s.Handing mode) (upto : s.HandedTo mode T []) : T.NothingWaits := by
  obtain ⟨walk, journal, source, forward⟩ := h.nothing
  have mp := upto.none rfl
  have su : T.blocks.su = (s.blocks.ended mode).su := by rw [upto.blocks, h.started.su]
  have csu : T.blocks.csu.journal = s.blocks.csu.journal := by rw [upto.blocks, h.started.frame]; rfl
  refine ⟨?_, ?_, ?_, fun k => ?_⟩
  · unfold State.walkRequest
    rw [upto.ptu]
    exact ite_self _
  · unfold State.journalRequest at journal ⊢
    rw [mp, csu]
    rw [h.idle] at journal ⊢
    cases empty : s.blocks.csu.journal with
    | nil => rfl
    | cons e rest =>
      rw [empty] at journal
      exact nomatch journal
  · unfold State.sourceRequest at source ⊢
    rw [mp, su]
    exact source
  · unfold State.forwardWaits
    rw [upto.waiting k nofun]
    obtain free | ⟨x, held⟩ := h.slots k
    · rw [free]
      rfl
    · rw [held]
      rfl

/-! ### One hand-over -/

/-- A hand-over that puts the transaction in its place, and the MP to its first cycle. -/
theorem State.HandedTo.extend (upto : s.HandedTo mode T done) (new : m ∉ done) (held : s.slot m = .held x)
    (frame : R = { T with
      slots := T.slots.set m (s.handed mode m x)
      ptu := walkingPtu s.blocks.su.store ((done ++ [m]).filter (s.walksIn mode))
      mp := R.mp })
    (busy : T.mp.cycle ≠ .idle → R.mp = T.mp) (first : done = [] → R.mp = s.firstMp mode m x)
    (known : ∀ k ∈ done, ∃ y, s.slot k = .held y) : s.HandedTo mode R (done ++ [m]) := by
  have slot (k : Master) : R.slot k = if m = k then s.handed mode m x else T.slot k := by
    rw [frame]
    exact slot_set T m k _
  refine ⟨?_, fun k mem y there => ?_, fun k out => ?_, ?_, fun nil => ?_, fun k rest y head there => ?_⟩
  · rw [frame, upto.frame]
  · rw [slot]
    by_cases same : m = k
    · subst same
      obtain rfl := Slot.held.inj (held.symm.trans there)
      exact if_pos rfl
    · rw [if_neg same]
      have old : k ∈ done := by
        rcases List.mem_append.mp mem with old | new
        · exact old
        · exact absurd (List.mem_singleton.mp new).symm same
      exact upto.out k old y there
  · have other : m ≠ k := fun same => out (by simp [same])
    rw [slot, if_neg other]
    exact upto.waiting k fun old => out (List.mem_append_left _ old)
  · rw [frame]
  · exact absurd nil (by simp)
  · cases done with
    | nil =>
      obtain ⟨rfl, -⟩ := List.cons.inj head
      obtain rfl := Slot.held.inj (held.symm.trans there)
      exact first rfl
    | cons k' rest' =>
      obtain ⟨rfl, -⟩ := List.cons.inj head
      have mp := upto.first k' rest' y rfl there
      rw [busy (by rw [mp]; exact firstMp_busy s mode k' y), mp]

/-- A transaction that start-up's end passes to memory. -/
theorem handOver_passed {a : Addr} {acc : Access} (h : s.Handing mode) (upto : s.HandedTo mode T done)
    (held : s.slot m = .held ⟨a, acc⟩) (stays : s.walksIn mode m = false) :
    handOver m ⟨a, acc⟩ T = T.passed m a acc a .plain := by
  have su : T.blocks.su = (s.blocks.ended mode).su := by rw [upto.blocks, h.started.su]
  have here : T.blocks.su.mode = mode := by rw [su]; rfl
  rw [← upto.fresh]
  by_cases bypass : mode = .bypass
  · rw [handOver_bypass (here.trans bypass)]
    exact classify_forwarded fun low => h.plain m _ held ⟨bypass, low⟩
  · have operating : T.blocks.su.mode = .service ∨ T.blocks.su.mode = .active := by
      rw [here]
      have running := h.running
      cases mode with
      | service => exact .inl rfl
      | active => exact .inr rfl
      | bypass => exact absurd rfl bypass
      | startUp => exact absurd rfl running
    have direct : isDirect T.blocks.profile m = true := by
      rw [upto.blocks, h.started.profile bypass]
      simpa [State.walksIn, bypass, held] using stays
    rw [handOver_operation operating]
    exact handToPtu_direct direct

theorem set_reset (m : Master) (i : Fin 16) : Ptu.reset.set m i = BufferSet.cleared := by
  simp [Ptu.set, Ptu.reset]

theorem misses_cleared (tag : BitVec 8) : Misses BufferSet.cleared tag BufferSet.cleared false :=
  misses_plain (fun h => nomatch h.1) (fun h => nomatch h.1)

/-- A look-up in an empty buffer joins the queue. -/
theorem lookup_empty (empty : T.ptu.buffer = Ptu.reset.buffer) (m : Master) (x : Transaction) :
    lookup m x T = joinQueue m T := by
  have set (i : Fin 16) : T.ptu.set m i = BufferSet.cleared := by
    unfold Ptu.set
    rw [empty]
    exact set_reset m i
  obtain ⟨find, left, fails⟩ := misses_cleared (addrTag x.address)
  have same : T.onPtu (fun p => p.onSet m (addrSet x.address) (BufferSet.afterLookup (addrTag x.address)))
      = T := by
    exact congrArg (fun p => { T with ptu := p })
      (onSet_same T.ptu m (addrSet x.address) (f := BufferSet.afterLookup (addrTag x.address))
        (by rw [set, left]))
  unfold lookup
  dsimp only
  rw [same, set, find, fails, if_neg nofun]

/-- A transaction that start-up's end sends to a walk. -/
theorem handOver_walks (h : s.Handing mode) (upto : s.HandedTo mode T done)
    (walks : s.walksIn mode m = true) :
    handOver m x T = joinQueue m (T.setSlot m (.translating x .looking)) := by
  have su : T.blocks.su = (s.blocks.ended mode).su := by rw [upto.blocks, h.started.su]
  have here : T.blocks.su.mode = mode := by rw [su]; rfl
  obtain ⟨bypass, translating⟩ : mode ≠ .bypass ∧ isDirect s.blocks.su.store m = false := by
    unfold State.walksIn at walks
    simp only [Bool.and_eq_true, decide_eq_true_eq, Bool.not_eq_true'] at walks
    exact walks.1
  have operating : T.blocks.su.mode = .service ∨ T.blocks.su.mode = .active := by
    rw [here]
    have running := h.running
    cases mode with
    | service => exact .inl rfl
    | active => exact .inr rfl
    | bypass => exact absurd rfl bypass
    | startUp => exact absurd rfl running
  have direct : isDirect T.blocks.profile m = false := by
    rw [upto.blocks, h.started.profile bypass, translating]
  have unswept : T.ptu.sweep.coversNow m = false := by rw [upto.ptu]; rfl
  have empty : (T.inHand m x.address x.access).ptu.buffer = Ptu.reset.buffer := by
    change T.ptu.buffer = _
    rw [upto.ptu]
    rfl
  have handed : handOver m x T.fresh = joinQueue m (T.fresh.setSlot m (.translating x .looking)) :=
    (handOver_operation operating x.address x.access).trans
      ((handToPtu_lookup direct unswept).trans (lookup_empty empty m _))
  rwa [upto.fresh] at handed

end

end Sys2Proof.Machine

namespace Sys2Proof.Machine

section

variable {s T : State} {mode : Mode} {m : Master} {x : Transaction} {done : List Master}

/-! ### One hand-over at the end of start-up -/

theorem handed_stays (stays : s.walksIn mode m = false) (x : Transaction) :
    s.handed mode m x = .memory x x.address .plain := by
  unfold State.handed
  rw [stays]
  rfl

theorem handed_walks (walks : s.walksIn mode m = true) (x : Transaction) : s.handed mode m x
    = .translating x (if ∃ j < m, s.walksIn mode j = true then .queued else .walking) := by
  unfold State.handed
  rw [walks]
  rfl

theorem walking_stays (stays : s.walksIn mode m = false) :
    (done ++ [m]).filter (s.walksIn mode) = done.filter (s.walksIn mode) := by
  simp [List.filter_append, stays]

theorem walking_walks (walks : s.walksIn mode m = true) :
    (done ++ [m]).filter (s.walksIn mode) = done.filter (s.walksIn mode) ++ [m] := by
  simp [List.filter_append, walks]

theorem State.HandedTo.passed {a : Addr} {acc : Access} (h : s.Handing mode)
    (upto : s.HandedTo mode T done) (new : m ∉ done) (held : s.slot m = .held ⟨a, acc⟩)
    (known : ∀ k ∈ done, ∃ y, s.slot k = .held y) (stays : s.walksIn mode m = false) :
    s.HandedTo mode (handOver m ⟨a, acc⟩ T) (done ++ [m]) := by
  rw [handOver_passed h upto held stays]
  obtain ⟨-, -, -, -, -, busy⟩ := atThePorts_passed T m a acc a .plain
  refine upto.extend new held ?_ busy (fun nil => ?_) known
  · have poked : T.passed m a acc a .plain = { T.fresh.setSlot m (.memory ⟨a, acc⟩ a .plain) with
        mp := (T.passed m a acc a .plain).mp } := poke_onMp _
    rw [upto.fresh] at poked
    rw [handed_stays stays, walking_stays stays, ← upto.ptu]
    exact poked
  · subst nil
    have mp := upto.none rfl
    rw [mp_passed (by rw [mp]; exact h.idle) (nothingWaits_handing h upto), mp, State.firstMp, stays]
    rfl

theorem State.HandedTo.walked (h : s.Handing mode) (upto : s.HandedTo mode T done) (new : m ∉ done)
    (held : s.slot m = .held x) (known : ∀ k ∈ done, ∃ y, s.slot k = .held y)
    (walks : s.walksIn mode m = true)
    (before : (∃ j < m, s.walksIn mode j = true) ↔ done.filter (s.walksIn mode) ≠ []) :
    s.HandedTo mode (handOver m x T) (done ++ [m]) := by
  have bypass : mode ≠ .bypass := by
    rintro rfl
    exact nomatch walks
  have profile : T.blocks.profile = s.blocks.su.store := by rw [upto.blocks, h.started.profile bypass]
  rw [handOver_walks h upto walks]
  cases begun : done.filter (s.walksIn mode) with
  | nil =>
    have ptu := upto.ptu
    rw [begun] at ptu before
    have first : ¬ ∃ j < m, s.walksIn mode j = true := fun other => before.mp other rfl
    rw [joinQueue_idle (by rw [ptu]; rfl) (by rw [ptu]; rfl)]
    refine upto.extend new held ?_ (fun busy => ?_) (fun nil => ?_) known
    · refine (poke_onMp _).trans ?_
      rw [handed_walks walks, walking_walks walks, begun, if_neg first]
      unfold State.begun
      rw [profile, ptu]
      rfl
    · have still : (T.begun m x).mp.cycle ≠ .idle := busy
      rw [poke_of_not_idle still]
      rfl
    · have mp := upto.none nil
      rw [mp_begun (by rw [mp]; exact h.idle), mp, State.firstMp, walks, regionRead, profile]
      rfl
  | cons k rest =>
    have ptu := upto.ptu
    rw [begun] at ptu before
    have later : ∃ j < m, s.walksIn mode j = true := before.mpr nofun
    rw [joinQueue_busy (by rw [ptu]; nofun)]
    refine upto.extend new held ?_ (fun _ => rfl) (fun nil => ?_) known
    · rw [handed_walks walks, walking_walks walks, begun, if_pos later, ptu]
      rfl
    · rw [nil] at begun
      exact nomatch begun

/-! ### Every hand-over of start-up's end -/

/-- The masters with a HELD transaction, in the order in which they are handed over. -/
def State.heldMasters (s : State) : List Master := allMasters.filter fun m => s.slot m ≠ .free

theorem mem_allMasters (m : Master) : m ∈ allMasters := by
  revert m
  decide

theorem mem_heldMasters : m ∈ s.heldMasters ↔ s.slot m ≠ .free := by
  simp [State.heldMasters, mem_allMasters]

theorem heldMasters_sorted (s : State) : s.heldMasters.Pairwise (· < ·) :=
  (show allMasters.Pairwise (· < ·) by decide).filter _

theorem holds_of_walks (walks : s.walksIn mode m = true) : s.slot m ≠ .free := by
  unfold State.walksIn at walks
  simp only [Bool.and_eq_true, decide_eq_true_eq] at walks
  exact walks.2

theorem State.Handing.held (h : s.Handing mode) (mem : m ∈ s.heldMasters) : ∃ x, s.slot m = .held x :=
  (h.slots m).resolve_left (mem_heldMasters.mp mem)

theorem handedTo_nil (s : State) (mode : Mode) (ptu : s.ptu = Ptu.reset) :
    s.HandedTo mode (s.opened mode) [] where
  frame := by
    generalize s.opened mode = t
    rfl
  out _ mem := nomatch mem
  waiting k _ := slot_opened s mode k
  ptu := ptu
  none _ := rfl
  first _ _ _ nil := nomatch nil

theorem State.HandedTo.eq (h : s.HandedTo mode T done) : T = { s with
    answers := [], blocks := endBlocks mode s.blocks, slots := T.slots, ptu := T.ptu, mp := T.mp } := by
  have same := h.frame
  unfold State.opened at same
  generalize endBlocks mode s.blocks = c at same ⊢
  exact same

section

variable {todo : List Master} (h : s.Handing mode) (upto : s.HandedTo mode T done)
include h upto

/-- The masters still to be handed over are those whose transactions stand so. -/
theorem toHand_handedTo (all : done ++ todo = s.heldMasters) : T.toHand = todo.head? := by
  have sorted := all ▸ heldMasters_sorted s
  have once : (done ++ todo).Nodup := sorted.imp fun lt => Fin.ne_of_lt lt
  have waiting (k : Master) : (T.slot k).isAt .toHand = (decide (s.slot k ≠ .free) && decide (k ∉ done)) := by
    by_cases out : k ∈ done
    · have mem : k ∈ s.heldMasters := by rw [← all]; exact List.mem_append_left _ out
      obtain ⟨x, held⟩ := h.held mem
      rw [upto.out k out x held]
      unfold State.handed
      split_ifs <;> simp [Slot.isAt, out]
    · rw [upto.waiting k out]
      obtain free | ⟨x, held⟩ := h.slots k
      · simp [free, leaveHeld, Slot.isAt]
      · simp [held, leaveHeld, Slot.isAt, out]
  have left : allMasters.filter (fun k => (T.slot k).isAt .toHand) = todo := by
    rw [funext waiting]
    have halves : allMasters.filter (fun k => decide (s.slot k ≠ .free) && decide (k ∉ done))
        = s.heldMasters.filter fun k => decide (k ∉ done) := by
      rw [State.heldMasters, List.filter_filter]
      exact List.filter_congr fun k _ => Bool.and_comm _ _
    rw [halves, ← all, List.filter_append, List.filter_eq_nil_iff.mpr (by simp), List.nil_append,
      List.filter_eq_self.mpr]
    intro k mem
    exact decide_eq_true fun old => (List.nodup_append.mp once).2.2 k old k mem rfl
  unfold State.toHand
  rw [← List.head?_filter, left]

theorem settled_handedTo (all : done = s.heldMasters) : T.Settled := by
  intro k
  have none : T.toHand = none := toHand_handedTo (todo := []) h upto (by rw [List.append_nil, all])
  have bus : T.bus = s.bus := (congrArg State.bus upto.frame).trans rfl
  exact ⟨by simpa using List.find?_eq_none.mp none k (mem_allMasters k), fun _ => by rw [bus]; exact h.bus k⟩

theorem drain_handedTo (all : done ++ todo = s.heldMasters) :
    ∃ T', drain T = T' ∧ s.HandedTo mode T' s.heldMasters := by
  induction todo generalizing done T with
  | nil =>
    rw [List.append_nil] at all
    exact ⟨T, drain_settled (settled_handedTo h upto all), all ▸ upto⟩
  | cons m todo ih =>
    have sorted := all ▸ heldMasters_sorted s
    obtain ⟨-, after, below⟩ := List.pairwise_append.mp sorted
    have new : m ∉ done := fun old => lt_irrefl m (below m old m (by simp))
    have known (k : Master) (old : k ∈ done) : ∃ y, s.slot k = .held y :=
      h.held (by rw [← all]; exact List.mem_append_left _ old)
    obtain ⟨x, held⟩ := h.held (m := m) (by rw [← all]; simp)
    have hand : T.toHand = some m := toHand_handedTo h upto all
    have slot : T.slot m = .translating x .toHand := by
      rw [upto.waiting m new, held]
      rfl
    have before : (∃ j < m, s.walksIn mode j = true) ↔ done.filter (s.walksIn mode) ≠ [] := by
      constructor
      · rintro ⟨j, lt, walks⟩ nil
        have mem : j ∈ done ++ m :: todo := by rw [all]; exact mem_heldMasters.mpr (holds_of_walks walks)
        rcases List.mem_append.mp mem with old | later
        · exact List.filter_eq_nil_iff.mp nil j old walks
        · rcases List.mem_cons.mp later with rfl | later
          · exact lt_irrefl _ lt
          · exact lt_asymm lt (List.rel_of_pairwise_cons after later)
      · intro some
        obtain ⟨j, mem⟩ := List.exists_mem_of_ne_nil _ some
        obtain ⟨old, walks⟩ := List.mem_filter.mp mem
        exact ⟨j, below j old m (by simp), walks⟩
    have next : s.HandedTo mode (handOver m x T) (done ++ [m]) := by
      cases walks : s.walksIn mode m with
      | true => exact upto.walked h new held known walks before
      | false => exact upto.passed (a := x.address) (acc := x.access) h new held known walks
    rw [drain_hand hand slot]
    exact ih next (by simpa using all)

end

end

/-- Settles O59: the blocks act first, then every HELD transaction is handed over, the lowest master's
first; one HELD alone is handed over as a TRANSACTION would be. -/
theorem startUpEndsInTheChosenMode : Obligations.StartUpEndsInTheChosenMode := by
  intro s mode b p settle used reason after fallback walks chosen running du none stack slots bus lane
  have started : b.StartedUp mode (endBlocks mode b) := endBlocks_startedUp ⟨du, lane⟩
  have ends : after (endBlocks mode b) := by
    generalize endBlocks mode b = c at started
    have because : startReason mode (b.startsSettling mode) (decide (b.su.supply = .warning)) = reason := by
      refine if_congr Iff.rfl rfl (if_congr Iff.rfl rfl (if_congr ?_ rfl rfl))
      exact decide_eq_true_iff
    obtain ⟨frame, lane, standing, directives, mode, settling, warning⟩ := started
    rw [because] at standing directives
    exact ⟨frame, lane, standing, directives, mode, settling, warning⟩
  refine ⟨fun free => ?_, fun ptu idle nothing plain => ?_, fun m t held others align u reached => ?_⟩
  case refine_1 => exact ⟨endBlocks mode b, exec_endOfStartUp_free chosen free bus, ends⟩
  case refine_3 => exact exec_endOfStartUp_one chosen held others bus align reached
  have h : s.Handing mode := ⟨running, started, slots, bus, ptu, idle, nothing, plain⟩
  obtain ⟨T, drained, upto⟩ := drain_handedTo h (handedTo_nil s mode ptu) (todo := s.heldMasters) rfl
  have walking : s.heldMasters.filter (s.walksIn mode) = allMasters.filter walks := by
    rw [State.heldMasters, List.filter_filter]
    refine List.filter_congr fun k _ => ?_
    cases yes : s.walksIn mode k with
    | false => exact yes.symm
    | true =>
      rw [decide_eq_true (holds_of_walks yes)]
      exact yes.symm
  refine ⟨endBlocks mode b, T.slots, T.ptu, T.mp, ?_, ends, fun m free => ?_, fun m t held => ?_, ?_,
    fun free => ?_, fun m t held lower => ?_⟩
  · rw [exec_endOfStartUp chosen, drained]
    exact congrArg Host.Outcome.next upto.eq
  · have out : m ∉ s.heldMasters := fun mem => mem_heldMasters.mp mem free
    have slot := upto.waiting m out
    rw [free] at slot
    exact slot
  · exact upto.out m (mem_heldMasters.mpr (by rw [held]; nofun)) t held
  · rw [upto.ptu, walking]
    cases allMasters.filter walks with
    | nil => rfl
    | cons m rest => rfl
  · refine upto.none (List.filter_eq_nil_iff.mpr fun m _ => ?_)
    simp [free m]
  · have head : ∃ rest, s.heldMasters = m :: rest := by
      have mem : m ∈ s.heldMasters := mem_heldMasters.mpr (by rw [held]; nofun)
      have sorted := heldMasters_sorted s
      cases all : s.heldMasters with
      | nil => rw [all] at mem; exact nomatch mem
      | cons k rest =>
        rw [all] at mem sorted
        rcases List.mem_cons.mp mem with rfl | later
        · exact ⟨rest, rfl⟩
        · have holds : s.slot k ≠ .free := mem_heldMasters.mp (by rw [all]; simp)
          exact absurd (lower k (List.rel_of_pairwise_cons sorted later)) holds
    obtain ⟨rest, all⟩ := head
    have mp := upto.first m rest t all held
    refine ⟨fun stays => ?_, fun goes => ⟨_, toNat_regionEntryAddress _ _, ?_⟩⟩
    · rw [mp]
      exact if_neg (ne_true_of_eq_false stays)
    · rw [mp]
      exact if_pos goes

end Sys2Proof.Machine

namespace Sys2Proof.Machine

/-! ## Framing of record words (R40, R41, R159) -/

section

variable {f g : Framing} {o slot : BitVec 12} {w : Word} {fault : Option (BitVec 12)} {a : Addr}

/-- An offset that stands at an index of a slot. -/
structure OffsetAt (o : BitVec 12) (index : Nat) (slot : BitVec 12) : Prop where
  index : (wordIndex o).toNat = index
  slot : slotOf o = slot

theorem offsetAt_addrOffset (a : Addr) :
    OffsetAt (addrOffset a) (a.toNat % 16 / 4) (BitVec.ofNat 12 (a.toNat % 4096 / 16 * 16)) := by
  constructor
  · rw [wordIndex, BitVec.extractLsb'_toNat, toNat_addrOffset, Nat.shiftRight_eq_div_pow]
    omega
  · apply BitVec.eq_of_toNat_eq
    have low : (BitVec.extractLsb' 4 8 (addrOffset a)).toNat = a.toNat % 4096 / 16 := by
      rw [BitVec.extractLsb'_toNat, toNat_addrOffset, Nat.shiftRight_eq_div_pow]
      omega
    rw [slotOf, BitVec.toNat_append, low, BitVec.toNat_ofNat, BitVec.toNat_ofNat, Nat.zero_mod, Nat.or_zero,
      Nat.shiftLeft_eq]
    omega

theorem index_eq_iff {index : Nat} (h : OffsetAt o index slot) (k : BitVec 2) :
    wordIndex o = k ↔ index = k.toNat := by
  rw [← h.index, BitVec.toNat_inj]

/-- A word out of place leaves nothing of a record (R41). -/
theorem frameNext_notTaken {i : BitVec 2} (out : f.held ≠ i.toNat ∨ f.slot ≠ some slot) :
    frameNext f i slot w = notTaken f slot := by
  have apart (k : BitVec 2) (s : BitVec 12) (out : k.toNat ≠ i.toNat ∨ some s ≠ some slot) :
      (decide (i = k) && decide (s = slot)) = false := by
    rw [Bool.and_eq_false_iff, decide_eq_false_iff_not, decide_eq_false_iff_not]
    exact out.imp (fun ne same => ne (congrArg BitVec.toNat same.symm))
      fun ne same => ne (congrArg some same)
  cases f with
  | empty => rfl
  | one s w0 => exact if_neg (ne_true_of_eq_false (apart 1 s out))
  | two s w0 w1 => exact if_neg (ne_true_of_eq_false (apart 2 s out))
  | three s w0 w1 w2 => exact if_neg (ne_true_of_eq_false (apart 3 s out))

theorem frameWord_takes {index : Nat} (h : OffsetAt o index slot) (takes : f.Takes index slot w g fault) :
    frameWord f o w = ⟨g, fault, none⟩ := by
  have zero := index_eq_iff h 0
  unfold frameWord
  rw [h.slot]
  rcases takes with ⟨first, rfl, rfl⟩ | ⟨w0, rfl, second, rfl, rfl⟩ | ⟨w0, w1, rfl, third, rfl, rfl⟩
    | ⟨later, out, rfl, rfl⟩
  · rw [if_pos (zero.mpr first)]
  · rw [(index_eq_iff h 1).mpr second, if_neg (by decide)]
    simp [frameNext]
  · rw [(index_eq_iff h 2).mpr third, if_neg (by decide)]
    simp [frameNext]
  · rw [if_neg fun first => later (zero.mp first), frameNext_notTaken (by rwa [h.index])]
    rfl

theorem frameWord_completes {index : Nat} {w0 w1 w2 : Word} (h : OffsetAt o index slot)
    (held : f = .three slot w0 w1 w2) (last : index = 3) :
    frameWord f o w = ⟨.empty, none, some ⟨slot, w0, w1, w2, w⟩⟩ := by
  unfold frameWord
  rw [held, h.slot, (index_eq_iff h 3).mpr last, if_neg (by decide)]
  simp [frameNext]

theorem checkWord_three (w0 w1 w2 : Word) : checkWord [w0, w1, w2] = ~~~(w0 ^^^ w1 ^^^ w2) := by
  simp [checkWord]

end

/-! ## A record word written, and its write forwarded (R6, R42, R160) -/

section

variable {s U : State} {m : Master} {a : Addr} {x : Access} {w : Word} {b c : Blocks} {l : Lane}
  {o slot : BitVec 12} {g : Framing} {fault : Option (BitVec 12)}

/-- The blocks with a fault for each slot that the framing of a word names. -/
def framedFault (report : BitVec 12 → Blocks → Blocks) (fault : Option (BitVec 12)) (b : Blocks) : Blocks :=
  match fault with
  | none => b
  | some o => report o b

/-- The transaction stays in the SP's hands while the blocks act on its word. -/
structure State.HeldWith (s : State) (m : Master) (a : Addr) (x : Access) (c : Blocks) (U : State) :
    Prop where
  frame : U = { s.inHand m a x with blocks := c, mp := U.mp }
  busy : s.mp.cycle ≠ .idle → U.mp = s.mp

theorem heldWith_onBlocks (s : State) (m : Master) (a : Addr) (x : Access) (f : Blocks → Blocks) :
    s.HeldWith m a x (f s.blocks) ((s.inHand m a x).onBlocks f) := ⟨rfl, fun _ => rfl⟩

theorem heldWith_act (s : State) (m : Master) (a : Addr) (x : Access) (f : Blocks → Blocks) :
    s.HeldWith m a x (f s.blocks) ((s.inHand m a x).act f) := by
  refine ⟨poke_onMp _, fun busy => ?_⟩
  have still : ((s.inHand m a x).onBlocks f).mp.cycle ≠ .idle := busy
  have same : (s.inHand m a x).act f = (s.inHand m a x).onBlocks f := poke_of_not_idle still
  rw [same]
  rfl

/-- The write is forwarded, with what the blocks made of its word. -/
def State.Passes (s : State) (m : Master) (a : Addr) (x : Access) (kind : WindowKind) (p : Addr)
    (c : Blocks) : Prop :=
  ∃ t, exec (.transaction m a x) s = .next t ∧ AtThePorts { s with blocks := c } t
    ∧ t.slots = s.slots.set m (.memory { address := a, access := x } p kind)
    ∧ t.bus = s.bus ∧ t.ptu = s.ptu ∧ t.answers = [] ∧ (s.mp.cycle ≠ .idle → t.mp = s.mp)

theorem passes_of_handOver (h : Taken s m a) {p : Addr} {kind : WindowKind}
    (handed : handOver m ⟨a, x⟩ s.fresh = toMemory m ⟨a, x⟩ p kind U) (held : s.HeldWith m a x c U) :
    s.Passes m a x kind p c := by
  obtain ⟨frame, busy⟩ := held
  let placed : State := { s with
    answers := [], blocks := c, mp := U.mp, slots := s.slots.set m (.memory ⟨a, x⟩ p kind) }
  have slot : U.setSlot m (.memory ⟨a, x⟩ p kind) = placed := by
    rw [frame]
    exact setSlot_setSlot { s.fresh with blocks := c, mp := U.mp } m _ _
  have passed : handOver m ⟨a, x⟩ s.fresh = poke placed := by
    rw [handed, toMemory, slot]
  have settled : (poke placed).Settled :=
    (onward_poke _).settled (Settled.set (s := { s with answers := [], blocks := c, mp := U.mp })
      (settled_same (s := s) rfl rfl h.settled) m rfl nofun)
  have poked : poke placed = { placed with mp := (poke placed).mp } := poke_onMp _
  refine ⟨poke placed, h.exec passed settled, ⟨?_, fun k => ?_, ?_⟩, ?_, ?_, ?_, ?_, fun active => ?_⟩
  case refine_8 =>
    have mp := busy active
    have still : placed.mp.cycle ≠ .idle := by
      change U.mp.cycle ≠ .idle
      rw [mp]
      exact active
    rw [poke_of_not_idle still]
    exact mp
  all_goals rw [poked]

/-! ### Command words -/

theorem frameCommand_framed {whole : Option CompleteRecord}
    (framed : frameWord b.csu.framing[m] o w = ⟨g, fault, whole⟩) :
    frameCommand m o w b = framedFault (fun slot => masterFault .framing m (slot.setWidth 24)) fault
      (b.onCsu fun c => { c with framing := c.framing.set m g }) := by
  unfold frameCommand
  rw [framed]
  cases fault with
  | none => rfl
  | some slot => rfl

theorem commandWord_takes (framed : frameWord s.blocks.csu.framing[m] o w = ⟨g, fault, none⟩) :
    s.HeldWith m a x (framedFault (fun slot => masterFault .framing m (slot.setWidth 24)) fault
        (s.blocks.onCsu fun c => { c with framing := c.framing.set m g }))
      (takeCommandWord m o w (s.inHand m a x)) := by
  have here : frameWord (s.inHand m a x).blocks.csu.framing[m] o w = ⟨g, fault, none⟩ := framed
  unfold takeCommandWord
  rw [here, ← frameCommand_framed framed]
  exact heldWith_onBlocks s m a x _

theorem commandWord_malformed {w0 w1 w2 : Word} (framed : frameWord s.blocks.csu.framing[m] o w
      = ⟨.empty, none, some ⟨slot, w0, w1, w2, w⟩⟩) (fails : w ≠ ~~~(w0 ^^^ w1 ^^^ w2)) :
    s.HeldWith m a x (masterFault .malformed m (slot.setWidth 24)
        (s.blocks.onCsu fun c => { c with framing := c.framing.set m .empty }))
      (takeCommandWord m o w (s.inHand m a x)) := by
  have here : frameWord (s.inHand m a x).blocks.csu.framing[m] o w
      = ⟨.empty, none, some ⟨slot, w0, w1, w2, w⟩⟩ := framed
  have left : frameCommand m o w s.blocks
      = s.blocks.onCsu fun c => { c with framing := c.framing.set m .empty } :=
    (frameCommand_framed framed).trans rfl
  unfold takeCommandWord
  rw [here, ← left]
  dsimp only
  rw [completeCommand, checkWord_three, if_neg fails]
  exact heldWith_onBlocks s m a x fun b => masterFault .malformed m (slot.setWidth 24) (frameCommand m o w b)

theorem commandWord_enables {w0 w1 w2 : Word} (framed : frameWord s.blocks.csu.framing[m] o w
      = ⟨.empty, none, some ⟨slot, w0, w1, w2, w⟩⟩) (passes : w = ~~~(w0 ^^^ w1 ^^^ w2))
    (code : w0.extractLsb' 8 8 = 0x10) (running : s.blocks.su.mode ≠ .startUp) :
    s.HeldWith m a x (recordResult m (w0.extractLsb' 0 8) 0x10 .done (setEnables (w1.extractLsb' 0 13)
        (s.blocks.onCsu fun c => { c with framing := c.framing.set m .empty })))
      (takeCommandWord m o w (s.inHand m a x)) := by
  have here : frameWord (s.inHand m a x).blocks.csu.framing[m] o w
      = ⟨.empty, none, some ⟨slot, w0, w1, w2, w⟩⟩ := framed
  have left : frameCommand m o w s.blocks
      = s.blocks.onCsu fun c => { c with framing := c.framing.set m .empty } :=
    (frameCommand_framed framed).trans rfl
  let U : State := { s.inHand m a x with
    blocks := s.blocks.onCsu fun c => { c with framing := c.framing.set m .empty } }
  have framedState : (s.inHand m a x).onBlocks (frameCommand m o w) = U :=
    congrArg (fun c => { s.inHand m a x with blocks := c }) left
  have coded : (commandCode w0).toNat = 0x10 := by
    rw [commandCode, code]
    rfl
  have runs : runCommand m w0 w1 w2 U = doSetEventEnables m (commandTag w0) (w1.extractLsb' 0 13) U := by
    unfold runCommand
    dsimp only
    rw [coded]
    rfl
  have owner : ownerOf (always (setEnables (w1.extractLsb' 0 13))) U
      = (.done, { U with blocks := setEnables (w1.extractLsb' 0 13) U.blocks }) := rfl
  have taken : doSetEventEnables m (commandTag w0) (w1.extractLsb' 0 13) U
      = (s.inHand m a x).act fun _ => recordResult m (w0.extractLsb' 0 8) 0x10 .done
        (setEnables (w1.extractLsb' 0 13) U.blocks) := by
    rw [doSetEventEnables, takeCommand_taken (s := U) (inEvery_of_ne_startUp running) owner]
    rfl
  have acts : takeCommandWord m o w (s.inHand m a x) = runCommand m w0 w1 w2 U := by
    unfold takeCommandWord
    rw [here]
    dsimp only
    rw [framedState, completeCommand, checkWord_three, if_pos passes]
  rw [acts, runs, taken]
  exact heldWith_act s m a x fun _ => recordResult m (w0.extractLsb' 0 8) 0x10 .done
    (setEnables (w1.extractLsb' 0 13) U.blocks)

/-! ### Capture words -/

theorem captureWord_ignored (off : accepting (b.lane l).state = false) : takeCaptureWord l o w b = b := by
  unfold takeCaptureWord
  dsimp only
  rw [off]
  rfl

theorem captureWord_takes (on : accepting (b.lane l).state = true)
    (framed : frameWord (b.lane l).framing o w = ⟨g, fault, none⟩) :
    takeCaptureWord l o w b = framedFault (laneFaultRecord .framing l) fault
      (b.setLane l { b.lane l with framing := g }) := by
  unfold takeCaptureWord
  dsimp only
  rw [on, framed]
  cases fault with
  | none => rfl
  | some slot => rfl

theorem captureWord_completes {r : CompleteRecord} (on : accepting (b.lane l).state = true)
    (framed : frameWord (b.lane l).framing o w = ⟨.empty, none, some r⟩) :
    takeCaptureWord l o w b = completeCapture l r (b.setLane l { b.lane l with framing := .empty }) := by
  unfold takeCaptureWord
  dsimp only
  rw [on, framed]
  rfl

theorem completeCapture_malformed {w0 w1 w2 : Word} (fails : w ≠ ~~~(w0 ^^^ w1 ^^^ w2)) (b : Blocks) :
    completeCapture l ⟨slot, w0, w1, w2, w⟩ b = laneFaultRecord .malformed l slot b := by
  unfold completeCapture
  dsimp only
  rw [acceptedRecord, checkWord_three, if_neg fails]

theorem completeCapture_accepts {w0 w1 w2 : Word} {r : CaptureRecord} (passes : w = ~~~(w0 ^^^ w1 ^^^ w2))
    (fields : captureFields w0 w1 w2 = some r) (on : accepting (b.lane l).state = true) :
    completeCapture l ⟨slot, w0, w1, w2, w⟩ b = takeRecord l slot r b := by
  unfold completeCapture takeRecord
  dsimp only
  rw [acceptedRecord, checkWord_three, if_pos passes, fields, if_pos on]

theorem blocks_became (s : State) (b : Blocks) : (s.became b).blocks = b := by
  unfold State.became
  rw [poke_onMp]

/-! ### The windows -/

/-- A write of master 7's fallback page goes to its command window (R14). -/
theorem fallback_command_write (low : a.toNat < 0x100) (w : Word) (t : State) :
    fallback ⟨a, .write w⟩ t = writeCommand 7 ⟨a, .write w⟩ w a t := by
  have : (addrOffset a).toNat < 0x100 := by rw [addrOffset_low (by omega)]; omega
  simp only [fallback, if_pos this]

theorem handOver_fallback (mode : s.blocks.su.mode = .bypass) (low : a.toNat < 0x100) (w : Word) :
    handOver 7 ⟨a, .write w⟩ s.fresh = toMemory 7 ⟨a, .write w⟩ a .command
      (takeCommandWord 7 (addrOffset a) w (s.inHand 7 a (.write w))) := by
  rw [handOver_bypass mode, classify_fallback (by omega), fallback_command_write low]
  rfl

theorem Hit.command_write {e : Entry} (h : Hit s m a e) (allowed : e.allows (.write w))
    (kind : e.kind = .command) :
    handOver m ⟨a, .write w⟩ s.fresh
      = toMemory m ⟨a, .write w⟩ (physical e.page (addrOffset a)) .command
        (takeCommandWord m (addrOffset a) w (s.inHand m a (.write w))) := by
  have pass : entryRefusal s.blocks.profile m e.walked (.write w) = none := by
    rw [← permitted_iff] at allowed
    have kind : e.walked.kind = .command := kind
    simp [entryRefusal, allowed, kind]
  have routed : handOver m ⟨a, .write w⟩ s.fresh
      = writeCommand m ⟨a, .write w⟩ w (physical e.page (addrOffset a)) (s.inHand m a (.write w)) := by
    rw [h.routed pass, kind]
    rfl
  rw [routed, writeCommand, addrOffset_physical]

theorem channelLane_eq {channel : BitVec 3} (named : channel.toNat = l.val) :
    channelLane channel = some l := by
  unfold channelLane
  rw [dif_pos (by omega)]
  exact congrArg some (Fin.ext named)

theorem Hit.capture_write {e : Entry} (h : Hit s m a e) (allowed : e.allows (.write w))
    (kind : e.kind = .capture) (named : e.channel.toNat = l.val)
    (use : laneInUse s.blocks.profile l = true) (owner : laneOwner s.blocks.profile l = m) :
    handOver m ⟨a, .write w⟩ s.fresh
      = toMemory m ⟨a, .write w⟩ (physical e.page (addrOffset a)) .capture
        ((s.inHand m a (.write w)).act (takeCaptureWord l (addrOffset a) w)) := by
  have lane := channelLane_eq named
  have owns : ownsLane s.blocks.profile m e.channel = true := by
    simp [ownsLane, lane, use, owner]
  have pass : entryRefusal s.blocks.profile m e.walked (.write w) = none := by
    rw [← permitted_iff] at allowed
    have kind : e.walked.kind = .capture := kind
    have owns : ownsLane s.blocks.profile m e.walked.channel = true := owns
    simp [entryRefusal, allowed, kind, owns]
  have routed : handOver m ⟨a, .write w⟩ s.fresh = writeCapture m ⟨a, .write w⟩ w e.channel
      (physical e.page (addrOffset a)) (s.inHand m a (.write w)) := by
    rw [h.routed pass, kind]
    rfl
  rw [routed, writeCapture, lane, addrOffset_physical]

end

/-- Settles O29: the word is framed in the SP's hands, and its write passes on whatever becomes of it. -/
theorem recordWordsAreFramed : Obligations.RecordWordsAreFramed := by
  intro s m a w g fault b index slot faulted framed passed hits commanded settled free align
  have taken : Taken s m a := ⟨settled, free, align⟩
  have place : OffsetAt (addrOffset a) index slot := offsetAt_addrOffset a
  have framedCase (subject : FaultSubject) (c : Blocks) :
      framedFault (faulted .framing subject) fault c = framed subject c := by
    cases fault with
    | none => rfl
    | some o => rfl
  have command {p : Addr} (running : b.su.mode ≠ .startUp)
      (handed : handOver m ⟨a, .write w⟩ s.fresh = toMemory m ⟨a, .write w⟩ p .command
        (takeCommandWord m (addrOffset a) w (s.inHand m a (.write w)))) : commanded p := by
    unfold commanded
    intro left
    refine ⟨fun takes => ?_, fun w0 w1 w2 held last => ?_⟩
    · have moved := commandWord_takes (s := s) (m := m) (a := a) (x := .write w) (frameWord_takes place takes)
      refine passes_of_handOver taken handed ?_
      rw [← framedCase]
      exact moved
    · have complete := frameWord_completes (w := w) place held last
      exact ⟨fun fails => passes_of_handOver taken handed (commandWord_malformed complete fails),
        fun passes code => passes_of_handOver taken handed (commandWord_enables complete passes code running)⟩
  have hit {e : Entry} {kind : WindowKind} (h : hits e kind) :
      Hit s m a e ∧ e.kind = kind ∧ e.allows (.write w) ∧ b.su.mode ≠ .startUp := by
    obtain ⟨mode, translating, unswept, sound, way, valid, tagged, kind, permit⟩ := h
    refine ⟨⟨taken, mode, translating, unswept, sound, way, valid, tagged⟩, kind, permit, ?_⟩
    rcases mode with mode | mode
    · rw [mode]; nofun
    · rw [mode]; nofun
  refine ⟨fun mode seven low => ?_, fun e h => ?_, fun e l h named use owner => ?_⟩
  · subst seven
    exact command (by rw [mode]; nofun) (handOver_fallback mode low w)
  · obtain ⟨hit, kind, allowed, running⟩ := hit h
    refine ⟨_, ?_, command running (hit.command_write allowed kind)⟩
    rw [toNat_physical, toNat_addrOffset]
  · intro left
    obtain ⟨hit, kind, allowed, -⟩ := hit h
    have handed := hit.capture_write allowed kind named use owner
    have acts {c : Blocks} (takes : takeCaptureWord l (addrOffset a) w b = c) :
        passed .capture (physical e.page (addrOffset a)) c := by
      subst takes
      exact passes_of_handOver taken handed (heldWith_act s m a (.write w) _)
    refine ⟨physical e.page (addrOffset a), by rw [toNat_physical, toNat_addrOffset],
      fun off => acts (captureWord_ignored off), fun on takes => acts ?_, fun w0 w1 w2 on held last => ?_⟩
    · rw [captureWord_takes on (frameWord_takes place takes), ← framedCase]
      rfl
    · have whole := captureWord_completes on (frameWord_completes (w := w) place held last)
      refine ⟨fun fails => acts ?_, fun r t passes fields runs => acts ?_⟩
      · rw [whole, completeCapture_malformed fails]
        rfl
      · have accepts : accepting ((b.setLane l { b.lane l with framing := .empty }).lane l).state = true := by
          rw [lane_setLane]
          exact on
        rw [exec_heartbeat] at runs
        obtain rfl := Host.Outcome.next.inj runs
        refine whole.trans ((completeCapture_accepts passes fields accepts).trans ?_)
        exact (blocks_became _ _).symm

end Sys2Proof.Machine

namespace Sys2Proof.Machine

/-! ## What does not look at the state of a second record of a number

Where no premise keeps the numbers apart, a claim that moves every record of a number agrees with the
model, which goes by the first of them, for what follows depends on the first alone. -/

section

variable {b : Blocks} {n k : VehicleNumber} {f g again : Blocks → Blocks}

/-- The blocks with the VT replaced. -/
def Blocks.withVt (b : Blocks) (v : Tracker) : Blocks := { b with vt := v }

/-- The function neither reads nor changes the VT. -/
def VtFree (f : Blocks → Blocks) : Prop := ∀ b v, f (b.withVt v) = (f b).withVt v

theorem VtFree.comp (hg : VtFree g) (hf : VtFree f) : VtFree fun b => g (f b) := fun b v =>
  (congrArg g (hf b v)).trans (hg (f b) v)

theorem VtFree.ite {p : Blocks → Prop} [DecidablePred p] (same : ∀ b v, p (b.withVt v) ↔ p b)
    (hf : VtFree f) (hg : VtFree g) : VtFree fun b => if p b then f b else g b := fun b v => by
  by_cases yes : p b
  · simp only [if_pos yes, if_pos ((same b v).mpr yes)]
    exact hf b v
  · simp only [if_neg yes, if_neg (mt (same b v).mp yes)]
    exact hg b v

theorem vtFree_id : VtFree fun b => b := fun _ _ => rfl

theorem vtFree_foldl {α : Type} {h : Blocks → α → Blocks} (free : ∀ x, VtFree fun b => h b x) (l : List α) :
    VtFree fun b => l.foldl h b := by
  induction l with
  | nil => exact vtFree_id
  | cons x l ih => exact ih.comp (free x)

/-! ### The DU's and the CSU's operations -/

theorem vtFree_setOverflow (x : Approach) : VtFree (setOverflow x) :=
  VtFree.ite (p := fun b => b.du.overflow.at x = true) (fun _ _ => Iff.rfl) vtFree_id fun _ _ => rfl

theorem vtFree_dropDirective (x : Approach) {e : Directive} (kind : e.kind ≠ .divert) :
    VtFree (dropDirective x e) := by
  have overflown : VtFree fun b => setOverflow x (b.request .directiveOverflow) :=
    (vtFree_setOverflow x).comp fun _ _ => rfl
  have marked : VtFree fun b => markResend e.lane (setOverflow x (b.request .directiveOverflow)) :=
    VtFree.comp (g := markResend e.lane) (fun _ _ => rfl) overflown
  unfold dropDirective
  cases is : e.kind with
  | divert => exact absurd is kind
  | proceed => exact overflown
  | standingOn => exact marked
  | standingOff => exact marked

theorem vtFree_queueDirective (x : Approach) {e : Directive} (kind : e.kind ≠ .divert) :
    VtFree (queueDirective x e) := by
  intro b v
  have drop := vtFree_dropDirective x kind b v
  have same : (b.withVt v).directives x = b.directives x := rfl
  unfold queueDirective
  dsimp only
  rw [same, drop]
  split_ifs
  · rfl
  · cases takeFirst displaceable (b.directives x) with
    | none => rfl
    | some p =>
      dsimp only
      split_ifs
      · rfl
      · rfl
  · rfl

theorem vtFree_evalLane (l : Lane) : VtFree (evalLane l) := by
  intro b v
  have turned (s : StandingLane) (e : Directive) (kind : e.kind ≠ .divert) :
      queueDirective (laneApproach b.profile l) e ((b.withVt v).setStanding l s)
        = (queueDirective (laneApproach b.profile l) e (b.setStanding l s)).withVt v :=
    vtFree_queueDirective _ kind (b.setStanding l s) v
  have profile : (b.withVt v).profile = b.profile := rfl
  have standing : (b.withVt v).standing l = b.standing l := rfl
  have causes : standingCause (b.withVt v) l = standingCause b l := rfl
  unfold evalLane
  rw [profile, causes]
  dsimp only
  rw [standing]
  by_cases use : laneInUse b.profile l = true
  · rw [use]
    cases (b.standing l).state with
    | absent => rfl
    | on =>
      cases standingCause b l with
      | none => exact turned _ _ nofun
      | some r => rfl
    | off =>
      cases standingCause b l with
      | none => rfl
      | some r => exact turned _ _ nofun
  · rw [Bool.not_eq_true] at use
    rw [use]
    rfl

theorem vtFree_notice (ls : List Lane) (f : DirectiveInputs → DirectiveInputs) : VtFree (notice ls f) := by
  have lanes : VtFree fun b => ls.foldl (fun b l => evalLane l b) b := vtFree_foldl vtFree_evalLane ls
  have told : VtFree fun b => ls.foldl (fun b l => evalLane l b)
      (b.onDu fun d => { d with inputs := f d.inputs }) := lanes.comp fun _ _ => rfl
  exact VtFree.comp (g := evalBeacons) (fun _ _ => rfl) told

theorem vtFree_offerJournal (words : Vector Word 8) : VtFree (offerJournal words) :=
  VtFree.ite (p := fun b => b.csu.journal.length < journalCapacity) (fun _ _ => Iff.rfl)
    (fun _ _ => rfl) fun _ _ => rfl

theorem vtFree_evalAlarm (maySet : Bool) : VtFree (evalAlarm maySet) := by
  have sets : VtFree fun b => noticeAlarm true ((b.onAu fun a => { a with alarm := true }).request .overload) :=
    VtFree.comp (g := noticeAlarm true) (vtFree_notice _ _) fun _ _ => rfl
  have clears : VtFree fun b => noticeAlarm false (b.onAu fun a => { a with alarm := false }) :=
    VtFree.comp (g := noticeAlarm false) (vtFree_notice _ _) fun _ _ => rfl
  exact VtFree.ite (p := fun b => overloaded b = true) (fun _ _ => Iff.rfl)
    (VtFree.ite (p := fun b => (maySet && !b.au.alarm) = true) (fun _ _ => Iff.rfl) sets vtFree_id)
    (VtFree.ite (p := fun b => b.au.alarm = true) (fun _ _ => Iff.rfl) clears vtFree_id)

/-! ### The records of a number brought to the state of the first -/

/-- A record, moved to another's state where it has the number. -/
def leveled (n : VehicleNumber) (o : Option VehicleRecord) (w : VehicleRecord) : VehicleRecord :=
  match o with
  | none => w
  | some r => if w.number = n then w.to r.state else w

/-- The blocks with every record of a number in the state of the first. -/
def Blocks.evened (b : Blocks) (n : VehicleNumber) : Blocks :=
  b.withVt { b.vt with table := b.vt.table.map (leveled n (b.record n)) }

theorem number_leveled (n : VehicleNumber) (o : Option VehicleRecord) (w : VehicleRecord) :
    (leveled n o w).number = w.number := by
  cases o with
  | none => rfl
  | some r =>
    unfold leveled
    dsimp only
    split_ifs
    · rfl
    · rfl

theorem leveled_other {w : VehicleRecord} (other : w.number ≠ n) (o : Option VehicleRecord) :
    leveled n o w = w := by
  cases o with
  | none => rfl
  | some r => exact if_neg other

theorem record_evened (b : Blocks) (n k : VehicleNumber) : (b.evened n).record k = b.record k := by
  have found : (b.evened n).record k = (b.record k).map (leveled n (b.record n)) := by
    unfold Blocks.record Blocks.evened Blocks.withVt
    rw [List.find?_map]
    refine congrArg (fun p => Option.map _ (List.find? p b.vt.table)) (funext fun w => ?_)
    exact congrArg (· == k) (number_leveled n _ w)
  rw [found]
  cases is : b.record k with
  | none => rfl
  | some w =>
    have number := record_number is
    refine congrArg some ?_
    by_cases same : k = n
    · subst same
      rw [is]
      exact if_pos number
    · exact leveled_other (fun mine => same (number.symm.trans mine)) _

/-- The function treats the blocks alike, whatever the state of a later record of the number. -/
def Commutes (n : VehicleNumber) (f : Blocks → Blocks) : Prop := ∀ b, f (b.evened n) = (f b).evened n

theorem VtFree.commutes (free : VtFree f) (n : VehicleNumber) : Commutes n f := by
  intro b
  have kept : f b = (f b).withVt b.vt := free b b.vt
  have same : (f b).vt = b.vt := (congrArg Blocks.vt kept : (f b).vt = ((f b).withVt b.vt).vt)
  have record : (f b).record n = b.record n := by unfold Blocks.record; rw [same]
  unfold Blocks.evened
  rw [free, record, same]

theorem Commutes.comp (hg : Commutes n g) (hf : Commutes n f) : Commutes n fun b => g (f b) := fun b =>
  (congrArg g (hf b)).trans (hg (f b))

theorem Commutes.ite {p : Blocks → Prop} [DecidablePred p] (same : ∀ b, p (b.evened n) ↔ p b)
    (hf : Commutes n f) (hg : Commutes n g) : Commutes n fun b => if p b then f b else g b := fun b => by
  by_cases yes : p b
  · simp only [if_pos yes, if_pos ((same b).mpr yes)]
    exact hf b
  · simp only [if_neg yes, if_neg (mt (same b).mp yes)]
    exact hg b

theorem commutes_id : Commutes n fun b => b := fun _ => rfl

/-- A change of a record that sets its state, whatever it was. -/
structure SetsState (f : VehicleRecord → VehicleRecord) : Prop where
  number : ∀ w, (f w).number = w.number
  ignores : ∀ (w : VehicleRecord) (st : VehicleState), f (w.to st) = f w
  state : ∀ w r : VehicleRecord, (f w).state = (f r).state

theorem commutes_onRecord {f : VehicleRecord → VehicleRecord} (sets : SetsState f) (k : VehicleNumber) :
    Commutes n fun b => b.onRecord k f := by
  intro b
  have record := record_onRecord_of b n k f sets.number
  have each (w : VehicleRecord) : (if (leveled n (b.record n) w).number = k
      then f (leveled n (b.record n) w) else leveled n (b.record n) w)
      = leveled n ((b.onRecord k f).record n) (if w.number = k then f w else w) := by
    rw [record, number_leveled]
    by_cases mine : w.number = n
    · cases is : b.record n with
      | none => rfl
      | some r =>
        have first := record_number is
        by_cases same : n = k
        · subst same
          have settled : (f w).to (f r).state = f w := by rw [← sets.state w r]; rfl
          have left : leveled n (some r) w = w.to r.state := if_pos mine
          rw [if_pos mine, if_pos mine, left, sets.ignores, Option.map_some, if_pos first]
          exact ((if_pos ((sets.number w).trans mine)).trans settled).symm
        · rw [if_neg (mine ▸ same), if_neg (mine ▸ same), Option.map_some, if_neg (first ▸ same)]
    · rw [leveled_other mine]
      by_cases here : w.number = k
      · rw [if_pos here, leveled_other (by rw [sets.number]; exact mine)]
      · rw [if_neg here, leveled_other mine]
  have table : ((b.vt.table.map (leveled n (b.record n))).map fun r => if r.number = k then f r else r)
      = (b.vt.table.map fun r => if r.number = k then f r else r).map
        (leveled n ((b.onRecord k f).record n)) := by
    rw [List.map_map, List.map_map]
    exact List.map_congr_left fun w _ => each w
  exact congrArg (fun t => b.withVt { b.vt with table := t }) table

/-- The blocks without the records of a number. -/
def Blocks.unrecorded (b : Blocks) (k : VehicleNumber) : Blocks :=
  b.onVt fun v => { v with table := v.table.filter fun r => r.number ≠ k }

theorem record_unrecorded (b : Blocks) (n k : VehicleNumber) :
    (b.unrecorded k).record n = if n = k then none else b.record n := by
  unfold Blocks.unrecorded Blocks.record Blocks.onVt
  dsimp only
  rw [List.find?_filter]
  by_cases same : n = k
  · subst same
    rw [if_pos rfl]
    exact List.find?_eq_none.mpr fun w _ => by simp
  · rw [if_neg same]
    refine congrArg (fun p => List.find? p b.vt.table) (funext fun w => ?_)
    by_cases mine : w.number = n
    · simp [mine, same]
    · simp [mine]

theorem commutes_unrecorded (k : VehicleNumber) : Commutes n fun b => b.unrecorded k := by
  intro b
  have table : (b.vt.table.map (leveled n (b.record n))).filter (fun r => decide (r.number ≠ k))
      = (b.vt.table.filter fun r => r.number ≠ k).map (leveled n ((b.unrecorded k).record n)) := by
    have kept : (fun r : VehicleRecord => decide (r.number ≠ k)) ∘ leveled n (b.record n)
        = fun r => decide (r.number ≠ k) := funext fun w => by
      simp only [Function.comp, number_leveled]
    rw [List.filter_map, kept, record_unrecorded]
    refine List.map_congr_left fun w mem => ?_
    by_cases same : n = k
    · subst same
      have other : w.number ≠ n := of_decide_eq_true (List.mem_filter.mp mem).2
      rw [leveled_other other, leveled_other other]
    · rw [if_neg same]
  exact congrArg (fun t => b.withVt { b.vt with table := t }) table

/-- Without a record of the number there is nothing to bring to a state. -/
theorem evened_none (none : b.record n = none) : b.evened n = b := by
  unfold Blocks.evened
  rw [none]
  exact congrArg (fun t => b.withVt { b.vt with table := t }) (List.map_id _)

/-! ### Releases, retirements and re-evaluations -/

theorem commutes_reportCounts (h : Commutes n again) : Commutes n (reportCounts again) := by
  have cleared : Commutes n fun b => again (noticeLock false (b.onAu fun a => { a with lock := false })) :=
    h.comp (VtFree.commutes (VtFree.comp (g := noticeLock false) (vtFree_notice _ _) fun _ _ => rfl) n)
  intro b
  let counted (b : Blocks) : Blocks := b.onAu fun a => { a with
    occupants := ⟨b.vt.occupants.a.length, b.vt.occupants.b.length⟩, unreserved := b.unreservedCount }
  exact Commutes.ite (p := fun b => (b.au.lock && decide (b.au.occupants.a < occupantCapacity)
    && decide (b.au.occupants.b < occupantCapacity) && b.au.unreserved = 0) = true)
    (fun _ => Iff.rfl) cleared commutes_id (counted b)

theorem commutes_release (h : Commutes n again) (o : Owner) : Commutes n (release again o) := by
  have released : Commutes n fun b => again (evalAlarm false (dropReservation o b)) :=
    h.comp (VtFree.commutes (VtFree.comp (g := evalAlarm false) (vtFree_evalAlarm _) fun _ _ => rfl) n)
  exact Commutes.ite (p := fun b => b.holds o = true) (fun _ => Iff.rfl) released commutes_id

/-- The last steps of a retirement: off the Held List, journalled, out of the table (R101). -/
def Blocks.filed (o : JournalOutcome) (k : VehicleNumber) (b : Blocks) : Blocks :=
  let b := b.onAu fun a => { a with held := a.held.erase k }
  match b.record k with
  | none => b
  | some r => (offerJournal (recordWords o r b.now) b).unrecorded k

theorem commutes_filed (o : JournalOutcome) (k : VehicleNumber) : Commutes n (Blocks.filed o k) := by
  intro b
  have filed : Commutes n fun d => match d.record k with
      | none => d
      | some r => (offerJournal (recordWords o r d.now) d).unrecorded k := by
    intro d
    dsimp only
    rw [record_evened]
    cases d.record k with
    | none => rfl
    | some r =>
      exact (commutes_unrecorded k).comp ((vtFree_offerJournal (recordWords o r d.now)).commutes n) d
  exact filed.comp (f := fun b => b.onAu fun a => { a with held := a.held.erase k }) (fun _ => rfl) b

theorem commutes_retire (h : Commutes n again) (o : JournalOutcome) (k : VehicleNumber) :
    Commutes n (retire again o k) := by
  have counted : Commutes n fun b => if b.queued k = true then
      reportCounts again (dropOccupants (Occupant.isVehicle k) b) else b :=
    Commutes.ite (fun _ => Iff.rfl)
      (Commutes.comp (g := reportCounts again) (commutes_reportCounts h) fun _ => rfl) commutes_id
  have released : Commutes n fun b => if (b.record k).any (·.reserved) = true then
      release again (.vehicle k) b else b :=
    Commutes.ite (fun b => by rw [record_evened]) (commutes_release h _) commutes_id
  exact fun b => (commutes_filed o k).comp (released.comp counted) b

theorem commutes_examineAdmitted (h : Commutes n again) (k : VehicleNumber) :
    Commutes n (examineAdmitted again k) := by
  intro b
  have moved (st : VehicleState) : Commutes n fun b => b.onRecord k (·.to st) :=
    commutes_onRecord (f := (·.to st)) ⟨fun _ => rfl, fun _ _ => rfl, fun _ _ => rfl⟩ k
  cases found : b.record k with
  | none => simp only [examineAdmitted, record_evened, found]
  | some r =>
    have here : (b.evened n).record k = some r := (record_evened b n k).trans found
    have now : (b.evened n).now = b.now := rfl
    rw [examineAdmitted_eq here, examineAdmitted_eq found, now]
    split_ifs
    · exact (commutes_retire h .lost k).comp (moved _) b
    · exact moved _ b

theorem commutes_admitNormal (r : VehicleRecord) : Commutes n (admitNormal r) := by
  intro b
  have placed (c : Reservation) : Commutes n fun b =>
      (placeReservation c b).onAu fun a => { a with counter := a.counter + 1 } := fun _ => rfl
  have moved (st : VehicleState) (late : Bool) (stamp : BitVec 32) : Commutes n fun b =>
      b.onRecord r.number fun r => { r with
        state := st, verdict := some .admitted, reserved := true, stamp := some stamp
        flags := { r.flags with late := r.flags.late || late } } :=
    commutes_onRecord (f := fun r => { r with
        state := st, verdict := some .admitted, reserved := true, stamp := some stamp
        flags := { r.flags with late := r.flags.late || late } })
      ⟨fun _ => rfl, fun _ _ => rfl, fun _ _ => rfl⟩ r.number
  exact (moved _ _ b.au.counter).comp (placed _) b

theorem commutes_tryHeld (h : Commutes n again) (k : VehicleNumber) : Commutes n (tryHeld again k) := by
  intro b
  have here := record_evened b n k
  cases found : b.record k with
  | none => simp only [tryHeld, here, found]
  | some r =>
    rw [found] at here
    have admits : Commutes n fun b => queueVehicle .proceed .none r (examineAdmitted again k
        ((admitNormal r b).onAu fun a => { a with held := a.held.erase k })) :=
      ((vtFree_queueDirective r.approach (by exact (by decide : DirectiveKind.proceed ≠ .divert))).commutes
        n).comp ((commutes_examineAdmitted h k).comp
        (Commutes.comp (g := fun b => b.onAu fun a => { a with held := a.held.erase k })
          (fun _ => rfl) (commutes_admitNormal r)))
    unfold tryHeld
    rw [here, found]
    exact Commutes.ite (p := fun b => (b.au.held.contains k && !(b.effClosed.at r.approach)
      && admissible b r) = true) (fun _ => Iff.rfl) admits commutes_id b

theorem commutes_reevaluateLevel (n : VehicleNumber) (m : Nat) : Commutes n (reevaluateLevel m) := by
  induction m with
  | zero => exact commutes_id
  | succ m ih =>
    have pass (l : List VehicleNumber) :
        Commutes n fun b => l.foldl (fun b v => tryHeld (reevaluateLevel m) v b) b := by
      induction l with
      | nil => exact commutes_id
      | cons v l tail => exact tail.comp (commutes_tryHeld ih v)
    exact fun b => pass b.au.held b

theorem commutes_reevaluate (n : VehicleNumber) : Commutes n reevaluate := fun b =>
  commutes_reevaluateLevel n (b.au.held.length + 1) b

/-- A retirement goes by the first record of its number. -/
theorem retire_evened (o : JournalOutcome) (n : VehicleNumber) (b : Blocks) :
    retire reevaluate o n (b.evened n) = retire reevaluate o n b :=
  (commutes_retire (commutes_reevaluate n) o n b).trans (evened_none (record_retire _ _ _ _))

end

end Sys2Proof.Machine

namespace Sys2Proof.Machine

/-! ## T_REACHED (R90, R101, R119, R124) -/

section

variable {b : Blocks} {n : VehicleNumber} {v : VehicleRecord}

theorem reachT_early (h : ∀ v, b.record n = some v → v.tReached b.now = false) : reachT n b = b := by
  refine if_neg ?_
  cases found : b.record n with
  | none => simp
  | some v => simp [h v found]

theorem reachT_reached (h : b.record n = some v) (t : v.tReached b.now = true) :
    reachT n b = serveT n (serveV1 n (serveE1 n (serveD n b))) := if_pos (by simpa [h] using t)

theorem serveT_none (h : b.record n = none) : serveT n b = b := by
  simp only [serveT, h]

theorem serveT_onSpan (h : b.record n = some v) (t : v.tReached b.now = true) (state : v.state = .onSpan) :
    serveT n b = goOverdue n b := by
  simp only [serveT, h, t, state, Bool.not_true, Bool.false_eq_true, if_false]

theorem serveT_lost (h : b.record n = some v) (t : v.tReached b.now = true)
    (state : v.state = .missing ∨ v.state = .divertUnconfirmed) :
    serveT n b = retire reevaluate .lost n b := by
  rcases state with state | state
  · simp only [serveT, h, t, state, Bool.not_true, Bool.false_eq_true, if_false]
  · simp only [serveT, h, t, state, Bool.not_true, Bool.false_eq_true, if_false]

/-- T itself moves no record in another state. -/
theorem serveT_same (h : b.record n = some v) (onSpan : v.state ≠ .onSpan) (missing : v.state ≠ .missing)
    (unconfirmed : v.state ≠ .divertUnconfirmed) : serveT n b = b := by
  unfold serveT
  rw [h]
  dsimp only
  split_ifs
  · rfl
  · cases state : v.state with
    | onSpan => exact absurd state onSpan
    | missing => exact absurd state missing
    | divertUnconfirmed => exact absurd state unconfirmed
    | held | admitted | committed | overdue | diverted => rfl

/-- The expiries before T do not move a record that is past its window, or stands before its own. -/
theorem beforeT_same (h : b.record n = some v) (d : serveD n b = b)
    (e1 : v.e1Reached b.now = false ∨ (v.state ≠ .admitted ∧ v.state ≠ .committed))
    (v1 : v.v1Reached b.now = false ∨ v.state ≠ .diverted) :
    serveV1 n (serveE1 n (serveD n b)) = b := by
  rw [d, serveE1_same h e1, serveV1_same h v1]

/-- A record that no window moves: ON_SPAN, OVERDUE, MISSING or DIVERT_UNCONFIRMED. -/
def VehicleState.settledIn (st : VehicleState) : Prop :=
  st = .onSpan ∨ st = .overdue ∨ st = .missing ∨ st = .divertUnconfirmed

theorem beforeT_settled (h : b.record n = some v) (state : v.state.settledIn) :
    serveV1 n (serveE1 n (serveD n b)) = b := by
  have other (st : VehicleState) (out : ¬ st.settledIn) : v.state ≠ st := fun same => out (same ▸ state)
  have admitted := other .admitted (by unfold VehicleState.settledIn; decide)
  have held := other .held (by unfold VehicleState.settledIn; decide)
  have committed := other .committed (by unfold VehicleState.settledIn; decide)
  have diverted := other .diverted (by unfold VehicleState.settledIn; decide)
  exact beforeT_same h (serveD_same h (.inr ⟨admitted, held, fun same => absurd same diverted⟩))
    (.inr ⟨admitted, committed⟩) (.inr diverted)

/-! ### The record that T moves -/

theorem reachT_onSpan (h : b.record n = some v) (t : v.tReached b.now = true) (state : v.state = .onSpan) :
    reachT n b = goOverdue n b := by
  rw [reachT_reached h t, beforeT_settled h (.inl state), serveT_onSpan h t state]

theorem reachT_settledLost (h : b.record n = some v) (t : v.tReached b.now = true)
    (state : v.state = .missing ∨ v.state = .divertUnconfirmed) :
    reachT n b = retire reevaluate .lost n b := by
  rw [reachT_reached h t, beforeT_settled h (.inr (.inr state)), serveT_lost h t state]

theorem reachT_missing (h : b.record n = some v) (t : v.tReached b.now = true)
    (e1 : v.e1Reached b.now = true) (state : v.state = .admitted ∨ v.state = .committed) :
    reachT n b = retire reevaluate .lost n (b.onRecord n (·.to .missing)) := by
  have gone := record_retire reevaluate .lost n (b.onRecord n (·.to .missing))
  rw [reachT_reached h t, serveE1_serveD h e1 state, goMissing_lost t, serveV1_none gone, serveT_none gone]

theorem reachT_unconfirmed (h : b.record n = some v) (t : v.tReached b.now = true)
    (v1 : v.v1Reached b.now = true) (state : v.state = .diverted) (warned : v.warned b.now) :
    reachT n b = retire reevaluate .lost n (b.onRecord n (·.to .divertUnconfirmed)) := by
  have gone := record_retire reevaluate .lost n (b.onRecord n (·.to .divertUnconfirmed))
  have e1 : serveE1 n b = b := serveE1_same h (.inr ⟨by rw [state]; nofun, by rw [state]; nofun⟩)
  rw [reachT_reached h t, serveD_warned h state warned, e1, serveV1_moves h v1 state,
    goUnconfirmed_lost t, serveT_none gone]

theorem reachT_same (h : b.record n = some v) (before : serveV1 n (serveE1 n (serveD n b)) = b)
    (onSpan : v.state ≠ .onSpan) (missing : v.state ≠ .missing)
    (unconfirmed : v.state ≠ .divertUnconfirmed) : reachT n b = b := by
  by_cases t : v.tReached b.now = true
  · rw [reachT_reached h t, before, serveT_same h onSpan missing unconfirmed]
  · refine reachT_early fun w found => ?_
    obtain rfl := Option.some.inj (h.symm.trans found)
    simpa using t

/-- The blocks of a record that becomes OVERDUE, before the sweep. -/
def Blocks.overdueOpened (b : Blocks) (n : VehicleNumber) (v : VehicleRecord) : Blocks :=
  if v.reserved then (b.onRecord n (·.to .overdue)).opened (.vehicle n) else b.onRecord n (·.to .overdue)

theorem goOverdue_eq (h : b.record n = some v) : goOverdue n b
    = (if v.reserved then makeOpen (.vehicle n) (b.onRecord n (·.to .overdue))
      else b.onRecord n (·.to .overdue)).request .overdue := by
  simp only [goOverdue, h]

theorem goOverdue_unreserved (h : b.record n = some v) (reserved : v.reserved = false) :
    goOverdue n b = (b.overdueOpened n v).request .overdue := by
  rw [goOverdue_eq h, Blocks.overdueOpened, reserved]
  rfl

theorem goOverdue_idle (h : b.record n = some v) (alarm : b.au.alarm = false)
    (load : overloaded (b.overdueOpened n v) = false) :
    goOverdue n b = (b.overdueOpened n v).request .overdue := by
  cases reserved : v.reserved with
  | false => exact goOverdue_unreserved h reserved
  | true =>
    unfold Blocks.overdueOpened at load ⊢
    rw [if_pos reserved] at load ⊢
    rw [goOverdue_eq h, if_pos reserved,
      makeOpen_idle (b := b.onRecord n (·.to .overdue)) alarm load]

theorem goOverdue_sweeps (h : b.record n = some v) (reserved : v.reserved = true)
    (holder : ∃ w ∈ b.au.reservations, w.owner = .vehicle n) :
    goOverdue n b = (shortfallSweep (b.overdueOpened n v)).request .overdue := by
  unfold Blocks.overdueOpened
  rw [goOverdue_eq h, if_pos reserved, if_pos reserved,
    makeOpen_holds (b := b.onRecord n (·.to .overdue)) ((holds_iff _ _).mpr holder)]

/-- A record of which a claim moves every namesake to the state that it is in already. -/
theorem retires_evened (h : b.record n = some v) : Retires .lost n (b.onRecord n (·.to v.state))
    (retire reevaluate .lost n b) := by
  have same : b.onRecord n (·.to v.state) = b.evened n := by
    unfold Blocks.evened
    rw [h]
    rfl
  rw [same, ← retire_evened]
  exact retire_retires _ _ _

/-- A record that T does not move. -/
theorem reachT_quiet (h : b.record n = some v) (quiet : v.tReached b.now = false ∨ v.state = .overdue
      ∨ (v.state = .held ∧ v.dReached b.now = false)
      ∨ (v.state = .admitted ∧ v.dReached b.now = false ∧ v.e1Reached b.now = false)
      ∨ (v.state = .committed ∧ v.e1Reached b.now = false)
      ∨ (v.state = .diverted ∧ v.warned b.now ∧ v.v1Reached b.now = false)) : reachT n b = b := by
  have stands (st : VehicleState) (state : v.state = st) (d : serveD n b = b)
      (e1 : v.e1Reached b.now = false ∨ (st ≠ .admitted ∧ st ≠ .committed))
      (v1 : v.v1Reached b.now = false ∨ st ≠ .diverted)
      (moves : st ≠ .onSpan ∧ st ≠ .missing ∧ st ≠ .divertUnconfirmed) : reachT n b = b := by
    subst state
    exact reachT_same h (beforeT_same h d e1 v1) moves.1 moves.2.1 moves.2.2
  rcases quiet with early | state | ⟨state, d⟩ | ⟨state, d, e1⟩ | ⟨state, e1⟩ | ⟨state, warned, v1⟩
  · refine reachT_early fun w found => ?_
    obtain rfl := Option.some.inj (h.symm.trans found)
    exact early
  · exact reachT_same h (beforeT_settled h (.inr (.inl state))) (by rw [state]; nofun) (by rw [state]; nofun)
      (by rw [state]; nofun)
  · exact stands .held state (serveD_early h d) (.inr (by decide)) (.inr (by decide)) (by decide)
  · exact stands .admitted state (serveD_early h d) (.inl e1) (.inr (by decide)) (by decide)
  · refine stands .committed state (serveD_same h (.inr ?_)) (.inl e1) (.inr (by decide)) (by decide)
    exact ⟨by rw [state]; nofun, by rw [state]; nofun, fun diverted => nomatch state.symm.trans diverted⟩
  · exact stands .diverted state (serveD_warned h state warned) (.inr (by decide)) (.inl v1) (by decide)

end

/-- Settles O42, by the record's state. -/
theorem occupancyEnds : Obligations.OccupancyEnds := by
  intro s n b warned
  let outcome (c : Blocks) : Host.Outcome State Fault Refusal := .next (s.became c)
  refine ⟨fun v found t => ⟨fun state => ?_, fun late => ?_⟩, fun quiet => congrArg outcome ?_⟩
  · intro opened flagged
    have moved : opened = b.overdueOpened n v := by
      unfold Blocks.overdueOpened
      cases reserved : v.reserved with
      | false => simp only [opened, reserved]; rfl
      | true => simp only [opened, reserved]; rfl
    have acts := congrArg outcome (reachT_onSpan found t state)
    rw [moved]
    refine ⟨fun alarm load => acts.trans (congrArg outcome (goOverdue_idle found alarm load)),
      fun reserved => acts.trans (congrArg outcome (goOverdue_unreserved found reserved)),
      fun reserved holder distinct rs revokes => ?_⟩
    have numbers : (b.overdueOpened n v).NumbersDistinct := by
      unfold Blocks.overdueOpened
      rw [if_pos reserved]
      exact numbersDistinct_recordNow (f := (·.to .overdue)) distinct n fun _ => rfl
    exact ⟨_, acts.trans (congrArg outcome (goOverdue_sweeps found reserved holder)),
      shortfallSweep_ends numbers revokes⟩
  · intro final
    rcases late with missing | unconfirmed | ⟨admitted, e1⟩ | ⟨diverted, v1, warned⟩
    · refine ⟨_, congrArg outcome (reachT_settledLost found t (.inl missing)), ?_⟩
      have same : final = v.state := by simp only [final, missing]
      rw [same]
      exact retires_evened found
    · refine ⟨_, congrArg outcome (reachT_settledLost found t (.inr unconfirmed)), ?_⟩
      have same : final = v.state := by simp only [final, unconfirmed]
      rw [same]
      exact retires_evened found
    · refine ⟨_, congrArg outcome (reachT_missing found t e1 admitted), ?_⟩
      have same : final = .missing := by
        rcases admitted with state | state
        · simp only [final, state]
        · simp only [final, state]
      rw [same]
      exact retire_retires .lost n (b.onRecord n (·.to .missing))
    · refine ⟨_, congrArg outcome (reachT_unconfirmed found t v1 diverted warned), ?_⟩
      have same : final = .divertUnconfirmed := by simp only [final, diverted]
      rw [same]
      exact retire_retires .lost n (b.onRecord n (·.to .divertUnconfirmed))
  · change reachT n b = b
    cases found : b.record n with
    | none => exact reachT_early fun v some => nomatch found.symm.trans some
    | some v => exact reachT_quiet found (quiet v found)

end Sys2Proof.Machine
